-- ==== Sys2Proof/Word.lean ====
section
/-! DEFINITION. The word types of the FSCE: the byte of a payload and the 64-bit micro-instruction word. -/

namespace Sys2Proof

/-- One payload byte (20_memory.md R60, R61). -/
abbrev Byte := BitVec 8

/-- One micro-store word (30_encoding.md R96). -/
abbrev Word := BitVec 64

/-- A signal-bus key (20_memory.md R62). -/
abbrev Key := BitVec 16

end Sys2Proof
end

