-- ==== Sys2Proof/Syntax.lean ====
section
/-! DEFINITION. The FSCE operation set (30_encoding.md R106): one constructor for each row of opcode_table.json,
in the table's order. Operands are the fields of the word, as the word holds them. -/

namespace Sys2Proof

/-- The 38 operations. The operands of INIT and of the sequencer operations are not bits of a word: they are
registers and inputs held in the state. -/
inductive Instr where
  /-- RESET; `cmd` is the CMD field, which RST = 1 overrides (30_encoding.md R105). -/
  | reset (cmd : BitVec 2)
  /-- INIT (45_engine_tick.md R262). -/
  | init
  /-- TICK (45_engine_tick.md R268). -/
  | tick
  /-- DRAIN (41_dispatcher.md R150). -/
  | drain
  /-- LOOKUP (40_registry_supervisor.md R131). -/
  | lookup
  /-- DISPATCH (41_dispatcher.md R151). -/
  | dispatch
  /-- REARM (41_dispatcher.md R152). -/
  | rearm
  /-- DECODE (41_dispatcher.md R153). -/
  | decode
  /-- SUPERVISE (40_registry_supervisor.md R133). -/
  | supervise
  /-- SUPENT (40_registry_supervisor.md R134). -/
  | supent
  /-- TOFIRE (40_registry_supervisor.md R135). -/
  | tofire
  /-- SCHED (44_scheduler.md R240). -/
  | sched
  /-- BUCKET (44_scheduler.md R242). -/
  | bucket
  /-- ENCODE (43_codec_encode.md R200). -/
  | encode
  /-- LENCHK n (41_dispatcher.md R154). -/
  | lenchk (n : BitVec 16)
  /-- UNPKU byte, nbytes, shift, width (42_codec_decode.md R174). -/
  | unpku (byte nb1 : BitVec 3) (shift w1 : BitVec 6)
  /-- UNPKS byte, nbytes, shift, width (42_codec_decode.md R175). -/
  | unpks (byte nb1 : BitVec 3) (shift w1 : BitVec 6)
  /-- FLGGET byte, bit (42_codec_decode.md R176). -/
  | flgget (byte : BitVec 3) (bit : BitVec 6)
  /-- SCDIV #c (42_codec_decode.md R177). -/
  | scdiv (c : BitVec 16)
  /-- SCMUL #c (42_codec_decode.md R178). -/
  | scmul (c : BitVec 16)
  /-- SBSETV key (42_codec_decode.md R179). -/
  | sbsetv (key : Key)
  /-- SBSETA key (42_codec_decode.md R180). -/
  | sbseta (key : Key)
  /-- STCLR key (42_codec_decode.md R181). -/
  | stclr (key : Key)
  /-- STSET key (40_registry_supervisor.md R136). -/
  | stset (key : Key)
  /-- LDAI imm (42_codec_decode.md R182). -/
  | ldai (imm : BitVec 16)
  /-- LDVC #c (42_codec_decode.md R183). -/
  | ldvc (c : BitVec 16)
  /-- SBGETV key (43_codec_encode.md R201). -/
  | sbgetv (key : Key)
  /-- SBGETA key (43_codec_encode.md R202). -/
  | sbgeta (key : Key)
  /-- CATSEL key, #t (43_codec_encode.md R203). -/
  | catsel (key : Key) (t : BitVec 16)
  /-- UCONV key, #u (43_codec_encode.md R204). -/
  | uconv (key : Key) (u : BitVec 16)
  /-- ENCMUL #c (43_codec_encode.md R205). -/
  | encmul (c : BitVec 16)
  /-- ENCDIV #c (43_codec_encode.md R206). -/
  | encdiv (c : BitVec 16)
  /-- PACKU byte, nbytes, shift, width (43_codec_encode.md R208). -/
  | packu (byte nb1 : BitVec 3) (shift w1 : BitVec 6)
  /-- PACKS byte, nbytes, shift, width (43_codec_encode.md R209). -/
  | packs (byte nb1 : BitVec 3) (shift w1 : BitVec 6)
  /-- FLGPUT byte, bit (43_codec_encode.md R211). -/
  | flgput (byte : BitVec 3) (bit : BitVec 6)
  /-- ROLL r, byte, shift (43_codec_encode.md R212). -/
  | roll (r : BitVec 16) (byte : BitVec 3) (shift : BitVec 6)
  /-- SEND (43_codec_encode.md R213). -/
  | send
  /-- END (42_codec_decode.md R184). -/
  | end_
  deriving DecidableEq, Repr

end Sys2Proof
end

