-- ==== Sys2Proof/WellFormed.lean ====
section
/-! DEFINITION. Which instructions the encoding admits: the range conditions of 30_encoding.md R97 and R109 that a
mask cannot express. (Conditions against the message length, the tables and the key types are checks of INIT,
45_engine_tick.md R265, and stand in Machine/Check.lean.) -/

namespace Sys2Proof

/-- The operand ranges of a legal instruction (30_encoding.md R109): `IMM` at most 8 in format `L`, `SHIFT` at most 7 in
format `B`, `SHIFT` at most 4 in format `R`. Every other operand may take every value of its field. -/
def Instr.wf : Instr → Bool
  | .lenchk n => n.toNat ≤ 8
  | .flgget _ bit => bit.toNat ≤ 7
  | .flgput _ bit => bit.toNat ≤ 7
  | .roll _ _ shift => shift.toNat ≤ 4
  | _ => true

end Sys2Proof
end

