-- ==== Sys2Proof/Decode.lean ====
section
/-! DEFINITION. Decoding and encoding of the three kinds of code the FSCE has: the host command (30_encoding.md R105),
the sequencer phase (R107) and the micro-instruction word (R96 to R98). Decoding is total and rejects by name (R109, R118). -/

namespace Sys2Proof

/-- Why a code is no instruction. -/
inductive Illegal where
  /-- `CMD` = 0: no operation is asked for (R105); safe, the host path answers it. -/
  | noOperation
  /-- `CMD` = 3, reserved (R105, R112). -/
  | reservedCommand
  /-- `PHASE` 0 or 12: no sequencer operation runs (R107). -/
  | noSequencerOperation
  /-- `PHASE` 13 to 15, reserved (R107, R112). -/
  | reservedPhase
  /-- `OP` 0x00 or 0x19 to 0xFF (R109, R110). -/
  | reservedOpcode
  /-- `RSV`, or a field the format does not use, is not zero (R97, R109). -/
  | unusedField
  /-- A used field is outside its format's range (R109). -/
  | fieldRange
  deriving DecidableEq, Repr

/-- A code of the machine, at the place it stands in: the host's command input, the sequencer's phase, the micro-store. -/
inductive Code where
  /-- `RST` ++ `CMD` (R105). -/
  | host (w : BitVec 3)
  /-- `PHASE` (R107). -/
  | phase (w : BitVec 4)
  /-- A micro-store word (R96). -/
  | micro (w : Word)
  deriving DecidableEq, Repr

/-- The fields of a micro-word (R96). -/
structure MicroWord where
  op : BitVec 8
  byte : BitVec 3
  nb1 : BitVec 3
  shift : BitVec 6
  w1 : BitVec 6
  rsv : BitVec 6
  imm : BitVec 16
  key : BitVec 16
  deriving DecidableEq, Repr

/-- The fields taken from a word (R96). -/
def microFields (w : Word) : MicroWord where
  op := w.extractLsb' 56 8
  byte := w.extractLsb' 53 3
  nb1 := w.extractLsb' 50 3
  shift := w.extractLsb' 44 6
  w1 := w.extractLsb' 38 6
  rsv := w.extractLsb' 32 6
  imm := w.extractLsb' 16 16
  key := w.extractLsb' 0 16

/-- The word made of fields (R96). -/
def microBits (m : MicroWord) : Word :=
  m.op ++ m.byte ++ m.nb1 ++ m.shift ++ m.w1 ++ m.rsv ++ m.imm ++ m.key

/-- A word with only its opcode set; the formats fill in the fields they use (R97). -/
def microOp (op : BitVec 8) : MicroWord :=
  { op := op, byte := 0, nb1 := 0, shift := 0, w1 := 0, rsv := 0, imm := 0, key := 0 }

/-- The verdict on a word whose unused fields must be zero and whose used fields must be in range (R109). -/
def accept (unusedZero inRange : Bool) (i : Instr) : Except Illegal Instr :=
  if unusedZero then (if inRange then .ok i else .error .fieldRange) else .error .unusedField

/-- Format `F` (R97). -/
def formatF (m : MicroWord) (k : BitVec 3 → BitVec 3 → BitVec 6 → BitVec 6 → Instr) : Except Illegal Instr :=
  accept (m.rsv == 0 && m.imm == 0 && m.key == 0) true (k m.byte m.nb1 m.shift m.w1)

/-- Format `B` (R97). -/
def formatB (m : MicroWord) (k : BitVec 3 → BitVec 6 → Instr) : Except Illegal Instr :=
  accept (m.rsv == 0 && m.imm == 0 && m.key == 0 && m.nb1 == 0 && m.w1 == 0) (m.shift.toNat ≤ 7) (k m.byte m.shift)

/-- Format `R` (R97): `W1` must be 3. -/
def formatR (m : MicroWord) (k : BitVec 16 → BitVec 3 → BitVec 6 → Instr) : Except Illegal Instr :=
  accept (m.rsv == 0 && m.key == 0 && m.nb1 == 0) (m.w1 == 3 && m.shift.toNat ≤ 4) (k m.imm m.byte m.shift)

/-- The fields that formats `L`, `I`, `C`, `K`, `T` and `Z` leave unused (R97). -/
def noField (m : MicroWord) : Bool :=
  m.rsv == 0 && m.byte == 0 && m.nb1 == 0 && m.shift == 0 && m.w1 == 0

/-- Format `L` (R97). -/
def formatL (m : MicroWord) (k : BitVec 16 → Instr) : Except Illegal Instr :=
  accept (noField m && m.key == 0) (m.imm.toNat ≤ 8) (k m.imm)

/-- Formats `I` and `C` (R97). -/
def formatIC (m : MicroWord) (k : BitVec 16 → Instr) : Except Illegal Instr :=
  accept (noField m && m.key == 0) true (k m.imm)

/-- Format `K` (R97). -/
def formatK (m : MicroWord) (k : Key → Instr) : Except Illegal Instr :=
  accept (noField m && m.imm == 0) true (k m.key)

/-- Format `T` (R97). -/
def formatT (m : MicroWord) (k : Key → BitVec 16 → Instr) : Except Illegal Instr :=
  accept (noField m) true (k m.key m.imm)

/-- Format `Z` (R97). -/
def formatZ (m : MicroWord) (i : Instr) : Except Illegal Instr :=
  accept (noField m && m.imm == 0 && m.key == 0) true i

/-- The instruction a word's fields stand for (R98). -/
def decodeFields (m : MicroWord) : Except Illegal Instr :=
  match m.op.toNat with
  | 0x01 => formatL m .lenchk
  | 0x02 => formatF m .unpku
  | 0x03 => formatF m .unpks
  | 0x04 => formatB m .flgget
  | 0x05 => formatIC m .scdiv
  | 0x06 => formatIC m .scmul
  | 0x07 => formatK m .sbsetv
  | 0x08 => formatK m .sbseta
  | 0x09 => formatK m .stclr
  | 0x0A => formatK m .stset
  | 0x0B => formatIC m .ldai
  | 0x0C => formatIC m .ldvc
  | 0x0D => formatK m .sbgetv
  | 0x0E => formatK m .sbgeta
  | 0x0F => formatT m .catsel
  | 0x10 => formatT m .uconv
  | 0x11 => formatIC m .encmul
  | 0x12 => formatIC m .encdiv
  | 0x13 => formatF m .packu
  | 0x14 => formatF m .packs
  | 0x15 => formatB m .flgput
  | 0x16 => formatR m .roll
  | 0x17 => formatZ m .send
  | 0x18 => formatZ m .end_
  | _ => .error .reservedOpcode

/-- Decoding of a micro-word, total (R118). -/
def decodeMicro (w : Word) : Except Illegal Instr := decodeFields (microFields w)

/-- Decoding of the host command `RST` ++ `CMD` (R105): `RST` = 1 selects RESET whatever `CMD` is. -/
def decodeHost (w : BitVec 3) : Except Illegal Instr :=
  match w.toNat with
  | 0 => .error .noOperation
  | 1 => .ok .init
  | 2 => .ok .tick
  | 3 => .error .reservedCommand
  | _ => .ok (.reset (w.extractLsb' 0 2))

/-- Decoding of the sequencer phase (R107). -/
def decodePhase (w : BitVec 4) : Except Illegal Instr :=
  match w.toNat with
  | 1 => .ok .drain
  | 2 => .ok .lookup
  | 3 => .ok .dispatch
  | 4 => .ok .rearm
  | 5 => .ok .decode
  | 6 => .ok .supervise
  | 7 => .ok .supent
  | 8 => .ok .tofire
  | 9 => .ok .sched
  | 10 => .ok .bucket
  | 11 => .ok .encode
  | 0 => .error .noSequencerOperation
  | 12 => .error .noSequencerOperation
  | _ => .error .reservedPhase

/-- Decoding of any code. -/
def decode : Code → Except Illegal Instr
  | .host w => decodeHost w
  | .phase w => decodePhase w
  | .micro w => decodeMicro w

/-- The code `opcode_table.json` numbers as `w` in `nbits` bits. Host commands have 3 bits and phases 4, and both come
to one byte; in a byte the words 1, 2 and 4 are read as the host commands INIT, TICK and RESET, every other as a phase
(DESIGN CHOICE, log 10). -/
def tableCode (nbits w : Nat) : Code :=
  if nbits = 3 then .host (BitVec.ofNat 3 w)
  else if nbits = 4 then .phase (BitVec.ofNat 4 w)
  else if nbits ≤ 8 then
    (if w = 1 ∨ w = 2 ∨ w = 4 then .host (BitVec.ofNat 3 w)
     else if w < 16 then .phase (BitVec.ofNat 4 w) else .phase 15#4)
  else .micro (BitVec.ofNat 64 w)

/-- The instruction the decoder reads from a word as `opcode_table.json` numbers it. -/
def decodeTableWord (nbits w : Nat) : Option Instr :=
  match decode (tableCode nbits w) with
  | .ok i => some i
  | .error _ => none

/-- The micro-word of an instruction, from the same tables (R97, R98); the host and sequencer operations have none. -/
def microWordOf : Instr → Option MicroWord
  | .lenchk n => some { microOp 0x01 with imm := n }
  | .unpku b n s w => some { microOp 0x02 with byte := b, nb1 := n, shift := s, w1 := w }
  | .unpks b n s w => some { microOp 0x03 with byte := b, nb1 := n, shift := s, w1 := w }
  | .flgget b s => some { microOp 0x04 with byte := b, shift := s }
  | .scdiv c => some { microOp 0x05 with imm := c }
  | .scmul c => some { microOp 0x06 with imm := c }
  | .sbsetv k => some { microOp 0x07 with key := k }
  | .sbseta k => some { microOp 0x08 with key := k }
  | .stclr k => some { microOp 0x09 with key := k }
  | .stset k => some { microOp 0x0A with key := k }
  | .ldai c => some { microOp 0x0B with imm := c }
  | .ldvc c => some { microOp 0x0C with imm := c }
  | .sbgetv k => some { microOp 0x0D with key := k }
  | .sbgeta k => some { microOp 0x0E with key := k }
  | .catsel k t => some { microOp 0x0F with imm := t, key := k }
  | .uconv k u => some { microOp 0x10 with imm := u, key := k }
  | .encmul c => some { microOp 0x11 with imm := c }
  | .encdiv c => some { microOp 0x12 with imm := c }
  | .packu b n s w => some { microOp 0x13 with byte := b, nb1 := n, shift := s, w1 := w }
  | .packs b n s w => some { microOp 0x14 with byte := b, nb1 := n, shift := s, w1 := w }
  | .flgput b s => some { microOp 0x15 with byte := b, shift := s }
  | .roll r b s => some { microOp 0x16 with byte := b, shift := s, w1 := 3, imm := r }
  | .send => some (microOp 0x17)
  | .end_ => some (microOp 0x18)
  | .reset _ | .init | .tick | .drain | .lookup | .dispatch | .rearm | .decode | .supervise | .supent | .tofire
  | .sched | .bucket | .encode => none

/-- The code of a host or sequencer operation (R105, R107); the micro-instructions have none of their own here. -/
def shortCodeOf : Instr → Code
  | .reset cmd => .host (1#1 ++ cmd)
  | .init => .host 1
  | .tick => .host 2
  | .drain => .phase 1
  | .lookup => .phase 2
  | .dispatch => .phase 3
  | .rearm => .phase 4
  | .decode => .phase 5
  | .supervise => .phase 6
  | .supent => .phase 7
  | .tofire => .phase 8
  | .sched => .phase 9
  | .bucket => .phase 10
  | .encode => .phase 11
  | _ => .phase 0

/-- The code of an instruction. -/
def encode (i : Instr) : Code :=
  match microWordOf i with
  | some m => .micro (microBits m)
  | none => shortCodeOf i

end Sys2Proof
end

