-- ==== Sys2Proof/Machine/Bits.lean ====
section
/-! DEFINITION. Integers, extension and byte order (00_scope.md R10 to R13). -/

namespace Sys2Proof.Machine

/-- `zext_n(v)` (00_scope.md R11). -/
def zext (n v : Nat) : Nat := v % 2 ^ n

/-- `sext_n(v)` (00_scope.md R11): two's complement. -/
def sext (n v : Nat) : Int :=
  let p := zext n v
  if p < 2 ^ (n - 1) then (p : Int) else (p : Int) - (2 ^ n : Nat)

/-- `x mod m` of an integer, in 0 to m-1 (00_scope.md R10). -/
def modPow (x : Int) (w : Nat) : Nat := (x % ((2 ^ w : Nat) : Int)).toNat

/-- `byte_i(v)` (00_scope.md R12). -/
def byteOf (v i : Nat) : Byte := BitVec.ofNat 8 (v >>> (8 * i))

/-- `trunc(x)`, round toward zero (00_scope.md R13). -/
def trunc (q : Rat) : Int := q.num.tdiv q.den

/-- `MemRead` (00_scope.md R14): n bytes from offset `a`, the byte at the lowest offset least significant (R12, R67). -/
def memRead (space : Nat → Byte) (a : Nat) : Nat → Nat
  | 0 => 0
  | n + 1 => (space a).toNat + 256 * memRead space (a + 1) n

end Sys2Proof.Machine
end

