-- ==== Sys2Proof/Config.lean ====
section
/-! DEFINITION. What an implementation fixes: the default parameters of 00_scope.md R8, and the free values (opaque
constants without a body: a statement about one holds whatever it is). -/

namespace Sys2Proof.Config

/-- Default `CNT_W` (00_scope.md R8, D7). -/
def cntW : Nat := 16

/-- Default `TICK_MOD` (00_scope.md R8, D11). -/
def tickMod : Nat := 65536

/-- Width of `A`, `A_W` (00_scope.md R8). -/
def aW : Nat := 64

/-- The rounding of another implementation when a real signal is written, one function for each number: free,
constrained only by `NUM_EXACT_DYADIC` where it is used (42_codec_decode.md R179). Log 11. -/
opaque storeReal : Nat → Rat → Rat

/-- The quantisation of another implementation, one function for each number: free, constrained only by
`NUM_QUANT_STEP` where it is used (43_codec_encode.md R205). Log 11. -/
opaque quant : Nat → Rat → Int

/-- The code of the n-th answer of `send()` that no listed answer gives: any of the four statuses
(93_implementation_defined.md U20). Log 6. -/
opaque sendAnswer : Nat → BitVec 2

/-- What the environment left at an `INT` key that nothing listed in the model has written: any value of the
type (93_implementation_defined.md U21). Log 4. -/
opaque busInt : Key → BitVec 64

/-- The same at a `REAL` key (93_implementation_defined.md U21). Log 4. -/
opaque busReal : Key → Rat

end Sys2Proof.Config
end

