-- ==== Sys2Proof/Machine/State.lean ====
section
/-! DEFINITION. The state of the FSCE: plain data, every register of 10_state.md R21 to R57, the inputs of a step
(R46 to R52) and the event list (R51). -/

namespace Sys2Proof.Machine

/-! ## Codes and small sets of names (10_state.md R36, R41, R43, R44; 30_encoding.md R107, R108) -/

/-- `ENGSTATE`; the reserved code 3 is unrepresentable (93_implementation_defined.md U14). -/
inductive EngState where
  | unconfig | run | cfgerr
  deriving DecidableEq, Repr

/-- `INITSTAT`. -/
inductive InitStat where
  | noinit | initOk | cfgdup | cfgbad
  deriving DecidableEq, Repr

/-- `PHASE`; the reserved codes 13 to 15 are unrepresentable (U14). -/
inductive Phase where
  | idle | drain | lookup | dispatch | rearm | decode | supervise | supent | tofire | sched | bucket | encode | initp
  deriving DecidableEq, Repr

/-- `HK`, the kind of a handler; the reserved code 3 is unrepresentable (U14). -/
inductive HandlerKind where
  | decode | timeout | encode
  deriving DecidableEq, Repr

/-- The answer of `send()` (10_state.md R48). -/
inductive SendStatus where
  | ok | bufferFull | invalidValue | error
  deriving DecidableEq, Repr

/-- `OVF_POLICY` (00_scope.md R8, 43_codec_encode.md R210). -/
inductive OvfPolicy where
  | wrap | saturate | fault
  deriving DecidableEq, Repr

/-- The type of a signal (10_state.md R29). -/
inductive SigType where
  | int | real
  deriving DecidableEq, Repr

/-- `NUM.store_real` (00_scope.md R8): the identity, or the n-th free function with the property `NUM_EXACT_DYADIC`
(log 11). -/
inductive StoreReal where
  | exact | impl (n : Nat)
  deriving DecidableEq, Repr

/-- `NUM.quant` (00_scope.md R8): truncation toward zero, or the n-th free function with the property `NUM_QUANT_STEP`
(log 11). -/
inductive Quant where
  | trunc | impl (n : Nat)
  deriving DecidableEq, Repr

/-! ## The frame (30_encoding.md R90 to R92) -/

/-- Identifier and addressing mode: 11 bits when standard, 29 when extended, so that an ill-formed pair is
unrepresentable (30_encoding.md R92). -/
inductive Ident where
  | std (id : BitVec 11)
  | ext (id : BitVec 29)
  deriving DecidableEq, Repr

/-- A frame record (30_encoding.md R90); `LEN` is 0..8 by its type (R92, U14). -/
structure Frame where
  ident : Ident
  rtr : Bool
  len : Fin 9
  payload : Vector Byte 8
  deriving DecidableEq, Repr

/-! ## The configuration image (10_state.md R21 to R31) -/

/-- `CFG.REG[i]` (R22). Fields that a check of 45_engine_tick.md R264 bounds are unbounded here (log 12). -/
structure RegEntry where
  id : Nat
  ide : Bool
  reload : Int
  decAddr : Nat
  toAddr : Nat
  deriving DecidableEq, Repr

/-- `CFG.ENC[e]` (R23). -/
structure EncEntry where
  id : Nat
  ide : Bool
  dlc : Nat
  base : Nat
  deriving DecidableEq, Repr

/-- `CFG.BKT[b]` (R24); `NLIST` has 16 bits (30_encoding.md R95). -/
structure Bucket where
  per : Nat
  list : List Nat
  listLe : list.length ≤ 65535 := by decide
  deriving DecidableEq, Repr

/-- `CFG.CPOOL[c]` (R26): the rational `NUM/DEN`, `NUM` signed. -/
structure PoolEntry where
  num : BitVec 32
  den : BitVec 32
  deriving DecidableEq, Repr

/-- A candidate of a categorical table (R27). -/
structure Cand where
  key : Key
  cidx : BitVec 16
  deriving DecidableEq, Repr

/-- `CFG.CATT[t]` (R27); `N`, 0 to 255, is the number of candidates. -/
structure CatTable where
  cand : List Cand
  dflt : Cand
  candLe : cand.length ≤ 255 := by decide
  deriving DecidableEq, Repr

/-- `CFG.UCT[u]` (R28). -/
structure UnitConv where
  c0 : BitVec 16
  c1 : BitVec 16
  deriving DecidableEq, Repr

/-- An (identifier, addressing mode) pair of a filter list (R30). -/
structure RawIdent where
  id : Nat
  ide : Bool
  deriving DecidableEq, Repr

/-- `CFG.FILT` element (R30); the number of identifiers has 8 bits (30_encoding.md R102). -/
structure FilterBank where
  bank : BitVec 8
  ids : List RawIdent
  idsLe : ids.length ≤ 255 := by decide
  deriving DecidableEq, Repr

/-- `CFG` (R21). `N_REG`, `N_ENC`, `N_BKT`, `UC_SIZE`, `N_CPOOL`, `N_CATT`, `N_UCT` (R31) are the lengths of the tables, within
the limits of 00_scope.md R8 by construction; `UC_SIZE` and the parameters below it are what `WF_PARAM` checks (log 12). -/
structure Cfg where
  reg : List RegEntry := []
  enc : List EncEntry := []
  bkt : List Bucket := []
  uc : List Word := []
  cpool : List PoolEntry := []
  catt : List CatTable := []
  uct : List UnitConv := []
  ktype : List (Key × SigType) := []
  filt : List FilterBank := []
  nRoll : Nat := 0
  regLe : reg.length ≤ 65535 := by decide
  encLe : enc.length ≤ 65535 := by decide
  bktLe : bkt.length ≤ 255 := by decide
  cpoolLe : cpool.length ≤ 65536 := by decide
  cattLe : catt.length ≤ 65536 := by decide
  uctLe : uct.length ≤ 65536 := by decide
  nRollLe : nRoll ≤ 65535 := by decide
  cntW : Nat := Config.cntW
  tickMod : Nat := Config.tickMod
  ovfPolicy : OvfPolicy := .wrap
  storeReal : StoreReal := .exact
  quant : Quant := .trunc
  deriving DecidableEq, Repr

/-! ## Registers -/

/-- `HIT` when it is not `NONE` (10_state.md R35). -/
inductive Hit where
  | miss | found (i : Nat)
  deriving DecidableEq, Repr

/-- `TXSTAT[e]` (10_state.md R40). -/
structure TxStat where
  valid : Bool
  code : SendStatus
  deriving DecidableEq, Repr

/-- A byte space: offsets and bytes, canonical (see `Memory.wf` in Machine/Ops.lean). -/
abbrev Memory := List Host.Cell

/-- A typed value of the signal bus (00_scope.md R15): `Int(i)`, i of 64 bits signed, or `Real(q)`. -/
inductive SigVal where
  | int (i : BitVec 64)
  | real (q : Rat)
  deriving DecidableEq, Repr

/-- The listed content of the signal bus, canonical (see `Bus.wf` in Machine/Ops.lean). -/
abbrev Bus := List (Key × SigVal)

/-! ## Events (10_state.md R51, 60_exceptions.md R280) -/

/-- A condition with its information (60_exceptions.md R280). -/
inductive Cond where
  | unreg (id : Nat) (ide : Bool)
  | lenmis (id : Nat) (ide : Bool) (len n : Nat)
  | timeout (i : Nat)
  | txdrop (e : Nat) (st : SendStatus)
  | cfgdup
  | cfgbad
  | packovf (e upc : Nat)
  | range (e upc : Nat)
  deriving DecidableEq, Repr

/-- One entry of the event list (10_state.md R51). -/
inductive Event where
  /-- `Recv(answer)`: a frame, or `none` for `Empty`. -/
  | recv (answer : Option Frame)
  | send (f : Frame) (st : SendStatus)
  | cfgFilt (bank : BitVec 8) (ids : List RawIdent)
  | get (k : Key) (v : SigVal)
  | set (k : Key) (v : SigVal)
  | cond (c : Cond)
  deriving DecidableEq, Repr

/-! ## The inputs of a step (10_state.md R46 to R52, 20_memory.md R78) -/

/-- One command of the host, with what the environment contributes to that operation (log 7): the command word
`RST` ++ `CMD` (30_encoding.md R105), the operand of INIT, the signal-bus keys the environment set since the operation
before, the frames `recv()` returns before `Empty`, and the answers of `send()` in order. -/
structure HostRequest where
  word : BitVec 3
  cfg : Cfg := {}
  busWrites : List (Key × SigVal) := []
  rx : List Frame := []
  tx : List SendStatus := []
  deriving DecidableEq, Repr

/-- The state. `none` stands for the spec's `NONE` (00_scope.md R19). -/
structure State where
  /-- `ENGSTATE` (10_state.md R36). -/
  engstate : EngState
  /-- `INITSTAT` (R41). -/
  initstat : InitStat
  /-- `TICKCNT` (R38). -/
  tickcnt : Nat
  /-- `CFG` (R21; log 1). -/
  cfg : Option Cfg
  /-- `CNT` (R37). -/
  cnt : Option (List Int)
  /-- `ROLLCNT` (R39). -/
  rollcnt : Option (List (BitVec 4))
  /-- `TXSTAT` (R40). -/
  txstat : Option (List TxStat)
  /-- `A`, 64 bits signed (R33). -/
  a : Option (BitVec 64)
  /-- `V`, an exact rational (R34). -/
  v : Option Rat
  /-- `FRX` (R35). -/
  frx : Option Frame
  /-- `HIT` (R35). -/
  hit : Option Hit
  /-- `TXB` (R35). -/
  txb : Memory
  /-- `PHASE` (R43). -/
  phase : Phase
  /-- `I` (R43). -/
  idxI : Option Nat
  /-- `B` (R43). -/
  idxB : Option Nat
  /-- `J` (R43). -/
  idxJ : Option Nat
  /-- `E` (R43). -/
  idxE : Option Nat
  /-- `UPC` (R44). -/
  upc : Option Nat
  /-- `HK` (R44). -/
  hk : Option HandlerKind
  /-- The signal bus (20_memory.md R62). -/
  sb : Bus
  /-- The host's commands not yet taken (log 7). -/
  inputs : List HostRequest
  /-- The operand of INIT (45_engine_tick.md R262; log 7). -/
  cfgIn : Cfg
  /-- The frames `recv()` still returns before `Empty` (41_dispatcher.md R159). -/
  rx : List Frame
  /-- The answers `send()` still returns before free ones (43_codec_encode.md R213; log 6). -/
  tx : List SendStatus
  /-- The event list of the latest host operation (R51; log 15). -/
  events : List Event
  /-- How many free answers of `send()` were taken (the model's own; log 6). -/
  freeCtr : Nat
  deriving DecidableEq, Repr

/-! ## Why a step stops -/

/-- A register that can hold `NONE` (00_scope.md R19). -/
inductive NoneReg where
  | a | v | frx | hit | cfg | cnt | rollcnt | txstat | i | b | j | e | upc
  deriving DecidableEq, Repr

/-- A table or array addressed by index (20_memory.md R63, R64). -/
inductive Space where
  | reg | enc | bkt | list | uc | cpool | catt | uct | cnt | rollcnt | txstat
  deriving DecidableEq, Repr

/-- Faults: the run is marked failed and has no result state (00_scope.md R20). -/
inductive Fault where
  /-- ENCMUL, ENCDIV: a quantised value outside 64 bits (43_codec_encode.md R217, 60_exceptions.md R288). The spec's own
  fault: safe. -/
  | range (e upc : Nat)
  /-- PACKU, PACKS under `OVF_POLICY` = `fault` (43_codec_encode.md R210, 60_exceptions.md R287). The spec's own: safe. -/
  | packOverflow (e upc : Nat)
  /-- Any operation that reads a register holding `NONE` (00_scope.md R19, U17). The spec's own: safe. -/
  | readNone (r : NoneReg)
  /-- An index outside its table or array; the checks of INIT exclude it (45_engine_tick.md R265). Safe. -/
  | noSuchIndex (t : Space) (i : Nat)
  /-- A payload access or field that does not exist (00_scope.md R14, 42_codec_decode.md R173); excluded by `WF_FIELD`. Safe. -/
  | noSuchField
  /-- SCDIV, ENCDIV by zero; excluded by `WF_CONST` (42_codec_decode.md R177). Safe. -/
  | zeroDivisor
  /-- A reserved value in the configuration: a pool entry with `DEN` = 0, an encoder whose frame would be ill-formed
  (30_encoding.md R92, R112); excluded by `WF_POOL`, `WF_DLC`, `WF_ID`. Safe. -/
  | reservedValue
  /-- REARM, DECODE with `HIT` = `Miss`, which names no entry (41_dispatcher.md R151, R152). Safe. -/
  | noEntry
  deriving DecidableEq, Repr

/-- Refusals: the command or configuration is not admitted, there is no successor state (00_scope.md R20). -/
inductive Refusal where
  /-- exec, for an instruction that has no meaning yet. Safe. -/
  | notModelled (mnemonic : String)
  /-- INIT outside `UNCONFIG`, TICK outside `RUN` (45_engine_tick.md R270, U10). The spec's own: safe. -/
  | notAdmitted
  /-- `CMD` = 3 (45_engine_tick.md R270, 30_encoding.md R112). The spec's own: safe. -/
  | reservedCommand
  /-- The fetch of a micro-word that is no instruction; INIT refuses a handler that holds one (30_encoding.md R109, U12). Safe. -/
  | illegalWord
  /-- A value of another type than its key's: TICK on a signal bus that holds one at a declared key, SBGETV, SBGETA, CATSEL, UCONV
  that find one, and SBGETA, CATSEL, UCONV at a key declared `REAL`. Outside the signal bus's contract
  (93_implementation_defined.md U22, 60_exceptions.md R303). Safe. -/
  | busType (k : Key)
  /-- A get of a key that the configuration does not declare (20_memory.md R76). Safe. -/
  | undeclaredKey (k : Key)
  /-- The micro-sequencer given a host or sequencer operation, which no micro-word decodes to. Safe. -/
  | notMicro
  deriving DecidableEq, Repr

/-- Right after RESET (10_state.md R54, 45_engine_tick.md R261). `TXB`, which R54 leaves unspecified, is all zero (DESIGN CHOICE,
log 3); the signal bus lists nothing (log 4) and the environment has supplied nothing (log 7). -/
def State.reset : State where
  engstate := .unconfig
  initstat := .noinit
  tickcnt := 0
  cfg := none
  cnt := none
  rollcnt := none
  txstat := none
  a := none
  v := none
  frx := none
  hit := none
  txb := []
  phase := .idle
  idxI := none
  idxB := none
  idxJ := none
  idxE := none
  upc := none
  hk := none
  sb := []
  inputs := []
  cfgIn := {}
  rx := []
  tx := []
  events := []
  freeCtr := 0

end Sys2Proof.Machine
end

