-- ==== Sys2Proof/Machine/Ops.lean ====
section
/-! DEFINITION. The named operations over memory, signal bus, registers and interfaces that every meaning is made of.
The FSCE has no trap entry and no trap return (60_exceptions.md R291, R292); what it has instead is `State.raise`, the one
operation by which a condition is recorded (00_scope.md R17), and the start and end of a handler run. -/

namespace Sys2Proof.Machine

/-- What a step, an operation or an instruction answers. -/
abbrev Out := Host.Outcome State Fault Refusal

/-- One operation after another: the second runs where the first completes (20_memory.md R77). -/
def andThen (o : Out) (k : State → Out) : Out :=
  match o with
  | .next s => k s
  | .fault r => .fault r
  | .refused r => .refused r

/-! ## The transmit buffer (20_memory.md R61) -/

/-- The byte at an offset; an offset with nothing listed holds 0, what ENCODE clears the buffer to (43_codec_encode.md R200). -/
def Memory.read (m : Memory) (a : Nat) : Byte :=
  match m with
  | [] => 0
  | (a', b) :: m' => if a' = a then b else Memory.read m' a

/-- The list with the byte `b` at offset `a`: offsets stay in rising order, and a zero byte is not listed. -/
def Memory.insert (m : Memory) (a : Nat) (b : Byte) : Memory :=
  match m with
  | [] => if b = 0 then [] else [(a, b)]
  | (a', b') :: m' =>
    if a' < a then (a', b') :: Memory.insert m' a b
    else if a' = a then (if b = 0 then m' else (a, b) :: m')
    else if b = 0 then (a', b') :: m' else (a, b) :: (a', b') :: m'

/-- Writes one byte; a zero byte removes its entry, so that equal contents are equal data. -/
def Memory.write (m : Memory) (a : Nat) (b : Byte) : Memory := Memory.insert m a b

/-- Offsets strictly rising from `lo`, below 8, and no entry that holds 0. -/
def Memory.wfFrom (lo : Nat) : Memory → Bool
  | [] => true
  | (a, b) :: m => lo ≤ a && a < 8 && b != 0 && Memory.wfFrom (a + 1) m

/-- The canonical form of the transmit buffer. -/
def Memory.wf (m : Memory) : Bool := Memory.wfFrom 0 m

/-- `MemWrite` (00_scope.md R14): n bytes of `v` from offset `a`, little-endian (20_memory.md R67). -/
def memWrite (m : Memory) (a : Nat) : Nat → Nat → Memory
  | 0, _ => m
  | n + 1, v => memWrite (Memory.write m a (BitVec.ofNat 8 v)) (a + 1) n (v / 256)

/-! ## The frame (30_encoding.md R90, R92) -/

/-- `ID` as a number. -/
def Ident.id : Ident → Nat
  | .std i => i.toNat
  | .ext i => i.toNat

/-- `IDE`: 0 (false) standard, 1 (true) extended. -/
def Ident.ide : Ident → Bool
  | .std _ => false
  | .ext _ => true

/-- The pair (`ID`, `IDE`) as a frame carries it, where it is well-formed (30_encoding.md R92). -/
def Ident.ofRaw (id : Nat) (ide : Bool) : Option Ident :=
  if ide then (if id < 2 ^ 29 then some (.ext (BitVec.ofNat 29 id)) else none)
  else (if id < 2 ^ 11 then some (.std (BitVec.ofNat 11 id)) else none)

/-- The space `RXP` (20_memory.md R60). -/
def Frame.space (f : Frame) (a : Nat) : Byte := f.payload.getD a 0

/-! ## The signal bus (20_memory.md R62, R66) -/

/-- The listed value at a key. -/
def Bus.find (sb : Bus) (k : Key) : Option SigVal :=
  match sb with
  | [] => none
  | (k', v) :: sb' => if k' = k then some v else Bus.find sb' k

/-- `SBSet`: makes `v` the value at `k`, no other key changes (20_memory.md R66). -/
def Bus.put (sb : Bus) (k : Key) (v : SigVal) : Bus :=
  match sb with
  | [] => [(k, v)]
  | (k', v') :: sb' =>
    if k'.toNat < k.toNat then (k', v') :: Bus.put sb' k v
    else if k' = k then (k, v) :: sb'
    else (k, v) :: (k', v') :: sb'

/-- Keys strictly rising from `lo`. -/
def Bus.wfFrom (lo : Nat) : Bus → Bool
  | [] => true
  | (k, _) :: sb => lo ≤ k.toNat && Bus.wfFrom (k.toNat + 1) sb

/-- The canonical form of the signal bus: keys strictly rising. An unlisted key reads as a free value, which no listed value
is known to equal (log 4). -/
def Bus.wf (sb : Bus) : Bool := Bus.wfFrom 0 sb

/-- `val` (00_scope.md R15). -/
def SigVal.val : SigVal → Rat
  | .int i => (i.toInt : Rat)
  | .real q => q

/-- The type of a value (00_scope.md R15). -/
def SigVal.type : SigVal → SigType
  | .int _ => .int
  | .real _ => .real

/-- `CFG.KTYPE[k]`, `none` where the key is not declared (30_encoding.md R102); the first declaration counts (log 12). -/
def keyType (kt : List (Key × SigType)) (k : Key) : Option SigType :=
  match kt with
  | [] => none
  | (k', t) :: kt' => if k' = k then some t else keyType kt' k

/-- What the environment left at a key that nothing listed has written: a free value of its type (U21, log 4). -/
def unwritten (t : SigType) (k : Key) : SigVal :=
  match t with
  | .int => .int (Config.busInt k)
  | .real => .real (Config.busReal k)

/-- What a declared key holds: the latest value written, else a free one of its type (20_memory.md R66). -/
def busContent (sb : Bus) (k : Key) (t : SigType) : SigVal := (Bus.find sb k).getD (unwritten t k)

/-- The value at a key, of the type the configuration gives the key (20_memory.md R62); `none` where the key is not declared, or
where what it holds is of another type (93_implementation_defined.md U22, log 5). -/
def busValue (c : Cfg) (sb : Bus) (k : Key) : Option SigVal :=
  match keyType c.ktype k with
  | none => none
  | some t => if (busContent sb k t).type = t then some (busContent sb k t) else none

/-- A declared key that holds a value of another type than its own; `none` where the signal bus keeps its contract
(60_exceptions.md R303). -/
def mistypedKey (c : Cfg) (sb : Bus) : Option Key :=
  (c.ktype.find? fun kt => (busValue c sb kt.1).isNone).map Prod.fst

/-! ## Updates of the state -/

/-- Records one entry of the event list, the latest last (10_state.md R51, 20_memory.md R77). -/
def State.log (s : State) (e : Event) : State := { s with events := s.events ++ [e] }

/-- `raise <Condition>(info)`: records the condition and changes nothing else (00_scope.md R17). -/
def State.raise (s : State) (c : Cond) : State := s.log (.cond c)

/-- The sequencer is running the operation of this phase (10_state.md R43). -/
def State.enter (s : State) (p : Phase) : State := { s with phase := p }

/-- The start of a handler run (42_codec_decode.md R170). -/
def State.startRun (s : State) (k : HandlerKind) (base : Nat) : State :=
  { s with hk := some k, upc := some base, a := none, v := none }

/-- The end of a handler run (42_codec_decode.md R170, R172): no register of the run keeps a value. -/
def State.endRun (s : State) : State := { s with hk := none, upc := none, a := none, v := none }

/-- `A <- x` (10_state.md R33). -/
def State.setA (s : State) (x : BitVec 64) : State := { s with a := some x }

/-- `V <- q` (10_state.md R34). -/
def State.setV (s : State) (q : Rat) : State := { s with v := some q }

/-- `TXB <- m` (10_state.md R35). -/
def State.setTxb (s : State) (m : Memory) : State := { s with txb := m }

/-- `SBSet(k, v)` with its event (00_scope.md R15, 10_state.md R51). -/
def State.busSet (s : State) (k : Key) (v : SigVal) : State :=
  State.log { s with sb := Bus.put s.sb k v } (.set k v)

/-- All registers as RESET leaves them (10_state.md R54); the signal bus and the inputs are not the FSCE's to reset. -/
def State.clearRegs (s : State) : State :=
  { s with engstate := .unconfig, initstat := .noinit, tickcnt := 0, cfg := none, cnt := none, rollcnt := none,
           txstat := none, a := none, v := none, frx := none, hit := none, txb := [], phase := .idle,
           idxI := none, idxB := none, idxJ := none, idxE := none, upc := none, hk := none }

/-! ## Reads: a register that holds `NONE` gives a fault (00_scope.md R19) -/

/-- A register's content, or the fault of reading `NONE`. -/
def need {α : Type} (r : NoneReg) (x : Option α) (k : α → Out) : Out :=
  match x with
  | none => .fault (.readNone r)
  | some y => k y

/-- An element of a table, or the fault of an index outside it. -/
def index {α : Type} (t : Space) (l : List α) (i : Nat) (k : α → Out) : Out :=
  match l[i]? with
  | none => .fault (.noSuchIndex t i)
  | some y => k y

/-- The index in `HIT`, which must be `Found` (41_dispatcher.md R151). -/
def needFound (s : State) (k : Nat → Out) : Out :=
  need .hit s.hit fun h =>
    match h with
    | .found i => k i
    | .miss => .fault .noEntry

/-- `CNT[i] <- x` (10_state.md R37). -/
def writeCnt (s : State) (i : Nat) (x : Int) : Out :=
  need .cnt s.cnt fun cnt =>
    index .cnt cnt i fun _ => .next { s with cnt := some (cnt.set i x) }

/-- `UPC <- UPC + 1`, the end of every micro-instruction that does not end the run (10_state.md R44). -/
def advance (s : State) : Out :=
  need .upc s.upc fun u => .next { s with upc := some (u + 1) }

/-- `SBGet(k)` with its event (00_scope.md R15, 10_state.md R51); a get outside the contract of the signal bus is refused
(20_memory.md R76, 60_exceptions.md R303, U22; log 5). -/
def busGet (s : State) (k : Key) (f : SigVal → State → Out) : Out :=
  need .cfg s.cfg fun c =>
    match busValue c s.sb k with
    | some v => f v (s.log (.get k v))
    | none => .refused (if keyType c.ktype k = none then .undeclaredKey k else .busType k)

/-- `SBGet(k)` where the value must be an `Int` (43_codec_encode.md R202 to R204; U22). -/
def busGetInt (s : State) (k : Key) (f : Int → State → Out) : Out :=
  busGet s k fun v s' =>
    match v with
    | .int i => f i.toInt s'
    | .real _ => .refused (.busType k)

/-- A status by its code (30_encoding.md R108). -/
def SendStatus.ofCode (c : BitVec 2) : SendStatus :=
  match c.toNat with
  | 0 => .ok
  | 1 => .bufferFull
  | 2 => .invalidValue
  | _ => .error

/-- The answer of the next `send()`: the next one listed, else a free one (43_codec_encode.md R213, U20, log 6). -/
def nextAnswer (s : State) : SendStatus × State :=
  match s.tx with
  | st :: rest => (st, { s with tx := rest })
  | [] => (SendStatus.ofCode (Config.sendAnswer s.freeCtr), { s with freeCtr := s.freeCtr + 1 })

end Sys2Proof.Machine
end

