-- ==== Sys2Proof/Machine/Operands.lean ====
section
/-! DEFINITION. The operand forms: fields of a payload (30_encoding.md R103, 42_codec_decode.md R173, 43_codec_encode.md
R207), constants (10_state.md R26), immediates (30_encoding.md R104), and the two numeric parameters (00_scope.md R13). -/

namespace Sys2Proof.Machine

/-- A field of a payload: byte offset, container size, shift and width, as their true values (30_encoding.md R103). -/
structure FieldSpec where
  o : Nat
  nb : Nat
  s : Nat
  w : Nat
  deriving DecidableEq, Repr

/-- Format `F` (30_encoding.md R96, R103): `NB` = `NB1` + 1, `W` = `W1` + 1. -/
def fieldF (byte nb1 : BitVec 3) (shift w1 : BitVec 6) : FieldSpec :=
  { o := byte.toNat, nb := nb1.toNat + 1, s := shift.toNat, w := w1.toNat + 1 }

/-- Format `B` (30_encoding.md R103): one bit of one byte. -/
def fieldB (byte : BitVec 3) (bit : BitVec 6) : FieldSpec :=
  { o := byte.toNat, nb := 1, s := bit.toNat, w := 1 }

/-- Format `R` (30_encoding.md R103): four bits of one byte. -/
def fieldR (byte : BitVec 3) (shift : BitVec 6) : FieldSpec :=
  { o := byte.toNat, nb := 1, s := shift.toNat, w := 4 }

/-- The field lies in its container and the container in the payload (42_codec_decode.md R173, 20_memory.md R70). -/
def FieldSpec.fits (p : FieldSpec) : Bool := p.s + p.w ≤ 8 * p.nb && p.o + p.nb ≤ 8

/-- `field(S, o, NB, s, W)` (42_codec_decode.md R173). -/
def field (space : Nat → Byte) (p : FieldSpec) : Nat := (memRead space p.o p.nb >>> p.s) % 2 ^ p.w

/-- `insert(S, o, NB, s, W, x)` (43_codec_encode.md R207): clears the field's bits, then puts the low W bits of x. -/
def insertField (m : Memory) (p : FieldSpec) (x : Int) : Memory :=
  let old := memRead (Memory.read m) p.o p.nb
  let mask := (2 ^ p.w - 1) <<< p.s
  memWrite m p.o p.nb ((old - (old &&& mask)) + (modPow x p.w <<< p.s))

/-- The field of the received payload (`RXP`), where it exists. -/
def rxField (s : State) (p : FieldSpec) (k : Nat → Out) : Out :=
  need .frx s.frx fun f => if p.fits then k (field f.space p) else .fault .noSuchField

/-- Puts x into a field of the transmit buffer (`TXP`), where it exists, and goes on. -/
def txInsert (s : State) (p : FieldSpec) (x : Int) (k : State → Out) : Out :=
  if p.fits then k (s.setTxb (insertField s.txb p x)) else .fault .noSuchField

/-- `CPOOL[c]` (10_state.md R26): the rational `NUM/DEN`. -/
def PoolEntry.value (p : PoolEntry) : Rat := mkRat p.num.toInt p.den.toNat

/-- The constant a format `C` instruction names; `DEN` = 0 is reserved (30_encoding.md R99, R112). -/
def constant (s : State) (c : BitVec 16) (k : Rat → Out) : Out :=
  need .cfg s.cfg fun cfg => index .cpool cfg.cpool c.toNat fun p =>
    if p.den = 0 then .fault .reservedValue else k p.value

/-- A constant that divides (42_codec_decode.md R177, 43_codec_encode.md R206). -/
def divisor (s : State) (c : BitVec 16) (k : Rat → Out) : Out :=
  constant s c fun q => if q = 0 then .fault .zeroDivisor else k q

/-- q = n/2^j with |n| < 2^24 and 0 <= j <= 24: the arguments `NUM_EXACT_DYADIC` speaks of (42_codec_decode.md R179). -/
def exactDyadic (q : Rat) : Bool := 2 ^ 24 % q.den == 0 && q.num.natAbs < 2 ^ 24

/-- `NUM.store_real` (00_scope.md R8, R13): whatever it is, it keeps the arguments of `NUM_EXACT_DYADIC` (42_codec_decode.md R179). -/
def StoreReal.apply (f : StoreReal) (q : Rat) : Rat :=
  match f with
  | .exact => q
  | .impl n => if exactDyadic q then q else Config.storeReal n q

/-- |n - q| < 1: `NUM_QUANT_STEP` at one point (43_codec_encode.md R205). -/
def withinStep (n : Int) (q : Rat) : Bool := (n : Rat) - q < 1 && q - (n : Rat) < 1

/-- `NUM.quant` (00_scope.md R8, R13): whatever it is, it stays within `NUM_QUANT_STEP` (43_codec_encode.md R205). -/
def Quant.apply (f : Quant) (q : Rat) : Int :=
  match f with
  | .trunc => Sys2Proof.Machine.trunc q
  | .impl n => if withinStep (Config.quant n q) q then Config.quant n q else Sys2Proof.Machine.trunc q

/-- The value fits `A` (43_codec_encode.md R205, R217). -/
def fitsA (n : Int) : Bool := -(2 ^ 63) ≤ n && n < 2 ^ 63

/-- Quantises x into `A`, or the fault `RANGE(E, UPC)` (43_codec_encode.md R205, R206, R217). -/
def quantise (s : State) (x : Rat) : Out :=
  need .cfg s.cfg fun cfg =>
    let n := cfg.quant.apply x
    if fitsA n then advance (s.setA (BitVec.ofInt 64 n))
    else need .e s.idxE fun e => need .upc s.upc fun u => .fault (.range e u)

/-- The range of a pack's field (43_codec_encode.md R208, R209). -/
structure PackRange where
  lo : Int
  hi : Int
  deriving DecidableEq, Repr

/-- 0 to 2^W - 1 (43_codec_encode.md R208). -/
def unsignedRange (w : Nat) : PackRange := { lo := 0, hi := 2 ^ w - 1 }

/-- -2^(W-1) to 2^(W-1) - 1 (43_codec_encode.md R209). -/
def signedRange (w : Nat) : PackRange := { lo := -(2 ^ (w - 1)), hi := 2 ^ (w - 1) - 1 }

/-- The value a pack inserts, with `PACKOVF` where it does not fit (43_codec_encode.md R208 to R210). -/
def fitPack (s : State) (r : PackRange) (x : Int) (k : Int → State → Out) : Out :=
  if r.lo ≤ x ∧ x ≤ r.hi then k x s
  else
    need .cfg s.cfg fun cfg => need .e s.idxE fun e => need .upc s.upc fun u =>
      match cfg.ovfPolicy with
      | .wrap => k x (s.raise (.packovf e u))
      | .saturate => k (if x < r.lo then r.lo else r.hi) (s.raise (.packovf e u))
      | .fault => .fault (.packOverflow e u)

end Sys2Proof.Machine
end

