-- ==== Sys2Proof/Machine/Check.lean ====
section
/-! DEFINITION. The checks INIT makes on a configuration image (45_engine_tick.md R263 to R265), one definition for each named
check of the spec. -/

namespace Sys2Proof.Machine

/-! ## Table checks (45_engine_tick.md R264) -/

/-- No entry of the list has this identifier and addressing mode. -/
def absent (r : RegEntry) (rs : List RegEntry) : Bool := rs.all fun x => !(x.id == r.id && x.ide == r.ide)

/-- `WF_UNIQ`. -/
def wfUniq : List RegEntry → Bool
  | [] => true
  | r :: rs => absent r rs && wfUniq rs

/-- An identifier fits its addressing mode. -/
def idFits (id : Nat) (ide : Bool) : Bool := id < 2 ^ 29 && (ide || id < 2 ^ 11)

/-- `WF_ID`. -/
def wfId (c : Cfg) : Bool :=
  c.reg.all (fun r => idFits r.id r.ide) && c.enc.all (fun e => idFits e.id e.ide)
    && c.filt.all (fun b => b.ids.all fun x => idFits x.id x.ide)

/-- `CNT_MAX` (00_scope.md R8). -/
def cntMax (c : Cfg) : Int := 2 ^ (c.cntW - 1) - 1

/-- `WF_RELOAD`. -/
def wfReload (c : Cfg) : Bool := c.reg.all fun r => r.reload == -1 || (0 ≤ r.reload && r.reload ≤ cntMax c)

/-- `WF_HADDR`. -/
def wfHaddr (c : Cfg) : Bool :=
  c.reg.all (fun r => r.decAddr < c.uc.length && r.toAddr < c.uc.length) && c.enc.all (fun e => e.base < c.uc.length)

/-- `WF_DLC`. -/
def wfDlc (c : Cfg) : Bool := c.enc.all fun e => e.dlc ≤ 8

/-- Periods strictly rising from above `lo`. -/
def risingFrom (lo : Nat) : List Bucket → Bool
  | [] => true
  | b :: bs => lo < b.per && risingFrom b.per bs

/-- `WF_PER`. -/
def wfPer (c : Cfg) : Bool := risingFrom 0 c.bkt && c.bkt.all fun b => b.per < c.tickMod

/-- `WF_LIST`. -/
def wfList (c : Cfg) : Bool := c.bkt.all fun b => b.list.all fun e => e < c.enc.length

/-- `WF_POOL`. -/
def wfPool (c : Cfg) : Bool := c.cpool.all fun p => p.den != 0

/-- A candidate names a constant and a declared key. -/
def candFits (c : Cfg) (x : Cand) : Bool := x.cidx.toNat < c.cpool.length && (keyType c.ktype x.key).isSome

/-- `WF_CATT`. -/
def wfCatt (c : Cfg) : Bool := c.catt.all fun t => t.cand.all (candFits c) && candFits c t.dflt

/-- `WF_UCT`. -/
def wfUct (c : Cfg) : Bool := c.uct.all fun u => u.c0.toNat < c.cpool.length && u.c1.toNat < c.cpool.length

/-- `WF_PARAM`; `OVF_POLICY` is one of its three values by its type. -/
def wfParam (c : Cfg) : Bool := 2 ≤ c.cntW && 2 ≤ c.tickMod && c.uc.length ≤ 65536

/-! ## Handler checks (45_engine_tick.md R265) -/

/-- The terminator of a handler kind: END, or SEND for an encode handler. -/
def isTerminator (k : HandlerKind) (i : Instr) : Bool :=
  match k with
  | .encode => i == .send
  | _ => i == .end_

/-- The scan: the instructions up to and including the first terminator; `none` where `WF_TERM` or `WF_LEGAL` fails (the
words end, or one is illegal). -/
def scanWords (k : HandlerKind) : List Word → Option (List Instr)
  | [] => none
  | w :: ws =>
    match decodeMicro w with
    | .error _ => none
    | .ok i => if isTerminator k i then some [i] else (scanWords k ws).map (i :: ·)

/-- The scan of the handler at a base address. -/
def scanHandler (c : Cfg) (k : HandlerKind) (base : Nat) : Option (List Instr) := scanWords k (c.uc.drop base)

/-- `WF_KIND`: the table of 42_codec_decode.md R171. -/
def kindAdmits (k : HandlerKind) : Instr → Bool
  | .lenchk _ | .unpku .. | .unpks .. | .flgget .. | .scdiv _ | .scmul _ | .stclr _ => k == .decode
  | .sbsetv _ | .sbseta _ | .end_ => k != .encode
  | .stset _ => k == .timeout
  | .ldai _ | .ldvc _ => true
  | .sbgetv _ | .sbgeta _ | .catsel .. | .uconv .. | .encmul _ | .encdiv _ | .packu .. | .packs .. | .flgput ..
  | .roll .. | .send => k == .encode
  | .reset _ | .init | .tick | .drain | .lookup | .dispatch | .rearm | .decode | .supervise | .supent | .tofire
  | .sched | .bucket | .encode => false

/-- The instruction is a LENCHK. -/
def isLenchk : Instr → Bool
  | .lenchk _ => true
  | _ => false

/-- `WF_LENFIRST`. -/
def wfLenFirst (k : HandlerKind) (is : List Instr) : Bool :=
  match k, is with
  | .decode, i :: rest => isLenchk i && rest.all fun x => !isLenchk x
  | .decode, [] => false
  | _, is => is.all fun x => !isLenchk x

/-- The instruction reads `A` (10_state.md R33). -/
def readsA : Instr → Bool
  | .scdiv _ | .scmul _ | .sbseta _ | .packu .. | .packs .. | .flgput .. => true
  | _ => false

/-- The instruction writes `A` (10_state.md R33). -/
def writesA : Instr → Bool
  | .unpku .. | .unpks .. | .flgget .. | .ldai _ | .sbgeta _ | .encmul _ | .encdiv _ => true
  | _ => false

/-- The instruction reads `V` (10_state.md R34). -/
def readsV : Instr → Bool
  | .sbsetv _ | .uconv .. | .encmul _ | .encdiv _ => true
  | _ => false

/-- The instruction writes `V` (10_state.md R34). -/
def writesV : Instr → Bool
  | .scdiv _ | .scmul _ | .ldvc _ | .sbgetv _ | .catsel .. | .uconv .. => true
  | _ => false

/-- `WF_DEFUSE`, given whether `A` and `V` were written before. -/
def wfDefUse (a v : Bool) : List Instr → Bool
  | [] => true
  | i :: is => (!readsA i || a) && (!readsV i || v) && wfDefUse (a || writesA i) (v || writesV i) is

/-- `WF_FIELD` for one instruction, with the message length L. -/
def wfField (len : Nat) : Instr → Bool
  | .unpku b n s w | .packu b n s w =>
    s.toNat + (w.toNat + 1) ≤ 8 * (n.toNat + 1) && b.toNat + (n.toNat + 1) ≤ len && w.toNat + 1 ≤ 63
  | .unpks b n s w | .packs b n s w =>
    s.toNat + (w.toNat + 1) ≤ 8 * (n.toNat + 1) && b.toNat + (n.toNat + 1) ≤ len
  | .flgget b _ | .flgput b _ | .roll _ b _ => b.toNat < len
  | _ => true

/-- A constant-pool index in range. -/
def constFits (c : Cfg) (i : BitVec 16) : Bool := i.toNat < c.cpool.length

/-- The pool entry is there and its numerator is not zero. -/
def constNonzero (c : Cfg) (i : BitVec 16) : Bool :=
  match c.cpool[i.toNat]? with
  | some p => p.num != 0
  | none => false

/-- `WF_CONST` for one instruction. -/
def wfConst (c : Cfg) : Instr → Bool
  | .scmul i | .ldvc i | .encmul i => constFits c i
  | .scdiv i | .encdiv i => constNonzero c i
  | _ => true

/-- `WF_KEY` for one instruction. -/
def wfKey (c : Cfg) : Instr → Bool
  | .sbsetv k => keyType c.ktype k == some .real
  | .sbseta k | .stclr k | .stset k | .sbgeta k | .catsel k _ | .uconv k _ => keyType c.ktype k == some .int
  | .sbgetv k => (keyType c.ktype k).isSome
  | _ => true

/-- `WF_TABLE` for one instruction. -/
def wfTable (c : Cfg) : Instr → Bool
  | .catsel _ t => t.toNat < c.catt.length
  | .uconv _ u => u.toNat < c.uct.length
  | .roll r _ _ => r.toNat < c.nRoll
  | _ => true

/-- The checks made on every scanned instruction. -/
def wfInstr (c : Cfg) (k : HandlerKind) (len : Nat) (i : Instr) : Bool :=
  kindAdmits k i && wfField len i && wfConst c i && wfKey c i && wfTable c i

/-- The message length L of a handler: LENCHK's in a decode handler, `DLC` in an encode handler; a timeout handler has none. -/
def handlerLen (k : HandlerKind) (dlc : Nat) (is : List Instr) : Nat :=
  match k, is with
  | .decode, .lenchk n :: _ => n.toNat
  | .encode, _ => dlc
  | _, _ => 0

/-- All checks of one handler. -/
def wfHandler (c : Cfg) (k : HandlerKind) (dlc base : Nat) : Bool :=
  match scanHandler c k base with
  | none => false
  | some is => wfLenFirst k is && wfDefUse false false is && is.all (wfInstr c k (handlerLen k dlc is))

/-- The checks of every handler. -/
def wfHandlers (c : Cfg) : Bool :=
  c.reg.all (fun r => wfHandler c .decode 0 r.decAddr && wfHandler c .timeout 0 r.toAddr)
    && c.enc.all (fun e => wfHandler c .encode e.dlc e.base)

/-! ## The result (45_engine_tick.md R263) -/

/-- The result of `check(cfg)`. -/
inductive CheckResult where
  | ok | dup | bad
  deriving DecidableEq, Repr

/-- Every check but `WF_UNIQ`. -/
def wfRest (c : Cfg) : Bool :=
  wfId c && wfReload c && wfHaddr c && wfDlc c && wfPer c && wfList c && wfPool c && wfCatt c && wfUct c && wfParam c
    && wfHandlers c

/-- `check(cfg)`: `WF_UNIQ` first, then all the others (45_engine_tick.md R263). -/
def checkCfg (c : Cfg) : CheckResult :=
  if wfUniq c.reg then (if wfRest c then .ok else .bad) else .dup

end Sys2Proof.Machine
end

