-- ==== Sys2Proof/Machine/Flags.lean ====
section
/-! DEFINITION. Flags and status bits (10_state.md R45), and the codes of every status (30_encoding.md R107, R108; 60_exceptions.md
R280). There are no arithmetic condition codes: no micro-instruction sets a carry, zero, sign or overflow flag. -/

namespace Sys2Proof.Machine

/-- Writes a stale flag, 0 or 1 (10_state.md R45; 40_registry_supervisor.md R136, 42_codec_decode.md R181). -/
def State.setStale (s : State) (k : Key) (flag : Bool) : State :=
  s.busSet k (.int (if flag then 1 else 0))

/-- The truth value of `A` in a flag bit (43_codec_encode.md R211): any non-zero value is true. -/
def flagBit (a : BitVec 64) : Int := if a = 0 then 0 else 1

/-- The already-fired state of a counter (10_state.md R45). -/
def fired (c : Int) : Bool := c == -1

/-- `TXSTAT[e] <- (1, st)` (43_codec_encode.md R213). -/
def writeTxStat (s : State) (e : Nat) (st : SendStatus) (k : State → Out) : Out :=
  need .txstat s.txstat fun ts => index .txstat ts e fun _ =>
    k { s with txstat := some (ts.set e { valid := true, code := st }) }

/-- `ENGSTATE` codes (30_encoding.md R108). -/
def EngState.code : EngState → BitVec 2
  | .unconfig => 0
  | .run => 1
  | .cfgerr => 2

/-- `INITSTAT` codes (30_encoding.md R108). -/
def InitStat.code : InitStat → BitVec 2
  | .noinit => 0
  | .initOk => 1
  | .cfgdup => 2
  | .cfgbad => 3

/-- Send status codes (30_encoding.md R108). -/
def SendStatus.code : SendStatus → BitVec 2
  | .ok => 0
  | .bufferFull => 1
  | .invalidValue => 2
  | .error => 3

/-- `HK` codes (30_encoding.md R108). -/
def HandlerKind.code : HandlerKind → BitVec 2
  | .decode => 0
  | .timeout => 1
  | .encode => 2

/-- `PHASE` codes (30_encoding.md R107). -/
def Phase.code : Phase → BitVec 4
  | .idle => 0
  | .drain => 1
  | .lookup => 2
  | .dispatch => 3
  | .rearm => 4
  | .decode => 5
  | .supervise => 6
  | .supent => 7
  | .tofire => 8
  | .sched => 9
  | .bucket => 10
  | .encode => 11
  | .initp => 12

/-- The phase of a code; 13 to 15 are reserved and never taken (30_encoding.md R107). -/
def Phase.ofCode (w : BitVec 4) : Option Phase :=
  match w.toNat with
  | 0 => some .idle
  | 1 => some .drain
  | 2 => some .lookup
  | 3 => some .dispatch
  | 4 => some .rearm
  | 5 => some .decode
  | 6 => some .supervise
  | 7 => some .supent
  | 8 => some .tofire
  | 9 => some .sched
  | 10 => some .bucket
  | 11 => some .encode
  | 12 => some .initp
  | _ => none

/-- Condition codes (60_exceptions.md R280). -/
def Cond.code : Cond → Nat
  | .unreg .. => 1
  | .lenmis .. => 2
  | .timeout .. => 3
  | .txdrop .. => 4
  | .cfgdup => 5
  | .cfgbad => 6
  | .packovf .. => 7
  | .range .. => 8

end Sys2Proof.Machine
end

