-- ==== Sys2Proof/Machine/CodecDecode.lean ====
section
/-! DEFINITION. The micro-instructions of decode and timeout handlers: LENCHK (41_dispatcher.md R154), STSET
(40_registry_supervisor.md R136) and those of 42_codec_decode.md section 3. -/

namespace Sys2Proof.Machine

/-- LENCHK n (41_dispatcher.md R154). -/
def execLenchk (n : BitVec 16) (s : State) : Out :=
  need .frx s.frx fun f =>
    if f.len.val = n.toNat then advance s
    else .next (s.raise (.lenmis f.ident.id f.ident.ide f.len.val n.toNat)).endRun

/-- UNPKU (42_codec_decode.md R174); a field of 64 bits does not fit the signed accumulator. -/
def execUnpku (byte nb1 : BitVec 3) (shift w1 : BitVec 6) (s : State) : Out :=
  rxField s (fieldF byte nb1 shift w1) fun x =>
    if w1.toNat + 1 ≤ 63 then advance (s.setA (BitVec.ofNat 64 x)) else .fault .noSuchField

/-- UNPKS (42_codec_decode.md R175). -/
def execUnpks (byte nb1 : BitVec 3) (shift w1 : BitVec 6) (s : State) : Out :=
  rxField s (fieldF byte nb1 shift w1) fun x => advance (s.setA (BitVec.ofInt 64 (sext (w1.toNat + 1) x)))

/-- FLGGET (42_codec_decode.md R176). -/
def execFlgget (byte : BitVec 3) (bit : BitVec 6) (s : State) : Out :=
  rxField s (fieldB byte bit) fun x => advance (s.setA (BitVec.ofNat 64 x))

/-- SCDIV (42_codec_decode.md R177). -/
def execScdiv (c : BitVec 16) (s : State) : Out :=
  need .a s.a fun a => divisor s c fun q => advance (s.setV ((a.toInt : Rat) / q))

/-- SCMUL (42_codec_decode.md R178). -/
def execScmul (c : BitVec 16) (s : State) : Out :=
  need .a s.a fun a => constant s c fun q => advance (s.setV ((a.toInt : Rat) * q))

/-- SBSETV (42_codec_decode.md R179). -/
def execSbsetv (key : Key) (s : State) : Out :=
  need .v s.v fun v => need .cfg s.cfg fun cfg => advance (s.busSet key (.real (cfg.storeReal.apply v)))

/-- SBSETA (42_codec_decode.md R180). -/
def execSbseta (key : Key) (s : State) : Out :=
  need .a s.a fun a => advance (s.busSet key (.int a))

/-- STCLR (42_codec_decode.md R181). -/
def execStclr (key : Key) (s : State) : Out := advance (s.setStale key false)

/-- STSET (40_registry_supervisor.md R136). -/
def execStset (key : Key) (s : State) : Out := advance (s.setStale key true)

/-- LDAI (42_codec_decode.md R182). -/
def execLdai (imm : BitVec 16) (s : State) : Out := advance (s.setA (BitVec.ofInt 64 (sext 16 imm.toNat)))

/-- LDVC (42_codec_decode.md R183). -/
def execLdvc (c : BitVec 16) (s : State) : Out := constant s c fun q => advance (s.setV q)

/-- END (42_codec_decode.md R184). -/
def execEnd (s : State) : Out := .next s.endRun

end Sys2Proof.Machine
end

