-- ==== Sys2Proof/Machine/CodecEncode.lean ====
section
/-! DEFINITION. The micro-instructions of encode handlers (43_codec_encode.md R201 to R213). -/

namespace Sys2Proof.Machine

/-- SBGETV (43_codec_encode.md R201). -/
def execSbgetv (key : Key) (s : State) : Out := busGet s key fun x s' => advance (s'.setV x.val)

/-- SBGETA (43_codec_encode.md R202). -/
def execSbgeta (key : Key) (s : State) : Out := busGetInt s key fun i s' => advance (s'.setA (BitVec.ofInt 64 i))

/-- The candidate an index selects, or the default (43_codec_encode.md R203). -/
def CatTable.select (t : CatTable) (idx : Int) : Cand :=
  if 0 ≤ idx then t.cand.getD idx.toNat t.dflt else t.dflt

/-- CATSEL (43_codec_encode.md R203): the selector is read first, then the candidate. -/
def execCatsel (key : Key) (t : BitVec 16) (s : State) : Out :=
  busGetInt s key fun idx s₁ => need .cfg s₁.cfg fun cfg => index .catt cfg.catt t.toNat fun tab =>
    busGet s₁ (tab.select idx).key fun x s₂ =>
      constant s₂ (tab.select idx).cidx fun q => advance (s₂.setV (x.val * q))

/-- UCONV (43_codec_encode.md R204). -/
def execUconv (key : Key) (u : BitVec 16) (s : State) : Out :=
  need .v s.v fun v => busGetInt s key fun f s₁ => need .cfg s₁.cfg fun cfg => index .uct cfg.uct u.toNat fun uc =>
    constant s₁ (if f ≠ 0 then uc.c1 else uc.c0) fun q => advance (s₁.setV (v * q))

/-- ENCMUL (43_codec_encode.md R205). -/
def execEncmul (c : BitVec 16) (s : State) : Out :=
  need .v s.v fun v => constant s c fun q => quantise s (v * q)

/-- ENCDIV (43_codec_encode.md R206). -/
def execEncdiv (c : BitVec 16) (s : State) : Out :=
  need .v s.v fun v => divisor s c fun q => quantise s (v / q)

/-- PACKU (43_codec_encode.md R208). -/
def execPacku (byte nb1 : BitVec 3) (shift w1 : BitVec 6) (s : State) : Out :=
  need .a s.a fun a => fitPack s (unsignedRange (w1.toNat + 1)) a.toInt fun x s₁ =>
    txInsert s₁ (fieldF byte nb1 shift w1) x advance

/-- PACKS (43_codec_encode.md R209). -/
def execPacks (byte nb1 : BitVec 3) (shift w1 : BitVec 6) (s : State) : Out :=
  need .a s.a fun a => fitPack s (signedRange (w1.toNat + 1)) a.toInt fun x s₁ =>
    txInsert s₁ (fieldF byte nb1 shift w1) x advance

/-- FLGPUT (43_codec_encode.md R211). -/
def execFlgput (byte : BitVec 3) (bit : BitVec 6) (s : State) : Out :=
  need .a s.a fun a => txInsert s (fieldB byte bit) (flagBit a) advance

/-- ROLL (43_codec_encode.md R212): embeds the counter, then advances it modulo 16. -/
def execRoll (r : BitVec 16) (byte : BitVec 3) (shift : BitVec 6) (s : State) : Out :=
  need .rollcnt s.rollcnt fun rc => index .rollcnt rc r.toNat fun x =>
    txInsert s (fieldR byte shift) x.toNat fun s₁ => advance { s₁ with rollcnt := some (rc.set r.toNat (x + 1)) }

/-- The frame SEND builds (43_codec_encode.md R213), where the encoder's fields make a well-formed one. -/
def builtFrame (en : EncEntry) (txb : Memory) : Option Frame :=
  (Ident.ofRaw en.id en.ide).bind fun ident =>
    if h : en.dlc < 9 then
      some { ident := ident, rtr := false, len := ⟨en.dlc, h⟩,
             payload := #v[txb.read 0, txb.read 1, txb.read 2, txb.read 3, txb.read 4, txb.read 5, txb.read 6,
                           txb.read 7] }
    else none

/-- `raise TXDROP(E, st)` for every answer but `Ok` (43_codec_encode.md R213, 60_exceptions.md R284). -/
def dropEvents (e : Nat) (st : SendStatus) : List Event := if st = .ok then [] else [.cond (.txdrop e st)]

/-- What `send()` leaves: the events, and the status in `TXSTAT[E]` (43_codec_encode.md R213, R214). -/
def sendFrame (e : Nat) (f : Frame) (s : State) (k : State → Out) : Out :=
  let ans := nextAnswer s
  writeTxStat { ans.2 with events := s.events ++ (.send f ans.1 :: dropEvents e ans.1) } e ans.1 k

/-- SEND (43_codec_encode.md R213). -/
def execSend (s : State) : Out :=
  need .e s.idxE fun e => need .cfg s.cfg fun cfg => index .enc cfg.enc e fun en =>
    match builtFrame en s.txb with
    | none => .fault .reservedValue
    | some f => sendFrame e f s fun s₁ => .next s₁.endRun

end Sys2Proof.Machine
end

