-- ==== Sys2Proof/Machine/MicroSeq.lean ====
section
/-! DEFINITION. The micro-sequencer: one micro-instruction, and the run of a handler (42_codec_decode.md R170, R172). -/

namespace Sys2Proof.Machine

/-- The meaning of a micro-instruction. Host and sequencer operations, which no micro-word decodes to, are refused. -/
def execMicro (i : Instr) (s : State) : Out :=
  match i with
  | .lenchk n => execLenchk n s
  | .unpku byte nb1 shift w1 => execUnpku byte nb1 shift w1 s
  | .unpks byte nb1 shift w1 => execUnpks byte nb1 shift w1 s
  | .flgget byte bit => execFlgget byte bit s
  | .scdiv c => execScdiv c s
  | .scmul c => execScmul c s
  | .sbsetv key => execSbsetv key s
  | .sbseta key => execSbseta key s
  | .stclr key => execStclr key s
  | .stset key => execStset key s
  | .ldai imm => execLdai imm s
  | .ldvc c => execLdvc c s
  | .sbgetv key => execSbgetv key s
  | .sbgeta key => execSbgeta key s
  | .catsel key t => execCatsel key t s
  | .uconv key u => execUconv key u s
  | .encmul c => execEncmul c s
  | .encdiv c => execEncdiv c s
  | .packu byte nb1 shift w1 => execPacku byte nb1 shift w1 s
  | .packs byte nb1 shift w1 => execPacks byte nb1 shift w1 s
  | .flgput byte bit => execFlgput byte bit s
  | .roll r byte shift => execRoll r byte shift s
  | .send => execSend s
  | .end_ => execEnd s
  | .reset _ | .init | .tick | .drain | .lookup | .dispatch | .rearm | .decode | .supervise | .supent | .tofire
  | .sched | .bucket | .encode => .refused .notMicro

/-- The micro-instruction at `UPC` (42_codec_decode.md R170). -/
def fetchMicro (s : State) (k : Instr → Out) : Out :=
  need .upc s.upc fun u => need .cfg s.cfg fun cfg => index .uc cfg.uc u fun w =>
    match decodeMicro w with
    | .ok i => k i
    | .error _ => .refused .illegalWord

/-- One turn of the loop of RUNH (42_codec_decode.md R170). -/
def microStep (s : State) : Out := fetchMicro s fun i => execMicro i s

/-- The loop of RUNH, for at most `fuel` instructions. `UPC` only rises, so the words of the micro-store bound it (R44, R170). -/
def runLoop : Nat → State → Out
  | 0, s => need .upc s.upc fun u => .fault (.noSuchIndex .uc u)
  | fuel + 1, s => andThen (microStep s) fun s' => if s'.upc = none then .next s' else runLoop fuel s'

/-- RUNH(kind, base) (42_codec_decode.md R170). -/
def runHandler (k : HandlerKind) (base : Nat) (s : State) : Out :=
  need .cfg s.cfg fun cfg => runLoop (cfg.uc.length + 1) (s.startRun k base)

end Sys2Proof.Machine
end

