-- ==== Sys2Proof/Machine/Supervisor.lean ====
section
/-! DEFINITION. Registry lookup and timeout supervisor (40_registry_supervisor.md R131 to R135). -/

namespace Sys2Proof.Machine

/-- The entry's identifier and addressing mode are the frame's (40_registry_supervisor.md R131). -/
def RegEntry.matches (r : RegEntry) (f : Frame) : Bool := r.id == f.ident.id && r.ide == f.ident.ide

/-- The loop of LOOKUP over the entries from index i on (40_registry_supervisor.md R131). -/
def lookupFrom (f : Frame) : Nat → List RegEntry → Hit → Hit
  | _, [], h => h
  | i, r :: rs, h => lookupFrom f (i + 1) rs (if r.matches f then .found i else h)

/-- LOOKUP (40_registry_supervisor.md R131). -/
def execLookup (s : State) : Out :=
  need .cfg s.cfg fun cfg => need .frx s.frx fun f =>
    .next { s with phase := .lookup, hit := some (lookupFrom f 0 cfg.reg .miss) }

/-- TOFIRE (40_registry_supervisor.md R135), for the entry `I`. -/
def execTofire (s : State) : Out :=
  need .i s.idxI fun i => need .cfg s.cfg fun cfg => index .reg cfg.reg i fun r =>
    runHandler .timeout r.toAddr ((s.enter .tofire).raise (.timeout i))

/-- SUPENT (40_registry_supervisor.md R134), for the entry `I`. -/
def execSupent (s : State) : Out :=
  need .i s.idxI fun i => need .cnt s.cnt fun cnt => index .cnt cnt i fun c =>
    if 0 < c then writeCnt (s.enter .supent) i (c - 1)
    else if c = 0 then andThen (execTofire (s.enter .supent)) fun s₁ => writeCnt (s₁.enter .supent) i (-1)
    else .next (s.enter .supent)

/-- The loop of SUPERVISE over n entries from index i on (40_registry_supervisor.md R133). After the last one `I` holds `NONE`: the
rule does not say when it does (DESIGN CHOICE, log 27). -/
def superviseLoop : Nat → Nat → State → Out
  | 0, _, s => .next { s with idxI := none }
  | n + 1, i, s => andThen (execSupent { s with idxI := some i }) fun s₁ => superviseLoop n (i + 1) (s₁.enter .supervise)

/-- SUPERVISE (40_registry_supervisor.md R133). -/
def execSupervise (s : State) : Out :=
  need .cfg s.cfg fun cfg => superviseLoop cfg.reg.length 0 (s.enter .supervise)

end Sys2Proof.Machine
end

