-- ==== Sys2Proof/Machine/Dispatcher.lean ====
section
/-! DEFINITION. The receive dispatcher (41_dispatcher.md R150 to R153). -/

namespace Sys2Proof.Machine

/-- REARM (41_dispatcher.md R152), for the entry in `HIT`. -/
def execRearm (s : State) : Out :=
  needFound s fun i => need .cfg s.cfg fun cfg => index .reg cfg.reg i fun r => writeCnt (s.enter .rearm) i r.reload

/-- DECODE (41_dispatcher.md R153), for the entry in `HIT`. -/
def execDecode (s : State) : Out :=
  needFound s fun i => need .cfg s.cfg fun cfg => index .reg cfg.reg i fun r =>
    runHandler .decode r.decAddr (s.enter .decode)

/-- The end of DISPATCH for a frame that matches no entry (41_dispatcher.md R151, R155). -/
def dropUnregistered (s : State) : Out :=
  need .frx s.frx fun f => .next (s.raise (.unreg f.ident.id f.ident.ide))

/-- DISPATCH (41_dispatcher.md R151): re-arm first, decode second. -/
def execDispatch (s : State) : Out :=
  andThen (execLookup (s.enter .dispatch)) fun s₁ =>
    need .hit s₁.hit fun h =>
      match h with
      | .found _ => andThen (execRearm (s₁.enter .dispatch)) fun s₂ =>
          andThen (execDecode (s₂.enter .dispatch)) fun s₃ => .next (s₃.enter .dispatch)
      | .miss => dropUnregistered (s₁.enter .dispatch)

/-- `recv()` answers a frame, which the dispatcher takes (41_dispatcher.md R150, 20_memory.md R74). -/
def State.receive (s : State) (f : Frame) (rest : List Frame) : State :=
  State.log { s with frx := some f, rx := rest } (.recv (some f))

/-- What DRAIN does after each DISPATCH (41_dispatcher.md R150). -/
def State.dropFrame (s : State) : State := { s with frx := none, hit := none, phase := .drain }

/-- The loop of DRAIN over the frames `recv()` returns before `Empty` (41_dispatcher.md R150, R159). -/
def drainLoop : List Frame → State → Out
  | [], s => .next (s.log (.recv none))
  | f :: fs, s => andThen (execDispatch (s.receive f fs)) fun s₁ => drainLoop fs s₁.dropFrame

/-- DRAIN (41_dispatcher.md R150). -/
def execDrain (s : State) : Out := drainLoop s.rx (s.enter .drain)

end Sys2Proof.Machine
end

