-- ==== Sys2Proof/Machine/Scheduler.lean ====
section
/-! DEFINITION. The transmit scheduler (44_scheduler.md R240, R242) and ENCODE (43_codec_encode.md R200). -/

namespace Sys2Proof.Machine

/-- The encoder that the position (`B`, `J`) names: `CFG.BKT[B].LIST[J]` (44_scheduler.md R242). -/
def listedEncoder (s : State) (k : Nat → EncEntry → Out) : Out :=
  need .cfg s.cfg fun cfg => need .b s.idxB fun b => index .bkt cfg.bkt b fun bk =>
    need .j s.idxJ fun j => index .list bk.list j fun e => index .enc cfg.enc e fun en => k e en

/-- ENCODE (43_codec_encode.md R200), for the encoder at (`B`, `J`). It leaves in `TXB` what the handler built, until the next
ENCODE, RESET or INIT (DESIGN CHOICE, log 3: 10_state.md R35 calls it not meaningful between operations, U18 any value). -/
def execEncode (s : State) : Out :=
  listedEncoder s fun e en =>
    andThen (runHandler .encode en.base { s with idxE := some e, txb := [], phase := .encode }) fun s₁ =>
      .next { s₁ with idxE := none }

/-- The loop of BUCKET over n positions from j on (44_scheduler.md R242). After the last one `J` holds `NONE` (DESIGN CHOICE,
log 27). -/
def bucketLoop : Nat → Nat → State → Out
  | 0, _, s => .next { s with idxJ := none }
  | n + 1, j, s => andThen (execEncode { s with idxJ := some j }) fun s₁ => bucketLoop n (j + 1) (s₁.enter .bucket)

/-- BUCKET (44_scheduler.md R242), for the bucket `B`. -/
def execBucket (s : State) : Out :=
  need .cfg s.cfg fun cfg => need .b s.idxB fun b => index .bkt cfg.bkt b fun bk =>
    bucketLoop bk.list.length 0 (s.enter .bucket)

/-- The bucket is due: its period divides `TICKCNT` (44_scheduler.md R240). -/
def Bucket.due (bk : Bucket) (tickcnt : Nat) : Bool := tickcnt % bk.per == 0

/-- The loop of SCHED over the buckets from index b on (44_scheduler.md R240). After the last one `B` holds `NONE` (DESIGN CHOICE,
log 27). -/
def schedLoop : List Bucket → Nat → State → Out
  | [], _, s => .next { s with idxB := none }
  | bk :: bks, b, s =>
    if bk.due s.tickcnt then
      andThen (execBucket { s with idxB := some b }) fun s₁ => schedLoop bks (b + 1) (s₁.enter .sched)
    else schedLoop bks (b + 1) { s with idxB := some b }

/-- SCHED (44_scheduler.md R240): the counter advances before the test. -/
def execSched (s : State) : Out :=
  need .cfg s.cfg fun cfg =>
    schedLoop cfg.bkt 0 { s with phase := .sched, tickcnt := (s.tickcnt + 1) % cfg.tickMod }

end Sys2Proof.Machine
end

