-- ==== Sys2Proof/Machine/HostOps.lean ====
section
/-! DEFINITION. The host operations RESET, INIT and TICK (45_engine_tick.md R261, R262, R268). -/

namespace Sys2Proof.Machine

/-- The event list of a new host operation starts empty (10_state.md R51, log 15). -/
def State.newOp (s : State) : State := { s with events := [] }

/-- RESET (45_engine_tick.md R261), whatever `CMD` is (30_encoding.md R105). -/
def execReset (_cmd : BitVec 2) (s : State) : Out := .next s.newOp.clearRegs

/-- The calls `cfgfilt(bank, ids)`, in list order (45_engine_tick.md R267). -/
def filterEvents (c : Cfg) : List Event := c.filt.map fun b => .cfgFilt b.bank b.ids

/-- The state after an INIT whose checks pass (45_engine_tick.md R262, 10_state.md R55). -/
def State.configure (s : State) (c : Cfg) : State :=
  { s.clearRegs with
    engstate := .run, initstat := .initOk, cfg := some c,
    cnt := some (c.reg.map (·.reload)),
    rollcnt := some (List.replicate c.nRoll 0),
    txstat := some (List.replicate c.enc.length { valid := false, code := .ok }),
    events := s.events ++ filterEvents c }

/-- The state after an INIT that fails a check (45_engine_tick.md R266, 10_state.md R56). -/
def State.configError (s : State) (st : InitStat) (c : Cond) : State :=
  State.raise { s.clearRegs with engstate := .cfgerr, initstat := st } c

/-- INIT (45_engine_tick.md R262) of the image in `cfgIn`; admitted in `UNCONFIG` only (R270). -/
def execInit (s : State) : Out :=
  if s.engstate = .unconfig then
    match checkCfg s.cfgIn with
    | .ok => .next (s.newOp.configure s.cfgIn)
    | .dup => .next (s.newOp.configError .cfgdup .cfgdup)
    | .bad => .next (s.newOp.configError .cfgbad .cfgbad)
  else .refused .notAdmitted

/-- The contract of the signal bus when a TICK begins: a value at a declared key is of the key's type, else the TICK is refused
(60_exceptions.md R303, 93_implementation_defined.md U22; log 5). -/
def onTypedBus (s : State) (k : State → Out) : Out :=
  need .cfg s.cfg fun c =>
    match mistypedKey c s.sb with
    | none => k s
    | some key => .refused (.busType key)

/-- TICK (45_engine_tick.md R268): drain, supervise, schedule; admitted in `RUN` only (R270). Afterwards `TXB` keeps what the last
ENCODE built (DESIGN CHOICE, log 3: R35 calls it not meaningful, U18 any value). -/
def execTick (s : State) : Out :=
  if s.engstate = .run then
    onTypedBus s fun s₀ =>
      andThen (execDrain s₀.newOp) fun s₁ => andThen (execSupervise s₁) fun s₂ => andThen (execSched s₂) fun s₃ =>
        .next (s₃.enter .idle)
  else .refused .notAdmitted

end Sys2Proof.Machine
end

