-- ==== Sys2Proof/Machine/Dispatch.lean ====
section
/-! DEFINITION. exec: one arm for each constructor of Instr, each one call of its meaning. -/

namespace Sys2Proof.Machine

def exec (i : Instr) (s : State) : Host.Outcome State Fault Refusal :=
  match i with
  | .reset cmd => Sys2Proof.Machine.execReset cmd s
  | .init => Sys2Proof.Machine.execInit s
  | .tick => Sys2Proof.Machine.execTick s
  | .drain => Sys2Proof.Machine.execDrain s
  | .lookup => Sys2Proof.Machine.execLookup s
  | .dispatch => Sys2Proof.Machine.execDispatch s
  | .rearm => Sys2Proof.Machine.execRearm s
  | .decode => Sys2Proof.Machine.execDecode s
  | .supervise => Sys2Proof.Machine.execSupervise s
  | .supent => Sys2Proof.Machine.execSupent s
  | .tofire => Sys2Proof.Machine.execTofire s
  | .sched => Sys2Proof.Machine.execSched s
  | .bucket => Sys2Proof.Machine.execBucket s
  | .encode => Sys2Proof.Machine.execEncode s
  | .lenchk n => Sys2Proof.Machine.execLenchk n s
  | .unpku byte nb1 shift w1 => Sys2Proof.Machine.execUnpku byte nb1 shift w1 s
  | .unpks byte nb1 shift w1 => Sys2Proof.Machine.execUnpks byte nb1 shift w1 s
  | .flgget byte bit => Sys2Proof.Machine.execFlgget byte bit s
  | .scdiv c => Sys2Proof.Machine.execScdiv c s
  | .scmul c => Sys2Proof.Machine.execScmul c s
  | .sbsetv key => Sys2Proof.Machine.execSbsetv key s
  | .sbseta key => Sys2Proof.Machine.execSbseta key s
  | .stclr key => Sys2Proof.Machine.execStclr key s
  | .stset key => Sys2Proof.Machine.execStset key s
  | .ldai imm => Sys2Proof.Machine.execLdai imm s
  | .ldvc c => Sys2Proof.Machine.execLdvc c s
  | .sbgetv key => Sys2Proof.Machine.execSbgetv key s
  | .sbgeta key => Sys2Proof.Machine.execSbgeta key s
  | .catsel key t => Sys2Proof.Machine.execCatsel key t s
  | .uconv key u => Sys2Proof.Machine.execUconv key u s
  | .encmul c => Sys2Proof.Machine.execEncmul c s
  | .encdiv c => Sys2Proof.Machine.execEncdiv c s
  | .packu byte nb1 shift w1 => Sys2Proof.Machine.execPacku byte nb1 shift w1 s
  | .packs byte nb1 shift w1 => Sys2Proof.Machine.execPacks byte nb1 shift w1 s
  | .flgput byte bit => Sys2Proof.Machine.execFlgput byte bit s
  | .roll r byte shift => Sys2Proof.Machine.execRoll r byte shift s
  | .send => Sys2Proof.Machine.execSend s
  | .end_ => Sys2Proof.Machine.execEnd s

end Sys2Proof.Machine
end

