-- ==== Sys2Proof/Machine/Sequencer.lean ====
section
/-! DEFINITION. Where the sequencer stands, and how it goes on after one operation or one micro-instruction run on its own
from there (10_state.md R43, R44; 42_codec_decode.md R172: "the sequencer continues the operation that called RUNH at the point
after the call"; log 8). Between host operations the position is always `host` (10_state.md R57). -/

namespace Sys2Proof.Machine

/-- Where the next instruction comes from. -/
inductive Position where
  /-- Between operations: the host's next command. -/
  | host
  /-- Inside a TICK: the sequencer operation of the phase. -/
  | sequencer (p : Phase)
  /-- Inside a handler run: the micro-store word at `UPC`. -/
  | micro
  deriving DecidableEq, Repr

/-- The position of a state. INIT is atomic, so `INITP` is never met between steps and counts as `host`. -/
def position (s : State) : Position :=
  if s.upc ≠ none then .micro
  else
    match s.phase with
    | .idle => .host
    | .initp => .host
    | p => .sequencer p

/-- After SUPENT(I): the next entry of the pass, or the scheduler (40_registry_supervisor.md R133, 45_engine_tick.md R268). -/
def afterEntry (s : State) : Out :=
  need .cfg s.cfg fun cfg => need .i s.idxI fun i =>
    if i + 1 < cfg.reg.length then .next { s with idxI := some (i + 1), phase := .supent }
    else .next { s with idxI := none, phase := .sched }

/-- After TOFIRE(I): SUPENT sets the counter to -1 and ends (40_registry_supervisor.md R134). -/
def afterFire (s : State) : Out := need .i s.idxI fun i => andThen (writeCnt s i (-1)) afterEntry

/-- The first due bucket of a list whose first index is b (44_scheduler.md R240). -/
def nextDue (tickcnt : Nat) : Nat → List Bucket → Option Nat
  | _, [] => none
  | b, bk :: bks => if bk.due tickcnt then some b else nextDue tickcnt (b + 1) bks

/-- After BUCKET(B): the next due bucket, or the end of the TICK (44_scheduler.md R240, 45_engine_tick.md R268). -/
def afterBucket (s : State) : Out :=
  need .cfg s.cfg fun cfg => need .b s.idxB fun b =>
    match nextDue s.tickcnt (b + 1) (cfg.bkt.drop (b + 1)) with
    | some b' => .next { s with idxB := some b', phase := .bucket }
    | none => .next { s with idxB := none, phase := .idle }

/-- After ENCODE: the next encoder of the bucket's list, or the next bucket (44_scheduler.md R242). -/
def afterEncode (s : State) : Out :=
  need .cfg s.cfg fun cfg => need .b s.idxB fun b => index .bkt cfg.bkt b fun bk => need .j s.idxJ fun j =>
    if j + 1 < bk.list.length then .next { s with idxJ := some (j + 1), phase := .encode }
    else afterBucket { s with idxJ := none }

/-- After LOOKUP: a hit goes on to REARM, a miss raises `UNREG` and ends DISPATCH (41_dispatcher.md R151). -/
def afterLookup (s : State) : Out :=
  need .hit s.hit fun h =>
    match h with
    | .found _ => .next (s.enter .rearm)
    | .miss => andThen (dropUnregistered s) fun s₁ => .next s₁.dropFrame

/-- How a TICK goes on after the sequencer operation of a phase. -/
def afterOp (p : Phase) (s : State) : Out :=
  match p with
  | .idle => .next s
  | .initp => .next s
  | .drain => .next (s.enter .supervise)
  | .lookup => afterLookup s
  | .dispatch => .next s.dropFrame
  | .rearm => .next (s.enter .decode)
  | .decode => .next s.dropFrame
  | .supervise => .next (s.enter .sched)
  | .supent => afterEntry s
  | .tofire => afterFire s
  | .sched => .next (s.enter .idle)
  | .bucket => afterBucket s
  | .encode => afterEncode s

/-- After a micro-instruction: the next one, or, where the run has ended, what follows the operation that started the run
(42_codec_decode.md R172). -/
def afterMicro (s : State) : Out :=
  if s.upc ≠ none then .next s
  else
    match s.phase with
    | .decode => afterOp .decode s
    | .tofire => afterOp .tofire s
    | .encode => afterOp .encode { s with idxE := none }
    | _ => .next s

/-- How the machine goes on after an instruction run from a position. -/
def resume (p : Position) (s : State) : Out :=
  match p with
  | .host => .next s
  | .sequencer ph => afterOp ph s
  | .micro => afterMicro s

end Sys2Proof.Machine
end

