-- ==== Sys2Proof/Machine/Fetch.lean ====
section
/-! DEFINITION. Fetching: the code at the machine's position (30_encoding.md R105, R107; 42_codec_decode.md R170), and placing a
code there. -/

namespace Sys2Proof.Machine

/-- What a fetch finds. -/
inductive Fetched where
  /-- The host asks for nothing. -/
  | nothing
  /-- A code, and the state in which it runs. -/
  | code (c : Code) (s : State)
  /-- The code cannot be read. -/
  | stop (r : Fault)

/-- The host's next command is taken: the environment's writes of the signal bus are seen, and the inputs of the operation are
there (20_memory.md R78, R79; log 7). -/
def State.take (s : State) (r : HostRequest) (rest : List HostRequest) : State :=
  { s with inputs := rest, cfgIn := r.cfg, rx := r.rx, tx := r.tx,
           sb := r.busWrites.foldl (fun sb kv => Bus.put sb kv.1 kv.2) s.sb }

/-- The micro-store word at `UPC` (42_codec_decode.md R170). -/
def fetchWord (s : State) : Fetched :=
  match s.upc, s.cfg with
  | none, _ => .stop (.readNone .upc)
  | _, none => .stop (.readNone .cfg)
  | some u, some cfg =>
    match cfg.uc[u]? with
    | none => .stop (.noSuchIndex .uc u)
    | some w => .code (.micro w) s

/-- The code at the machine's position. -/
def fetch (s : State) : Fetched :=
  match position s with
  | .micro => fetchWord s
  | .sequencer p => .code (.phase p.code) s
  | .host =>
    match s.inputs with
    | [] => .nothing
    | r :: rest => .code (.host r.word) (s.take r rest)

/-! ## Placing a code where the next step fetches (log 9) -/

/-- The smallest admitted configuration that has an entry, an encoder and a bucket: LENCHK 0; END; SEND. -/
def smallCfg : Cfg :=
  { reg := [{ id := 0, ide := false, reload := 0, decAddr := 0, toAddr := 1 }],
    enc := [{ id := 0, ide := false, dlc := 0, base := 2 }],
    bkt := [{ per := 1, list := [0] }],
    uc := [0x0100000000000000#64, 0x1800000000000000#64, 0x1700000000000000#64] }

/-- That configuration with the tables, constants and keys that an instruction names. -/
def cfgFor (i : Instr) : Cfg :=
  let c := smallCfg
  let one : PoolEntry := { num := 1, den := 1 }
  match i with
  | .scdiv n | .scmul n | .ldvc n | .encmul n | .encdiv n =>
    { c with cpool := List.replicate (n.toNat + 1) one, cpoolLe := by rw [List.length_replicate]; omega }
  | .sbsetv k => { c with ktype := [(k, .real)] }
  | .sbseta k | .stclr k | .stset k | .sbgetv k | .sbgeta k => { c with ktype := [(k, .int)] }
  | .catsel k t =>
    { c with ktype := [(k, .int)], cpool := [one],
             catt := List.replicate (t.toNat + 1) { cand := [], dflt := { key := k, cidx := 0 } },
             cpoolLe := by decide, cattLe := by rw [List.length_replicate]; omega }
  | .uconv k u =>
    { c with ktype := [(k, .int)], cpool := [one], uct := List.replicate (u.toNat + 1) { c0 := 0, c1 := 0 },
             cpoolLe := by decide, uctLe := by rw [List.length_replicate]; omega }
  | .roll r _ _ => { c with nRoll := min (r.toNat + 1) 65535, nRollLe := Nat.min_le_right _ _ }
  | _ => c

/-- A machine that runs: as it is in `RUN`, else as INIT leaves it with the given configuration, the signal bus holding a typed
value at every declared key (70_reset_and_hazards.md R323 (4)). -/
def State.inRun (s : State) (c : Cfg) : State :=
  if s.engstate = .run ∧ s.cfg ≠ none then s
  else
    { s.configure c with
      sb := c.ktype.foldl (fun sb kt => Bus.put sb kt.1 (match kt.2 with | .int => .int 0 | .real => .real 0)) s.sb }

/-- The empty frame: standard identifier 0, no payload. -/
def zeroFrame : Frame := { ident := .std 0, rtr := false, len := 0, payload := Vector.replicate 8 0 }

/-- The registers a TICK has written before it runs the operation of a phase, where they hold `NONE`. -/
def State.withOperands (s : State) : State :=
  { s with frx := some (s.frx.getD zeroFrame), hit := some (s.hit.getD (.found 0)), idxI := some (s.idxI.getD 0),
           idxB := some (s.idxB.getD 0), idxJ := some (s.idxJ.getD 0) }

/-- The kind of handler that admits an instruction (42_codec_decode.md R171). -/
def handlerOf : Instr → HandlerKind
  | .stset _ => .timeout
  | .lenchk _ | .unpku .. | .unpks .. | .flgget .. | .scdiv _ | .scmul _ | .sbsetv _ | .sbseta _ | .stclr _ | .end_ => .decode
  | _ => .encode

/-- The phase in which a handler of a kind runs. -/
def HandlerKind.phase : HandlerKind → Phase
  | .decode => .decode
  | .timeout => .tofire
  | .encode => .encode

/-- The word at `UPC`, or one more word of the micro-store where no handler runs. -/
def placeWord (uc : List Word) (upc : Option Nat) (w : Word) : List Word × Nat :=
  match upc with
  | some u => if u < uc.length then (uc.set u w, u) else (uc ++ [w], uc.length)
  | none => (uc ++ [w], uc.length)

/-- Inside a handler run whose next word is `w`; what earlier instructions of the handler have written is there (`WF_DEFUSE`). -/
def State.atWord (s : State) (k : HandlerKind) (w : Word) : State :=
  match s.cfg with
  | none => s
  | some c =>
    { s.withOperands with
      cfg := some { c with uc := (placeWord c.uc s.upc w).1 }, upc := some (placeWord c.uc s.upc w).2, hk := some k,
      phase := k.phase, idxE := some (s.idxE.getD 0), a := some (s.a.getD 0), v := some (s.v.getD 0) }

/-- Places a code where the next step fetches. -/
def State.place (s : State) (c : Code) : State :=
  match c with
  | .host w =>
    let s' := if decodeHost w = .ok .tick then s.inRun smallCfg else s
    { s' with phase := .idle, upc := none, hk := none,
              inputs := { word := w, cfg := s'.cfgIn, rx := s'.rx, tx := s'.tx } :: s'.inputs }
  | .phase p =>
    { (s.inRun smallCfg).withOperands with phase := (Phase.ofCode p).getD .idle, upc := none, hk := none }
  | .micro w =>
    match decodeMicro w with
    | .ok i => (s.inRun (cfgFor i)).atWord (handlerOf i) w
    | .error _ => (s.inRun smallCfg).atWord .decode w

end Sys2Proof.Machine
end

