-- ==== Sys2Proof/Machine/Step.lean ====
section
/-! DEFINITION. One step of the machine: the code at its position is fetched, decoded and run, and the sequencer goes on. -/

namespace Sys2Proof.Machine

/-- What happens where the code is no instruction: `CMD` = 0 does nothing, `CMD` = 3 and illegal words are refused
(45_engine_tick.md R270, 30_encoding.md R109). -/
def notInstruction (e : Illegal) (s : State) : Out :=
  match e with
  | .noOperation => .next s
  | .reservedCommand => .refused .reservedCommand
  | _ => .refused .illegalWord

/-- One step. Where the host asks for nothing, nothing happens (45_engine_tick.md R270: `CMD` = 0). -/
def step (s : State) : Host.Outcome State Fault Refusal :=
  match fetch s with
  | .nothing => .next s
  | .stop r => .fault r
  | .code c s' =>
    match decode c with
    | .ok i => andThen (exec i s') (resume (position s))
    | .error e => notInstruction e s'

/-- The state with an instruction, as `opcode_table.json` numbers its bits, where the next step fetches (log 9). -/
def State.withFetchWord (s : State) (nbits w : Nat) : State := s.place (tableCode nbits w)

end Sys2Proof.Machine
end

