-- ==== Sys2Proof/Machine/Images.lean ====
section
/-! DEFINITION. The bit images of frames and configuration tables (30_encoding.md R91, R93 to R95, R99 to R102): each record's
image and the record an image stands for. The machine's inputs hold the records (log 12); the images are their form on the
interfaces. -/

namespace Sys2Proof.Machine

/-! ## The frame word (30_encoding.md R91) -/

/-- `ID` in 29 bits. -/
def Ident.bits : Ident → BitVec 29
  | .std i => i.setWidth 29
  | .ext i => i

/-- The payload as one number, byte i in bits 8i+7 : 8i (20_memory.md R68). -/
def payloadBits (p : Vector Byte 8) : BitVec 64 :=
  p[7] ++ p[6] ++ p[5] ++ p[4] ++ p[3] ++ p[2] ++ p[1] ++ p[0]

/-- The payload of 64 bits. -/
def payloadOfBits (w : BitVec 64) : Vector Byte 8 :=
  #v[w.extractLsb' 0 8, w.extractLsb' 8 8, w.extractLsb' 16 8, w.extractLsb' 24 8, w.extractLsb' 32 8, w.extractLsb' 40 8,
     w.extractLsb' 48 8, w.extractLsb' 56 8]

/-- The 99-bit word of a frame (30_encoding.md R91). -/
def Frame.image (f : Frame) : BitVec 99 :=
  payloadBits f.payload ++ BitVec.ofNat 4 f.len.val ++ BitVec.ofBool f.rtr ++ BitVec.ofBool f.ident.ide ++ f.ident.bits

/-- The frame of a 99-bit word; `none` for an ill-formed one (30_encoding.md R91, R92). -/
def frameOfImage (w : BitVec 99) : Option Frame :=
  (Ident.ofRaw (w.extractLsb' 0 29).toNat (w.getLsbD 29)).bind fun ident =>
    if h : (w.extractLsb' 31 4).toNat < 9 then
      some { ident := ident, rtr := w.getLsbD 30, len := ⟨(w.extractLsb' 31 4).toNat, h⟩,
             payload := payloadOfBits (w.extractLsb' 35 64) }
    else none

/-! ## Registry, encoder and bucket entries (30_encoding.md R93 to R95) -/

/-- `CFG.REG[i]`, 78 bits for `CNT_W` = 16 (30_encoding.md R93). -/
def RegEntry.image (r : RegEntry) : BitVec 78 :=
  BitVec.ofNat 16 r.toAddr ++ BitVec.ofNat 16 r.decAddr ++ BitVec.ofInt 16 r.reload ++ BitVec.ofBool r.ide
    ++ BitVec.ofNat 29 r.id

/-- The registry entry of an image (30_encoding.md R93). -/
def regOfImage (w : BitVec 78) : RegEntry :=
  { id := (w.extractLsb' 0 29).toNat, ide := w.getLsbD 29, reload := (w.extractLsb' 30 16).toInt,
    decAddr := (w.extractLsb' 46 16).toNat, toAddr := (w.extractLsb' 62 16).toNat }

/-- `CFG.ENC[e]`, 50 bits (30_encoding.md R94). -/
def EncEntry.image (e : EncEntry) : BitVec 50 :=
  BitVec.ofNat 16 e.base ++ BitVec.ofNat 4 e.dlc ++ BitVec.ofBool e.ide ++ BitVec.ofNat 29 e.id

/-- The encoder entry of an image (30_encoding.md R94). -/
def encOfImage (w : BitVec 50) : EncEntry :=
  { id := (w.extractLsb' 0 29).toNat, ide := w.getLsbD 29, dlc := (w.extractLsb' 30 4).toNat,
    base := (w.extractLsb' 34 16).toNat }

/-- `CFG.BKT[b]`: the header and one index word for each element of the list (30_encoding.md R95). -/
def Bucket.image (b : Bucket) : BitVec 32 × List (BitVec 16) :=
  (BitVec.ofNat 16 b.list.length ++ BitVec.ofNat 16 b.per, b.list.map (BitVec.ofNat 16))

/-- The bucket of a header and the index words that follow it; `none` where words are missing (30_encoding.md R95). -/
def bucketOfImage (h : BitVec 32) (ws : List (BitVec 16)) : Option Bucket :=
  if (h.extractLsb' 16 16).toNat ≤ ws.length then
    some { per := (h.extractLsb' 0 16).toNat, list := (ws.take (h.extractLsb' 16 16).toNat).map BitVec.toNat,
           listLe := by simp only [List.length_map, List.length_take]; omega }
  else none

/-! ## Constants, tables, filters (30_encoding.md R99 to R102) -/

/-- `CFG.CPOOL[c]`, 64 bits (30_encoding.md R99). -/
def PoolEntry.image (p : PoolEntry) : BitVec 64 := p.den ++ p.num

/-- The pool entry of an image (30_encoding.md R99). -/
def poolOfImage (w : BitVec 64) : PoolEntry := { num := w.extractLsb' 0 32, den := w.extractLsb' 32 32 }

/-- A candidate word (30_encoding.md R100). -/
def Cand.image (x : Cand) : BitVec 32 := x.cidx ++ x.key

/-- The candidate of a word (30_encoding.md R100). -/
def candOfImage (w : BitVec 32) : Cand := { key := w.extractLsb' 0 16, cidx := w.extractLsb' 16 16 }

/-- `CFG.CATT[t]`: `N`, the candidate words and the default word (30_encoding.md R100). -/
def CatTable.image (t : CatTable) : BitVec 8 × List (BitVec 32) :=
  (BitVec.ofNat 8 t.cand.length, t.cand.map Cand.image ++ [t.dflt.image])

/-- The categorical table of an image; `none` where words are missing (30_encoding.md R100). -/
def catOfImage (n : BitVec 8) (ws : List (BitVec 32)) : Option CatTable :=
  match ws[n.toNat]? with
  | some d => some { cand := (ws.take n.toNat).map candOfImage, dflt := candOfImage d,
                     candLe := by simp only [List.length_map, List.length_take]; omega }
  | none => none

/-- `CFG.UCT[u]`, 32 bits (30_encoding.md R101). -/
def UnitConv.image (u : UnitConv) : BitVec 32 := u.c1 ++ u.c0

/-- The unit-conversion entry of an image (30_encoding.md R101). -/
def uctOfImage (w : BitVec 32) : UnitConv := { c0 := w.extractLsb' 0 16, c1 := w.extractLsb' 16 16 }

/-- The two bits of a key in `CFG.KTYPE`: a type bit, 0 `INT`, 1 `REAL`, and a declared bit (30_encoding.md R102). That the declared
bit stands above the type bit, and that the type bit of an undeclared key is 0, are the model's (DESIGN CHOICE, log 26: R102 gives
no positions). -/
def keyTypeImage (t : Option SigType) : BitVec 2 :=
  match t with
  | none => 0
  | some .int => 2
  | some .real => 3

/-- The type of a key by its two bits (30_encoding.md R102), placed as `keyTypeImage` places them (log 26). -/
def keyTypeOfImage (w : BitVec 2) : Option SigType :=
  if w.getLsbD 1 then (if w.getLsbD 0 then some .real else some .int) else none

/-- A filter identifier word, 30 bits (30_encoding.md R102). -/
def RawIdent.image (x : RawIdent) : BitVec 30 := BitVec.ofBool x.ide ++ BitVec.ofNat 29 x.id

/-- The filter identifier of a word (30_encoding.md R102). -/
def rawOfImage (w : BitVec 30) : RawIdent := { id := (w.extractLsb' 0 29).toNat, ide := w.getLsbD 29 }

/-- `CFG.FILT` element: the header `N` ++ `BANK`, and one word for each identifier (30_encoding.md R102). -/
def FilterBank.image (b : FilterBank) : BitVec 16 × List (BitVec 30) :=
  (BitVec.ofNat 8 b.ids.length ++ b.bank, b.ids.map RawIdent.image)

/-- The filter element of an image; `none` where words are missing (30_encoding.md R102). -/
def filterOfImage (h : BitVec 16) (ws : List (BitVec 30)) : Option FilterBank :=
  if (h.extractLsb' 8 8).toNat ≤ ws.length then
    some { bank := h.extractLsb' 0 8, ids := (ws.take (h.extractLsb' 8 8).toNat).map rawOfImage,
           idsLe := by simp only [List.length_map, List.length_take]; omega }
  else none

end Sys2Proof.Machine
end

