-- ==== Sys2Proof/Safety.lean ====
section
/-! DEFINITION. The terms claims about the machine are stated in: the invariant between operations (10_state.md R57), what a
TICK in progress may rely on, and which stops the spec itself allows (60_exceptions.md R290). -/

namespace Sys2Proof.Machine

/-- The counter domain (10_state.md R37, R57): one counter for each entry, -1 or in 0..RELOAD. -/
def CntDomain (c : Cfg) (cnt : List Int) : Prop :=
  cnt.length = c.reg.length ∧
    ∀ (i : Nat) (r : RegEntry) (x : Int), c.reg[i]? = some r → cnt[i]? = some x → x = -1 ∨ (0 ≤ x ∧ x ≤ r.reload)

/-- The arrays have the lengths INIT gives them (10_state.md R37, R39, R40). -/
structure Arrays (c : Cfg) (s : State) : Prop where
  cnt : ∃ l, s.cnt = some l ∧ l.length = c.reg.length
  rollcnt : ∃ l, s.rollcnt = some l ∧ l.length = c.nRoll
  txstat : ∃ l, s.txstat = some l ∧ l.length = c.enc.length

/-- What every operation inside a TICK may rely on: a configuration that passed the checks of INIT (45_engine_tick.md R265), and
the arrays INIT made for it. -/
structure Ready (c : Cfg) (s : State) : Prop where
  held : s.cfg = some c
  checked : checkCfg c = .ok
  arrays : Arrays c s

/-- Working registers and position between operations (10_state.md R57, 45_engine_tick.md R271). -/
structure AtRest (s : State) : Prop where
  a : s.a = none
  v : s.v = none
  frx : s.frx = none
  hit : s.hit = none
  phase : s.phase = .idle
  i : s.idxI = none
  b : s.idxB = none
  j : s.idxJ = none
  e : s.idxE = none
  upc : s.upc = none
  hk : s.hk = none

/-- The persistent registers as RESET leaves them (10_state.md R54, R56). -/
structure NoConfig (s : State) : Prop where
  tickcnt : s.tickcnt = 0
  cfg : s.cfg = none
  cnt : s.cnt = none
  rollcnt : s.rollcnt = none
  txstat : s.txstat = none

/-- The persistent registers while `ENGSTATE` = `RUN` (10_state.md R57). -/
structure Running (c : Cfg) (s : State) : Prop where
  ready : Ready c s
  domain : ∀ cnt, s.cnt = some cnt → CntDomain c cnt
  tickcnt : s.tickcnt < c.tickMod

/-- The persistent registers in each engine state, with the result of the latest INIT (10_state.md R36, R41, R54 to R57). -/
def EngineOk (s : State) : Prop :=
  match s.engstate with
  | .unconfig => s.initstat = .noinit ∧ NoConfig s
  | .cfgerr => (s.initstat = .cfgdup ∨ s.initstat = .cfgbad) ∧ NoConfig s
  | .run => s.initstat = .initOk ∧ ∃ c, Running c s

/-- The invariant between operations (10_state.md R57), with the canonical form of the two stores. -/
structure Inv (s : State) : Prop where
  rest : AtRest s
  engine : EngineOk s
  txb : Memory.wf s.txb = true
  sb : Bus.wf s.sb = true

/-- The signal bus keeps its contract: what it holds at a declared key is of the declared type (60_exceptions.md R303,
93_implementation_defined.md U22). -/
def BusTyped (c : Cfg) (sb : Bus) : Prop :=
  ∀ (k : Key) (v : SigVal) (t : SigType), Bus.find sb k = some v → keyType c.ktype k = some t → v.type = t

/-- An outcome the spec allows for a checked configuration: a next state, or one of its two faults, `RANGE` and, under
`OVF_POLICY` = `fault`, `PACKOVF` (60_exceptions.md R290). -/
def SpecOutcome (c : Cfg) : Out → Prop
  | .next _ => True
  | .fault (.range _ _) => True
  | .fault (.packOverflow _ _) => c.ovfPolicy = .fault
  | _ => False

/-- The instruction scales for encode, the only one that can raise `RANGE` (60_exceptions.md R280). -/
def scalesForEncode : Instr → Bool
  | .encmul _ | .encdiv _ => true
  | _ => false

/-- A configuration in which no fault of the spec can be met: no encode handler scales, and a pack that overflows wraps or
saturates (60_exceptions.md R290). -/
def Cfg.faultless (c : Cfg) : Bool :=
  c.ovfPolicy != .fault && c.enc.all fun en =>
    match scanHandler c .encode en.base with
    | some is => is.all fun i => !scalesForEncode i
    | none => true

/-- What one SUPERVISE pass makes of a counter (40_registry_supervisor.md R134). -/
def countedDown (x : Int) : Int := if 0 < x then x - 1 else if x = 0 then -1 else x

/-- The identifiers of the frames handed to `send()`, in order. -/
def sentIdents (es : List Event) : List (Nat × Bool) :=
  es.filterMap fun e =>
    match e with
    | .send f _ => some (f.ident.id, f.ident.ide)
    | _ => none

/-- The signal bus after the sets among these events, in order (20_memory.md R66, R77). -/
def applySets (sb : Bus) (es : List Event) : Bus :=
  es.foldl (fun sb e => match e with | .set k v => Bus.put sb k v | _ => sb) sb

/-- The encoders a SCHED at this tick count runs, in order: due buckets by index, each in list order (44_scheduler.md R243). -/
def dueEncoders (c : Cfg) (tickcnt : Nat) : List Nat :=
  (c.bkt.filter fun bk => bk.due tickcnt).flatMap fun bk => bk.list

/-- The timeouts raised, in order. -/
def timeoutsIn (es : List Event) : List Nat :=
  es.filterMap fun e =>
    match e with
    | .cond (.timeout i) => some i
    | _ => none

/-- The counter of an entry (10_state.md R37). -/
def cntAt (s : State) (i : Nat) : Option Int := s.cnt.bind fun l => l[i]?

/-- k SUPERVISE passes (40_registry_supervisor.md R137). -/
def passes : Nat → State → Out
  | 0, s => .next s
  | k + 1, s => andThen (passes k s) execSupervise

/-- An outcome with its next state changed. -/
def mapNext (f : State → State) : Out → Out
  | .next s => .next (f s)
  | .fault r => .fault r
  | .refused r => .refused r

/-! ## What an operation leaves alone -/

/-- No handler runs (42_codec_decode.md R170). -/
structure NoRun (s : State) : Prop where
  a : s.a = none
  v : s.v = none
  upc : s.upc = none
  hk : s.hk = none

/-- Engine state, configuration and inputs not yet taken are as they were (10_state.md R21, R36, R41). -/
structure KeepsControl (s t : State) : Prop where
  engstate : t.engstate = s.engstate
  initstat : t.initstat = s.initstat
  cfg : t.cfg = s.cfg
  inputs : t.inputs = s.inputs
  cfgIn : t.cfgIn = s.cfgIn

/-- What only the scheduler and its encoders change is as it was (20_memory.md R65). -/
structure KeepsTransmit (s t : State) : Prop where
  tickcnt : t.tickcnt = s.tickcnt
  rollcnt : t.rollcnt = s.rollcnt
  txstat : t.txstat = s.txstat
  txb : t.txb = s.txb
  idxB : t.idxB = s.idxB
  idxJ : t.idxJ = s.idxJ
  idxE : t.idxE = s.idxE
  tx : t.tx = s.tx
  freeCtr : t.freeCtr = s.freeCtr

/-- What only the dispatcher and the supervisor change is as it was (20_memory.md R65). -/
structure KeepsReceive (s t : State) : Prop where
  cnt : t.cnt = s.cnt
  frx : t.frx = s.frx
  hit : t.hit = s.hit
  idxI : t.idxI = s.idxI
  sb : t.sb = s.sb
  rx : t.rx = s.rx

/-! ## The answers of the transport as an influence (43_codec_encode.md R213, R214) -/

/-- An event without the answer of `send()`: the frame handed over, and no `TXDROP`. -/
def forgetAnswer (e : Event) : Option Event :=
  match e with
  | .send f _ => some (.send f .ok)
  | .cond (.txdrop _ _) => none
  | e => some e

/-- The state without what the answers of `send()` are recorded in: `TXSTAT`, the answers themselves, and their events. -/
def State.forgetAnswers (s : State) : State :=
  { s with txstat := s.txstat.map fun l => l.map fun _ => { valid := false, code := .ok },
           tx := [], freeCtr := 0, events := s.events.filterMap forgetAnswer }

/-! ## Legal words, as opcode_table.json gives them (30_encoding.md R118) -/

/-- The bits that must hold for a word to be an instruction: `mask` and `match` of a row. -/
structure Pattern where
  mask : Word
  value : Word
  deriving DecidableEq, Repr

/-- The 24 rows of the micro-instructions, in the table's order. -/
def microPatterns : List Pattern :=
  [⟨0xFFFFFFFFFFF0FFFF#64, 0x0100000000000000#64⟩, ⟨0xFF00003FFFFFFFFF#64, 0x0200000000000000#64⟩,
   ⟨0xFF00003FFFFFFFFF#64, 0x0300000000000000#64⟩, ⟨0xFF1F8FFFFFFFFFFF#64, 0x0400000000000000#64⟩,
   ⟨0xFFFFFFFF0000FFFF#64, 0x0500000000000000#64⟩, ⟨0xFFFFFFFF0000FFFF#64, 0x0600000000000000#64⟩,
   ⟨0xFFFFFFFFFFFF0000#64, 0x0700000000000000#64⟩, ⟨0xFFFFFFFFFFFF0000#64, 0x0800000000000000#64⟩,
   ⟨0xFFFFFFFFFFFF0000#64, 0x0900000000000000#64⟩, ⟨0xFFFFFFFFFFFF0000#64, 0x0A00000000000000#64⟩,
   ⟨0xFFFFFFFF0000FFFF#64, 0x0B00000000000000#64⟩, ⟨0xFFFFFFFF0000FFFF#64, 0x0C00000000000000#64⟩,
   ⟨0xFFFFFFFFFFFF0000#64, 0x0D00000000000000#64⟩, ⟨0xFFFFFFFFFFFF0000#64, 0x0E00000000000000#64⟩,
   ⟨0xFFFFFFFF00000000#64, 0x0F00000000000000#64⟩, ⟨0xFFFFFFFF00000000#64, 0x1000000000000000#64⟩,
   ⟨0xFFFFFFFF0000FFFF#64, 0x1100000000000000#64⟩, ⟨0xFFFFFFFF0000FFFF#64, 0x1200000000000000#64⟩,
   ⟨0xFF00003FFFFFFFFF#64, 0x1300000000000000#64⟩, ⟨0xFF00003FFFFFFFFF#64, 0x1400000000000000#64⟩,
   ⟨0xFF1F8FFFFFFFFFFF#64, 0x1500000000000000#64⟩, ⟨0xFF1F8FFF0000FFFF#64, 0x160000C000000000#64⟩,
   ⟨0xFFFFFFFFFFFFFFFF#64, 0x1700000000000000#64⟩, ⟨0xFFFFFFFFFFFFFFFF#64, 0x1800000000000000#64⟩]

/-- The range conditions a mask cannot express: `IMM` <= 8 for LENCHK, `SHIFT` <= 4 for ROLL (30_encoding.md R118). -/
def rangesHold (w : Word) : Prop :=
  ((w.extractLsb' 56 8).toNat = 0x01 → (w.extractLsb' 16 16).toNat ≤ 8) ∧
    ((w.extractLsb' 56 8).toNat = 0x16 → (w.extractLsb' 44 6).toNat ≤ 4)

/-! ## The table checks, as 45_engine_tick.md R264 lists them -/

/-- An identifier fits its addressing mode (`WF_ID`). -/
def IdFits (id : Nat) (ide : Bool) : Prop := id < 2 ^ 29 ∧ (ide = false → id < 2 ^ 11)

/-- The conditions of 45_engine_tick.md R264, row by row. -/
structure TableChecks (c : Cfg) : Prop where
  uniq : ∀ (i j : Nat) (ri rj : RegEntry), i ≠ j → c.reg[i]? = some ri → c.reg[j]? = some rj → (ri.id, ri.ide) ≠ (rj.id, rj.ide)
  regId : ∀ r ∈ c.reg, IdFits r.id r.ide
  encId : ∀ e ∈ c.enc, IdFits e.id e.ide
  filtId : ∀ b ∈ c.filt, ∀ x ∈ b.ids, IdFits x.id x.ide
  reload : ∀ r ∈ c.reg, r.reload = -1 ∨ (0 ≤ r.reload ∧ r.reload ≤ 2 ^ (c.cntW - 1) - 1)
  regAddr : ∀ r ∈ c.reg, r.decAddr < c.uc.length ∧ r.toAddr < c.uc.length
  encAddr : ∀ e ∈ c.enc, e.base < c.uc.length
  dlc : ∀ e ∈ c.enc, e.dlc ≤ 8
  per : ∀ b ∈ c.bkt, 1 ≤ b.per ∧ b.per < c.tickMod
  rising : ∀ (n : Nat) (b b' : Bucket), c.bkt[n]? = some b → c.bkt[n + 1]? = some b' → b.per < b'.per
  list : ∀ b ∈ c.bkt, ∀ e ∈ b.list, e < c.enc.length
  pool : ∀ p ∈ c.cpool, p.den ≠ 0
  catt : ∀ t ∈ c.catt, ∀ x ∈ t.dflt :: t.cand, x.cidx.toNat < c.cpool.length ∧ keyType c.ktype x.key ≠ none
  uct : ∀ u ∈ c.uct, u.c0.toNat < c.cpool.length ∧ u.c1.toNat < c.cpool.length
  param : 2 ≤ c.cntW ∧ 2 ≤ c.tickMod ∧ c.uc.length ≤ 65536

/-! ## The handler checks, as 45_engine_tick.md R265 lists them -/

/-- The conditions of 45_engine_tick.md R265, row by row, for the handler of kind `k` at `base` of an encoder of length `dlc` (which a
decode or timeout handler does not have): its scan is `is` followed by the terminator `z`, and L is `len`. -/
structure HandlerChecks (c : Cfg) (k : HandlerKind) (dlc base len : Nat) (is : List Instr) (z : Instr) : Prop where
  term : z = if k = .encode then .send else .end_
  termOnce : ∀ i ∈ is, i ≠ .send ∧ i ≠ .end_
  legal : ∀ (n : Nat) (i : Instr), (is ++ [z])[n]? = some i → ∃ w, c.uc[base + n]? = some w ∧ decodeMicro w = .ok i
  kind : ∀ i ∈ is ++ [z], kindAdmits k i = true
  lenFirst : k = .decode → ∃ n rest, is = .lenchk n :: rest ∧ n.toNat = len ∧ ∀ i ∈ rest, isLenchk i = false
  lenNone : k ≠ .decode → ∀ i ∈ is, isLenchk i = false
  encLen : k = .encode → len = dlc
  useA : ∀ (n : Nat) (i : Instr), is[n]? = some i → readsA i = true → ∃ m j, m < n ∧ is[m]? = some j ∧ writesA j = true
  useV : ∀ (n : Nat) (i : Instr), is[n]? = some i → readsV i = true → ∃ m j, m < n ∧ is[m]? = some j ∧ writesV j = true
  field : ∀ b n s w, .unpku b n s w ∈ is ∨ .unpks b n s w ∈ is ∨ .packu b n s w ∈ is ∨ .packs b n s w ∈ is →
    s.toNat + (w.toNat + 1) ≤ 8 * (n.toNat + 1) ∧ b.toNat + (n.toNat + 1) ≤ len
  fieldUnsigned : ∀ b n s w, .unpku b n s w ∈ is ∨ .packu b n s w ∈ is → w.toNat + 1 ≤ 63
  fieldByte : ∀ b x, .flgget b x ∈ is ∨ .flgput b x ∈ is ∨ (∃ r, .roll r b x ∈ is) → b.toNat < len
  const : ∀ n, .scdiv n ∈ is ∨ .scmul n ∈ is ∨ .ldvc n ∈ is ∨ .encmul n ∈ is ∨ .encdiv n ∈ is → n.toNat < c.cpool.length
  divisor : ∀ n p, .scdiv n ∈ is ∨ .encdiv n ∈ is → c.cpool[n.toNat]? = some p → p.num ≠ 0
  keyReal : ∀ key, .sbsetv key ∈ is → keyType c.ktype key = some .real
  keyInt : ∀ key, .sbseta key ∈ is ∨ .stclr key ∈ is ∨ .stset key ∈ is ∨ .sbgeta key ∈ is ∨ (∃ n, .catsel key n ∈ is) ∨
    (∃ n, .uconv key n ∈ is) → keyType c.ktype key = some .int
  keyAny : ∀ key, .sbgetv key ∈ is → keyType c.ktype key ≠ none
  tableCat : ∀ key n, .catsel key n ∈ is → n.toNat < c.catt.length
  tableUnit : ∀ key n, .uconv key n ∈ is → n.toNat < c.uct.length
  tableRoll : ∀ r b x, .roll r b x ∈ is → r.toNat < c.nRoll

/-! ## Who writes what (20_memory.md R65; 10_state.md R33 to R35, R43, R44) -/

/-- Operations that put every register back: RESET and INIT (10_state.md R54 to R56). -/
def resets : Instr → Bool
  | .reset _ | .init => true
  | _ => false

/-- Operations that run handlers, or call one that does (42_codec_decode.md R170). -/
def runsHandlers : Instr → Bool
  | .tick | .drain | .dispatch | .decode | .supervise | .supent | .tofire | .sched | .bucket | .encode => true
  | _ => false

/-- Micro-instructions that can end a run (42_codec_decode.md R172). -/
def canEndRun : Instr → Bool
  | .lenchk _ | .send | .end_ => true
  | _ => false

/-- Operations that may change `HK`: those that start and end a run. -/
def writesHk (i : Instr) : Bool := resets i || runsHandlers i || canEndRun i

/-- Operations that may change `A`: its writers (10_state.md R33), and those that start and end a run. -/
def mayWriteA (i : Instr) : Bool := writesA i || writesHk i

/-- Operations that may change `V`: its writers (10_state.md R34), and those that start and end a run. -/
def mayWriteV (i : Instr) : Bool := writesV i || writesHk i

/-- Operations that may change `UPC`: every micro-instruction, and those that start and end a run. -/
def writesUpc : Instr → Bool
  | .lookup | .rearm => false
  | _ => true

/-- Operations that may change `PHASE`: all but micro-instructions. -/
def writesPhase (i : Instr) : Bool :=
  match encode i with
  | .micro _ => false
  | _ => true

/-- Operations that may change `FRX`: DRAIN and what calls it. -/
def writesFrx : Instr → Bool
  | .reset _ | .init | .tick | .drain => true
  | _ => false

/-- Operations that may change `HIT`: LOOKUP, DRAIN's clear, and what calls them. -/
def writesHit : Instr → Bool
  | .reset _ | .init | .tick | .drain | .dispatch | .lookup => true
  | _ => false

/-- Operations that may change `I`. -/
def writesI : Instr → Bool
  | .reset _ | .init | .tick | .supervise => true
  | _ => false

/-- Operations that may change `B`. -/
def writesB : Instr → Bool
  | .reset _ | .init | .tick | .sched => true
  | _ => false

/-- Operations that may change `J`. -/
def writesJ : Instr → Bool
  | .reset _ | .init | .tick | .sched | .bucket => true
  | _ => false

/-- Operations that may change `E`. -/
def writesE : Instr → Bool
  | .reset _ | .init | .tick | .sched | .bucket | .encode => true
  | _ => false

/-- Operations that may change `CFG`, `ENGSTATE`, `INITSTAT`. -/
def writesConfig : Instr → Bool
  | .reset _ | .init => true
  | _ => false

/-- Operations that may change `TICKCNT`. -/
def writesTickcnt : Instr → Bool
  | .reset _ | .init | .sched | .tick => true
  | _ => false

/-- Operations that may change a counter: INIT, REARM, SUPENT and what calls them. -/
def writesCnt : Instr → Bool
  | .reset _ | .init | .tick | .drain | .dispatch | .rearm | .supervise | .supent => true
  | _ => false

/-- Operations that may change the signal bus: the four setters, and the runs of decode and timeout handlers. -/
def writesBus : Instr → Bool
  | .sbsetv _ | .sbseta _ | .stclr _ | .stset _ | .decode | .dispatch | .drain | .tofire | .supent | .supervise | .tick => true
  | _ => false

/-- Operations that may change `ROLLCNT`: INIT, ROLL and the runs of encode handlers. -/
def writesRollcnt : Instr → Bool
  | .reset _ | .init | .roll .. | .encode | .bucket | .sched | .tick => true
  | _ => false

/-- Operations that may change `TXSTAT`: INIT, SEND and the runs of encode handlers. -/
def writesTxstat : Instr → Bool
  | .reset _ | .init | .send | .encode | .bucket | .sched | .tick => true
  | _ => false

/-- Operations that may change `TXB`: ENCODE's clear and the pack instructions. -/
def writesTxb : Instr → Bool
  | .reset _ | .init | .packu .. | .packs .. | .flgput .. | .roll .. | .encode | .bucket | .sched | .tick => true
  | _ => false

end Sys2Proof.Machine
end

