-- ==== Sys2Proof/Certificates/Slice0/Obligations.lean ====
section
/-! DEFINITION. The statements for the provers. Each docstring names the rule of spec/ the statement formalises; where a clause
is the model's choice it names the log entry. -/

open Sys2Proof Sys2Proof.Machine

/-! ## Encodings -/

/-- Decoding the code of a well-formed instruction gives it back, with every operand at every value its field admits
(30_encoding.md R96 to R98, R105, R107). -/
def Obligations.DecodeOfEncode : Prop := ∀ i : Instr, i.wf = true → decode (encode i) = .ok i

/-- 30_encoding.md R118 (the spec's own inference from R96 to R98 and R109): a word decodes exactly where `match`, `mask` and the range conditions of opcode_table.json hold, what it
decodes to is well-formed and has that word as its code, and no two words decode to the same instruction. -/
def Obligations.LegalWordsAreTheTable : Prop :=
  (∀ w : Word, (∃ i, decodeMicro w = .ok i) ↔ (∃ p ∈ microPatterns, w &&& p.mask = p.value) ∧ rangesHold w) ∧
  (∀ (w : Word) (i : Instr), decodeMicro w = .ok i → i.wf = true ∧ encode i = .micro w) ∧
  (∀ (w w' : Word) (i : Instr), decodeMicro w = .ok i → decodeMicro w' = .ok i → w = w')

/-- Words written out from 30_encoding.md R96 to R98, R105 and R107 decode to the instructions they stand for. -/
def Obligations.SampleWordsDecode : Prop :=
  decodeMicro 0x0100000000080000#64 = .ok (.lenchk 8) ∧
  decodeMicro 0x020403C000000000#64 = .ok (.unpku 0 1 0 15) ∧
  decodeMicro 0x0700000000000010#64 = .ok (.sbsetv 0x0010) ∧
  decodeMicro 0x0F00000000030060#64 = .ok (.catsel 0x0060 3) ∧
  decodeMicro 0x0B000000FFFF0000#64 = .ok (.ldai 0xFFFF) ∧
  decodeMicro 0x16E000C000000000#64 = .ok (.roll 0 7 0) ∧
  decodeMicro 0x1800000000000000#64 = .ok .end_ ∧
  decodePhase 9#4 = .ok .sched ∧ decodeHost 2#3 = .ok .tick

/-- The bit image of a frame is laid out as 30_encoding.md R91 says, and a frame and its image determine one another. -/
def Obligations.FrameWord : Prop :=
  (∀ f : Frame,
    (f.image.extractLsb' 0 29).toNat = f.ident.id ∧ f.image.getLsbD 29 = f.ident.ide ∧ f.image.getLsbD 30 = f.rtr ∧
      (f.image.extractLsb' 31 4).toNat = f.len.val ∧
      (∀ (i : Nat) (h : i < 8), f.image.extractLsb' (35 + 8 * i) 8 = f.payload[i]) ∧
      frameOfImage f.image = some f) ∧
  (∀ (w : BitVec 99) (f : Frame), frameOfImage w = some f → f.image = w)

/-- The images of the table entries have their fields at the bits 30_encoding.md R93 to R95 and R99 to R102 give them, in the order
those rules give the words that follow, and lose nothing: an entry whose fields fit is read back from its image, and the
fixed-size images are determined by what they are read as. Where the two bits of a key in `KTYPE` stand is the model's choice
(log 26). -/
def Obligations.TableImages : Prop :=
  (∀ r : RegEntry, r.id < 2 ^ 29 → r.decAddr < 2 ^ 16 → r.toAddr < 2 ^ 16 → -(2 ^ 15) ≤ r.reload → r.reload < 2 ^ 15 →
    (r.image.extractLsb' 0 29).toNat = r.id ∧ r.image.getLsbD 29 = r.ide ∧ (r.image.extractLsb' 30 16).toInt = r.reload ∧
      (r.image.extractLsb' 46 16).toNat = r.decAddr ∧ (r.image.extractLsb' 62 16).toNat = r.toAddr ∧
      regOfImage r.image = r) ∧
  (∀ w, (regOfImage w).image = w) ∧
  (∀ e : EncEntry, e.id < 2 ^ 29 → e.dlc < 16 → e.base < 2 ^ 16 →
    (e.image.extractLsb' 0 29).toNat = e.id ∧ e.image.getLsbD 29 = e.ide ∧ (e.image.extractLsb' 30 4).toNat = e.dlc ∧
      (e.image.extractLsb' 34 16).toNat = e.base ∧ encOfImage e.image = e) ∧
  (∀ w, (encOfImage w).image = w) ∧
  (∀ b : Bucket, b.per < 2 ^ 16 → (∀ e ∈ b.list, e < 2 ^ 16) →
    (b.image.1.extractLsb' 0 16).toNat = b.per ∧ (b.image.1.extractLsb' 16 16).toNat = b.list.length ∧
      b.image.2.map BitVec.toNat = b.list ∧ bucketOfImage b.image.1 b.image.2 = some b) ∧
  (∀ p : PoolEntry, p.image.extractLsb' 0 32 = p.num ∧ p.image.extractLsb' 32 32 = p.den ∧ poolOfImage p.image = p) ∧
  (∀ w, (poolOfImage w).image = w) ∧
  (∀ t : CatTable, t.image.1.toNat = t.cand.length ∧
    t.image.2.map (fun w => (w.extractLsb' 0 16, w.extractLsb' 16 16)) = (t.cand ++ [t.dflt]).map (fun x => (x.key, x.cidx)) ∧
      catOfImage t.image.1 t.image.2 = some t) ∧
  (∀ u : UnitConv, u.image.extractLsb' 0 16 = u.c0 ∧ u.image.extractLsb' 16 16 = u.c1 ∧ uctOfImage u.image = u) ∧
  (∀ w, (uctOfImage w).image = w) ∧
  (∀ t, (keyTypeImage t).getLsbD 0 = (t == some .real) ∧ (keyTypeImage t).getLsbD 1 = t.isSome ∧
    keyTypeOfImage (keyTypeImage t) = t) ∧
  (∀ b : FilterBank, (∀ x ∈ b.ids, x.id < 2 ^ 29) →
    b.image.1.extractLsb' 0 8 = b.bank ∧ (b.image.1.extractLsb' 8 8).toNat = b.ids.length ∧
      b.image.2.map (fun w => ((w.extractLsb' 0 29).toNat, w.getLsbD 29)) = b.ids.map (fun x => (x.id, x.ide)) ∧
      filterOfImage b.image.1 b.image.2 = some b)

/-! ## The step -/

/-- One step runs the instruction decoded at the machine's position: between operations the host's next command (its inputs
taken, log 7), inside a TICK the operation of the phase, inside a handler run the word at `UPC`; then the sequencer goes on as
`afterOp` and `afterMicro` say (the model's fetch, logs 7 and 8). -/
def Obligations.StepRunsDecoded : Prop :=
  (∀ (s : State) (r : HostRequest) (rest : List HostRequest) (i : Instr),
    s.upc = none → s.phase = .idle → s.inputs = r :: rest → decode (.host r.word) = .ok i → i.wf = true →
      step s = exec i (s.take r rest)) ∧
  (∀ (s : State) (i : Instr), s.upc = none → decode (.phase s.phase.code) = .ok i → i.wf = true →
      step s = andThen (exec i s) (afterOp s.phase)) ∧
  (∀ (s : State) (c : Cfg) (u : Nat) (w : Word) (i : Instr),
    s.upc = some u → s.cfg = some c → c.uc[u]? = some w → decode (.micro w) = .ok i → i.wf = true →
      step s = andThen (exec i s) afterMicro)

/-- The host's commands (30_encoding.md R105, 45_engine_tick.md R270): `RST` selects RESET whatever `CMD` is, `CMD` = 1 and 2 are
refused outside their engine state, `CMD` = 3 is refused in any state, and `CMD` = 0 does nothing but take the environment's
moves (log 7). -/
def Obligations.HostCommands : Prop :=
  ∀ (s : State) (r : HostRequest) (rest : List HostRequest),
    s.upc = none → s.phase = .idle → s.inputs = r :: rest →
      (∀ cmd : BitVec 2, r.word = 1#1 ++ cmd → step s = exec (.reset cmd) (s.take r rest)) ∧
      (r.word = 0 → step s = .next (s.take r rest)) ∧
      (r.word = 1 → s.engstate ≠ .unconfig → step s = .refused .notAdmitted) ∧
      (r.word = 2 → s.engstate ≠ .run → step s = .refused .notAdmitted) ∧
      (r.word = 3 → step s = .refused .reservedCommand)

/-- Stepping through a handler run word by word comes to the state the whole run comes to (42_codec_decode.md R170, R172; the
model's two views of a run, log 8). -/
def Obligations.MicroStepsAgree : Prop :=
  ∀ (n : Nat) (s t : State), s.upc ≠ none → runLoop n s = .next t →
    ∃ k, k ≤ n ∧ Host.Core.run Sys2Proof.core k s = afterMicro t

/-! ## RESET and INIT -/

/-- RESET (45_engine_tick.md R261), in every state and whatever `CMD` is. `TXB`, which the rule leaves out, is left out. -/
def Obligations.ResetResult : Prop :=
  ∀ (cmd : BitVec 2) (s : State), ∃ t, exec (.reset cmd) s = .next t ∧
    t.engstate = .unconfig ∧ t.initstat = .noinit ∧ NoConfig t ∧ AtRest t ∧
    t.sb = s.sb ∧ t.inputs = s.inputs ∧ t.cfgIn = s.cfgIn ∧ t.rx = s.rx ∧ t.tx = s.tx ∧ t.events = []

/-- INIT in `UNCONFIG`: what it leaves when all checks pass (10_state.md R55), and when one fails (R56), with what it records
(45_engine_tick.md R267, 60_exceptions.md R285, R286). -/
def Obligations.InitResult : Prop :=
  ∀ s : State, s.engstate = .unconfig → ∃ t, exec .init s = .next t ∧ AtRest t ∧
    t.sb = s.sb ∧ t.inputs = s.inputs ∧ t.cfgIn = s.cfgIn ∧ t.rx = s.rx ∧ t.tx = s.tx ∧
    (checkCfg s.cfgIn = .ok →
      t.engstate = .run ∧ t.initstat = .initOk ∧ t.tickcnt = 0 ∧ t.cfg = some s.cfgIn ∧
      t.cnt = some (s.cfgIn.reg.map fun r => r.reload) ∧
      (∃ l, t.rollcnt = some l ∧ l.length = s.cfgIn.nRoll ∧ ∀ x ∈ l, x = 0) ∧
      (∃ l, t.txstat = some l ∧ l.length = s.cfgIn.enc.length ∧ ∀ x ∈ l, x.valid = false) ∧
      t.events = s.cfgIn.filt.map fun b => .cfgFilt b.bank b.ids) ∧
    (checkCfg s.cfgIn = .dup →
      t.engstate = .cfgerr ∧ t.initstat = .cfgdup ∧ NoConfig t ∧ t.events = [.cond .cfgdup]) ∧
    (checkCfg s.cfgIn = .bad →
      t.engstate = .cfgerr ∧ t.initstat = .cfgbad ∧ NoConfig t ∧ t.events = [.cond .cfgbad])

/-- 45_engine_tick.md R263: a duplicate gives `DUP` whatever else is wrong; without one, any other failed check gives `BAD`. -/
def Obligations.CheckOrder : Prop :=
  ∀ c : Cfg,
    (checkCfg c = .dup ↔
      ∃ (i j : Nat) (ri rj : RegEntry), i ≠ j ∧ c.reg[i]? = some ri ∧ c.reg[j]? = some rj ∧ ri.id = rj.id ∧ ri.ide = rj.ide) ∧
    (checkCfg c ≠ .dup → (checkCfg c = .bad ↔ wfRest c = false) ∧ (checkCfg c = .ok ↔ wfRest c = true))

/-- 45_engine_tick.md R264: a configuration passes exactly where every row of the table of checks holds and every handler passes
its own (R265). -/
def Obligations.TableChecksMeaning : Prop := ∀ c : Cfg, checkCfg c = .ok ↔ TableChecks c ∧ wfHandlers c = true

/-- 45_engine_tick.md R265: a handler passes its checks exactly where every row of the table of handler checks holds
(`HandlerChecks`) of the instructions its words decode to, from its base to its first terminator; and `check` makes them of every
handler, with the kind and the length the rule gives it. -/
def Obligations.HandlerShape : Prop :=
  ∀ c : Cfg,
    (∀ (k : HandlerKind) (dlc base : Nat),
      wfHandler c k dlc base = true ↔ ∃ len is z, HandlerChecks c k dlc base len is z) ∧
    (wfHandlers c = true ↔
      (∀ r ∈ c.reg, wfHandler c .decode 0 r.decAddr = true ∧ wfHandler c .timeout 0 r.toAddr = true) ∧
      ∀ e ∈ c.enc, wfHandler c .encode e.dlc e.base = true)

/-! ## Invariants -/

/-- The invariant between operations, the model's (`Inv`; 10_state.md R54, R57), holds at reset. -/
def Obligations.InvAtReset : Prop := Inv State.reset

/-- From every state that meets the invariant, every step that answers a state answers one that meets it: "INIT establishes it and
every TICK preserves it" (10_state.md R57, the spec's own inference), with the model's canonical form of the two stores (logs 3
and 4). -/
def Obligations.StepKeepsInv : Prop := ∀ s t : State, Inv s → step s = .next t → Inv t

/-- 45_engine_tick.md R265 (the consequence the spec draws), R269 (the spec's own inference), 60_exceptions.md R290: a TICK of a checked configuration, on a signal bus that
keeps its contract, answers a next state or one of the two faults of the spec; it meets no undefined register, no byte or
index out of range, no zero divisor, no unknown key and no illegal word. -/
def Obligations.CheckedTickOutcome : Prop :=
  ∀ (c : Cfg) (s : State), Ready c s → s.engstate = .run → BusTyped c s.sb → SpecOutcome c (exec .tick s)

/-- 10_state.md R33 to R44 (the columns "written by") and 20_memory.md R65 (the spec's own inference): which registers and spaces an
operation leaves as they are, in a checked configuration. -/
def Obligations.OnlyWriters : Prop :=
  ∀ (c : Cfg) (i : Instr) (s t : State), Ready c s → exec i s = .next t →
    (writesConfig i = false → t.cfg = s.cfg ∧ t.engstate = s.engstate ∧ t.initstat = s.initstat) ∧
    (writesTickcnt i = false → t.tickcnt = s.tickcnt) ∧
    (writesCnt i = false → t.cnt = s.cnt) ∧
    (writesBus i = false → t.sb = s.sb) ∧
    (writesRollcnt i = false → t.rollcnt = s.rollcnt) ∧
    (writesTxstat i = false → t.txstat = s.txstat) ∧
    (writesTxb i = false → t.txb = s.txb) ∧
    (mayWriteA i = false → t.a = s.a) ∧ (mayWriteV i = false → t.v = s.v) ∧
    (writesUpc i = false → t.upc = s.upc) ∧ (writesHk i = false → t.hk = s.hk) ∧
    (writesPhase i = false → t.phase = s.phase) ∧
    (writesFrx i = false → t.frx = s.frx) ∧ (writesHit i = false → t.hit = s.hit) ∧
    (writesI i = false → t.idxI = s.idxI) ∧ (writesB i = false → t.idxB = s.idxB) ∧
    (writesJ i = false → t.idxJ = s.idxJ) ∧ (writesE i = false → t.idxE = s.idxE)

/-- 20_memory.md R66, R77: whatever an operation does, the signal bus afterwards is the one before with the sets it recorded applied
in their order: no set goes unrecorded, none to another key. A TICK's list is its own (log 15); RESET and INIT set nothing. -/
def Obligations.BusFollowsSets : Prop :=
  ∀ (i : Instr) (s t : State), exec i s = .next t →
    (i = .tick → t.sb = applySets s.sb t.events) ∧
    (resets i = true → t.sb = s.sb) ∧
    (i ≠ .tick → resets i = false → ∃ es, t.events = s.events ++ es ∧ t.sb = applySets s.sb es)

/-- 20_memory.md R62, 60_exceptions.md R303, 93_implementation_defined.md U22: a TICK of a checked configuration is refused on a signal
bus that holds a value of another type at a declared key, naming such a key (log 5), and one that completes leaves a typed bus. -/
def Obligations.TickNeedsTypedBus : Prop :=
  ∀ (c : Cfg) (s : State), Ready c s → s.engstate = .run →
    (∀ t, exec .tick s = .next t → BusTyped c s.sb ∧ BusTyped c t.sb) ∧
    (¬ BusTyped c s.sb → ∃ (k : Key) (ty : SigType) (x : SigVal), exec .tick s = .refused (.busType k) ∧
      keyType c.ktype k = some ty ∧ Bus.find s.sb k = some x ∧ x.type ≠ ty)

/-- 00_scope.md R19: an instruction that reads `A` or `V` while it holds `NONE` faults. -/
def Obligations.ReadNoneFaults : Prop :=
  ∀ (i : Instr) (s : State),
    (readsA i = true → s.a = none → exec i s = .fault (.readNone .a)) ∧
    (readsV i = true → s.v = none → exec i s = .fault (.readNone .v))

/-! ## The receive dispatcher -/

/-- 40_registry_supervisor.md R132: LOOKUP finds the one entry with the frame's identifier and addressing mode, or misses. -/
def Obligations.LookupLaw : Prop :=
  ∀ (c : Cfg) (s : State) (f : Frame), Ready c s → s.frx = some f →
    ∃ h, exec .lookup s = .next { s with phase := .lookup, hit := some h } ∧
      (∀ i, h = .found i ↔ ∃ r, c.reg[i]? = some r ∧ r.id = f.ident.id ∧ r.ide = f.ident.ide) ∧
      (∀ (i j : Nat) (ri rj : RegEntry), c.reg[i]? = some ri → c.reg[j]? = some rj → ri.id = f.ident.id → ri.ide = f.ident.ide →
        rj.id = f.ident.id → rj.ide = f.ident.ide → i = j)

/-- 41_dispatcher.md R152: REARM loads the reload value, whatever the counter held, and changes nothing else. -/
def Obligations.RearmResult : Prop :=
  ∀ (c : Cfg) (s : State) (i : Nat) (r : RegEntry) (l : List Int),
    s.hit = some (.found i) → s.cfg = some c → c.reg[i]? = some r → s.cnt = some l → i < l.length →
      exec .rearm s = .next { s with phase := .rearm, cnt := some (l.set i r.reload) }

/-- DRAIN, DISPATCH and DECODE of a checked configuration complete (41_dispatcher.md R150, R151, R153), and change nothing of the
engine state, the configuration, the scheduler and the encoders, and the signal bus by the recorded sets alone, in their order
(20_memory.md R66); DRAIN takes every frame; DECODE changes no counter. -/
def Obligations.ReceiveCompletes : Prop :=
  ∀ (c : Cfg) (s : State), Ready c s →
    (∃ t es, exec .drain s = .next t ∧ t.events = s.events ++ es ∧ t.sb = applySets s.sb es ∧ t.rx = [] ∧ t.idxI = s.idxI ∧
      KeepsControl s t ∧ KeepsTransmit s t) ∧
    (∀ f, s.frx = some f →
      (∃ t es, exec .dispatch s = .next t ∧ t.events = s.events ++ es ∧ t.sb = applySets s.sb es ∧ t.frx = some f ∧ t.rx = s.rx ∧
        t.idxI = s.idxI ∧ KeepsControl s t ∧ KeepsTransmit s t) ∧
      (∀ i, s.hit = some (.found i) → i < c.reg.length →
        ∃ t es, exec .decode s = .next t ∧ t.events = s.events ++ es ∧ t.sb = applySets s.sb es ∧ NoRun t ∧ t.cnt = s.cnt ∧
          t.frx = some f ∧ t.hit = s.hit ∧ t.rx = s.rx ∧ t.idxI = s.idxI ∧ KeepsControl s t ∧ KeepsTransmit s t))

/-- 41_dispatcher.md R155: draining a frame that matches no entry leaves two events and no other trace. -/
def Obligations.UnregisteredFrameDropped : Prop :=
  ∀ (c : Cfg) (s : State) (f : Frame) (fs : List Frame),
    s.cfg = some c → s.rx = f :: fs → s.frx = none → s.hit = none →
    (∀ r ∈ c.reg, ¬(r.id = f.ident.id ∧ r.ide = f.ident.ide)) →
      exec .drain s =
        exec .drain { s with rx := fs,
                             events := s.events ++ [.recv (some f), .cond (.unreg f.ident.id f.ident.ide)] }

/-- 60_exceptions.md R282 (41_dispatcher.md R156): a frame of an entry with a length other than the one its handler's LENCHK names
reloads the entry's counter, records the mismatch, and changes nothing else; the drain goes on. -/
def Obligations.WrongLengthOnlyRearms : Prop :=
  ∀ (c : Cfg) (s : State) (f : Frame) (fs : List Frame) (i : Nat) (r : RegEntry) (w : Word) (n : BitVec 16) (l : List Int),
    Ready c s → NoRun s → s.rx = f :: fs → s.frx = none → s.hit = none → s.cnt = some l →
    c.reg[i]? = some r → r.id = f.ident.id → r.ide = f.ident.ide →
    c.uc[r.decAddr]? = some w → decodeMicro w = .ok (.lenchk n) → f.len.val ≠ n.toNat →
      exec .drain s =
        exec .drain { s with rx := fs, cnt := some (l.set i r.reload),
                             events := s.events ++ [.recv (some f),
                               .cond (.lenmis f.ident.id f.ident.ide f.len.val n.toNat)] }

/-- 41_dispatcher.md R158: DISPATCH does the same whatever the remote-request flag of the frame is. -/
def Obligations.RtrIgnored : Prop :=
  ∀ (s : State) (f : Frame) (b : Bool),
    exec .dispatch { s with frx := some { f with rtr := b } } =
      mapNext (fun t => { t with frx := some { f with rtr := b } }) (exec .dispatch { s with frx := some f })

/-- 20_memory.md R83 (the spec's own inference): two frames that differ only in payload bytes at or above their length are dispatched alike. -/
def Obligations.MeaninglessBytesUnread : Prop :=
  ∀ (c : Cfg) (s : State) (f g : Frame), Ready c s →
    g.ident = f.ident → g.rtr = f.rtr → g.len = f.len → (∀ j, j < f.len.val → g.space j = f.space j) →
      exec .dispatch { s with frx := some g } =
        mapNext (fun t => { t with frx := some g }) (exec .dispatch { s with frx := some f })

/-! ## The timeout supervisor -/

/-- 40_registry_supervisor.md R134: the three cases of SUPENT, chosen by the counter's value when the entry is visited. -/
def Obligations.SupentCases : Prop :=
  ∀ (c : Cfg) (s : State) (i : Nat) (l : List Int) (x : Int),
    Ready c s → s.idxI = some i → s.cnt = some l → l[i]? = some x →
      (0 < x → exec .supent s = .next { s with phase := .supent, cnt := some (l.set i (x - 1)) }) ∧
      (x = 0 → ∃ t, exec .tofire (s.enter .supent) = .next t ∧
        exec .supent s = .next { t with phase := .supent, cnt := some (l.set i (-1)) }) ∧
      (x < 0 → exec .supent s = .next { s with phase := .supent })

/-- 40_registry_supervisor.md R135: TOFIRE of a checked configuration completes; it records `TIMEOUT` once, before anything else,
and after that its handler only sets signals, in the order of their records (20_memory.md R66); no counter and nothing else
changes. -/
def Obligations.TofireResult : Prop :=
  ∀ (c : Cfg) (s : State) (i : Nat), Ready c s → s.idxI = some i → i < c.reg.length →
    ∃ t es, exec .tofire s = .next t ∧ t.events = s.events ++ .cond (.timeout i) :: es ∧
      (∀ e ∈ es, ∃ k v, e = .set k v) ∧ t.sb = applySets s.sb es ∧
      t = { s with phase := .tofire, a := none, v := none, upc := none, hk := none, sb := t.sb, events := t.events }

/-- 40_registry_supervisor.md R133, R134: one SUPERVISE pass takes every counter one step, and raises `TIMEOUT` for exactly the
entries it finds at 0, in ascending order; the signal bus changes by the recorded sets alone, in their order (20_memory.md R66).
That `I` holds `NONE` afterwards is the model's choice (log 27). -/
def Obligations.SupervisePass : Prop :=
  ∀ (c : Cfg) (s : State) (l : List Int), Ready c s → s.cnt = some l →
    ∃ t es, exec .supervise s = .next t ∧ t.cnt = some (l.map countedDown) ∧ t.events = s.events ++ es ∧
      timeoutsIn es = (List.range l.length).filter (fun i => l[i]? == some 0) ∧ t.sb = applySets s.sb es ∧
      t.idxI = none ∧ t.frx = s.frx ∧ t.hit = s.hit ∧ t.rx = s.rx ∧ KeepsControl s t ∧ KeepsTransmit s t

/-- 40_registry_supervisor.md R137 (the spec's own inference from R133 and R134, here in passes) and R138: a counter at R fires in
pass R+1 and in no other, and stays at -1. -/
def Obligations.FiresOnce : Prop :=
  ∀ (c : Cfg) (s : State) (i R : Nat), Ready c s → cntAt s i = some (R : Int) →
    ∀ k : Nat, ∃ t t' es, passes k s = .next t ∧ exec .supervise t = .next t' ∧ t'.events = t.events ++ es ∧
      (Event.cond (.timeout i) ∈ es ↔ k = R) ∧
      cntAt t' i = some (if k < R then (R : Int) - (k + 1) else -1)

/-- What a whole TICK does to every counter: a matching frame of the same tick reloads it before the supervisor reads it
(40_registry_supervisor.md R139), then the one value the supervisor finds decides (R134). -/
def Obligations.TickCounters : Prop :=
  ∀ (c : Cfg) (s t : State), Ready c s → exec .tick s = .next t →
    ∀ (i : Nat) (r : RegEntry) (x y : Int), c.reg[i]? = some r → cntAt s i = some x →
      ((∃ f ∈ s.rx, r.id = f.ident.id ∧ r.ide = f.ident.ide) → y = r.reload) →
      ((∀ f ∈ s.rx, ¬(r.id = f.ident.id ∧ r.ide = f.ident.ide)) → y = x) →
        cntAt t i = some (countedDown y) ∧ (Event.cond (.timeout i) ∈ t.events ↔ y = 0)

/-! ## The scheduler and the encoders -/

/-- 44_scheduler.md R241 (the spec's own inference): counted from the last INIT, `TICKCNT` after TICK number k is k mod `TICK_MOD`,
whatever the environment does between the ticks, and however many of them complete. -/
def Obligations.TicksCounted : Prop :=
  ∀ (c : Cfg) (σ : Nat → State) (r : Nat → HostRequest) (rest : Nat → List HostRequest) (n : Nat),
    (σ 0).cfg = some c → (σ 0).tickcnt = 0 → 2 ≤ c.tickMod →
    (∀ k, k < n → exec .tick ((σ k).take (r k) (rest k)) = .next (σ (k + 1))) →
      ∀ k, k ≤ n → (σ k).tickcnt = k % c.tickMod

/-- TICK, SCHED, BUCKET and ENCODE complete where no fault of the spec can be met: a checked configuration without scaling for
encode and without the `fault` policy, on a signal bus that keeps its contract (45_engine_tick.md R268, R269; 44_scheduler.md
R240, R242; 43_codec_encode.md R200). SCHED and what it calls leave the registers of the dispatcher and the supervisor, and the
signal bus, as they are. That `B` holds `NONE` after SCHED and `J` after BUCKET is the model's choice (log 27). -/
def Obligations.TransmitCompletes : Prop :=
  ∀ (c : Cfg) (s : State), Ready c s → c.faultless = true → BusTyped c s.sb →
    (s.engstate = .run → ∃ t, exec .tick s = .next t ∧ t.phase = .idle ∧ t.rx = [] ∧ t.idxI = none ∧ t.idxB = none ∧
      t.tickcnt = (s.tickcnt + 1) % c.tickMod ∧ KeepsControl s t) ∧
    (∃ t, exec .sched s = .next t ∧ t.idxB = none ∧ t.tickcnt = (s.tickcnt + 1) % c.tickMod ∧ KeepsControl s t ∧
      KeepsReceive s t) ∧
    (∀ b bk, s.idxB = some b → c.bkt[b]? = some bk →
      (∃ t, exec .bucket s = .next t ∧ t.idxB = some b ∧ t.idxJ = none ∧ t.tickcnt = s.tickcnt ∧ KeepsControl s t ∧
        KeepsReceive s t) ∧
      (∀ j e, s.idxJ = some j → bk.list[j]? = some e →
        ∃ t, exec .encode s = .next t ∧ NoRun t ∧ t.idxB = some b ∧ t.idxJ = some j ∧ t.idxE = none ∧ t.tickcnt = s.tickcnt ∧
          KeepsControl s t ∧ KeepsReceive s t))

/-- 43_codec_encode.md R200: ENCODE makes exactly one `send()`, its last act, of a frame with the encoder's identifier, no remote
request, its `DLC`, and zero bytes from there on (20_memory.md R61); the answer is in `TXSTAT`. -/
def Obligations.EncodeSendsOneFrame : Prop :=
  ∀ (c : Cfg) (s t : State) (b j e : Nat) (bk : Bucket) (en : EncEntry),
    Ready c s → s.idxB = some b → c.bkt[b]? = some bk → s.idxJ = some j → bk.list[j]? = some e → c.enc[e]? = some en →
    exec .encode s = .next t →
      ∃ (es : List Event) (f : Frame) (st : SendStatus) (l : List TxStat),
        t.events = s.events ++ es ++ (.send f st :: if st = .ok then [] else [.cond (.txdrop e st)]) ∧
        sentIdents es = [] ∧ f.ident.id = en.id ∧ f.ident.ide = en.ide ∧ f.rtr = false ∧ f.len.val = en.dlc ∧
        (∀ n, en.dlc ≤ n → n < 8 → f.space n = 0) ∧
        t.txstat = some l ∧ l[e]? = some { valid := true, code := st } ∧ t.idxE = none ∧ NoRun t

/-- 43_codec_encode.md R200, corner case: an encode handler that is only SEND sends an all-zero payload, and nothing else
happens. Two clauses of the exact next state are the model's choice: that `TXB` keeps the all-zero buffer after ENCODE (log 3:
R35 and U18 leave it open), and that the answer is the first one listed in `tx`, which is then taken from the list (log 6). -/
def Obligations.EncodeOnlySend : Prop :=
  ∀ (c : Cfg) (s : State) (b j e : Nat) (bk : Bucket) (en : EncEntry) (l : List TxStat) (st : SendStatus)
    (rest : List SendStatus),
    Ready c s → s.idxB = some b → c.bkt[b]? = some bk → s.idxJ = some j → bk.list[j]? = some e → c.enc[e]? = some en →
    c.uc[en.base]? = some 0x1700000000000000#64 → s.txstat = some l → s.tx = st :: rest →
      ∃ f : Frame, f.ident.id = en.id ∧ f.ident.ide = en.ide ∧ f.rtr = false ∧ f.len.val = en.dlc ∧ (∀ n, f.space n = 0) ∧
        exec .encode s =
          .next { s with phase := .encode, idxE := none, a := none, v := none, upc := none, hk := none, txb := [], tx := rest,
                         txstat := some (l.set e { valid := true, code := st }),
                         events := s.events ++ (.send f st :: if st = .ok then [] else [.cond (.txdrop e st)]) }

/-- 44_scheduler.md R243 (the spec's own inference from R240 and R242), R244: the frames a TICK hands to `send()` are those of the due buckets, fastest period first, each
bucket's in list order, none skipped, whatever `send()` answers. -/
def Obligations.SendsInOrder : Prop :=
  ∀ (c : Cfg) (s t : State), Ready c s → exec .tick s = .next t →
    sentIdents t.events =
      (dueEncoders c t.tickcnt).filterMap fun e => c.enc[e]?.map fun en => (en.id, en.ide)

/-- 43_codec_encode.md R214: two TICKs that differ only in the answers of `send()`, the listed ones and so the number of free ones
taken (log 6), end alike but for `TXSTAT` and the record of the answers; a fault is met in both or in neither. -/
def Obligations.SendAnswersStayLocal : Prop :=
  ∀ (s : State) (xs ys : List SendStatus),
    mapNext State.forgetAnswers (exec .tick { s with tx := xs }) =
      mapNext State.forgetAnswers (exec .tick { s with tx := ys })

/-! ## Micro-instructions of decode and timeout handlers -/

/-- 41_dispatcher.md R154: LENCHK goes on where the lengths are equal, and ends the run with a record where they differ. -/
def Obligations.LenchkResult : Prop :=
  ∀ (n : BitVec 16) (s : State) (f : Frame) (u : Nat), s.frx = some f → s.upc = some u →
    (f.len.val = n.toNat → exec (.lenchk n) s = .next { s with upc := some (u + 1) }) ∧
    (f.len.val ≠ n.toNat →
      exec (.lenchk n) s =
        .next { s with a := none, v := none, upc := none, hk := none,
                       events := s.events ++ [.cond (.lenmis f.ident.id f.ident.ide f.len.val n.toNat)] })

/-- UNPKU, UNPKS and FLGGET (42_codec_decode.md R174 to R176) take bits of the payload read as one 64-bit number
(20_memory.md R68, the spec's own inference), and change `A` only. -/
def Obligations.UnpackResult : Prop :=
  ∀ (byte nb1 : BitVec 3) (shift w1 : BitVec 6) (s : State) (f : Frame) (u : Nat), s.frx = some f → s.upc = some u →
    (shift.toNat + (w1.toNat + 1) ≤ 8 * (nb1.toNat + 1) → byte.toNat + (nb1.toNat + 1) ≤ 8 →
      (w1.toNat + 1 ≤ 63 →
        exec (.unpku byte nb1 shift w1) s =
          .next { s with
            a := some (((payloadBits f.payload).extractLsb' (8 * byte.toNat + shift.toNat) (w1.toNat + 1)).setWidth 64),
            upc := some (u + 1) }) ∧
      exec (.unpks byte nb1 shift w1) s =
        .next { s with
          a := some (((payloadBits f.payload).extractLsb' (8 * byte.toNat + shift.toNat) (w1.toNat + 1)).signExtend 64),
          upc := some (u + 1) }) ∧
    (shift.toNat ≤ 7 →
      exec (.flgget byte shift) s =
        .next { s with
          a := some (if (payloadBits f.payload).getLsbD (8 * byte.toNat + shift.toNat) then 1 else 0),
          upc := some (u + 1) })

/-- SCDIV and SCMUL (42_codec_decode.md R177, R178): the exact quotient and the exact product, in `V` only. -/
def Obligations.ScaleResult : Prop :=
  ∀ (n : BitVec 16) (s : State) (c : Cfg) (p : PoolEntry) (a : BitVec 64) (u : Nat),
    s.a = some a → s.upc = some u → s.cfg = some c → c.cpool[n.toNat]? = some p → p.den ≠ 0 →
    (p.num ≠ 0 →
      exec (.scdiv n) s =
        .next { s with v := some ((a.toInt : Rat) / ((p.num.toInt : Rat) / (p.den.toNat : Rat))), upc := some (u + 1) }) ∧
    exec (.scmul n) s =
      .next { s with v := some ((a.toInt : Rat) * ((p.num.toInt : Rat) / (p.den.toNat : Rat))), upc := some (u + 1) }

/-- SBSETV (42_codec_decode.md R179): one set of a real, the value of `V` itself under the default `NUM.store_real`, and under any
other where `NUM_EXACT_DYADIC` speaks. -/
def Obligations.SbsetvResult : Prop :=
  ∀ (k : Key) (s : State) (c : Cfg) (q : Rat) (u : Nat), s.v = some q → s.upc = some u → s.cfg = some c →
    ∃ q' : Rat,
      exec (.sbsetv k) s =
        .next { s with sb := Bus.put s.sb k (.real q'), events := s.events ++ [.set k (.real q')], upc := some (u + 1) } ∧
      (c.storeReal = .exact → q' = q) ∧
      (∀ (n : Int) (j : Nat), n.natAbs < 2 ^ 24 → j ≤ 24 → q = (n : Rat) / 2 ^ j → q' = q)

/-- SBSETA, STCLR and STSET (42_codec_decode.md R180, R181; 40_registry_supervisor.md R136): one set of an integer, `A` itself, 0, 1. -/
def Obligations.SetIntResult : Prop :=
  ∀ (k : Key) (s : State) (u : Nat), s.upc = some u →
    (∀ a, s.a = some a →
      exec (.sbseta k) s =
        .next { s with sb := Bus.put s.sb k (.int a), events := s.events ++ [.set k (.int a)], upc := some (u + 1) }) ∧
    exec (.stclr k) s =
      .next { s with sb := Bus.put s.sb k (.int 0), events := s.events ++ [.set k (.int 0)], upc := some (u + 1) } ∧
    exec (.stset k) s =
      .next { s with sb := Bus.put s.sb k (.int 1), events := s.events ++ [.set k (.int 1)], upc := some (u + 1) }

/-- 20_memory.md R66: after a set, a read of the key gives the value set, where it is of the key's type, and a read of any other key
what it gave before. A key that is set to a value of another type has no value to read (log 5). -/
def Obligations.BusReadsLatestWrite : Prop :=
  ∀ (c : Cfg) (sb : Bus) (k : Key) (v : SigVal),
    Bus.find (Bus.put sb k v) k = some v ∧
    (keyType c.ktype k = some v.type → busValue c (Bus.put sb k v) k = some v) ∧
    (keyType c.ktype k ≠ some v.type → busValue c (Bus.put sb k v) k = none) ∧
    (∀ k', k' ≠ k →
      Bus.find (Bus.put sb k v) k' = Bus.find sb k' ∧ busValue c (Bus.put sb k v) k' = busValue c sb k')

/-- LDAI and LDVC (42_codec_decode.md R182, R183). -/
def Obligations.LoadConstantResult : Prop :=
  ∀ (n : BitVec 16) (s : State) (u : Nat), s.upc = some u →
    exec (.ldai n) s = .next { s with a := some (n.signExtend 64), upc := some (u + 1) } ∧
    (∀ (c : Cfg) (p : PoolEntry), s.cfg = some c → c.cpool[n.toNat]? = some p → p.den ≠ 0 →
      exec (.ldvc n) s = .next { s with v := some ((p.num.toInt : Rat) / (p.den.toNat : Rat)), upc := some (u + 1) })

/-- END (42_codec_decode.md R184) ends the run: no register of the run keeps a value, and nothing else changes. -/
def Obligations.EndResult : Prop :=
  ∀ s : State, exec .end_ s = .next { s with a := none, v := none, upc := none, hk := none }

/-! ## Micro-instructions of encode handlers -/

/-- SBGETV and SBGETA (43_codec_encode.md R201, R202): the value listed at the key, of the type the key is declared with
(20_memory.md R62); where nothing is listed, some value of that type (the environment's, log 4). -/
def Obligations.GetResult : Prop :=
  ∀ (k : Key) (s : State) (c : Cfg) (u : Nat), s.upc = some u → s.cfg = some c →
    (∀ x, Bus.find s.sb k = some x → keyType c.ktype k = some x.type →
      exec (.sbgetv k) s = .next { s with v := some x.val, events := s.events ++ [.get k x], upc := some (u + 1) }) ∧
    (∀ i, Bus.find s.sb k = some (.int i) → keyType c.ktype k = some .int →
      exec (.sbgeta k) s = .next { s with a := some i, events := s.events ++ [.get k (.int i)], upc := some (u + 1) }) ∧
    (∀ t, Bus.find s.sb k = none → keyType c.ktype k = some t → ∃ x, x.type = t ∧
      exec (.sbgetv k) s = .next { s with v := some x.val, events := s.events ++ [.get k x], upc := some (u + 1) }) ∧
    (Bus.find s.sb k = none → keyType c.ktype k = some .int → ∃ i,
      exec (.sbgeta k) s = .next { s with a := some i, events := s.events ++ [.get k (.int i)], upc := some (u + 1) })

/-- What the model makes of a signal bus outside its contract (93_implementation_defined.md U22, 20_memory.md R76; log 5): a get of
a key that is not declared, a get that finds a value of another type than the key's, and a get of a `REAL` key where an integer is
needed are refused by name, at the key operand and at the key of CATSEL's candidate. -/
def Obligations.BusContractRefusals : Prop :=
  ∀ (k : Key) (n : BitVec 16) (s : State) (c : Cfg) (u : Nat) (q : Rat),
    s.upc = some u → s.cfg = some c → s.v = some q →
    (keyType c.ktype k = none →
      exec (.sbgetv k) s = .refused (.undeclaredKey k) ∧ exec (.sbgeta k) s = .refused (.undeclaredKey k) ∧
      exec (.catsel k n) s = .refused (.undeclaredKey k) ∧ exec (.uconv k n) s = .refused (.undeclaredKey k)) ∧
    (∀ t x, keyType c.ktype k = some t → Bus.find s.sb k = some x → x.type ≠ t →
      exec (.sbgetv k) s = .refused (.busType k) ∧ exec (.sbgeta k) s = .refused (.busType k) ∧
      exec (.catsel k n) s = .refused (.busType k) ∧ exec (.uconv k n) s = .refused (.busType k)) ∧
    (keyType c.ktype k = some .real →
      exec (.sbgeta k) s = .refused (.busType k) ∧ exec (.catsel k n) s = .refused (.busType k) ∧
      exec (.uconv k n) s = .refused (.busType k)) ∧
    (∀ (tab : CatTable) (idx : BitVec 64) (cand : Cand),
      c.catt[n.toNat]? = some tab → busValue c s.sb k = some (.int idx) →
      (0 ≤ idx.toInt → idx.toInt < tab.cand.length → tab.cand[idx.toInt.toNat]? = some cand) →
      (idx.toInt < 0 ∨ (tab.cand.length : Int) ≤ idx.toInt → cand = tab.dflt) →
      (keyType c.ktype cand.key = none → exec (.catsel k n) s = .refused (.undeclaredKey cand.key)) ∧
      (∀ t x, keyType c.ktype cand.key = some t → Bus.find s.sb cand.key = some x → x.type ≠ t →
        exec (.catsel k n) s = .refused (.busType cand.key)))

/-- CATSEL (43_codec_encode.md R203): the candidate the selector names, the default for a negative index and for one not below N;
the selector is read first. -/
def Obligations.CatselResult : Prop :=
  ∀ (k : Key) (n : BitVec 16) (s : State) (c : Cfg) (u : Nat) (tab : CatTable) (idx : BitVec 64) (cand : Cand) (x : SigVal)
    (p : PoolEntry),
    s.upc = some u → s.cfg = some c → c.catt[n.toNat]? = some tab → busValue c s.sb k = some (.int idx) →
    (0 ≤ idx.toInt → idx.toInt < tab.cand.length → tab.cand[idx.toInt.toNat]? = some cand) →
    (idx.toInt < 0 ∨ (tab.cand.length : Int) ≤ idx.toInt → cand = tab.dflt) →
    busValue c s.sb cand.key = some x → c.cpool[cand.cidx.toNat]? = some p → p.den ≠ 0 →
      exec (.catsel k n) s =
        .next { s with v := some (x.val * ((p.num.toInt : Rat) / (p.den.toNat : Rat))), upc := some (u + 1),
                       events := s.events ++ [.get k (.int idx), .get cand.key x] }

/-- UCONV (43_codec_encode.md R204): `V` times the factor the flag chooses, `C1` for any non-zero value, `C0` for 0. -/
def Obligations.UconvResult : Prop :=
  ∀ (k : Key) (n : BitVec 16) (s : State) (c : Cfg) (u : Nat) (uc : UnitConv) (flag : BitVec 64) (q : Rat) (p : PoolEntry),
    s.upc = some u → s.cfg = some c → s.v = some q → c.uct[n.toNat]? = some uc → busValue c s.sb k = some (.int flag) →
    (flag ≠ 0 → c.cpool[uc.c1.toNat]? = some p) → (flag = 0 → c.cpool[uc.c0.toNat]? = some p) → p.den ≠ 0 →
      exec (.uconv k n) s =
        .next { s with v := some (q * ((p.num.toInt : Rat) / (p.den.toNat : Rat))), upc := some (u + 1),
                       events := s.events ++ [.get k (.int flag)] }

/-- ENCMUL and ENCDIV (43_codec_encode.md R205, R206, R217): the exact product or quotient, quantised to an integer less than 1 away,
toward zero by default; it goes to `A` where it fits 64 bits (so wherever the exact value lies in -2^63 + 1 .. 2^63 - 2), and is the
fault `RANGE` where it does not. -/
def Obligations.EncodeScaleResult : Prop :=
  ∀ (m : BitVec 16) (s : State) (c : Cfg) (p : PoolEntry) (q y : Rat) (u : Nat) (i : Instr),
    s.v = some q → s.upc = some u → s.cfg = some c → c.cpool[m.toNat]? = some p → p.den ≠ 0 →
    (i = .encmul m ∧ y = q * ((p.num.toInt : Rat) / (p.den.toNat : Rat))) ∨
      (i = .encdiv m ∧ p.num ≠ 0 ∧ y = q / ((p.num.toInt : Rat) / (p.den.toNat : Rat))) →
      ∃ n : Int, (n : Rat) - y < 1 ∧ y - (n : Rat) < 1 ∧
        (c.quant = .trunc → (0 ≤ y → (n : Rat) ≤ y) ∧ (y ≤ 0 → y ≤ (n : Rat))) ∧
        (-(2 ^ 63) ≤ n → n ≤ 2 ^ 63 - 1 → exec i s = .next { s with a := some (BitVec.ofInt 64 n), upc := some (u + 1) }) ∧
        (-(2 ^ 63) + 1 ≤ y → y ≤ 2 ^ 63 - 2 →
          exec i s = .next { s with a := some (BitVec.ofInt 64 n), upc := some (u + 1) }) ∧
        (n < -(2 ^ 63) ∨ 2 ^ 63 - 1 < n → ∀ e, s.idxE = some e → exec i s = .fault (.range e u))

/-- 43_codec_encode.md R207: after an insertion the field reads as the value modulo 2^W, and no other bit of the buffer changes. The
third clause, that the buffer keeps its canonical form, is about the model's own form of `TXB` (log 3). -/
def Obligations.InsertChangesItsField : Prop :=
  ∀ (m : Memory) (p : FieldSpec) (x : Int), Memory.wf m = true → p.fits = true →
    ((field (Memory.read (insertField m p x)) p : Nat) : Int) = x % (2 ^ p.w : Int) ∧
    (∀ b : Nat, b < 8 * p.o + p.s ∨ 8 * p.o + p.s + p.w ≤ b →
      ((insertField m p x).read (b / 8)).getLsbD (b % 8) = (m.read (b / 8)).getLsbD (b % 8)) ∧
    Memory.wf (insertField m p x) = true

/-- PACKU and PACKS (43_codec_encode.md R208, R209, R210): a value in range goes into the field; one outside is recorded and then,
by policy, packed as its low bits, replaced by the nearer bound, or a fault. -/
def Obligations.PackResult : Prop :=
  ∀ (byte nb1 : BitVec 3) (shift w1 : BitVec 6) (s : State) (a : BitVec 64) (u : Nat) (i : Instr) (lo hi : Int) (p : FieldSpec),
    s.a = some a → s.upc = some u →
    p = { o := byte.toNat, nb := nb1.toNat + 1, s := shift.toNat, w := w1.toNat + 1 } → p.fits = true →
    (i = .packu byte nb1 shift w1 ∧ lo = 0 ∧ hi = 2 ^ p.w - 1) ∨
      (i = .packs byte nb1 shift w1 ∧ lo = -(2 ^ (p.w - 1)) ∧ hi = 2 ^ (p.w - 1) - 1) →
      (lo ≤ a.toInt → a.toInt ≤ hi →
        exec i s = .next { s with txb := insertField s.txb p a.toInt, upc := some (u + 1) }) ∧
      (a.toInt < lo ∨ hi < a.toInt → ∀ (c : Cfg) (e : Nat), s.cfg = some c → s.idxE = some e →
        (c.ovfPolicy = .wrap →
          exec i s = .next { s with txb := insertField s.txb p a.toInt, upc := some (u + 1),
                                    events := s.events ++ [.cond (.packovf e u)] }) ∧
        (c.ovfPolicy = .saturate →
          exec i s = .next { s with txb := insertField s.txb p (if a.toInt < lo then lo else hi), upc := some (u + 1),
                                    events := s.events ++ [.cond (.packovf e u)] }) ∧
        (c.ovfPolicy = .fault → exec i s = .fault (.packOverflow e u)))

/-- FLGPUT (43_codec_encode.md R211): one bit of one byte becomes 1 for any non-zero `A` and 0 for 0; no other bit changes. -/
def Obligations.FlgputResult : Prop :=
  ∀ (byte : BitVec 3) (bit : BitVec 6) (s : State) (a : BitVec 64) (u : Nat),
    s.a = some a → s.upc = some u → bit.toNat ≤ 7 → Memory.wf s.txb = true →
      ∃ m, exec (.flgput byte bit) s = .next { s with txb := m, upc := some (u + 1) } ∧
        (m.read byte.toNat).getLsbD bit.toNat = (a != 0) ∧
        (∀ n, n ≠ byte.toNat → m.read n = s.txb.read n) ∧
        (∀ b, b ≠ bit.toNat → (m.read byte.toNat).getLsbD b = (s.txb.read byte.toNat).getLsbD b)

/-- ROLL (43_codec_encode.md R212): the counter's value goes into four bits of one byte, then the counter advances modulo 16; no
other bit and no other counter changes. -/
def Obligations.RollResult : Prop :=
  ∀ (r : BitVec 16) (byte : BitVec 3) (shift : BitVec 6) (s : State) (l : List (BitVec 4)) (x : BitVec 4) (u : Nat),
    s.rollcnt = some l → l[r.toNat]? = some x → s.upc = some u → shift.toNat ≤ 4 → Memory.wf s.txb = true →
      ∃ m, exec (.roll r byte shift) s =
          .next { s with txb := m, upc := some (u + 1),
                         rollcnt := some (l.set r.toNat (BitVec.ofNat 4 ((x.toNat + 1) % 16))) } ∧
        (m.read byte.toNat).extractLsb' shift.toNat 4 = x ∧
        (∀ n, n ≠ byte.toNat → m.read n = s.txb.read n) ∧
        (∀ b, b < shift.toNat ∨ shift.toNat + 4 ≤ b →
          (m.read byte.toNat).getLsbD b = (s.txb.read byte.toNat).getLsbD b)

/-- SEND (43_codec_encode.md R213): the frame of the encoder's fields and the whole buffer goes to `send()`; the answer, whatever
it is, goes to `TXSTAT[E]`, every answer but `Ok` is recorded as `TXDROP`, and the run ends. That the answer is the next one listed
in `tx`, or a free one counted by `freeCtr`, is the model's form of the environment's answers (log 6). -/
def Obligations.SendResult : Prop :=
  ∀ (s : State) (c : Cfg) (e : Nat) (en : EncEntry) (l : List TxStat),
    s.idxE = some e → s.cfg = some c → c.enc[e]? = some en → IdFits en.id en.ide → en.dlc ≤ 8 →
    s.txstat = some l → e < l.length →
      ∃ f : Frame, f.ident.id = en.id ∧ f.ident.ide = en.ide ∧ f.rtr = false ∧ f.len.val = en.dlc ∧
        (∀ n, n < 8 → f.space n = s.txb.read n) ∧
        (∀ st rest, s.tx = st :: rest →
          exec .send s =
            .next { s with a := none, v := none, upc := none, hk := none, tx := rest,
                           txstat := some (l.set e { valid := true, code := st }),
                           events := s.events ++ (.send f st :: if st = .ok then [] else [.cond (.txdrop e st)]) }) ∧
        (s.tx = [] → ∃ st,
          exec .send s =
            .next { s with a := none, v := none, upc := none, hk := none, freeCtr := s.freeCtr + 1,
                           txstat := some (l.set e { valid := true, code := st }),
                           events := s.events ++ (.send f st :: if st = .ok then [] else [.cond (.txdrop e st)]) })

/-- 43_codec_encode.md R216 (the spec's own inference from R205, R207, R173, R177): a value scaled by ENCMUL with a positive constant, packed by PACKS or PACKU into a field that holds it,
unpacked with the same signedness from a frame with that payload, and scaled by SCDIV with the same constant, comes back less than
one step (the constant's reciprocal) away. -/
def Obligations.RoundTrip : Prop :=
  ∀ (m : BitVec 16) (byte nb1 : BitVec 3) (shift w1 : BitVec 6) (p : PoolEntry) (d x : Rat) (pack unpack : Instr)
    (c c' : Cfg) (s s₁ s₂ t t₁ t₂ : State) (f : Frame) (lo hi : Int) (a : BitVec 64),
    (pack = .packu byte nb1 shift w1 ∧ unpack = .unpku byte nb1 shift w1 ∧ lo = 0 ∧ hi = 2 ^ (w1.toNat + 1) - 1) ∨
      (pack = .packs byte nb1 shift w1 ∧ unpack = .unpks byte nb1 shift w1 ∧ lo = -(2 ^ w1.toNat) ∧
        hi = 2 ^ w1.toNat - 1) →
    s.cfg = some c → c.cpool[m.toNat]? = some p → t.cfg = some c' → c'.cpool[m.toNat]? = some p →
    d = (p.num.toInt : Rat) / (p.den.toNat : Rat) → 0 < d → s.v = some x → Memory.wf s.txb = true →
    exec (.encmul m) s = .next s₁ → s₁.a = some a → lo ≤ a.toInt → a.toInt ≤ hi → exec pack s₁ = .next s₂ →
    t.frx = some f → (∀ n, n < 8 → f.space n = s₂.txb.read n) →
    exec unpack t = .next t₁ → exec (.scdiv m) t₁ = .next t₂ →
      ∃ y : Rat, t₂.v = some y ∧ y - x < 1 / d ∧ x - y < 1 / d
end

