-- ==== Sys2Proof/Laws/State.lean ====
section
/-! SUPPORT. What each named update of the state does to each field, true by definition. -/

namespace Sys2Proof.Machine

/-! ## State.log -/

@[simp] theorem State.log_engstate (s : State) (e : Event) : (s.log e).engstate = s.engstate := rfl
@[simp] theorem State.log_initstat (s : State) (e : Event) : (s.log e).initstat = s.initstat := rfl
@[simp] theorem State.log_tickcnt (s : State) (e : Event) : (s.log e).tickcnt = s.tickcnt := rfl
@[simp] theorem State.log_cfg (s : State) (e : Event) : (s.log e).cfg = s.cfg := rfl
@[simp] theorem State.log_cnt (s : State) (e : Event) : (s.log e).cnt = s.cnt := rfl
@[simp] theorem State.log_rollcnt (s : State) (e : Event) : (s.log e).rollcnt = s.rollcnt := rfl
@[simp] theorem State.log_txstat (s : State) (e : Event) : (s.log e).txstat = s.txstat := rfl
@[simp] theorem State.log_a (s : State) (e : Event) : (s.log e).a = s.a := rfl
@[simp] theorem State.log_v (s : State) (e : Event) : (s.log e).v = s.v := rfl
@[simp] theorem State.log_frx (s : State) (e : Event) : (s.log e).frx = s.frx := rfl
@[simp] theorem State.log_hit (s : State) (e : Event) : (s.log e).hit = s.hit := rfl
@[simp] theorem State.log_txb (s : State) (e : Event) : (s.log e).txb = s.txb := rfl
@[simp] theorem State.log_phase (s : State) (e : Event) : (s.log e).phase = s.phase := rfl
@[simp] theorem State.log_idxI (s : State) (e : Event) : (s.log e).idxI = s.idxI := rfl
@[simp] theorem State.log_idxB (s : State) (e : Event) : (s.log e).idxB = s.idxB := rfl
@[simp] theorem State.log_idxJ (s : State) (e : Event) : (s.log e).idxJ = s.idxJ := rfl
@[simp] theorem State.log_idxE (s : State) (e : Event) : (s.log e).idxE = s.idxE := rfl
@[simp] theorem State.log_upc (s : State) (e : Event) : (s.log e).upc = s.upc := rfl
@[simp] theorem State.log_hk (s : State) (e : Event) : (s.log e).hk = s.hk := rfl
@[simp] theorem State.log_sb (s : State) (e : Event) : (s.log e).sb = s.sb := rfl
@[simp] theorem State.log_inputs (s : State) (e : Event) : (s.log e).inputs = s.inputs := rfl
@[simp] theorem State.log_cfgIn (s : State) (e : Event) : (s.log e).cfgIn = s.cfgIn := rfl
@[simp] theorem State.log_rx (s : State) (e : Event) : (s.log e).rx = s.rx := rfl
@[simp] theorem State.log_tx (s : State) (e : Event) : (s.log e).tx = s.tx := rfl
@[simp] theorem State.log_events (s : State) (e : Event) : (s.log e).events = s.events ++ [e] := rfl
@[simp] theorem State.log_freeCtr (s : State) (e : Event) : (s.log e).freeCtr = s.freeCtr := rfl

/-! ## State.raise -/

@[simp] theorem State.raise_engstate (s : State) (c : Cond) : (s.raise c).engstate = s.engstate := rfl
@[simp] theorem State.raise_initstat (s : State) (c : Cond) : (s.raise c).initstat = s.initstat := rfl
@[simp] theorem State.raise_tickcnt (s : State) (c : Cond) : (s.raise c).tickcnt = s.tickcnt := rfl
@[simp] theorem State.raise_cfg (s : State) (c : Cond) : (s.raise c).cfg = s.cfg := rfl
@[simp] theorem State.raise_cnt (s : State) (c : Cond) : (s.raise c).cnt = s.cnt := rfl
@[simp] theorem State.raise_rollcnt (s : State) (c : Cond) : (s.raise c).rollcnt = s.rollcnt := rfl
@[simp] theorem State.raise_txstat (s : State) (c : Cond) : (s.raise c).txstat = s.txstat := rfl
@[simp] theorem State.raise_a (s : State) (c : Cond) : (s.raise c).a = s.a := rfl
@[simp] theorem State.raise_v (s : State) (c : Cond) : (s.raise c).v = s.v := rfl
@[simp] theorem State.raise_frx (s : State) (c : Cond) : (s.raise c).frx = s.frx := rfl
@[simp] theorem State.raise_hit (s : State) (c : Cond) : (s.raise c).hit = s.hit := rfl
@[simp] theorem State.raise_txb (s : State) (c : Cond) : (s.raise c).txb = s.txb := rfl
@[simp] theorem State.raise_phase (s : State) (c : Cond) : (s.raise c).phase = s.phase := rfl
@[simp] theorem State.raise_idxI (s : State) (c : Cond) : (s.raise c).idxI = s.idxI := rfl
@[simp] theorem State.raise_idxB (s : State) (c : Cond) : (s.raise c).idxB = s.idxB := rfl
@[simp] theorem State.raise_idxJ (s : State) (c : Cond) : (s.raise c).idxJ = s.idxJ := rfl
@[simp] theorem State.raise_idxE (s : State) (c : Cond) : (s.raise c).idxE = s.idxE := rfl
@[simp] theorem State.raise_upc (s : State) (c : Cond) : (s.raise c).upc = s.upc := rfl
@[simp] theorem State.raise_hk (s : State) (c : Cond) : (s.raise c).hk = s.hk := rfl
@[simp] theorem State.raise_sb (s : State) (c : Cond) : (s.raise c).sb = s.sb := rfl
@[simp] theorem State.raise_inputs (s : State) (c : Cond) : (s.raise c).inputs = s.inputs := rfl
@[simp] theorem State.raise_cfgIn (s : State) (c : Cond) : (s.raise c).cfgIn = s.cfgIn := rfl
@[simp] theorem State.raise_rx (s : State) (c : Cond) : (s.raise c).rx = s.rx := rfl
@[simp] theorem State.raise_tx (s : State) (c : Cond) : (s.raise c).tx = s.tx := rfl
@[simp] theorem State.raise_events (s : State) (c : Cond) : (s.raise c).events = s.events ++ [.cond c] := rfl
@[simp] theorem State.raise_freeCtr (s : State) (c : Cond) : (s.raise c).freeCtr = s.freeCtr := rfl

/-! ## State.enter -/

@[simp] theorem State.enter_engstate (s : State) (p : Phase) : (s.enter p).engstate = s.engstate := rfl
@[simp] theorem State.enter_initstat (s : State) (p : Phase) : (s.enter p).initstat = s.initstat := rfl
@[simp] theorem State.enter_tickcnt (s : State) (p : Phase) : (s.enter p).tickcnt = s.tickcnt := rfl
@[simp] theorem State.enter_cfg (s : State) (p : Phase) : (s.enter p).cfg = s.cfg := rfl
@[simp] theorem State.enter_cnt (s : State) (p : Phase) : (s.enter p).cnt = s.cnt := rfl
@[simp] theorem State.enter_rollcnt (s : State) (p : Phase) : (s.enter p).rollcnt = s.rollcnt := rfl
@[simp] theorem State.enter_txstat (s : State) (p : Phase) : (s.enter p).txstat = s.txstat := rfl
@[simp] theorem State.enter_a (s : State) (p : Phase) : (s.enter p).a = s.a := rfl
@[simp] theorem State.enter_v (s : State) (p : Phase) : (s.enter p).v = s.v := rfl
@[simp] theorem State.enter_frx (s : State) (p : Phase) : (s.enter p).frx = s.frx := rfl
@[simp] theorem State.enter_hit (s : State) (p : Phase) : (s.enter p).hit = s.hit := rfl
@[simp] theorem State.enter_txb (s : State) (p : Phase) : (s.enter p).txb = s.txb := rfl
@[simp] theorem State.enter_phase (s : State) (p : Phase) : (s.enter p).phase = p := rfl
@[simp] theorem State.enter_idxI (s : State) (p : Phase) : (s.enter p).idxI = s.idxI := rfl
@[simp] theorem State.enter_idxB (s : State) (p : Phase) : (s.enter p).idxB = s.idxB := rfl
@[simp] theorem State.enter_idxJ (s : State) (p : Phase) : (s.enter p).idxJ = s.idxJ := rfl
@[simp] theorem State.enter_idxE (s : State) (p : Phase) : (s.enter p).idxE = s.idxE := rfl
@[simp] theorem State.enter_upc (s : State) (p : Phase) : (s.enter p).upc = s.upc := rfl
@[simp] theorem State.enter_hk (s : State) (p : Phase) : (s.enter p).hk = s.hk := rfl
@[simp] theorem State.enter_sb (s : State) (p : Phase) : (s.enter p).sb = s.sb := rfl
@[simp] theorem State.enter_inputs (s : State) (p : Phase) : (s.enter p).inputs = s.inputs := rfl
@[simp] theorem State.enter_cfgIn (s : State) (p : Phase) : (s.enter p).cfgIn = s.cfgIn := rfl
@[simp] theorem State.enter_rx (s : State) (p : Phase) : (s.enter p).rx = s.rx := rfl
@[simp] theorem State.enter_tx (s : State) (p : Phase) : (s.enter p).tx = s.tx := rfl
@[simp] theorem State.enter_events (s : State) (p : Phase) : (s.enter p).events = s.events := rfl
@[simp] theorem State.enter_freeCtr (s : State) (p : Phase) : (s.enter p).freeCtr = s.freeCtr := rfl

/-! ## State.startRun -/

@[simp] theorem State.startRun_engstate (s : State) (k : HandlerKind) (base : Nat) : (s.startRun k base).engstate = s.engstate := rfl
@[simp] theorem State.startRun_initstat (s : State) (k : HandlerKind) (base : Nat) : (s.startRun k base).initstat = s.initstat := rfl
@[simp] theorem State.startRun_tickcnt (s : State) (k : HandlerKind) (base : Nat) : (s.startRun k base).tickcnt = s.tickcnt := rfl
@[simp] theorem State.startRun_cfg (s : State) (k : HandlerKind) (base : Nat) : (s.startRun k base).cfg = s.cfg := rfl
@[simp] theorem State.startRun_cnt (s : State) (k : HandlerKind) (base : Nat) : (s.startRun k base).cnt = s.cnt := rfl
@[simp] theorem State.startRun_rollcnt (s : State) (k : HandlerKind) (base : Nat) : (s.startRun k base).rollcnt = s.rollcnt := rfl
@[simp] theorem State.startRun_txstat (s : State) (k : HandlerKind) (base : Nat) : (s.startRun k base).txstat = s.txstat := rfl
@[simp] theorem State.startRun_a (s : State) (k : HandlerKind) (base : Nat) : (s.startRun k base).a = none := rfl
@[simp] theorem State.startRun_v (s : State) (k : HandlerKind) (base : Nat) : (s.startRun k base).v = none := rfl
@[simp] theorem State.startRun_frx (s : State) (k : HandlerKind) (base : Nat) : (s.startRun k base).frx = s.frx := rfl
@[simp] theorem State.startRun_hit (s : State) (k : HandlerKind) (base : Nat) : (s.startRun k base).hit = s.hit := rfl
@[simp] theorem State.startRun_txb (s : State) (k : HandlerKind) (base : Nat) : (s.startRun k base).txb = s.txb := rfl
@[simp] theorem State.startRun_phase (s : State) (k : HandlerKind) (base : Nat) : (s.startRun k base).phase = s.phase := rfl
@[simp] theorem State.startRun_idxI (s : State) (k : HandlerKind) (base : Nat) : (s.startRun k base).idxI = s.idxI := rfl
@[simp] theorem State.startRun_idxB (s : State) (k : HandlerKind) (base : Nat) : (s.startRun k base).idxB = s.idxB := rfl
@[simp] theorem State.startRun_idxJ (s : State) (k : HandlerKind) (base : Nat) : (s.startRun k base).idxJ = s.idxJ := rfl
@[simp] theorem State.startRun_idxE (s : State) (k : HandlerKind) (base : Nat) : (s.startRun k base).idxE = s.idxE := rfl
@[simp] theorem State.startRun_upc (s : State) (k : HandlerKind) (base : Nat) : (s.startRun k base).upc = some base := rfl
@[simp] theorem State.startRun_hk (s : State) (k : HandlerKind) (base : Nat) : (s.startRun k base).hk = some k := rfl
@[simp] theorem State.startRun_sb (s : State) (k : HandlerKind) (base : Nat) : (s.startRun k base).sb = s.sb := rfl
@[simp] theorem State.startRun_inputs (s : State) (k : HandlerKind) (base : Nat) : (s.startRun k base).inputs = s.inputs := rfl
@[simp] theorem State.startRun_cfgIn (s : State) (k : HandlerKind) (base : Nat) : (s.startRun k base).cfgIn = s.cfgIn := rfl
@[simp] theorem State.startRun_rx (s : State) (k : HandlerKind) (base : Nat) : (s.startRun k base).rx = s.rx := rfl
@[simp] theorem State.startRun_tx (s : State) (k : HandlerKind) (base : Nat) : (s.startRun k base).tx = s.tx := rfl
@[simp] theorem State.startRun_events (s : State) (k : HandlerKind) (base : Nat) : (s.startRun k base).events = s.events := rfl
@[simp] theorem State.startRun_freeCtr (s : State) (k : HandlerKind) (base : Nat) : (s.startRun k base).freeCtr = s.freeCtr := rfl

/-! ## State.endRun -/

@[simp] theorem State.endRun_engstate (s : State) : (s.endRun).engstate = s.engstate := rfl
@[simp] theorem State.endRun_initstat (s : State) : (s.endRun).initstat = s.initstat := rfl
@[simp] theorem State.endRun_tickcnt (s : State) : (s.endRun).tickcnt = s.tickcnt := rfl
@[simp] theorem State.endRun_cfg (s : State) : (s.endRun).cfg = s.cfg := rfl
@[simp] theorem State.endRun_cnt (s : State) : (s.endRun).cnt = s.cnt := rfl
@[simp] theorem State.endRun_rollcnt (s : State) : (s.endRun).rollcnt = s.rollcnt := rfl
@[simp] theorem State.endRun_txstat (s : State) : (s.endRun).txstat = s.txstat := rfl
@[simp] theorem State.endRun_a (s : State) : (s.endRun).a = none := rfl
@[simp] theorem State.endRun_v (s : State) : (s.endRun).v = none := rfl
@[simp] theorem State.endRun_frx (s : State) : (s.endRun).frx = s.frx := rfl
@[simp] theorem State.endRun_hit (s : State) : (s.endRun).hit = s.hit := rfl
@[simp] theorem State.endRun_txb (s : State) : (s.endRun).txb = s.txb := rfl
@[simp] theorem State.endRun_phase (s : State) : (s.endRun).phase = s.phase := rfl
@[simp] theorem State.endRun_idxI (s : State) : (s.endRun).idxI = s.idxI := rfl
@[simp] theorem State.endRun_idxB (s : State) : (s.endRun).idxB = s.idxB := rfl
@[simp] theorem State.endRun_idxJ (s : State) : (s.endRun).idxJ = s.idxJ := rfl
@[simp] theorem State.endRun_idxE (s : State) : (s.endRun).idxE = s.idxE := rfl
@[simp] theorem State.endRun_upc (s : State) : (s.endRun).upc = none := rfl
@[simp] theorem State.endRun_hk (s : State) : (s.endRun).hk = none := rfl
@[simp] theorem State.endRun_sb (s : State) : (s.endRun).sb = s.sb := rfl
@[simp] theorem State.endRun_inputs (s : State) : (s.endRun).inputs = s.inputs := rfl
@[simp] theorem State.endRun_cfgIn (s : State) : (s.endRun).cfgIn = s.cfgIn := rfl
@[simp] theorem State.endRun_rx (s : State) : (s.endRun).rx = s.rx := rfl
@[simp] theorem State.endRun_tx (s : State) : (s.endRun).tx = s.tx := rfl
@[simp] theorem State.endRun_events (s : State) : (s.endRun).events = s.events := rfl
@[simp] theorem State.endRun_freeCtr (s : State) : (s.endRun).freeCtr = s.freeCtr := rfl

/-! ## State.setA -/

@[simp] theorem State.setA_engstate (s : State) (x : BitVec 64) : (s.setA x).engstate = s.engstate := rfl
@[simp] theorem State.setA_initstat (s : State) (x : BitVec 64) : (s.setA x).initstat = s.initstat := rfl
@[simp] theorem State.setA_tickcnt (s : State) (x : BitVec 64) : (s.setA x).tickcnt = s.tickcnt := rfl
@[simp] theorem State.setA_cfg (s : State) (x : BitVec 64) : (s.setA x).cfg = s.cfg := rfl
@[simp] theorem State.setA_cnt (s : State) (x : BitVec 64) : (s.setA x).cnt = s.cnt := rfl
@[simp] theorem State.setA_rollcnt (s : State) (x : BitVec 64) : (s.setA x).rollcnt = s.rollcnt := rfl
@[simp] theorem State.setA_txstat (s : State) (x : BitVec 64) : (s.setA x).txstat = s.txstat := rfl
@[simp] theorem State.setA_a (s : State) (x : BitVec 64) : (s.setA x).a = some x := rfl
@[simp] theorem State.setA_v (s : State) (x : BitVec 64) : (s.setA x).v = s.v := rfl
@[simp] theorem State.setA_frx (s : State) (x : BitVec 64) : (s.setA x).frx = s.frx := rfl
@[simp] theorem State.setA_hit (s : State) (x : BitVec 64) : (s.setA x).hit = s.hit := rfl
@[simp] theorem State.setA_txb (s : State) (x : BitVec 64) : (s.setA x).txb = s.txb := rfl
@[simp] theorem State.setA_phase (s : State) (x : BitVec 64) : (s.setA x).phase = s.phase := rfl
@[simp] theorem State.setA_idxI (s : State) (x : BitVec 64) : (s.setA x).idxI = s.idxI := rfl
@[simp] theorem State.setA_idxB (s : State) (x : BitVec 64) : (s.setA x).idxB = s.idxB := rfl
@[simp] theorem State.setA_idxJ (s : State) (x : BitVec 64) : (s.setA x).idxJ = s.idxJ := rfl
@[simp] theorem State.setA_idxE (s : State) (x : BitVec 64) : (s.setA x).idxE = s.idxE := rfl
@[simp] theorem State.setA_upc (s : State) (x : BitVec 64) : (s.setA x).upc = s.upc := rfl
@[simp] theorem State.setA_hk (s : State) (x : BitVec 64) : (s.setA x).hk = s.hk := rfl
@[simp] theorem State.setA_sb (s : State) (x : BitVec 64) : (s.setA x).sb = s.sb := rfl
@[simp] theorem State.setA_inputs (s : State) (x : BitVec 64) : (s.setA x).inputs = s.inputs := rfl
@[simp] theorem State.setA_cfgIn (s : State) (x : BitVec 64) : (s.setA x).cfgIn = s.cfgIn := rfl
@[simp] theorem State.setA_rx (s : State) (x : BitVec 64) : (s.setA x).rx = s.rx := rfl
@[simp] theorem State.setA_tx (s : State) (x : BitVec 64) : (s.setA x).tx = s.tx := rfl
@[simp] theorem State.setA_events (s : State) (x : BitVec 64) : (s.setA x).events = s.events := rfl
@[simp] theorem State.setA_freeCtr (s : State) (x : BitVec 64) : (s.setA x).freeCtr = s.freeCtr := rfl

/-! ## State.setV -/

@[simp] theorem State.setV_engstate (s : State) (q : Rat) : (s.setV q).engstate = s.engstate := rfl
@[simp] theorem State.setV_initstat (s : State) (q : Rat) : (s.setV q).initstat = s.initstat := rfl
@[simp] theorem State.setV_tickcnt (s : State) (q : Rat) : (s.setV q).tickcnt = s.tickcnt := rfl
@[simp] theorem State.setV_cfg (s : State) (q : Rat) : (s.setV q).cfg = s.cfg := rfl
@[simp] theorem State.setV_cnt (s : State) (q : Rat) : (s.setV q).cnt = s.cnt := rfl
@[simp] theorem State.setV_rollcnt (s : State) (q : Rat) : (s.setV q).rollcnt = s.rollcnt := rfl
@[simp] theorem State.setV_txstat (s : State) (q : Rat) : (s.setV q).txstat = s.txstat := rfl
@[simp] theorem State.setV_a (s : State) (q : Rat) : (s.setV q).a = s.a := rfl
@[simp] theorem State.setV_v (s : State) (q : Rat) : (s.setV q).v = some q := rfl
@[simp] theorem State.setV_frx (s : State) (q : Rat) : (s.setV q).frx = s.frx := rfl
@[simp] theorem State.setV_hit (s : State) (q : Rat) : (s.setV q).hit = s.hit := rfl
@[simp] theorem State.setV_txb (s : State) (q : Rat) : (s.setV q).txb = s.txb := rfl
@[simp] theorem State.setV_phase (s : State) (q : Rat) : (s.setV q).phase = s.phase := rfl
@[simp] theorem State.setV_idxI (s : State) (q : Rat) : (s.setV q).idxI = s.idxI := rfl
@[simp] theorem State.setV_idxB (s : State) (q : Rat) : (s.setV q).idxB = s.idxB := rfl
@[simp] theorem State.setV_idxJ (s : State) (q : Rat) : (s.setV q).idxJ = s.idxJ := rfl
@[simp] theorem State.setV_idxE (s : State) (q : Rat) : (s.setV q).idxE = s.idxE := rfl
@[simp] theorem State.setV_upc (s : State) (q : Rat) : (s.setV q).upc = s.upc := rfl
@[simp] theorem State.setV_hk (s : State) (q : Rat) : (s.setV q).hk = s.hk := rfl
@[simp] theorem State.setV_sb (s : State) (q : Rat) : (s.setV q).sb = s.sb := rfl
@[simp] theorem State.setV_inputs (s : State) (q : Rat) : (s.setV q).inputs = s.inputs := rfl
@[simp] theorem State.setV_cfgIn (s : State) (q : Rat) : (s.setV q).cfgIn = s.cfgIn := rfl
@[simp] theorem State.setV_rx (s : State) (q : Rat) : (s.setV q).rx = s.rx := rfl
@[simp] theorem State.setV_tx (s : State) (q : Rat) : (s.setV q).tx = s.tx := rfl
@[simp] theorem State.setV_events (s : State) (q : Rat) : (s.setV q).events = s.events := rfl
@[simp] theorem State.setV_freeCtr (s : State) (q : Rat) : (s.setV q).freeCtr = s.freeCtr := rfl

/-! ## State.setTxb -/

@[simp] theorem State.setTxb_engstate (s : State) (m : Memory) : (s.setTxb m).engstate = s.engstate := rfl
@[simp] theorem State.setTxb_initstat (s : State) (m : Memory) : (s.setTxb m).initstat = s.initstat := rfl
@[simp] theorem State.setTxb_tickcnt (s : State) (m : Memory) : (s.setTxb m).tickcnt = s.tickcnt := rfl
@[simp] theorem State.setTxb_cfg (s : State) (m : Memory) : (s.setTxb m).cfg = s.cfg := rfl
@[simp] theorem State.setTxb_cnt (s : State) (m : Memory) : (s.setTxb m).cnt = s.cnt := rfl
@[simp] theorem State.setTxb_rollcnt (s : State) (m : Memory) : (s.setTxb m).rollcnt = s.rollcnt := rfl
@[simp] theorem State.setTxb_txstat (s : State) (m : Memory) : (s.setTxb m).txstat = s.txstat := rfl
@[simp] theorem State.setTxb_a (s : State) (m : Memory) : (s.setTxb m).a = s.a := rfl
@[simp] theorem State.setTxb_v (s : State) (m : Memory) : (s.setTxb m).v = s.v := rfl
@[simp] theorem State.setTxb_frx (s : State) (m : Memory) : (s.setTxb m).frx = s.frx := rfl
@[simp] theorem State.setTxb_hit (s : State) (m : Memory) : (s.setTxb m).hit = s.hit := rfl
@[simp] theorem State.setTxb_txb (s : State) (m : Memory) : (s.setTxb m).txb = m := rfl
@[simp] theorem State.setTxb_phase (s : State) (m : Memory) : (s.setTxb m).phase = s.phase := rfl
@[simp] theorem State.setTxb_idxI (s : State) (m : Memory) : (s.setTxb m).idxI = s.idxI := rfl
@[simp] theorem State.setTxb_idxB (s : State) (m : Memory) : (s.setTxb m).idxB = s.idxB := rfl
@[simp] theorem State.setTxb_idxJ (s : State) (m : Memory) : (s.setTxb m).idxJ = s.idxJ := rfl
@[simp] theorem State.setTxb_idxE (s : State) (m : Memory) : (s.setTxb m).idxE = s.idxE := rfl
@[simp] theorem State.setTxb_upc (s : State) (m : Memory) : (s.setTxb m).upc = s.upc := rfl
@[simp] theorem State.setTxb_hk (s : State) (m : Memory) : (s.setTxb m).hk = s.hk := rfl
@[simp] theorem State.setTxb_sb (s : State) (m : Memory) : (s.setTxb m).sb = s.sb := rfl
@[simp] theorem State.setTxb_inputs (s : State) (m : Memory) : (s.setTxb m).inputs = s.inputs := rfl
@[simp] theorem State.setTxb_cfgIn (s : State) (m : Memory) : (s.setTxb m).cfgIn = s.cfgIn := rfl
@[simp] theorem State.setTxb_rx (s : State) (m : Memory) : (s.setTxb m).rx = s.rx := rfl
@[simp] theorem State.setTxb_tx (s : State) (m : Memory) : (s.setTxb m).tx = s.tx := rfl
@[simp] theorem State.setTxb_events (s : State) (m : Memory) : (s.setTxb m).events = s.events := rfl
@[simp] theorem State.setTxb_freeCtr (s : State) (m : Memory) : (s.setTxb m).freeCtr = s.freeCtr := rfl

/-! ## State.busSet -/

@[simp] theorem State.busSet_engstate (s : State) (k : Key) (x : SigVal) : (s.busSet k x).engstate = s.engstate := rfl
@[simp] theorem State.busSet_initstat (s : State) (k : Key) (x : SigVal) : (s.busSet k x).initstat = s.initstat := rfl
@[simp] theorem State.busSet_tickcnt (s : State) (k : Key) (x : SigVal) : (s.busSet k x).tickcnt = s.tickcnt := rfl
@[simp] theorem State.busSet_cfg (s : State) (k : Key) (x : SigVal) : (s.busSet k x).cfg = s.cfg := rfl
@[simp] theorem State.busSet_cnt (s : State) (k : Key) (x : SigVal) : (s.busSet k x).cnt = s.cnt := rfl
@[simp] theorem State.busSet_rollcnt (s : State) (k : Key) (x : SigVal) : (s.busSet k x).rollcnt = s.rollcnt := rfl
@[simp] theorem State.busSet_txstat (s : State) (k : Key) (x : SigVal) : (s.busSet k x).txstat = s.txstat := rfl
@[simp] theorem State.busSet_a (s : State) (k : Key) (x : SigVal) : (s.busSet k x).a = s.a := rfl
@[simp] theorem State.busSet_v (s : State) (k : Key) (x : SigVal) : (s.busSet k x).v = s.v := rfl
@[simp] theorem State.busSet_frx (s : State) (k : Key) (x : SigVal) : (s.busSet k x).frx = s.frx := rfl
@[simp] theorem State.busSet_hit (s : State) (k : Key) (x : SigVal) : (s.busSet k x).hit = s.hit := rfl
@[simp] theorem State.busSet_txb (s : State) (k : Key) (x : SigVal) : (s.busSet k x).txb = s.txb := rfl
@[simp] theorem State.busSet_phase (s : State) (k : Key) (x : SigVal) : (s.busSet k x).phase = s.phase := rfl
@[simp] theorem State.busSet_idxI (s : State) (k : Key) (x : SigVal) : (s.busSet k x).idxI = s.idxI := rfl
@[simp] theorem State.busSet_idxB (s : State) (k : Key) (x : SigVal) : (s.busSet k x).idxB = s.idxB := rfl
@[simp] theorem State.busSet_idxJ (s : State) (k : Key) (x : SigVal) : (s.busSet k x).idxJ = s.idxJ := rfl
@[simp] theorem State.busSet_idxE (s : State) (k : Key) (x : SigVal) : (s.busSet k x).idxE = s.idxE := rfl
@[simp] theorem State.busSet_upc (s : State) (k : Key) (x : SigVal) : (s.busSet k x).upc = s.upc := rfl
@[simp] theorem State.busSet_hk (s : State) (k : Key) (x : SigVal) : (s.busSet k x).hk = s.hk := rfl
@[simp] theorem State.busSet_sb (s : State) (k : Key) (x : SigVal) : (s.busSet k x).sb = Bus.put s.sb k x := rfl
@[simp] theorem State.busSet_inputs (s : State) (k : Key) (x : SigVal) : (s.busSet k x).inputs = s.inputs := rfl
@[simp] theorem State.busSet_cfgIn (s : State) (k : Key) (x : SigVal) : (s.busSet k x).cfgIn = s.cfgIn := rfl
@[simp] theorem State.busSet_rx (s : State) (k : Key) (x : SigVal) : (s.busSet k x).rx = s.rx := rfl
@[simp] theorem State.busSet_tx (s : State) (k : Key) (x : SigVal) : (s.busSet k x).tx = s.tx := rfl
@[simp] theorem State.busSet_events (s : State) (k : Key) (x : SigVal) : (s.busSet k x).events = s.events ++ [.set k x] := rfl
@[simp] theorem State.busSet_freeCtr (s : State) (k : Key) (x : SigVal) : (s.busSet k x).freeCtr = s.freeCtr := rfl

/-! ## State.setStale -/

@[simp] theorem State.setStale_engstate (s : State) (k : Key) (g : Bool) : (s.setStale k g).engstate = s.engstate := rfl
@[simp] theorem State.setStale_initstat (s : State) (k : Key) (g : Bool) : (s.setStale k g).initstat = s.initstat := rfl
@[simp] theorem State.setStale_tickcnt (s : State) (k : Key) (g : Bool) : (s.setStale k g).tickcnt = s.tickcnt := rfl
@[simp] theorem State.setStale_cfg (s : State) (k : Key) (g : Bool) : (s.setStale k g).cfg = s.cfg := rfl
@[simp] theorem State.setStale_cnt (s : State) (k : Key) (g : Bool) : (s.setStale k g).cnt = s.cnt := rfl
@[simp] theorem State.setStale_rollcnt (s : State) (k : Key) (g : Bool) : (s.setStale k g).rollcnt = s.rollcnt := rfl
@[simp] theorem State.setStale_txstat (s : State) (k : Key) (g : Bool) : (s.setStale k g).txstat = s.txstat := rfl
@[simp] theorem State.setStale_a (s : State) (k : Key) (g : Bool) : (s.setStale k g).a = s.a := rfl
@[simp] theorem State.setStale_v (s : State) (k : Key) (g : Bool) : (s.setStale k g).v = s.v := rfl
@[simp] theorem State.setStale_frx (s : State) (k : Key) (g : Bool) : (s.setStale k g).frx = s.frx := rfl
@[simp] theorem State.setStale_hit (s : State) (k : Key) (g : Bool) : (s.setStale k g).hit = s.hit := rfl
@[simp] theorem State.setStale_txb (s : State) (k : Key) (g : Bool) : (s.setStale k g).txb = s.txb := rfl
@[simp] theorem State.setStale_phase (s : State) (k : Key) (g : Bool) : (s.setStale k g).phase = s.phase := rfl
@[simp] theorem State.setStale_idxI (s : State) (k : Key) (g : Bool) : (s.setStale k g).idxI = s.idxI := rfl
@[simp] theorem State.setStale_idxB (s : State) (k : Key) (g : Bool) : (s.setStale k g).idxB = s.idxB := rfl
@[simp] theorem State.setStale_idxJ (s : State) (k : Key) (g : Bool) : (s.setStale k g).idxJ = s.idxJ := rfl
@[simp] theorem State.setStale_idxE (s : State) (k : Key) (g : Bool) : (s.setStale k g).idxE = s.idxE := rfl
@[simp] theorem State.setStale_upc (s : State) (k : Key) (g : Bool) : (s.setStale k g).upc = s.upc := rfl
@[simp] theorem State.setStale_hk (s : State) (k : Key) (g : Bool) : (s.setStale k g).hk = s.hk := rfl
@[simp] theorem State.setStale_sb (s : State) (k : Key) (g : Bool) : (s.setStale k g).sb = Bus.put s.sb k (.int (if g then 1 else 0)) := rfl
@[simp] theorem State.setStale_inputs (s : State) (k : Key) (g : Bool) : (s.setStale k g).inputs = s.inputs := rfl
@[simp] theorem State.setStale_cfgIn (s : State) (k : Key) (g : Bool) : (s.setStale k g).cfgIn = s.cfgIn := rfl
@[simp] theorem State.setStale_rx (s : State) (k : Key) (g : Bool) : (s.setStale k g).rx = s.rx := rfl
@[simp] theorem State.setStale_tx (s : State) (k : Key) (g : Bool) : (s.setStale k g).tx = s.tx := rfl
@[simp] theorem State.setStale_events (s : State) (k : Key) (g : Bool) : (s.setStale k g).events = s.events ++ [.set k (.int (if g then 1 else 0))] := rfl
@[simp] theorem State.setStale_freeCtr (s : State) (k : Key) (g : Bool) : (s.setStale k g).freeCtr = s.freeCtr := rfl

/-! ## State.receive -/

@[simp] theorem State.receive_engstate (s : State) (f : Frame) (fs : List Frame) : (s.receive f fs).engstate = s.engstate := rfl
@[simp] theorem State.receive_initstat (s : State) (f : Frame) (fs : List Frame) : (s.receive f fs).initstat = s.initstat := rfl
@[simp] theorem State.receive_tickcnt (s : State) (f : Frame) (fs : List Frame) : (s.receive f fs).tickcnt = s.tickcnt := rfl
@[simp] theorem State.receive_cfg (s : State) (f : Frame) (fs : List Frame) : (s.receive f fs).cfg = s.cfg := rfl
@[simp] theorem State.receive_cnt (s : State) (f : Frame) (fs : List Frame) : (s.receive f fs).cnt = s.cnt := rfl
@[simp] theorem State.receive_rollcnt (s : State) (f : Frame) (fs : List Frame) : (s.receive f fs).rollcnt = s.rollcnt := rfl
@[simp] theorem State.receive_txstat (s : State) (f : Frame) (fs : List Frame) : (s.receive f fs).txstat = s.txstat := rfl
@[simp] theorem State.receive_a (s : State) (f : Frame) (fs : List Frame) : (s.receive f fs).a = s.a := rfl
@[simp] theorem State.receive_v (s : State) (f : Frame) (fs : List Frame) : (s.receive f fs).v = s.v := rfl
@[simp] theorem State.receive_frx (s : State) (f : Frame) (fs : List Frame) : (s.receive f fs).frx = some f := rfl
@[simp] theorem State.receive_hit (s : State) (f : Frame) (fs : List Frame) : (s.receive f fs).hit = s.hit := rfl
@[simp] theorem State.receive_txb (s : State) (f : Frame) (fs : List Frame) : (s.receive f fs).txb = s.txb := rfl
@[simp] theorem State.receive_phase (s : State) (f : Frame) (fs : List Frame) : (s.receive f fs).phase = s.phase := rfl
@[simp] theorem State.receive_idxI (s : State) (f : Frame) (fs : List Frame) : (s.receive f fs).idxI = s.idxI := rfl
@[simp] theorem State.receive_idxB (s : State) (f : Frame) (fs : List Frame) : (s.receive f fs).idxB = s.idxB := rfl
@[simp] theorem State.receive_idxJ (s : State) (f : Frame) (fs : List Frame) : (s.receive f fs).idxJ = s.idxJ := rfl
@[simp] theorem State.receive_idxE (s : State) (f : Frame) (fs : List Frame) : (s.receive f fs).idxE = s.idxE := rfl
@[simp] theorem State.receive_upc (s : State) (f : Frame) (fs : List Frame) : (s.receive f fs).upc = s.upc := rfl
@[simp] theorem State.receive_hk (s : State) (f : Frame) (fs : List Frame) : (s.receive f fs).hk = s.hk := rfl
@[simp] theorem State.receive_sb (s : State) (f : Frame) (fs : List Frame) : (s.receive f fs).sb = s.sb := rfl
@[simp] theorem State.receive_inputs (s : State) (f : Frame) (fs : List Frame) : (s.receive f fs).inputs = s.inputs := rfl
@[simp] theorem State.receive_cfgIn (s : State) (f : Frame) (fs : List Frame) : (s.receive f fs).cfgIn = s.cfgIn := rfl
@[simp] theorem State.receive_rx (s : State) (f : Frame) (fs : List Frame) : (s.receive f fs).rx = fs := rfl
@[simp] theorem State.receive_tx (s : State) (f : Frame) (fs : List Frame) : (s.receive f fs).tx = s.tx := rfl
@[simp] theorem State.receive_events (s : State) (f : Frame) (fs : List Frame) : (s.receive f fs).events = s.events ++ [.recv (some f)] := rfl
@[simp] theorem State.receive_freeCtr (s : State) (f : Frame) (fs : List Frame) : (s.receive f fs).freeCtr = s.freeCtr := rfl

/-! ## State.dropFrame -/

@[simp] theorem State.dropFrame_engstate (s : State) : (s.dropFrame).engstate = s.engstate := rfl
@[simp] theorem State.dropFrame_initstat (s : State) : (s.dropFrame).initstat = s.initstat := rfl
@[simp] theorem State.dropFrame_tickcnt (s : State) : (s.dropFrame).tickcnt = s.tickcnt := rfl
@[simp] theorem State.dropFrame_cfg (s : State) : (s.dropFrame).cfg = s.cfg := rfl
@[simp] theorem State.dropFrame_cnt (s : State) : (s.dropFrame).cnt = s.cnt := rfl
@[simp] theorem State.dropFrame_rollcnt (s : State) : (s.dropFrame).rollcnt = s.rollcnt := rfl
@[simp] theorem State.dropFrame_txstat (s : State) : (s.dropFrame).txstat = s.txstat := rfl
@[simp] theorem State.dropFrame_a (s : State) : (s.dropFrame).a = s.a := rfl
@[simp] theorem State.dropFrame_v (s : State) : (s.dropFrame).v = s.v := rfl
@[simp] theorem State.dropFrame_frx (s : State) : (s.dropFrame).frx = none := rfl
@[simp] theorem State.dropFrame_hit (s : State) : (s.dropFrame).hit = none := rfl
@[simp] theorem State.dropFrame_txb (s : State) : (s.dropFrame).txb = s.txb := rfl
@[simp] theorem State.dropFrame_phase (s : State) : (s.dropFrame).phase = .drain := rfl
@[simp] theorem State.dropFrame_idxI (s : State) : (s.dropFrame).idxI = s.idxI := rfl
@[simp] theorem State.dropFrame_idxB (s : State) : (s.dropFrame).idxB = s.idxB := rfl
@[simp] theorem State.dropFrame_idxJ (s : State) : (s.dropFrame).idxJ = s.idxJ := rfl
@[simp] theorem State.dropFrame_idxE (s : State) : (s.dropFrame).idxE = s.idxE := rfl
@[simp] theorem State.dropFrame_upc (s : State) : (s.dropFrame).upc = s.upc := rfl
@[simp] theorem State.dropFrame_hk (s : State) : (s.dropFrame).hk = s.hk := rfl
@[simp] theorem State.dropFrame_sb (s : State) : (s.dropFrame).sb = s.sb := rfl
@[simp] theorem State.dropFrame_inputs (s : State) : (s.dropFrame).inputs = s.inputs := rfl
@[simp] theorem State.dropFrame_cfgIn (s : State) : (s.dropFrame).cfgIn = s.cfgIn := rfl
@[simp] theorem State.dropFrame_rx (s : State) : (s.dropFrame).rx = s.rx := rfl
@[simp] theorem State.dropFrame_tx (s : State) : (s.dropFrame).tx = s.tx := rfl
@[simp] theorem State.dropFrame_events (s : State) : (s.dropFrame).events = s.events := rfl
@[simp] theorem State.dropFrame_freeCtr (s : State) : (s.dropFrame).freeCtr = s.freeCtr := rfl

/-! ## State.newOp -/

@[simp] theorem State.newOp_engstate (s : State) : (s.newOp).engstate = s.engstate := rfl
@[simp] theorem State.newOp_initstat (s : State) : (s.newOp).initstat = s.initstat := rfl
@[simp] theorem State.newOp_tickcnt (s : State) : (s.newOp).tickcnt = s.tickcnt := rfl
@[simp] theorem State.newOp_cfg (s : State) : (s.newOp).cfg = s.cfg := rfl
@[simp] theorem State.newOp_cnt (s : State) : (s.newOp).cnt = s.cnt := rfl
@[simp] theorem State.newOp_rollcnt (s : State) : (s.newOp).rollcnt = s.rollcnt := rfl
@[simp] theorem State.newOp_txstat (s : State) : (s.newOp).txstat = s.txstat := rfl
@[simp] theorem State.newOp_a (s : State) : (s.newOp).a = s.a := rfl
@[simp] theorem State.newOp_v (s : State) : (s.newOp).v = s.v := rfl
@[simp] theorem State.newOp_frx (s : State) : (s.newOp).frx = s.frx := rfl
@[simp] theorem State.newOp_hit (s : State) : (s.newOp).hit = s.hit := rfl
@[simp] theorem State.newOp_txb (s : State) : (s.newOp).txb = s.txb := rfl
@[simp] theorem State.newOp_phase (s : State) : (s.newOp).phase = s.phase := rfl
@[simp] theorem State.newOp_idxI (s : State) : (s.newOp).idxI = s.idxI := rfl
@[simp] theorem State.newOp_idxB (s : State) : (s.newOp).idxB = s.idxB := rfl
@[simp] theorem State.newOp_idxJ (s : State) : (s.newOp).idxJ = s.idxJ := rfl
@[simp] theorem State.newOp_idxE (s : State) : (s.newOp).idxE = s.idxE := rfl
@[simp] theorem State.newOp_upc (s : State) : (s.newOp).upc = s.upc := rfl
@[simp] theorem State.newOp_hk (s : State) : (s.newOp).hk = s.hk := rfl
@[simp] theorem State.newOp_sb (s : State) : (s.newOp).sb = s.sb := rfl
@[simp] theorem State.newOp_inputs (s : State) : (s.newOp).inputs = s.inputs := rfl
@[simp] theorem State.newOp_cfgIn (s : State) : (s.newOp).cfgIn = s.cfgIn := rfl
@[simp] theorem State.newOp_rx (s : State) : (s.newOp).rx = s.rx := rfl
@[simp] theorem State.newOp_tx (s : State) : (s.newOp).tx = s.tx := rfl
@[simp] theorem State.newOp_events (s : State) : (s.newOp).events = [] := rfl
@[simp] theorem State.newOp_freeCtr (s : State) : (s.newOp).freeCtr = s.freeCtr := rfl

end Sys2Proof.Machine
end

