-- ==== Sys2Proof/Laws/Ops.lean ====
section
/-! SUPPORT. For each shared operation, what it does when it answers a next state; and the laws of the two stores. -/

namespace Sys2Proof.Machine

/-! ## Sequencing and reads -/

@[simp] theorem andThen_of_next (s : State) (k : State → Out) : andThen (.next s) k = k s := rfl
@[simp] theorem andThen_of_fault (r : Fault) (k : State → Out) : andThen (.fault r) k = .fault r := rfl
@[simp] theorem andThen_of_refused (r : Refusal) (k : State → Out) : andThen (.refused r) k = .refused r := rfl

@[simp] theorem andThen_next {o : Out} {k : State → Out} {t : State} :
    andThen o k = .next t ↔ ∃ s, o = .next s ∧ k s = .next t := by
  cases o <;> simp

@[simp] theorem need_of_some {α : Type} (r : NoneReg) (y : α) (k : α → Out) : need r (some y) k = k y := rfl
@[simp] theorem need_of_none {α : Type} (r : NoneReg) (k : α → Out) : need r none k = .fault (.readNone r) := rfl

@[simp] theorem need_next {α : Type} {r : NoneReg} {x : Option α} {k : α → Out} {t : State} :
    need r x k = .next t ↔ ∃ y, x = some y ∧ k y = .next t := by
  cases x <;> simp

@[simp] theorem index_next {α : Type} {sp : Space} {l : List α} {i : Nat} {k : α → Out} {t : State} :
    index sp l i k = .next t ↔ ∃ y, l[i]? = some y ∧ k y = .next t := by
  unfold index; cases l[i]? <;> simp

theorem index_of_some {α : Type} {sp : Space} {l : List α} {i : Nat} {y : α} (h : l[i]? = some y) (k : α → Out) :
    index sp l i k = k y := by
  simp [index, h]

theorem index_of_lt {α : Type} (sp : Space) {l : List α} {i : Nat} (h : i < l.length) (k : α → Out) :
    index sp l i k = k l[i] :=
  index_of_some (List.getElem?_eq_getElem h) k

@[simp] theorem needFound_next {s t : State} {k : Nat → Out} :
    needFound s k = .next t ↔ ∃ i, s.hit = some (.found i) ∧ k i = .next t := by
  unfold needFound
  rw [need_next]
  constructor
  · rintro ⟨_ | i, h, hk⟩
    · simp at hk
    · exact ⟨i, h, hk⟩
  · rintro ⟨i, h, hk⟩
    exact ⟨.found i, h, hk⟩

theorem writeCnt_next {s t : State} {i : Nat} {x : Int} :
    writeCnt s i x = .next t ↔
      ∃ l, s.cnt = some l ∧ i < l.length ∧ t = { s with cnt := some (l.set i x) } := by
  simp only [writeCnt, need_next, index_next]
  constructor
  · rintro ⟨l, hl, y, hy, h⟩
    simp only [Host.Outcome.next.injEq] at h
    exact ⟨l, hl, (List.getElem?_eq_some_iff.mp hy).1, h.symm⟩
  · rintro ⟨l, hl, hi, rfl⟩
    exact ⟨l, hl, _, List.getElem?_eq_getElem hi, rfl⟩

theorem writeCnt_of {s : State} {l : List Int} {i : Nat} (h : s.cnt = some l) (hi : i < l.length) (x : Int) :
    writeCnt s i x = .next { s with cnt := some (l.set i x) } :=
  writeCnt_next.mpr ⟨l, h, hi, rfl⟩

theorem advance_next {s t : State} : advance s = .next t ↔ ∃ u, s.upc = some u ∧ t = { s with upc := some (u + 1) } := by
  simp only [advance, need_next, Host.Outcome.next.injEq]
  exact exists_congr fun u => and_congr_right fun _ => eq_comm

theorem advance_of {s : State} {u : Nat} (h : s.upc = some u) : advance s = .next { s with upc := some (u + 1) } := by
  simp [advance, h]

theorem busValue_of {c : Cfg} {sb : Bus} {k : Key} {t : SigType} (hk : keyType c.ktype k = some t)
    (ht : (busContent sb k t).type = t) : busValue c sb k = some (busContent sb k t) := by
  simp [busValue, hk, ht]

/-- What a readable key holds: a value of its declared type. -/
theorem busValue_eq_some {c : Cfg} {sb : Bus} {k : Key} {v : SigVal} :
    busValue c sb k = some v ↔ ∃ t, keyType c.ktype k = some t ∧ busContent sb k t = v ∧ v.type = t := by
  unfold busValue
  cases hk : keyType c.ktype k with
  | none => simp
  | some t =>
    simp only [Option.some.injEq, exists_eq_left']
    split
    · rename_i h
      simp only [Option.some.injEq]
      exact ⟨fun e => ⟨e, e ▸ h⟩, fun e => e.1⟩
    · rename_i h
      exact ⟨nofun, fun e => absurd (e.1 ▸ e.2) h⟩

theorem busGet_next {s t : State} {k : Key} {f : SigVal → State → Out} :
    busGet s k f = .next t ↔
      ∃ c v, s.cfg = some c ∧ busValue c s.sb k = some v ∧ f v (s.log (.get k v)) = .next t := by
  simp only [busGet, need_next]
  constructor
  · rintro ⟨c, hc, h⟩
    cases hv : busValue c s.sb k with
    | none => rw [hv] at h; simp at h
    | some v => rw [hv] at h; exact ⟨c, v, hc, hv, h⟩
  · rintro ⟨c, v, hc, hv, h⟩
    exact ⟨c, hc, by rw [hv]; exact h⟩

theorem busGet_of {s : State} {c : Cfg} {k : Key} {v : SigVal} (hc : s.cfg = some c) (hv : busValue c s.sb k = some v)
    (f : SigVal → State → Out) : busGet s k f = f v (s.log (.get k v)) := by
  simp [busGet, hc, hv]

theorem busGetInt_next {s t : State} {k : Key} {f : Int → State → Out} :
    busGetInt s k f = .next t ↔
      ∃ c i, s.cfg = some c ∧ busValue c s.sb k = some (.int i) ∧ f i.toInt (s.log (.get k (.int i))) = .next t := by
  simp only [busGetInt, busGet_next]
  constructor
  · rintro ⟨c, v, hc, hv, h⟩
    cases v with
    | int i => exact ⟨c, i, hc, hv, h⟩
    | real q => simp at h
  · rintro ⟨c, i, hc, hv, h⟩
    exact ⟨c, .int i, hc, hv, h⟩

theorem busGetInt_of {s : State} {c : Cfg} {k : Key} {i : BitVec 64} (hc : s.cfg = some c)
    (hv : busValue c s.sb k = some (.int i)) (f : Int → State → Out) :
    busGetInt s k f = f i.toInt (s.log (.get k (.int i))) := by
  simp [busGetInt, busGet_of hc hv]

/-! ## Operands -/

theorem FieldSpec.fits_iff (p : FieldSpec) : p.fits = true ↔ p.s + p.w ≤ 8 * p.nb ∧ p.o + p.nb ≤ 8 := by
  simp only [FieldSpec.fits, Bool.and_eq_true, decide_eq_true_eq]

theorem fieldF_fits (byte nb1 : BitVec 3) (shift w1 : BitVec 6) :
    (fieldF byte nb1 shift w1).fits = true ↔
      shift.toNat + (w1.toNat + 1) ≤ 8 * (nb1.toNat + 1) ∧ byte.toNat + (nb1.toNat + 1) ≤ 8 :=
  FieldSpec.fits_iff _

theorem fieldB_fits (byte : BitVec 3) (bit : BitVec 6) : (fieldB byte bit).fits = true ↔ bit.toNat ≤ 7 := by
  rw [FieldSpec.fits_iff]
  have := byte.isLt
  simp only [fieldB]
  omega

theorem fieldR_fits (byte : BitVec 3) (shift : BitVec 6) : (fieldR byte shift).fits = true ↔ shift.toNat ≤ 4 := by
  rw [FieldSpec.fits_iff]
  have := byte.isLt
  simp only [fieldR]
  omega

theorem rxField_next {s t : State} {p : FieldSpec} {k : Nat → Out} :
    rxField s p k = .next t ↔ ∃ f, s.frx = some f ∧ p.fits = true ∧ k (field f.space p) = .next t := by
  simp only [rxField, need_next]
  constructor
  · rintro ⟨f, hf, h⟩
    split at h
    · exact ⟨f, hf, ‹_›, h⟩
    · simp at h
  · rintro ⟨f, hf, hp, h⟩
    exact ⟨f, hf, by simpa [hp] using h⟩

theorem txInsert_next {s t : State} {p : FieldSpec} {x : Int} {k : State → Out} :
    txInsert s p x k = .next t ↔ p.fits = true ∧ k (s.setTxb (insertField s.txb p x)) = .next t := by
  unfold txInsert; split <;> simp_all

theorem constant_next {s t : State} {c : BitVec 16} {k : Rat → Out} :
    constant s c k = .next t ↔
      ∃ cfg p, s.cfg = some cfg ∧ cfg.cpool[c.toNat]? = some p ∧ p.den ≠ 0 ∧ k p.value = .next t := by
  simp only [constant, need_next, index_next]
  constructor
  · rintro ⟨cfg, hc, p, hp, h⟩
    split at h
    · simp at h
    · exact ⟨cfg, p, hc, hp, ‹_›, h⟩
  · rintro ⟨cfg, p, hc, hp, hd, h⟩
    exact ⟨cfg, hc, p, hp, by rw [if_neg hd]; exact h⟩

theorem divisor_next {s t : State} {c : BitVec 16} {k : Rat → Out} :
    divisor s c k = .next t ↔
      ∃ cfg p, s.cfg = some cfg ∧ cfg.cpool[c.toNat]? = some p ∧ p.den ≠ 0 ∧ p.value ≠ 0 ∧ k p.value = .next t := by
  simp only [divisor, constant_next]
  constructor
  · rintro ⟨cfg, p, hc, hp, hd, h⟩
    split at h
    · simp at h
    · exact ⟨cfg, p, hc, hp, hd, ‹_›, h⟩
  · rintro ⟨cfg, p, hc, hp, hd, hz, h⟩
    exact ⟨cfg, p, hc, hp, hd, by rw [if_neg hz]; exact h⟩

theorem quantise_next {s t : State} {x : Rat} :
    quantise s x = .next t ↔
      ∃ cfg u, s.cfg = some cfg ∧ s.upc = some u ∧ fitsA (cfg.quant.apply x) = true ∧
        t = { s with a := some (BitVec.ofInt 64 (cfg.quant.apply x)), upc := some (u + 1) } := by
  simp only [quantise, need_next]
  constructor
  · rintro ⟨cfg, hc, h⟩
    split at h
    · obtain ⟨u, hu, rfl⟩ := advance_next.mp h
      exact ⟨cfg, u, hc, hu, ‹_›, rfl⟩
    · simp at h
  · rintro ⟨cfg, u, hc, hu, hf, rfl⟩
    refine ⟨cfg, hc, ?_⟩
    simp only [hf, if_true]
    exact advance_next.mpr ⟨u, hu, rfl⟩

/-- A pack goes on with the value that fits, or under `wrap` and `saturate` with the value the policy gives, and the record. -/
theorem fitPack_next {s t : State} {r : PackRange} {x : Int} {k : Int → State → Out}
    (h : fitPack s r x k = .next t) :
    ∃ y s', k y s' = .next t ∧ (s' = s ∨ ∃ e u, s' = s.raise (.packovf e u)) := by
  unfold fitPack at h
  split at h
  · exact ⟨x, s, h, .inl rfl⟩
  · simp only [need_next] at h
    obtain ⟨cfg, hc, e, he, u, hu, h⟩ := h
    split at h
    · exact ⟨_, _, h, .inr ⟨e, u, rfl⟩⟩
    · exact ⟨_, _, h, .inr ⟨e, u, rfl⟩⟩
    · simp at h

theorem writeTxStat_next {s t : State} {e : Nat} {st : SendStatus} {k : State → Out} :
    writeTxStat s e st k = .next t ↔
      ∃ l, s.txstat = some l ∧ e < l.length ∧
        k { s with txstat := some (l.set e { valid := true, code := st }) } = .next t := by
  simp only [writeTxStat, need_next, index_next]
  constructor
  · rintro ⟨l, hl, y, hy, h⟩
    exact ⟨l, hl, (List.getElem?_eq_some_iff.mp hy).1, h⟩
  · rintro ⟨l, hl, hi, h⟩
    exact ⟨l, hl, _, List.getElem?_eq_getElem hi, h⟩

/-- What taking an answer of `send()` changes: the answers listed, or the count of free ones. -/
theorem nextAnswer_state (s : State) :
    (nextAnswer s).2 = { s with tx := (nextAnswer s).2.tx, freeCtr := (nextAnswer s).2.freeCtr } := by
  unfold nextAnswer; cases s.tx <;> rfl

/-! ## The micro-sequencer -/

theorem fetchMicro_next {s t : State} {k : Instr → Out} :
    fetchMicro s k = .next t ↔
      ∃ u cfg w i, s.upc = some u ∧ s.cfg = some cfg ∧ cfg.uc[u]? = some w ∧ decodeMicro w = .ok i ∧ k i = .next t := by
  simp only [fetchMicro, need_next, index_next]
  constructor
  · rintro ⟨u, hu, cfg, hc, w, hw, h⟩
    cases hd : decodeMicro w with
    | error e => rw [hd] at h; simp at h
    | ok i => rw [hd] at h; exact ⟨u, cfg, w, i, hu, hc, hw, hd, h⟩
  · rintro ⟨u, cfg, w, i, hu, hc, hw, hd, h⟩
    exact ⟨u, hu, cfg, hc, w, hw, by rw [hd]; exact h⟩

theorem runLoop_succ_next {n : Nat} {s t : State} (h : runLoop (n + 1) s = .next t) :
    ∃ s', microStep s = .next s' ∧ ((s'.upc = none ∧ t = s') ∨ (s'.upc ≠ none ∧ runLoop n s' = .next t)) := by
  simp only [runLoop, andThen_next] at h
  obtain ⟨s', hs, h⟩ := h
  split at h
  · exact ⟨s', hs, .inl ⟨‹_›, by simpa using h.symm⟩⟩
  · exact ⟨s', hs, .inr ⟨‹_›, h⟩⟩

/-- A property every micro-instruction keeps is kept by the run of a handler. -/
theorem runLoop_keeps {P : State → Prop} (step : ∀ s s', P s → microStep s = .next s' → P s') :
    ∀ (n : Nat) (s t : State), P s → runLoop n s = .next t → P t
  | 0, s, t, _, h => by simp [runLoop] at h
  | n + 1, s, t, hp, h => by
    obtain ⟨s', hs, ⟨_, rfl⟩ | ⟨_, h⟩⟩ := runLoop_succ_next h
    · exact step s _ hp hs
    · exact runLoop_keeps step n s' t (step s s' hp hs) h

/-- A run of a handler that completes has ended. -/
theorem runLoop_ended : ∀ (n : Nat) (s t : State), runLoop n s = .next t → t.upc = none
  | 0, s, t, h => by simp [runLoop] at h
  | n + 1, s, t, h => by
    obtain ⟨s', _, ⟨hu, rfl⟩ | ⟨_, h⟩⟩ := runLoop_succ_next h
    · exact hu
    · exact runLoop_ended n s' t h

theorem runHandler_next {k : HandlerKind} {base : Nat} {s t : State} :
    runHandler k base s = .next t ↔
      ∃ cfg, s.cfg = some cfg ∧ runLoop (cfg.uc.length + 1) (s.startRun k base) = .next t := by
  simp [runHandler]

/-! ## The signal bus as a map (20_memory.md R66) -/

theorem Bus.find_put_self (sb : Bus) (k : Key) (v : SigVal) : Bus.find (Bus.put sb k v) k = some v := by
  induction sb with
  | nil => simp [Bus.put, Bus.find]
  | cons kv sb ih =>
    obtain ⟨k', v'⟩ := kv
    simp only [Bus.put]
    split
    · have : k' ≠ k := by rintro rfl; omega
      simp [Bus.find, this, ih]
    · split <;> simp [Bus.find]

theorem Bus.wfFrom_mono {lo lo' : Nat} (h : lo ≤ lo') : ∀ {sb : Bus}, Bus.wfFrom lo' sb = true → Bus.wfFrom lo sb = true
  | [], _ => rfl
  | (k, v) :: sb, hs => by
    simp only [Bus.wfFrom, Bool.and_eq_true, decide_eq_true_eq] at hs ⊢
    exact ⟨by omega, hs.2⟩

theorem Bus.put_wfFrom (k : Key) (v : SigVal) :
    ∀ {lo : Nat} {sb : Bus}, lo ≤ k.toNat → Bus.wfFrom lo sb = true → Bus.wfFrom lo (Bus.put sb k v) = true
  | lo, [], hk, _ => by simp [Bus.put, Bus.wfFrom, hk]
  | lo, (k', v') :: sb, hk, hs => by
    simp only [Bus.wfFrom, Bool.and_eq_true, decide_eq_true_eq] at hs
    simp only [Bus.put]
    split
    · simp only [Bus.wfFrom, Bool.and_eq_true, decide_eq_true_eq]
      exact ⟨hs.1, Bus.put_wfFrom k v (by omega) hs.2⟩
    · split
      · rename_i h
        subst h
        simp only [Bus.wfFrom, Bool.and_eq_true, decide_eq_true_eq]
        exact ⟨hk, hs.2⟩
      · rename_i h1 h2
        have : k'.toNat ≠ k.toNat := fun he => h2 (BitVec.eq_of_toNat_eq he)
        simp only [Bus.wfFrom, Bool.and_eq_true, decide_eq_true_eq]
        exact ⟨hk, by omega, hs.2⟩

/-- A set keeps the signal bus canonical. -/
theorem Bus.put_wf {sb : Bus} (h : Bus.wf sb = true) (k : Key) (v : SigVal) : Bus.wf (Bus.put sb k v) = true :=
  Bus.put_wfFrom k v (Nat.zero_le _) h

theorem Bus.putAll_wf (ws : List (Key × SigVal)) :
    ∀ {sb : Bus}, Bus.wf sb = true → Bus.wf (ws.foldl (fun sb kv => Bus.put sb kv.1 kv.2) sb) = true := by
  induction ws with
  | nil => exact fun h => h
  | cons kv ws ih => exact fun h => ih (Bus.put_wf h kv.1 kv.2)

/-! ## The transmit buffer -/

theorem Memory.wfFrom_mono {lo lo' : Nat} (h : lo ≤ lo') :
    ∀ {m : Memory}, Memory.wfFrom lo' m = true → Memory.wfFrom lo m = true
  | [], _ => rfl
  | (a, b) :: m, hm => by
    simp only [Memory.wfFrom, Bool.and_eq_true, decide_eq_true_eq] at hm ⊢
    exact ⟨⟨⟨by omega, hm.1.1.2⟩, hm.1.2⟩, hm.2⟩

theorem Memory.insert_wfFrom (a : Nat) (b : Byte) (ha : a < 8) :
    ∀ {lo : Nat} {m : Memory}, lo ≤ a → Memory.wfFrom lo m = true → Memory.wfFrom lo (Memory.insert m a b) = true
  | lo, [], hl, _ => by
    simp only [Memory.insert]
    split
    · rfl
    · rename_i hb
      simp only [Memory.wfFrom, Bool.and_eq_true, decide_eq_true_eq]
      exact ⟨⟨⟨hl, ha⟩, by simpa using hb⟩, trivial⟩
  | lo, (a', b') :: m, hl, hm => by
    simp only [Memory.wfFrom, Bool.and_eq_true, decide_eq_true_eq] at hm
    obtain ⟨⟨⟨h1, h2⟩, h3⟩, h4⟩ := hm
    simp only [Memory.insert]
    split
    · simp only [Memory.wfFrom, Bool.and_eq_true, decide_eq_true_eq]
      exact ⟨⟨⟨h1, h2⟩, h3⟩, Memory.insert_wfFrom a b ha (by omega) h4⟩
    · split
      · rename_i h
        subst h
        split
        · exact Memory.wfFrom_mono (by omega) h4
        · rename_i hb
          simp only [Memory.wfFrom, Bool.and_eq_true, decide_eq_true_eq]
          exact ⟨⟨⟨h1, h2⟩, by simpa using hb⟩, h4⟩
      · split
        · simp only [Memory.wfFrom, Bool.and_eq_true, decide_eq_true_eq]
          exact ⟨⟨⟨h1, h2⟩, h3⟩, h4⟩
        · rename_i h5 h6 hb
          simp only [Memory.wfFrom, Bool.and_eq_true, decide_eq_true_eq]
          exact ⟨⟨⟨hl, ha⟩, by simpa using hb⟩, ⟨⟨by omega, h2⟩, h3⟩, h4⟩

/-- A write inside the buffer keeps it canonical. -/
theorem Memory.write_wf {m : Memory} (h : Memory.wf m = true) {a : Nat} (ha : a < 8) (b : Byte) :
    Memory.wf (Memory.write m a b) = true :=
  Memory.insert_wfFrom a b ha (Nat.zero_le _) h

theorem memWrite_wf : ∀ (n a v : Nat) {m : Memory}, Memory.wf m = true → a + n ≤ 8 → Memory.wf (memWrite m a n v) = true
  | 0, _, _, _, h, _ => h
  | n + 1, a, v, _, h, ha =>
    memWrite_wf n (a + 1) (v / 256) (Memory.write_wf h (by omega) _) (by omega)

theorem insertField_wf {m : Memory} (h : Memory.wf m = true) {p : FieldSpec} (hp : p.fits = true) (x : Int) :
    Memory.wf (insertField m p x) = true := by
  simp only [FieldSpec.fits, Bool.and_eq_true, decide_eq_true_eq] at hp
  exact memWrite_wf p.nb p.o _ h hp.2

end Sys2Proof.Machine
end

