-- ==== Sys2Proof/Laws/Fields.lean ====
section
/-! SUPPORT. The transmit buffer as a map from offsets to bytes, and fields as bits of the payload (20_memory.md R67, R68). -/

namespace Sys2Proof.Machine

/-! ## Read after write -/

theorem Memory.read_below : ∀ {lo : Nat} {m : Memory} {j : Nat}, Memory.wfFrom lo m = true → j < lo → m.read j = 0
  | _, [], _, _, _ => rfl
  | lo, (a, b) :: m, j, h, hj => by
    simp only [Memory.wfFrom, Bool.and_eq_true, decide_eq_true_eq] at h
    have : a ≠ j := by omega
    simp only [Memory.read, if_neg this]
    exact Memory.read_below h.2 (by omega)

theorem Memory.read_insert (a : Nat) (b : Byte) (j : Nat) :
    ∀ {lo : Nat} {m : Memory}, Memory.wfFrom lo m = true → (Memory.insert m a b).read j = if j = a then b else m.read j
  | lo, [], _ => by
    by_cases hb : b = 0#8 <;> simp [Memory.insert, Memory.read, hb, eq_comm]
  | lo, (a', b') :: m, h => by
    simp only [Memory.wfFrom, Bool.and_eq_true, decide_eq_true_eq] at h
    obtain ⟨⟨⟨h1, h2⟩, h3⟩, h4⟩ := h
    simp only [Memory.insert]
    split
    · simp only [Memory.read, Memory.read_insert a b j h4]
      split
      · split
        · omega
        · rfl
      · rfl
    · split
      · rename_i hne
        subst hne
        split
        · rename_i hb
          by_cases hj : j = a'
          · subst hj; simp only [if_true, hb]; exact Memory.read_below h4 (by omega)
          · simp only [if_neg hj, Memory.read, if_neg (Ne.symm hj)]
        · by_cases hj : j = a' <;> simp [Memory.read, hj, eq_comm]
      · split
        · rename_i hb
          by_cases hj : j = a
          · subst hj
            have : a' ≠ j := by omega
            simp only [if_true, Memory.read, if_neg this, hb]
            exact Memory.read_below h4 (by omega)
          · rw [if_neg hj]
        · by_cases hj : j = a
          · simp [Memory.read, hj]
          · simp only [Memory.read, if_neg hj, if_neg (Ne.symm hj)]

/-- A read after a write: the byte written at its offset, every other byte as before. -/
theorem Memory.read_write {m : Memory} (h : Memory.wf m = true) (a : Nat) (b : Byte) (j : Nat) :
    (Memory.write m a b).read j = if j = a then b else m.read j :=
  Memory.read_insert a b j h

theorem byteOf_zero (v : Nat) : byteOf v 0 = BitVec.ofNat 8 v := by simp [byteOf]

theorem byteOf_succ (v i : Nat) : byteOf v (i + 1) = byteOf (v / 256) i := by
  unfold byteOf
  congr 1
  rw [show 8 * (i + 1) = 8 + 8 * i by ring, Nat.shiftRight_add, Nat.shiftRight_eq_div_pow v 8]

/-- `MemWrite` byte by byte (00_scope.md R14). -/
theorem memWrite_read : ∀ (n a v : Nat) {m : Memory} (j : Nat), Memory.wf m = true → a + n ≤ 8 →
    (memWrite m a n v).read j = if a ≤ j ∧ j < a + n then byteOf v (j - a) else m.read j
  | 0, a, v, m, j, _, _ => by
    have : ¬ (a ≤ j ∧ j < a + 0) := by omega
    simp only [memWrite, if_neg this]
  | n + 1, a, v, m, j, h, ha => by
    simp only [memWrite]
    rw [memWrite_read n (a + 1) (v / 256) j (Memory.write_wf h (by omega) _) (by omega), Memory.read_write h]
    by_cases hj : j = a
    · subst hj
      have h1 : ¬ (j + 1 ≤ j ∧ j < j + 1 + n) := by omega
      have h2 : j ≤ j ∧ j < j + (n + 1) := by omega
      simp only [if_neg h1, if_pos h2, if_true, Nat.sub_self, byteOf_zero]
    · by_cases h1 : a + 1 ≤ j ∧ j < a + 1 + n
      · have h2 : a ≤ j ∧ j < a + (n + 1) := by omega
        rw [if_pos h1, if_pos h2, show j - a = (j - (a + 1)) + 1 by omega, byteOf_succ]
      · have h2 : ¬ (a ≤ j ∧ j < a + (n + 1)) := by omega
        rw [if_neg h1, if_neg h2, if_neg hj]

/-! ## Bits of what is read -/

theorem memRead_lt (space : Nat → Byte) : ∀ (n a : Nat), memRead space a n < 2 ^ (8 * n)
  | 0, a => by simp [memRead]
  | n + 1, a => by
    have h := memRead_lt space n (a + 1)
    have hb := (space a).isLt
    simp only [memRead]
    rw [show 8 * (n + 1) = 8 + 8 * n by ring, pow_add]
    omega

/-- Bit b of n bytes from offset a is bit b mod 8 of the byte at a + b/8 (20_memory.md R67, R68). -/
theorem memRead_testBit (space : Nat → Byte) : ∀ (n a b : Nat),
    (memRead space a n).testBit b = (decide (b < 8 * n) && (space (a + b / 8)).getLsbD (b % 8))
  | 0, a, b => by simp [memRead]
  | n + 1, a, b => by
    have hb := (space a).isLt
    simp only [memRead]
    have e : (space a).toNat + 256 * memRead space (a + 1) n = 2 ^ 8 * memRead space (a + 1) n + (space a).toNat := by ring
    rw [e, Nat.testBit_two_pow_mul_add _ (by simpa using hb)]
    split
    · rename_i h
      have h1 : b / 8 = 0 := by omega
      have h2 : b % 8 = b := by omega
      have h3 : b < 8 * (n + 1) := by omega
      simp [h1, h2, h3, BitVec.getLsbD]
    · rename_i h
      rw [memRead_testBit space n (a + 1) (b - 8)]
      have h1 : a + 1 + (b - 8) / 8 = a + b / 8 := by omega
      have h2 : (b - 8) % 8 = b % 8 := by omega
      rw [h1, h2]
      congr 1
      exact decide_eq_decide.mpr (by omega)

theorem field_testBit (space : Nat → Byte) (p : FieldSpec) (b : Nat) :
    (field space p).testBit b =
      (decide (b < p.w) && (decide (p.s + b < 8 * p.nb) && (space (p.o + (p.s + b) / 8)).getLsbD ((p.s + b) % 8))) := by
  rw [field, Nat.testBit_mod_two_pow, Nat.testBit_shiftRight, memRead_testBit]

/-- Bit j of byte i of a number. -/
theorem byteOf_getLsbD (v i j : Nat) : (byteOf v i).getLsbD j = (decide (j < 8) && v.testBit (8 * i + j)) := by
  simp [byteOf, BitVec.getLsbD_ofNat, Nat.testBit_shiftRight]

/-! ## The insertion -/

theorem modPow_cast (x : Int) (w : Nat) : ((modPow x w : Nat) : Int) = x % (2 ^ w : Int) := by
  have h : (0 : Int) < 2 ^ w := by positivity
  have := Int.emod_nonneg x h.ne'
  simp only [modPow]
  push_cast
  exact Int.toNat_of_nonneg this

theorem modPow_lt (x : Int) (w : Nat) : modPow x w < 2 ^ w := by
  have h : (0 : Int) < 2 ^ w := by positivity
  have := Int.emod_lt_of_pos x h
  have h2 := modPow_cast x w
  zify
  omega

theorem add_eq_or {a : Nat} : ∀ {b : Nat}, a &&& b = 0 → a + b = a ||| b := by
  induction a using Nat.binaryRec with
  | zero => simp
  | bit x a ih =>
    intro b
    induction b using Nat.binaryRec with
    | zero => simp
    | bit y b _ =>
      intro h
      rw [Nat.land_bit] at h
      have h1 : (x && y) = false ∧ a &&& b = 0 := by
        have := Nat.bit_eq_zero_iff.mp h
        tauto
      rw [Nat.lor_bit, ← ih h1.2]
      cases x <;> cases y <;> simp [Nat.bit] at h1 ⊢ <;> ring

/-- The bits of the container after an insertion: the field's are those of the value, every other stays. -/
theorem inserted_testBit (old s w x b : Nat) (hx : x < 2 ^ w) :
    ((old - (old &&& ((2 ^ w - 1) <<< s))) + (x <<< s)).testBit b =
      if s ≤ b ∧ b < s + w then x.testBit (b - s) else old.testBit b := by
  have h1 : old - (old &&& ((2 ^ w - 1) <<< s)) = old ^^^ (old &&& ((2 ^ w - 1) <<< s)) := by
    have hsub : old &&& ((2 ^ w - 1) <<< s) ≤ old := Nat.and_le_left
    have hdis : (old ^^^ (old &&& ((2 ^ w - 1) <<< s))) &&& (old &&& ((2 ^ w - 1) <<< s)) = 0 := by
      apply Nat.eq_of_testBit_eq
      intro i
      simp only [Nat.testBit_and, Nat.testBit_xor, Nat.zero_testBit]
      cases old.testBit i <;> cases ((2 ^ w - 1) <<< s).testBit i <;> rfl
    have hadd : (old ^^^ (old &&& ((2 ^ w - 1) <<< s))) + (old &&& ((2 ^ w - 1) <<< s)) = old := by
      rw [add_eq_or hdis]
      apply Nat.eq_of_testBit_eq
      intro i
      simp only [Nat.testBit_or, Nat.testBit_and, Nat.testBit_xor]
      cases old.testBit i <;> cases ((2 ^ w - 1) <<< s).testBit i <;> rfl
    omega
  have hxb : ∀ i, (x <<< s).testBit i = (decide (s ≤ i ∧ i < s + w) && x.testBit (i - s)) := by
    intro i
    rw [Nat.testBit_shiftLeft]
    by_cases hi : s ≤ i
    · by_cases hw : i < s + w
      · simp [hi, hw]
      · have : x.testBit (i - s) = false := Nat.testBit_lt_two_pow (lt_of_lt_of_le hx (Nat.pow_le_pow_right (by omega) (by omega)))
        simp [this]
    · simp [hi]
  have hmb : ∀ i, ((2 ^ w - 1) <<< s).testBit i = decide (s ≤ i ∧ i < s + w) := by
    intro i
    rw [Nat.testBit_shiftLeft, Nat.testBit_two_pow_sub_one]
    by_cases hi : s ≤ i <;> simp [hi]
    omega
  have hdis : (old ^^^ (old &&& ((2 ^ w - 1) <<< s))) &&& (x <<< s) = 0 := by
    apply Nat.eq_of_testBit_eq
    intro i
    simp only [Nat.testBit_and, Nat.testBit_xor, Nat.zero_testBit, hxb, hmb]
    cases old.testBit i <;> cases decide (s ≤ i ∧ i < s + w) <;> cases x.testBit (i - s) <;> rfl
  rw [h1, add_eq_or hdis]
  simp only [Nat.testBit_or, Nat.testBit_and, Nat.testBit_xor, hxb, hmb]
  by_cases h : s ≤ b ∧ b < s + w
  · rw [if_pos h]; simp only [h, and_self, decide_true]; cases old.testBit b <;> cases x.testBit (b - s) <;> rfl
  · rw [if_neg h]; simp only [h, decide_false]; cases old.testBit b <;> rfl

/-- Every bit of the buffer after an insertion (43_codec_encode.md R207): the field's bits are the value's low bits, every other is
as before. -/
theorem insertField_getLsbD {m : Memory} (h : Memory.wf m = true) {p : FieldSpec} (hp : p.fits = true) (x : Int) (b : Nat) :
    ((insertField m p x).read (b / 8)).getLsbD (b % 8) =
      if 8 * p.o + p.s ≤ b ∧ b < 8 * p.o + p.s + p.w then (modPow x p.w).testBit (b - (8 * p.o + p.s))
      else (m.read (b / 8)).getLsbD (b % 8) := by
  simp only [FieldSpec.fits, Bool.and_eq_true, decide_eq_true_eq] at hp
  obtain ⟨hp1, hp2⟩ := hp
  simp only [insertField]
  rw [memWrite_read p.nb p.o _ (b / 8) h hp2]
  by_cases hin : p.o ≤ b / 8 ∧ b / 8 < p.o + p.nb
  · rw [if_pos hin, byteOf_getLsbD, inserted_testBit _ _ _ _ _ (modPow_lt x p.w), memRead_testBit]
    have e : 8 * (b / 8 - p.o) + b % 8 = b - 8 * p.o := by omega
    have h8 : b % 8 < 8 := by omega
    rw [e]
    by_cases hf : 8 * p.o + p.s ≤ b ∧ b < 8 * p.o + p.s + p.w
    · have h1 : p.s ≤ b - 8 * p.o ∧ b - 8 * p.o < p.s + p.w := by omega
      rw [if_pos h1, if_pos hf]
      simp only [h8, decide_true, Bool.true_and]
      congr 1
      omega
    · have h1 : ¬ (p.s ≤ b - 8 * p.o ∧ b - 8 * p.o < p.s + p.w) := by omega
      rw [if_neg h1, if_neg hf]
      have h2 : b - 8 * p.o < 8 * p.nb := by omega
      have h3 : p.o + (b - 8 * p.o) / 8 = b / 8 := by omega
      have h4 : (b - 8 * p.o) % 8 = b % 8 := by omega
      simp only [h8, h2, h3, h4, decide_true, Bool.true_and]
  · rw [if_neg hin]
    have hf : ¬ (8 * p.o + p.s ≤ b ∧ b < 8 * p.o + p.s + p.w) := by omega
    rw [if_neg hf]

/-- The field reads back as the value modulo 2^W (43_codec_encode.md R207). -/
theorem field_insertField {m : Memory} (h : Memory.wf m = true) {p : FieldSpec} (hp : p.fits = true) (x : Int) :
    field (Memory.read (insertField m p x)) p = modPow x p.w := by
  have hp' := hp
  simp only [FieldSpec.fits, Bool.and_eq_true, decide_eq_true_eq] at hp'
  apply Nat.eq_of_testBit_eq
  intro i
  rw [field_testBit]
  by_cases hi : i < p.w
  · have e1 : p.o + (p.s + i) / 8 = (8 * p.o + p.s + i) / 8 := by omega
    have e2 : (p.s + i) % 8 = (8 * p.o + p.s + i) % 8 := by omega
    have e3 : p.s + i < 8 * p.nb := by omega
    rw [e1, e2, insertField_getLsbD h hp x (8 * p.o + p.s + i), if_pos (by omega)]
    simp only [hi, e3, decide_true, Bool.true_and]
    congr 1
    omega
  · have := Nat.testBit_lt_two_pow (lt_of_lt_of_le (modPow_lt x p.w) (Nat.pow_le_pow_right (n := 2) (by omega) (Nat.le_of_not_lt hi)))
    simp [hi, this]

/-- Two spaces that agree on the container have the same field. -/
theorem field_congr {f g : Nat → Byte} {p : FieldSpec} (h : ∀ j, p.o ≤ j → j < p.o + p.nb → f j = g j) : field f p = field g p := by
  have : ∀ (n a : Nat), (∀ j, a ≤ j → j < a + n → f j = g j) → memRead f a n = memRead g a n := by
    intro n
    induction n with
    | zero => intros; rfl
    | succ n ih =>
      intro a ha
      simp only [memRead, ha a (le_refl _) (by omega)]
      rw [ih (a + 1) fun j h1 h2 => ha j (by omega) (by omega)]
  simp only [field, this p.nb p.o h]

/-! ## The payload as one number (20_memory.md R68) -/

theorem payloadBits_getLsbD (f : Frame) (b : Nat) (hb : b < 64) :
    (payloadBits f.payload).getLsbD b = (f.space (b / 8)).getLsbD (b % 8) := by
  obtain ⟨ident, rtr, len, payload⟩ := f
  simp only [payloadBits, Frame.space, BitVec.getLsbD_append]
  interval_cases b <;> simp [Vector.getD]

/-- A field is a slice of the payload read as one number. -/
theorem field_payloadBits (f : Frame) {p : FieldSpec} (hp : p.fits = true) :
    BitVec.ofNat p.w (field f.space p) = (payloadBits f.payload).extractLsb' (8 * p.o + p.s) p.w := by
  simp only [FieldSpec.fits, Bool.and_eq_true, decide_eq_true_eq] at hp
  apply BitVec.eq_of_getLsbD_eq
  intro i hi
  have e1 : p.o + (p.s + i) / 8 = (8 * p.o + p.s + i) / 8 := by omega
  have e2 : (p.s + i) % 8 = (8 * p.o + p.s + i) % 8 := by omega
  have e3 : p.s + i < 8 * p.nb := by omega
  rw [BitVec.getLsbD_ofNat, field_testBit, BitVec.getLsbD_extractLsb', payloadBits_getLsbD f _ (by omega), e1, e2]
  simp [hi, e3]

end Sys2Proof.Machine
end

