-- ==== Sys2Proof/Laws/Frames.lean ====
section
/-! SUPPORT. What a micro-instruction, and so the run of a handler, can never change: `RunFrame`, proved once for every
micro-instruction; the frames of the sequencer operations rest on it. -/

namespace Sys2Proof.Machine

@[simp] theorem applySets_nil (sb : Bus) : applySets sb [] = sb := rfl

theorem applySets_append (sb : Bus) (es fs : List Event) : applySets sb (es ++ fs) = applySets (applySets sb es) fs :=
  List.foldl_append

/-- What any part of a handler run leaves: every register but `A`, `V`, `UPC`, `HK`, `TXB`, the contents of `ROLLCNT` and `TXSTAT`, the
signal bus, the answers of `send()` and the event list; and the forms those keep. The signal bus changes by the recorded sets
alone, in their order (20_memory.md R66). -/
structure RunFrame (s t : State) : Prop where
  engstate : t.engstate = s.engstate
  initstat : t.initstat = s.initstat
  tickcnt : t.tickcnt = s.tickcnt
  cfg : t.cfg = s.cfg
  cnt : t.cnt = s.cnt
  frx : t.frx = s.frx
  hit : t.hit = s.hit
  phase : t.phase = s.phase
  idxI : t.idxI = s.idxI
  idxB : t.idxB = s.idxB
  idxJ : t.idxJ = s.idxJ
  idxE : t.idxE = s.idxE
  inputs : t.inputs = s.inputs
  cfgIn : t.cfgIn = s.cfgIn
  rx : t.rx = s.rx
  rollcnt : t.rollcnt.map List.length = s.rollcnt.map List.length
  txstat : t.txstat.map List.length = s.txstat.map List.length
  txb : Memory.wf s.txb = true → Memory.wf t.txb = true
  sb : Bus.wf s.sb = true → Bus.wf t.sb = true
  events : ∃ es, t.events = s.events ++ es ∧ t.sb = applySets s.sb es

theorem RunFrame.refl (s : State) : RunFrame s s := by
  constructor <;> first | rfl | exact id | exact ⟨[], by simp, rfl⟩

theorem RunFrame.trans {s t u : State} (h : RunFrame s t) (g : RunFrame t u) : RunFrame s u where
  engstate := g.engstate.trans h.engstate
  initstat := g.initstat.trans h.initstat
  tickcnt := g.tickcnt.trans h.tickcnt
  cfg := g.cfg.trans h.cfg
  cnt := g.cnt.trans h.cnt
  frx := g.frx.trans h.frx
  hit := g.hit.trans h.hit
  phase := g.phase.trans h.phase
  idxI := g.idxI.trans h.idxI
  idxB := g.idxB.trans h.idxB
  idxJ := g.idxJ.trans h.idxJ
  idxE := g.idxE.trans h.idxE
  inputs := g.inputs.trans h.inputs
  cfgIn := g.cfgIn.trans h.cfgIn
  rx := g.rx.trans h.rx
  rollcnt := g.rollcnt.trans h.rollcnt
  txstat := g.txstat.trans h.txstat
  txb := g.txb ∘ h.txb
  sb := g.sb ∘ h.sb
  events := by
    obtain ⟨es, he, hb⟩ := h.events
    obtain ⟨fs, hf, hc⟩ := g.events
    exact ⟨es ++ fs, by rw [hf, he, List.append_assoc], by rw [hc, hb, applySets_append]⟩

/-- The signal bus by any list of events that the event list has grown by. -/
theorem RunFrame.bus {s t : State} (h : RunFrame s t) {es : List Event} (he : t.events = s.events ++ es) :
    t.sb = applySets s.sb es := by
  obtain ⟨fs, hf, hb⟩ := h.events
  rw [he] at hf
  exact List.append_cancel_left hf ▸ hb

/-! ## The named updates -/

theorem runFrame_log (s : State) {e : Event} (he : ∀ k v, e ≠ .set k v) : RunFrame s (s.log e) := by
  constructor <;> first | rfl | exact id | exact ⟨[e], rfl, by cases e <;> first | rfl | exact absurd rfl (he _ _)⟩

theorem runFrame_get (s : State) (k : Key) (v : SigVal) : RunFrame s (s.log (.get k v)) := runFrame_log s nofun

theorem runFrame_busSet (s : State) (k : Key) (v : SigVal) : RunFrame s (s.busSet k v) := by
  constructor <;> first | rfl | exact id | exact fun h => Bus.put_wf h k v | exact ⟨[.set k v], rfl, rfl⟩

theorem runFrame_setA (s : State) (x : BitVec 64) : RunFrame s (s.setA x) := by
  constructor <;> first | rfl | exact id | exact ⟨[], by simp, rfl⟩

theorem runFrame_setV (s : State) (q : Rat) : RunFrame s (s.setV q) := by
  constructor <;> first | rfl | exact id | exact ⟨[], by simp, rfl⟩

theorem runFrame_upc (s : State) (u : Option Nat) : RunFrame s { s with upc := u } := by
  constructor <;> first | rfl | exact id | exact ⟨[], by simp, rfl⟩

theorem runFrame_endRun (s : State) : RunFrame s s.endRun := by
  constructor <;> first | rfl | exact id | exact ⟨[], by simp, rfl⟩

theorem runFrame_startRun (s : State) (k : HandlerKind) (base : Nat) : RunFrame s (s.startRun k base) := by
  constructor <;> first | rfl | exact id | exact ⟨[], by simp, rfl⟩

theorem runFrame_insert (s : State) {p : FieldSpec} (hp : p.fits = true) (x : Int) :
    RunFrame s (s.setTxb (insertField s.txb p x)) := by
  constructor <;> first | rfl | exact id | exact fun h => insertField_wf h hp x | exact ⟨[], by simp, rfl⟩

theorem runFrame_rollcnt {s : State} {l : List (BitVec 4)} (h : s.rollcnt = some l) (i : Nat) (x : BitVec 4) :
    RunFrame s { s with rollcnt := some (l.set i x) } := by
  constructor <;> first | rfl | exact id | exact ⟨[], by simp, rfl⟩ | simp [h]

/-- Which events an instruction may record (00_scope.md R17, 60_exceptions.md R280, 10_state.md R51). -/
def mayRecord (i : Instr) (e : Event) : Bool :=
  match i, e with
  | .lenchk _, .cond (.lenmis ..) => true
  | .sbsetv _, .set .. | .sbseta _, .set .. | .stclr _, .set .. | .stset _, .set .. => true
  | .sbgetv _, .get .. | .sbgeta _, .get .. | .catsel .., .get .. | .uconv .., .get .. => true
  | .packu .., .cond (.packovf ..) | .packs .., .cond (.packovf ..) => true
  | .send, .send .. | .send, .cond (.txdrop ..) => true
  | _, _ => false

/-- What an instruction has done to the registers, the stores and the event list before `UPC` moves or the run ends: nothing that
the columns "written by" do not give it (10_state.md R33, R34; 20_memory.md R65). -/
structure Effect (i : Instr) (s t : State) : Prop where
  frame : RunFrame s t
  upc : t.upc = s.upc
  keepsA : writesA i = false → t.a = s.a
  setsA : writesA i = true → t.a ≠ none
  keepsV : writesV i = false → t.v = s.v
  setsV : writesV i = true → t.v ≠ none
  sb : writesBus i = false → t.sb = s.sb
  rollcnt : writesRollcnt i = false → t.rollcnt = s.rollcnt
  txstat : writesTxstat i = false → t.txstat = s.txstat
  txb : writesTxb i = false → t.txb = s.txb
  tx : i ≠ .send → t.tx = s.tx ∧ t.freeCtr = s.freeCtr
  events : ∃ es, t.events = s.events ++ es ∧ ∀ e ∈ es, mayRecord i e = true

/-- What a micro-instruction that completes does to the run: it goes on at the next word, or it ends with no register of the run
holding a value (42_codec_decode.md R172). -/
structure MicroNext (i : Instr) (s t : State) : Prop where
  frame : RunFrame s t
  upc : (∃ u, s.upc = some u ∧ t.upc = some (u + 1)) ∨ (t.upc = none ∧ t.a = none ∧ t.v = none ∧ t.hk = none)
  a : t.upc ≠ none → (writesA i = false → t.a = s.a) ∧ (writesA i = true → t.a ≠ none)
  v : t.upc ≠ none → (writesV i = false → t.v = s.v) ∧ (writesV i = true → t.v ≠ none)
  sb : writesBus i = false → t.sb = s.sb
  rollcnt : writesRollcnt i = false → t.rollcnt = s.rollcnt
  txstat : writesTxstat i = false → t.txstat = s.txstat
  txb : writesTxb i = false → t.txb = s.txb
  tx : i ≠ .send → t.tx = s.tx ∧ t.freeCtr = s.freeCtr
  events : ∃ es, t.events = s.events ++ es ∧ ∀ e ∈ es, mayRecord i e = true

theorem microNext_advance {i : Instr} {s s' t : State} (h : Effect i s s') (ha : advance s' = .next t) : MicroNext i s t := by
  obtain ⟨u, hs, rfl⟩ := advance_next.mp ha
  exact ⟨h.frame.trans (runFrame_upc s' _), .inl ⟨u, h.upc ▸ hs, rfl⟩, fun _ => ⟨h.keepsA, h.setsA⟩,
    fun _ => ⟨h.keepsV, h.setsV⟩, h.sb, h.rollcnt, h.txstat, h.txb, h.tx, h.events⟩

theorem microNext_endRun {i : Instr} {s s' : State} (h : Effect i s s') : MicroNext i s s'.endRun :=
  ⟨h.frame.trans (runFrame_endRun s'), .inr ⟨rfl, rfl, rfl, rfl⟩, fun hn => absurd rfl hn, fun hn => absurd rfl hn,
    h.sb, h.rollcnt, h.txstat, h.txb, h.tx, h.events⟩

/-! ## The effects of the named updates -/

/-- An instruction that writes nothing and records nothing. -/
theorem effect_refl {i : Instr} (s : State) (ha : writesA i = false) (hv : writesV i = false) : Effect i s s where
  frame := RunFrame.refl s
  upc := rfl
  keepsA _ := rfl
  setsA h := by rw [ha] at h; cases h
  keepsV _ := rfl
  setsV h := by rw [hv] at h; cases h
  sb _ := rfl
  rollcnt _ := rfl
  txstat _ := rfl
  txb _ := rfl
  tx _ := ⟨rfl, rfl⟩
  events := ⟨[], by simp, by simp⟩

/-- A record of an event the instruction may record, no set among them. -/
theorem Effect.log {i : Instr} {s t : State} (h : Effect i s t) {e : Event} (he : mayRecord i e = true)
    (hs : ∀ k v, e ≠ .set k v) : Effect i s (t.log e) where
  frame := h.frame.trans (runFrame_log t hs)
  upc := h.upc
  keepsA := h.keepsA
  setsA := h.setsA
  keepsV := h.keepsV
  setsV := h.setsV
  sb := h.sb
  rollcnt := h.rollcnt
  txstat := h.txstat
  txb := h.txb
  tx := h.tx
  events := by
    obtain ⟨es, h1, h2⟩ := h.events
    refine ⟨es ++ [e], by rw [State.log_events, h1, List.append_assoc], fun x hx => ?_⟩
    rcases List.mem_append.mp hx with hx | hx
    · exact h2 x hx
    · exact List.mem_singleton.mp hx ▸ he

theorem effect_setA {i : Instr} {s t : State} (x : BitVec 64) (hf : RunFrame s t) (hu : t.upc = s.upc) (hv : t.v = s.v)
    (hsb : t.sb = s.sb) (hr : t.rollcnt = s.rollcnt) (hs : t.txstat = s.txstat) (hb : t.txb = s.txb)
    (ht : t.tx = s.tx ∧ t.freeCtr = s.freeCtr) (he : ∃ es, t.events = s.events ++ es ∧ ∀ e ∈ es, mayRecord i e = true)
    (hw : writesA i = true) (hw' : writesV i = false) : Effect i s (t.setA x) where
  frame := hf.trans (runFrame_setA t x)
  upc := hu
  keepsA h := by rw [hw] at h; cases h
  setsA _ := by simp
  keepsV _ := hv
  setsV h := by rw [hw'] at h; cases h
  sb _ := hsb
  rollcnt _ := hr
  txstat _ := hs
  txb _ := hb
  tx _ := ht
  events := he

theorem effect_setV {i : Instr} {s t : State} (q : Rat) (hf : RunFrame s t) (hu : t.upc = s.upc) (ha : t.a = s.a)
    (hsb : t.sb = s.sb) (hr : t.rollcnt = s.rollcnt) (hs : t.txstat = s.txstat) (hb : t.txb = s.txb)
    (ht : t.tx = s.tx ∧ t.freeCtr = s.freeCtr) (he : ∃ es, t.events = s.events ++ es ∧ ∀ e ∈ es, mayRecord i e = true)
    (hw : writesV i = true) (hw' : writesA i = false) : Effect i s (t.setV q) where
  frame := hf.trans (runFrame_setV t q)
  upc := hu
  keepsA _ := ha
  setsA h := by rw [hw'] at h; cases h
  keepsV h := by rw [hw] at h; cases h
  setsV _ := by simp
  sb _ := hsb
  rollcnt _ := hr
  txstat _ := hs
  txb _ := hb
  tx _ := ht
  events := he

theorem no_events {i : Instr} (s : State) : ∃ es, s.events = s.events ++ es ∧ ∀ e ∈ es, mayRecord i e = true :=
  ⟨[], by simp, by simp⟩

theorem one_event {i : Instr} (s : State) {e : Event} (h : mayRecord i e = true) :
    ∃ es, (s.log e).events = s.events ++ es ∧ ∀ e ∈ es, mayRecord i e = true :=
  ⟨[e], rfl, by simpa using h⟩

/-- `A` written, nothing recorded. -/
theorem effect_setA_only {i : Instr} (s : State) (x : BitVec 64) (hw : writesA i = true) (hw' : writesV i = false) :
    Effect i s (s.setA x) :=
  effect_setA x (RunFrame.refl s) rfl rfl rfl rfl rfl rfl ⟨rfl, rfl⟩ (no_events s) hw hw'

/-- `V` written, nothing recorded. -/
theorem effect_setV_only {i : Instr} (s : State) (q : Rat) (hw : writesV i = true) (hw' : writesA i = false) :
    Effect i s (s.setV q) :=
  effect_setV q (RunFrame.refl s) rfl rfl rfl rfl rfl rfl ⟨rfl, rfl⟩ (no_events s) hw hw'

theorem effect_busSet {i : Instr} (s : State) (k : Key) (x : SigVal) (hw : writesBus i = true)
    (he : mayRecord i (.set k x) = true) (ha : writesA i = false) (hv : writesV i = false) : Effect i s (s.busSet k x) where
  frame := runFrame_busSet s k x
  upc := rfl
  keepsA _ := rfl
  setsA h := by rw [ha] at h; cases h
  keepsV _ := rfl
  setsV h := by rw [hv] at h; cases h
  sb h := by rw [hw] at h; cases h
  rollcnt _ := rfl
  txstat _ := rfl
  txb _ := rfl
  tx _ := ⟨rfl, rfl⟩
  events := ⟨[.set k x], rfl, by simpa using he⟩

theorem effect_insert {i : Instr} {s t : State} (h : Effect i s t) {p : FieldSpec} (hp : p.fits = true) (x : Int)
    (hw : writesTxb i = true) : Effect i s (t.setTxb (insertField t.txb p x)) where
  frame := h.frame.trans (runFrame_insert t hp x)
  upc := h.upc
  keepsA := h.keepsA
  setsA := h.setsA
  keepsV := h.keepsV
  setsV := h.setsV
  sb := h.sb
  rollcnt := h.rollcnt
  txstat := h.txstat
  txb hn := by rw [hw] at hn; cases hn
  tx := h.tx
  events := h.events

theorem effect_rollcnt {i : Instr} {s t : State} (h : Effect i s t) {l : List (BitVec 4)} (hl : t.rollcnt = some l) (n : Nat)
    (x : BitVec 4) (hw : writesRollcnt i = true) : Effect i s { t with rollcnt := some (l.set n x) } where
  frame := h.frame.trans (runFrame_rollcnt hl n x)
  upc := h.upc
  keepsA := h.keepsA
  setsA := h.setsA
  keepsV := h.keepsV
  setsV := h.setsV
  sb := h.sb
  rollcnt hn := by rw [hw] at hn; cases hn
  txstat := h.txstat
  txb := h.txb
  tx := h.tx
  events := h.events

theorem microNext_quantise {i : Instr} {s t : State} {x : Rat} (hw : writesA i = true) (hv : writesV i = false)
    (h : quantise s x = .next t) : MicroNext i s t := by
  obtain ⟨cfg, u, _, hu, _, rfl⟩ := quantise_next.mp h
  exact microNext_advance (effect_setA_only s (BitVec.ofInt 64 (cfg.quant.apply x)) hw hv) (advance_of hu)

theorem microNext_fitPack {i : Instr} {s t : State} {r : PackRange} {p : FieldSpec} {x : Int} (hw : writesTxb i = true)
    (he : ∀ e u, mayRecord i (.cond (.packovf e u)) = true) (ha : writesA i = false) (hv : writesV i = false)
    (h : (fitPack s r x fun y s' => txInsert s' p y advance) = .next t) : MicroNext i s t := by
  obtain ⟨y, s', hk, hs⟩ := fitPack_next h
  obtain ⟨hp, hk⟩ := txInsert_next.mp hk
  rcases hs with rfl | ⟨e, u, rfl⟩
  · exact microNext_advance (effect_insert (effect_refl _ ha hv) hp y hw) hk
  · exact microNext_advance (effect_insert ((effect_refl s ha hv).log (he e u) nofun) hp y hw) hk

theorem applySets_sent (sb : Bus) (e : Nat) (f : Frame) (st : SendStatus) :
    applySets sb (.send f st :: dropEvents e st) = sb := by
  cases st <;> rfl

theorem microNext_sendFrame {s t : State} {e : Nat} {f : Frame}
    (h : sendFrame e f s (fun s₁ => .next s₁.endRun) = .next t) : MicroNext .send s t := by
  unfold sendFrame at h
  obtain ⟨l, hl, _, h⟩ := writeTxStat_next.mp h
  simp only [Host.Outcome.next.injEq] at h
  subst h
  rw [nextAnswer_state] at hl ⊢
  dsimp only at hl
  refine microNext_endRun ⟨?_, rfl, fun _ => rfl, nofun, fun _ => rfl, nofun, fun _ => rfl, fun _ => rfl, nofun, fun _ => rfl,
    fun hn => absurd rfl hn, _, rfl, ?_⟩
  · constructor <;> first | rfl | exact id | exact ⟨_, rfl, (applySets_sent s.sb e f _).symm⟩ | simp [hl]
  · intro ev hev
    simp only [List.mem_cons, dropEvents] at hev
    rcases hev with rfl | hev
    · rfl
    · split at hev
      · simp at hev
      · exact List.mem_singleton.mp hev ▸ rfl

/-! ## Every micro-instruction -/

/-- Every micro-instruction does what it may do, and goes on or ends. -/
theorem execMicro_microNext {i : Instr} {s t : State} (h : execMicro i s = .next t) : MicroNext i s t := by
  cases i <;> simp only [execMicro, reduceCtorEq] at h
  case lenchk n =>
    obtain ⟨f, _, h⟩ := need_next.mp h
    split at h
    · exact microNext_advance (effect_refl s rfl rfl) h
    · simp only [Host.Outcome.next.injEq] at h
      exact h ▸ microNext_endRun ((effect_refl s rfl rfl).log rfl nofun)
  case unpku =>
    obtain ⟨f, _, _, h⟩ := rxField_next.mp h
    split at h
    · exact microNext_advance (effect_setA_only s _ rfl rfl) h
    · simp at h
  case unpks =>
    obtain ⟨f, _, _, h⟩ := rxField_next.mp h
    exact microNext_advance (effect_setA_only s _ rfl rfl) h
  case flgget =>
    obtain ⟨f, _, _, h⟩ := rxField_next.mp h
    exact microNext_advance (effect_setA_only s _ rfl rfl) h
  case scdiv =>
    obtain ⟨a, _, h⟩ := need_next.mp h
    obtain ⟨cfg, p, _, _, _, _, h⟩ := divisor_next.mp h
    exact microNext_advance (effect_setV_only s _ rfl rfl) h
  case scmul =>
    obtain ⟨a, _, h⟩ := need_next.mp h
    obtain ⟨cfg, p, _, _, _, h⟩ := constant_next.mp h
    exact microNext_advance (effect_setV_only s _ rfl rfl) h
  case sbsetv =>
    obtain ⟨v, _, h⟩ := need_next.mp h
    obtain ⟨cfg, _, h⟩ := need_next.mp h
    exact microNext_advance (effect_busSet s _ _ rfl rfl rfl rfl) h
  case sbseta =>
    obtain ⟨a, _, h⟩ := need_next.mp h
    exact microNext_advance (effect_busSet s _ _ rfl rfl rfl rfl) h
  case stclr => exact microNext_advance (effect_busSet s _ _ rfl rfl rfl rfl) h
  case stset => exact microNext_advance (effect_busSet s _ _ rfl rfl rfl rfl) h
  case ldai => exact microNext_advance (effect_setA_only s _ rfl rfl) h
  case ldvc =>
    obtain ⟨cfg, p, _, _, _, h⟩ := constant_next.mp h
    exact microNext_advance (effect_setV_only s _ rfl rfl) h
  case sbgetv =>
    obtain ⟨c, v, _, _, h⟩ := busGet_next.mp h
    exact microNext_advance
      (effect_setV _ (runFrame_get s _ _) rfl rfl rfl rfl rfl rfl ⟨rfl, rfl⟩ (one_event s rfl) rfl rfl) h
  case sbgeta =>
    obtain ⟨c, i, _, _, h⟩ := busGetInt_next.mp h
    exact microNext_advance
      (effect_setA _ (runFrame_get s _ _) rfl rfl rfl rfl rfl rfl ⟨rfl, rfl⟩ (one_event s rfl) rfl rfl) h
  case catsel =>
    obtain ⟨c, i, _, _, h⟩ := busGetInt_next.mp h
    obtain ⟨cfg, _, h⟩ := need_next.mp h
    obtain ⟨tab, _, h⟩ := index_next.mp h
    obtain ⟨c', v, _, _, h⟩ := busGet_next.mp h
    obtain ⟨cfg', p, _, _, _, h⟩ := constant_next.mp h
    refine microNext_advance
      (effect_setV _ ((runFrame_get s _ _).trans (runFrame_get _ _ _)) rfl rfl rfl rfl rfl rfl ⟨rfl, rfl⟩ ?_ rfl rfl) h
    refine ⟨[_, _], List.append_assoc _ _ _, fun e he => ?_⟩
    simp only [List.mem_cons, List.not_mem_nil, or_false] at he
    rcases he with rfl | rfl <;> rfl
  case uconv =>
    obtain ⟨v, _, h⟩ := need_next.mp h
    obtain ⟨c, i, _, _, h⟩ := busGetInt_next.mp h
    obtain ⟨cfg, _, h⟩ := need_next.mp h
    obtain ⟨uc, _, h⟩ := index_next.mp h
    obtain ⟨cfg', p, _, _, _, h⟩ := constant_next.mp h
    exact microNext_advance
      (effect_setV _ (runFrame_get s _ _) rfl rfl rfl rfl rfl rfl ⟨rfl, rfl⟩ (one_event s rfl) rfl rfl) h
  case encmul =>
    obtain ⟨v, _, h⟩ := need_next.mp h
    obtain ⟨cfg, p, _, _, _, h⟩ := constant_next.mp h
    exact microNext_quantise rfl rfl h
  case encdiv =>
    obtain ⟨v, _, h⟩ := need_next.mp h
    obtain ⟨cfg, p, _, _, _, _, h⟩ := divisor_next.mp h
    exact microNext_quantise rfl rfl h
  case packu =>
    obtain ⟨a, _, h⟩ := need_next.mp h
    exact microNext_fitPack rfl (fun _ _ => rfl) rfl rfl h
  case packs =>
    obtain ⟨a, _, h⟩ := need_next.mp h
    exact microNext_fitPack rfl (fun _ _ => rfl) rfl rfl h
  case flgput =>
    obtain ⟨a, _, h⟩ := need_next.mp h
    obtain ⟨hp, h⟩ := txInsert_next.mp h
    exact microNext_advance (effect_insert (effect_refl s rfl rfl) hp _ rfl) h
  case roll =>
    obtain ⟨l, hl, h⟩ := need_next.mp h
    obtain ⟨x, _, h⟩ := index_next.mp h
    obtain ⟨hp, h⟩ := txInsert_next.mp h
    exact microNext_advance
      (effect_rollcnt (effect_insert (effect_refl s rfl rfl) hp _ rfl) (by exact hl) _ _ rfl) h
  case send =>
    obtain ⟨e, _, h⟩ := need_next.mp h
    obtain ⟨cfg, _, h⟩ := need_next.mp h
    obtain ⟨en, _, h⟩ := index_next.mp h
    split at h
    · simp at h
    · exact microNext_sendFrame h
  case end_ =>
    simp only [execEnd, Host.Outcome.next.injEq] at h
    exact h ▸ microNext_endRun (effect_refl s rfl rfl)

theorem runFrame_execMicro {i : Instr} {s t : State} (h : execMicro i s = .next t) : RunFrame s t :=
  (execMicro_microNext h).frame

theorem microStep_microNext {s t : State} (h : microStep s = .next t) : ∃ i, MicroNext i s t := by
  obtain ⟨u, cfg, w, i, _, _, _, _, h⟩ := fetchMicro_next.mp h
  exact ⟨i, execMicro_microNext h⟩

/-- A handler run that completes keeps the frame of a run, and has ended. -/
theorem runLoop_frame : ∀ (n : Nat) (s t : State), runLoop n s = .next t →
    RunFrame s t ∧ t.upc = none ∧ t.a = none ∧ t.v = none ∧ t.hk = none
  | 0, s, t, h => by simp [runLoop] at h
  | n + 1, s, t, h => by
    obtain ⟨s', hs, hn⟩ := runLoop_succ_next h
    obtain ⟨i, hm⟩ := microStep_microNext hs
    have hf := hm.frame
    have hu := hm.upc
    rcases hn with ⟨hn, rfl⟩ | ⟨hn, h⟩
    · rcases hu with ⟨u, _, hu⟩ | hu
      · rw [hu] at hn; cases hn
      · exact ⟨hf, hu⟩
    · obtain ⟨hg, he⟩ := runLoop_frame n s' t h
      exact ⟨hf.trans hg, he⟩

theorem runHandler_frame {k : HandlerKind} {base : Nat} {s t : State} (h : runHandler k base s = .next t) :
    RunFrame s t ∧ t.upc = none ∧ t.a = none ∧ t.v = none ∧ t.hk = none := by
  obtain ⟨cfg, _, h⟩ := runHandler_next.mp h
  obtain ⟨hf, he⟩ := runLoop_frame _ _ _ h
  exact ⟨(runFrame_startRun s k base).trans hf, he⟩

end Sys2Proof.Machine
end

