-- ==== Sys2Proof/Laws/Handlers.lean ====
section
/-! SUPPORT. The run of a checked handler is the run of its scanned instructions, and what each of them does where the checks of
45_engine_tick.md R265 hold. -/

namespace Sys2Proof.Machine

/-! ## The run as the run of a list -/

/-- The instructions of a list one after another, until one ends the run (42_codec_decode.md R170). -/
def runList : List Instr → State → Out
  | [], _ => .refused .notMicro
  | i :: is, s => andThen (execMicro i s) fun s' => if s'.upc = none then .next s' else runList is s'

theorem andThen_congr {o : Out} {k k' : State → Out} (h : ∀ s, o = .next s → k s = k' s) : andThen o k = andThen o k' := by
  cases o with
  | next s => exact h s rfl
  | fault r => rfl
  | refused r => rfl

/-- A terminator ends the run. -/
theorem terminator_ends {k : HandlerKind} {i : Instr} {s t : State} (hi : isTerminator k i = true)
    (h : execMicro i s = .next t) : t.upc = none := by
  have hi' : i = .send ∨ i = .end_ := by cases k <;> simp [isTerminator] at hi <;> simp [hi]
  rcases hi' with rfl | rfl
  · simp only [execMicro, execSend] at h
    obtain ⟨e, _, h⟩ := need_next.mp h
    obtain ⟨cfg, _, h⟩ := need_next.mp h
    obtain ⟨en, _, h⟩ := index_next.mp h
    split at h
    · simp at h
    · unfold sendFrame at h
      obtain ⟨l, _, _, h⟩ := writeTxStat_next.mp h
      simp only [Host.Outcome.next.injEq] at h
      exact h ▸ rfl
  · simp only [execMicro, execEnd, Host.Outcome.next.injEq] at h
    exact h ▸ rfl

theorem scanWords_length {k : HandlerKind} : ∀ {ws : List Word} {is : List Instr}, scanWords k ws = some is →
    is.length ≤ ws.length
  | [], is, h => by simp [scanWords] at h
  | w :: ws, is, h => by
    simp only [scanWords] at h
    split at h
    · cases h
    · split at h
      · simp only [Option.some.injEq] at h
        subst h
        simp
      · obtain ⟨js, hj, rfl⟩ := Option.map_eq_some_iff.mp h
        have := scanWords_length hj
        simp only [List.length_cons]
        omega

/-- The loop of RUNH over a scanned handler runs its instructions. -/
theorem runLoop_eq_runList {c : Cfg} {k : HandlerKind} : ∀ (ws : List Word) (is : List Instr) (n u : Nat) (s : State),
    scanWords k ws = some is → c.uc.drop u = ws → s.cfg = some c → s.upc = some u → is.length ≤ n →
      runLoop n s = runList is s
  | [], is, n, u, s, h, _, _, _, _ => by simp [scanWords] at h
  | w :: ws, is, 0, u, s, h, _, _, _, hn => by
    have : is = [] := List.length_eq_zero_iff.mp (by omega)
    subst this
    simp only [scanWords] at h
    split at h
    · cases h
    · split at h
      · simp at h
      · simp at h
  | w :: ws, is, n + 1, u, s, h, hw, hc, hu, hn => by
    have hget : c.uc[u]? = some w := by
      have := congrArg (fun l => l[0]?) hw
      simpa using this
    have hdrop : c.uc.drop (u + 1) = ws := by
      have := congrArg (List.drop 1) hw
      simpa [Nat.add_comm] using this
    simp only [scanWords] at h
    split at h
    · cases h
    · rename_i i hd
      have hstep : microStep s = execMicro i s := by
        simp only [microStep, fetchMicro, hu, hc, need_of_some, index_of_some hget, hd]
      simp only [runLoop, hstep]
      split at h
      · rename_i ht
        simp only [Option.some.injEq] at h
        subst h
        simp only [runList]
        refine andThen_congr fun s' hs => ?_
        simp only [terminator_ends ht hs, if_true]
      · obtain ⟨js, hj, rfl⟩ := Option.map_eq_some_iff.mp h
        simp only [runList]
        refine andThen_congr fun s' hs => ?_
        split
        · rfl
        · rename_i hne
          have hm := execMicro_microNext hs
          rcases hm.upc with ⟨v, hv, hv'⟩ | ⟨hv, _⟩
          · rw [hu] at hv
            cases hv
            exact runLoop_eq_runList ws js n (u + 1) s' hj hdrop (hm.frame.cfg.trans hc) hv'
              (by simp only [List.length_cons] at hn; omega)
          · exact absurd hv hne

/-- What the checks of a handler say (45_engine_tick.md R265). -/
structure Checked (c : Cfg) (k : HandlerKind) (dlc base : Nat) (is : List Instr) : Prop where
  scan : scanHandler c k base = some is
  lenFirst : wfLenFirst k is = true
  defUse : wfDefUse false false is = true
  each : ∀ i ∈ is, wfInstr c k (handlerLen k dlc is) i = true

theorem checked_of_wfHandler {c : Cfg} {k : HandlerKind} {dlc base : Nat} (h : wfHandler c k dlc base = true) :
    ∃ is, Checked c k dlc base is := by
  unfold wfHandler at h
  split at h
  · cases h
  · rename_i is hs
    simp only [Bool.and_eq_true, List.all_eq_true] at h
    exact ⟨is, hs, h.1.1, h.1.2, h.2⟩

/-- RUNH of a checked handler runs its scanned instructions. -/
theorem runHandler_eq_runList {c : Cfg} {k : HandlerKind} {dlc base : Nat} {is : List Instr} {s : State}
    (h : Checked c k dlc base is) (hc : s.cfg = some c) : runHandler k base s = runList is (s.startRun k base) := by
  have hl := scanWords_length h.scan
  simp only [List.length_drop] at hl
  simp only [runHandler, hc, need_of_some]
  exact runLoop_eq_runList (c := c) (c.uc.drop base) is _ base _ h.scan rfl hc rfl (by omega)

/-! ## What a run of admitted instructions keeps and records -/

/-- What a run of instructions has done, given what each of them may do. -/
structure RunEffect (is : List Instr) (s t : State) : Prop where
  frame : RunFrame s t
  sb : (∀ i ∈ is, writesBus i = false) → t.sb = s.sb
  rollcnt : (∀ i ∈ is, writesRollcnt i = false) → t.rollcnt = s.rollcnt
  txstat : (∀ i ∈ is, writesTxstat i = false) → t.txstat = s.txstat
  txb : (∀ i ∈ is, writesTxb i = false) → t.txb = s.txb
  tx : (∀ i ∈ is, i ≠ .send) → t.tx = s.tx ∧ t.freeCtr = s.freeCtr
  events : ∃ es, t.events = s.events ++ es ∧ ∀ e ∈ es, ∃ i ∈ is, mayRecord i e = true
  ended : t.upc = none ∧ t.a = none ∧ t.v = none ∧ t.hk = none

theorem runList_effect : ∀ (is : List Instr) (s t : State), runList is s = .next t → RunEffect is s t
  | [], s, t, h => by simp [runList] at h
  | i :: is, s, t, h => by
    simp only [runList, andThen_next] at h
    obtain ⟨s', hs, h⟩ := h
    have hm := execMicro_microNext hs
    obtain ⟨es, he, hes⟩ := hm.events
    split at h
    · rename_i hn
      simp only [Host.Outcome.next.injEq] at h
      subst h
      refine ⟨hm.frame, fun g => hm.sb (g i (by simp)), fun g => hm.rollcnt (g i (by simp)), fun g => hm.txstat (g i (by simp)),
        fun g => hm.txb (g i (by simp)), fun g => hm.tx (g i (by simp)), ⟨es, he, fun e hx => ⟨i, by simp, hes e hx⟩⟩, ?_⟩
      rcases hm.upc with ⟨u, _, hu⟩ | hu
      · rw [hu] at hn; cases hn
      · exact hu
    · have ih := runList_effect is s' t h
      obtain ⟨fs, hf, hfs⟩ := ih.events
      refine ⟨hm.frame.trans ih.frame, fun g => (ih.sb fun j hj => g j (by simp [hj])).trans (hm.sb (g i (by simp))),
        fun g => (ih.rollcnt fun j hj => g j (by simp [hj])).trans (hm.rollcnt (g i (by simp))),
        fun g => (ih.txstat fun j hj => g j (by simp [hj])).trans (hm.txstat (g i (by simp))),
        fun g => (ih.txb fun j hj => g j (by simp [hj])).trans (hm.txb (g i (by simp))), fun g => ?_,
        ⟨es ++ fs, by rw [hf, he, List.append_assoc], fun e hx => ?_⟩, ih.ended⟩
      · have h1 := ih.tx fun j hj => g j (by simp [hj])
        have h2 := hm.tx (g i (by simp))
        exact ⟨h1.1.trans h2.1, h1.2.trans h2.2⟩
      · rcases List.mem_append.mp hx with hx | hx
        · exact ⟨i, by simp, hes e hx⟩
        · obtain ⟨j, hj, hj'⟩ := hfs e hx
          exact ⟨j, by simp [hj], hj'⟩

/-! ## What the table checks give (45_engine_tick.md R264) -/

theorem checkCfg_ok {c : Cfg} (h : checkCfg c = .ok) : wfUniq c.reg = true ∧ wfRest c = true := by
  unfold checkCfg at h
  split at h
  · split at h
    · exact ⟨‹_›, ‹_›⟩
    · cases h
  · cases h

/-- The checks an instruction of a handler relies on. -/
structure TablesOk (c : Cfg) : Prop where
  encId : ∀ e ∈ c.enc, idFits e.id e.ide = true
  dlc : ∀ e ∈ c.enc, e.dlc ≤ 8
  pool : ∀ p ∈ c.cpool, p.den ≠ 0
  catt : ∀ t ∈ c.catt, (∀ x ∈ t.cand, candFits c x = true) ∧ candFits c t.dflt = true
  uct : ∀ u ∈ c.uct, u.c0.toNat < c.cpool.length ∧ u.c1.toNat < c.cpool.length
  decode : ∀ r ∈ c.reg, wfHandler c .decode 0 r.decAddr = true
  timeout : ∀ r ∈ c.reg, wfHandler c .timeout 0 r.toAddr = true
  encode : ∀ e ∈ c.enc, wfHandler c .encode e.dlc e.base = true
  list : ∀ b ∈ c.bkt, ∀ e ∈ b.list, e < c.enc.length
  reload : ∀ r ∈ c.reg, r.reload = -1 ∨ 0 ≤ r.reload
  tickMod : 2 ≤ c.tickMod

theorem tablesOk {c : Cfg} (h : checkCfg c = .ok) : TablesOk c := by
  have h' := (checkCfg_ok h).2
  simp only [wfRest, wfId, wfReload, wfDlc, wfList, wfPool, wfCatt, wfUct, wfParam, wfHandlers, Bool.and_eq_true, List.all_eq_true,
    decide_eq_true_eq, Bool.or_eq_true, beq_iff_eq, bne_iff_ne] at h'
  obtain ⟨⟨⟨⟨⟨⟨⟨⟨⟨⟨⟨⟨_, h2⟩, _⟩, hr⟩, _⟩, hd⟩, _⟩, hl⟩, hp⟩, hc⟩, hu⟩, hm⟩, hh⟩ := h'
  exact ⟨h2, hd, hp, fun t ht => hc t ht, hu, fun r hr' => (hh.1 r hr').1, fun r hr' => (hh.1 r hr').2, hh.2, hl,
    fun r hr' => (hr r hr').imp id fun x => x.1, hm.1.2⟩

/-! ## One instruction where the checks hold -/

/-- What a run has at every instruction of a checked handler. -/
structure RunState (c : Cfg) (k : HandlerKind) (dlc len : Nat) (a v : Bool) (s : State) : Prop where
  cfg : s.cfg = some c
  upc : ∃ u, s.upc = some u
  a : a = true → ∃ x, s.a = some x
  v : v = true → ∃ x, s.v = some x
  frx : k = .decode → ∃ f, s.frx = some f
  enc : k = .encode → ∃ e en, s.idxE = some e ∧ c.enc[e]? = some en ∧ en.dlc = dlc
  arrays : k = .encode → Arrays c s
  bus : k = .encode → BusTyped c s.sb
  len : len ≤ 8

/-- The outcome of an instruction of a checked handler: a next state, or in an encode handler a fault of the spec. -/
def MicroOutcome (c : Cfg) (k : HandlerKind) (i : Instr) : Out → Prop
  | .next _ => True
  | .fault (.range _ _) => k = .encode ∧ scalesForEncode i = true
  | .fault (.packOverflow _ _) => k = .encode ∧ c.ovfPolicy = .fault
  | _ => False

theorem advance_outcome {c : Cfg} {k : HandlerKind} {i : Instr} {s : State} (h : ∃ u, s.upc = some u) :
    MicroOutcome c k i (advance s) := by
  obtain ⟨u, hu⟩ := h
  rw [advance_of hu]
  trivial

theorem unwritten_type (t : SigType) (k : Key) : (unwritten t k).type = t := by cases t <;> rfl

theorem busContent_typed {c : Cfg} {sb : Bus} {k : Key} {t : SigType} (hb : BusTyped c sb) (hk : keyType c.ktype k = some t) :
    (busContent sb k t).type = t := by
  unfold busContent
  cases h : Bus.find sb k with
  | some v => exact hb k v t h hk
  | none => exact unwritten_type t k

theorem keyType_of_mem {kt : List (Key × SigType)} {k : Key} {t : SigType} (h : (k, t) ∈ kt) : keyType kt k ≠ none := by
  induction kt with
  | nil => simp at h
  | cons x kt ih =>
    simp only [keyType]
    split
    · simp
    · rcases List.mem_cons.mp h with rfl | h
      · exact absurd rfl ‹_›
      · exact ih h

theorem mem_of_keyType {kt : List (Key × SigType)} {k : Key} {t : SigType} (h : keyType kt k = some t) : (k, t) ∈ kt := by
  induction kt with
  | nil => cases h
  | cons x kt ih =>
    simp only [keyType] at h
    split at h
    · rename_i hx
      simp only [Option.some.injEq] at h
      exact List.mem_cons.mpr (.inl (by rw [← hx, ← h]))
    · exact List.mem_cons.mpr (.inr (ih h))

/-- No key is mistyped exactly where the signal bus keeps its contract. -/
theorem mistypedKey_eq_none {c : Cfg} {sb : Bus} : mistypedKey c sb = none ↔ BusTyped c sb := by
  simp only [mistypedKey, Option.map_eq_none_iff, List.find?_eq_none, Option.isNone_iff_eq_none]
  constructor
  · intro h k v t hf hk
    have hn := h _ (mem_of_keyType hk)
    have hc : busContent sb k t = v := by simp [busContent, hf]
    simp only [busValue, hk, hc] at hn
    by_contra hne
    exact hn (if_neg hne)
  · rintro h ⟨k, t⟩ hm
    obtain ⟨t', ht⟩ := Option.ne_none_iff_exists'.mp (keyType_of_mem hm)
    rw [busValue_of ht (busContent_typed h ht)]
    simp

/-- A TICK goes past the test of the signal bus exactly where it keeps its contract. -/
theorem onTypedBus_next {s t : State} {k : State → Out} :
    onTypedBus s k = .next t ↔ ∃ c, s.cfg = some c ∧ BusTyped c s.sb ∧ k s = .next t := by
  simp only [onTypedBus, need_next, ← mistypedKey_eq_none]
  refine exists_congr fun c => and_congr_right fun _ => ?_
  cases mistypedKey c s.sb <;> simp

theorem onTypedBus_of {s : State} {c : Cfg} (hc : s.cfg = some c) (hb : BusTyped c s.sb) (k : State → Out) :
    onTypedBus s k = k s := by
  simp [onTypedBus, hc, mistypedKey_eq_none.mpr hb]

theorem busValue_typed {c : Cfg} {sb : Bus} {k : Key} {t : SigType} (hb : BusTyped c sb) (hk : keyType c.ktype k = some t) :
    ∃ x, busValue c sb k = some x ∧ x.type = t := by
  have ht := busContent_typed hb hk
  exact ⟨busContent sb k t, busValue_of hk ht, ht⟩

theorem busValue_int {c : Cfg} {sb : Bus} {k : Key} (hb : BusTyped c sb) (hk : keyType c.ktype k = some .int) :
    ∃ i, busValue c sb k = some (.int i) := by
  obtain ⟨x, hx, ht⟩ := busValue_typed hb hk
  cases x with
  | int i => exact ⟨i, hx⟩
  | real q => cases ht

theorem constant_eq {c : Cfg} {s : State} {n : BitVec 16} (hc : s.cfg = some c) (hp : ∀ p ∈ c.cpool, p.den ≠ 0)
    (hn : n.toNat < c.cpool.length) (k : Rat → Out) : constant s n k = k (c.cpool[n.toNat]).value := by
  simp only [constant, hc, need_of_some, index_of_lt _ hn, if_neg (hp _ (List.getElem_mem hn))]

theorem PoolEntry.value_ne {p : PoolEntry} (hn : p.num ≠ 0) (hd : p.den ≠ 0) : p.value ≠ 0 := by
  have h1 : p.num.toInt ≠ 0 := fun h => hn (BitVec.eq_of_toInt_eq (by simpa using h))
  have h2 : p.den.toNat ≠ 0 := fun h => hd (BitVec.eq_of_toNat_eq (by simpa using h))
  exact fun h => h1 ((Rat.mkRat_eq_zero h2).mp h)

theorem divisor_eq {c : Cfg} {s : State} {n : BitVec 16} (hc : s.cfg = some c) (hp : ∀ p ∈ c.cpool, p.den ≠ 0)
    (hn : constNonzero c n = true) (k : Rat → Out) : ∃ q, divisor s n k = k q := by
  unfold constNonzero at hn
  split at hn
  · rename_i p hget
    obtain ⟨hlt, hpe⟩ := List.getElem?_eq_some_iff.mp hget
    refine ⟨p.value, ?_⟩
    have hne : p.value ≠ 0 := PoolEntry.value_ne (by simpa using hn) (hp p (List.mem_of_getElem? hget))
    simp only [divisor, constant_eq hc hp hlt, hpe, if_neg hne]
  · cases hn

theorem quantise_outcome {c : Cfg} {i : Instr} {s : State} {x : Rat} (hc : s.cfg = some c) (hu : ∃ u, s.upc = some u)
    (he : ∃ e, s.idxE = some e) (hi : scalesForEncode i = true) : MicroOutcome c .encode i (quantise s x) := by
  obtain ⟨u, hu⟩ := hu
  obtain ⟨e, he⟩ := he
  simp only [quantise, hc, need_of_some]
  split
  · exact advance_outcome ⟨u, by simpa using hu⟩
  · simp only [he, hu, need_of_some]
    exact ⟨rfl, hi⟩

theorem fitPack_outcome {c : Cfg} {i : Instr} {s : State} {r : PackRange} {p : FieldSpec} {x : Int} (hc : s.cfg = some c)
    (hu : ∃ u, s.upc = some u) (he : ∃ e, s.idxE = some e) (hp : p.fits = true) :
    MicroOutcome c .encode i (fitPack s r x fun y s' => txInsert s' p y advance) := by
  obtain ⟨u, hu⟩ := hu
  obtain ⟨e, he⟩ := he
  unfold fitPack
  split
  · simp only [txInsert, hp, if_true]
    exact advance_outcome ⟨u, by simpa using hu⟩
  · simp only [hc, he, hu, need_of_some]
    split
    · simp only [txInsert, hp, if_true]
      exact advance_outcome ⟨u, by simpa using hu⟩
    · simp only [txInsert, hp, if_true]
      exact advance_outcome ⟨u, by simpa using hu⟩
    · rename_i hpol
      exact ⟨rfl, hpol⟩

theorem Ident.ofRaw_of_fits {id : Nat} {ide : Bool} (h : idFits id ide = true) :
    ∃ x, Ident.ofRaw id ide = some x ∧ x.id = id ∧ x.ide = ide := by
  simp only [idFits, Bool.and_eq_true, decide_eq_true_eq, Bool.or_eq_true] at h
  cases ide
  · have h' : id < 2 ^ 11 := by simpa using h.2
    refine ⟨.std (BitVec.ofNat 11 id), by simp [Ident.ofRaw]; omega, ?_, rfl⟩
    show (BitVec.ofNat 11 id).toNat = id
    rw [BitVec.toNat_ofNat]
    omega
  · refine ⟨.ext (BitVec.ofNat 29 id), by simp [Ident.ofRaw]; omega, ?_, rfl⟩
    show (BitVec.ofNat 29 id).toNat = id
    rw [BitVec.toNat_ofNat]
    omega

/-- The frame of an encoder whose fields are well-formed (30_encoding.md R92, 43_codec_encode.md R213). -/
theorem builtFrame_of_fits {en : EncEntry} (hi : idFits en.id en.ide = true) (hd : en.dlc ≤ 8) (m : Memory) :
    ∃ f, builtFrame en m = some f ∧ f.ident.id = en.id ∧ f.ident.ide = en.ide ∧ f.rtr = false ∧ f.len.val = en.dlc ∧
      ∀ n, n < 8 → f.space n = m.read n := by
  obtain ⟨x, h0, h1, h2⟩ := Ident.ofRaw_of_fits hi
  have hd' : en.dlc < 9 := by omega
  refine ⟨_, by unfold builtFrame; rw [h0]; simp only [Option.bind_some, hd', dif_pos]; rfl, h1, h2, rfl, rfl, ?_⟩
  intro n hn
  interval_cases n <;> rfl

/-- An instruction of a checked handler answers a next state, or in an encode handler a fault of the spec: it meets no undefined
register, no byte or index out of range, no zero divisor, no unknown key (45_engine_tick.md R265). -/
theorem execMicro_outcome {c : Cfg} {k : HandlerKind} {dlc len : Nat} {a v : Bool} {i : Instr} {s : State} (ht : TablesOk c)
    (hs : RunState c k dlc len a v s) (hw : i.wf = true) (hi : wfInstr c k len i = true) (ha : readsA i = true → a = true)
    (hv : readsV i = true → v = true) : MicroOutcome c k i (execMicro i s) := by
  obtain ⟨u, hu⟩ := hs.upc
  have hlen := hs.len
  have adv : ∀ s' : State, s'.upc = s.upc → MicroOutcome c k i (advance s') := fun s' h => advance_outcome ⟨u, h.trans hu⟩
  simp only [wfInstr, Bool.and_eq_true] at hi
  obtain ⟨⟨⟨⟨hk, hfield⟩, hconst⟩, hkey⟩, htab⟩ := hi
  cases i <;> simp only [kindAdmits, Bool.false_eq_true] at hk <;> simp only [execMicro]
  case lenchk n =>
    obtain ⟨f, hf⟩ := hs.frx (by simpa using hk)
    simp only [execLenchk, hf, need_of_some]
    split
    · exact adv s rfl
    · trivial
  case unpku b n sh w =>
    obtain ⟨f, hf⟩ := hs.frx (by simpa using hk)
    simp only [wfField, Bool.and_eq_true, decide_eq_true_eq] at hfield
    have hp : (fieldF b n sh w).fits = true := (fieldF_fits b n sh w).mpr (by omega)
    simp only [execUnpku, rxField, hf, need_of_some, hp, if_true, if_pos hfield.2]
    exact adv _ rfl
  case unpks b n sh w =>
    obtain ⟨f, hf⟩ := hs.frx (by simpa using hk)
    simp only [wfField, Bool.and_eq_true, decide_eq_true_eq] at hfield
    have hp : (fieldF b n sh w).fits = true := (fieldF_fits b n sh w).mpr (by omega)
    simp only [execUnpks, rxField, hf, need_of_some, hp, if_true]
    exact adv _ rfl
  case flgget b bit =>
    obtain ⟨f, hf⟩ := hs.frx (by simpa using hk)
    simp only [wfField, decide_eq_true_eq] at hfield
    simp only [Instr.wf, decide_eq_true_eq] at hw
    have hp : (fieldB b bit).fits = true := (fieldB_fits b bit).mpr hw
    simp only [execFlgget, rxField, hf, need_of_some, hp, if_true]
    exact adv _ rfl
  case scdiv n =>
    obtain ⟨x, hx⟩ := hs.a (ha rfl)
    obtain ⟨q, hq⟩ := divisor_eq (c := c) hs.cfg ht.pool hconst fun q => advance (s.setV ((x.toInt : Rat) / q))
    simp only [execScdiv, hx, need_of_some, hq]
    exact adv _ rfl
  case scmul n =>
    obtain ⟨x, hx⟩ := hs.a (ha rfl)
    simp only [wfConst, constFits, decide_eq_true_eq] at hconst
    simp only [execScmul, hx, need_of_some, constant_eq hs.cfg ht.pool hconst]
    exact adv _ rfl
  case sbsetv key =>
    obtain ⟨x, hx⟩ := hs.v (hv rfl)
    simp only [execSbsetv, hx, hs.cfg, need_of_some]
    exact adv _ rfl
  case sbseta key =>
    obtain ⟨x, hx⟩ := hs.a (ha rfl)
    simp only [execSbseta, hx, need_of_some]
    exact adv _ rfl
  case stclr key => exact adv _ rfl
  case stset key => exact adv _ rfl
  case ldai n => exact adv _ rfl
  case ldvc n =>
    simp only [wfConst, constFits, decide_eq_true_eq] at hconst
    simp only [execLdvc, constant_eq hs.cfg ht.pool hconst]
    exact adv _ rfl
  case sbgetv key =>
    have hke : k = .encode := by simpa using hk
    simp only [wfKey, Option.isSome_iff_exists] at hkey
    obtain ⟨t, hkt⟩ := hkey
    obtain ⟨x, hx, _⟩ := busValue_typed (hs.bus hke) hkt
    simp only [execSbgetv, busGet_of hs.cfg hx]
    exact adv _ rfl
  case sbgeta key =>
    have hke : k = .encode := by simpa using hk
    simp only [wfKey, beq_iff_eq] at hkey
    obtain ⟨x, hx⟩ := busValue_int (hs.bus hke) hkey
    simp only [execSbgeta, busGetInt_of hs.cfg hx]
    exact adv _ rfl
  case catsel key t =>
    have hke : k = .encode := by simpa using hk
    simp only [wfKey, beq_iff_eq] at hkey
    simp only [wfTable, decide_eq_true_eq] at htab
    obtain ⟨x, hx⟩ := busValue_int (hs.bus hke) hkey
    have hc' : (s.log (.get key (.int x))).cfg = some c := hs.cfg
    have hcand : candFits c ((c.catt[t.toNat]).select x.toInt) = true := by
      have hm := ht.catt _ (List.getElem_mem htab)
      unfold CatTable.select
      split
      · rw [List.getD_eq_getElem?_getD]
        cases hg : (c.catt[t.toNat]).cand[x.toInt.toNat]? with
        | none => simpa using hm.2
        | some y => simpa using hm.1 y (List.mem_of_getElem? hg)
      · exact hm.2
    simp only [candFits, Bool.and_eq_true, decide_eq_true_eq, Option.isSome_iff_exists] at hcand
    obtain ⟨hci, ty, hty⟩ := hcand
    obtain ⟨y, hy, _⟩ := busValue_typed (hs.bus hke) hty
    simp only [execCatsel, busGetInt_of hs.cfg hx, hc', need_of_some, index_of_lt _ htab]
    rw [busGet_of hc' (by simpa using hy), constant_eq (c := c) (by simpa using hc') ht.pool hci]
    exact adv _ rfl
  case uconv key n =>
    have hke : k = .encode := by simpa using hk
    simp only [wfKey, beq_iff_eq] at hkey
    simp only [wfTable, decide_eq_true_eq] at htab
    obtain ⟨q, hq⟩ := hs.v (hv rfl)
    obtain ⟨x, hx⟩ := busValue_int (hs.bus hke) hkey
    have hc' : (s.log (.get key (.int x))).cfg = some c := hs.cfg
    have hm := ht.uct _ (List.getElem_mem htab)
    simp only [execUconv, hq, need_of_some, busGetInt_of hs.cfg hx, hc', index_of_lt _ htab]
    rw [constant_eq (c := c) hc' ht.pool (by split <;> [exact hm.2; exact hm.1])]
    exact adv _ rfl
  case encmul n =>
    have hke : k = .encode := by simpa using hk
    subst hke
    obtain ⟨q, hq⟩ := hs.v (hv rfl)
    obtain ⟨e, en, he, _⟩ := hs.enc rfl
    simp only [wfConst, constFits, decide_eq_true_eq] at hconst
    simp only [execEncmul, hq, need_of_some, constant_eq hs.cfg ht.pool hconst]
    exact quantise_outcome hs.cfg hs.upc ⟨e, he⟩ rfl
  case encdiv n =>
    have hke : k = .encode := by simpa using hk
    subst hke
    obtain ⟨x, hx⟩ := hs.v (hv rfl)
    obtain ⟨e, en, he, _⟩ := hs.enc rfl
    obtain ⟨q, hq⟩ := divisor_eq (c := c) hs.cfg ht.pool hconst fun q => quantise s (x / q)
    simp only [execEncdiv, hx, need_of_some, hq]
    exact quantise_outcome hs.cfg hs.upc ⟨e, he⟩ rfl
  case packu b n sh w =>
    have hke : k = .encode := by simpa using hk
    subst hke
    obtain ⟨x, hx⟩ := hs.a (ha rfl)
    obtain ⟨e, en, he, _⟩ := hs.enc rfl
    simp only [wfField, Bool.and_eq_true, decide_eq_true_eq] at hfield
    have hp : (fieldF b n sh w).fits = true := (fieldF_fits b n sh w).mpr (by omega)
    simp only [execPacku, hx, need_of_some]
    exact fitPack_outcome hs.cfg hs.upc ⟨e, he⟩ hp
  case packs b n sh w =>
    have hke : k = .encode := by simpa using hk
    subst hke
    obtain ⟨x, hx⟩ := hs.a (ha rfl)
    obtain ⟨e, en, he, _⟩ := hs.enc rfl
    simp only [wfField, Bool.and_eq_true, decide_eq_true_eq] at hfield
    have hp : (fieldF b n sh w).fits = true := (fieldF_fits b n sh w).mpr (by omega)
    simp only [execPacks, hx, need_of_some]
    exact fitPack_outcome hs.cfg hs.upc ⟨e, he⟩ hp
  case flgput b bit =>
    obtain ⟨x, hx⟩ := hs.a (ha rfl)
    simp only [wfField, decide_eq_true_eq] at hfield
    simp only [Instr.wf, decide_eq_true_eq] at hw
    have hp : (fieldB b bit).fits = true := (fieldB_fits b bit).mpr hw
    simp only [execFlgput, hx, need_of_some, txInsert, hp, if_true]
    exact adv _ rfl
  case roll r b sh =>
    have hke : k = .encode := by simpa using hk
    simp only [wfField, decide_eq_true_eq] at hfield
    simp only [wfTable, decide_eq_true_eq] at htab
    simp only [Instr.wf, decide_eq_true_eq] at hw
    obtain ⟨l, hl, hll⟩ := (hs.arrays hke).rollcnt
    have hp : (fieldR b sh).fits = true := (fieldR_fits b sh).mpr hw
    simp only [execRoll, hl, need_of_some, index_of_lt _ (hll ▸ htab), txInsert, hp, if_true]
    exact adv _ rfl
  case send =>
    have hke : k = .encode := by simpa using hk
    obtain ⟨e, en, he, hen, _⟩ := hs.enc hke
    obtain ⟨l, hl, hll⟩ := (hs.arrays hke).txstat
    have hmem := List.mem_of_getElem? hen
    obtain ⟨f, hf, _⟩ := builtFrame_of_fits (ht.encId en hmem) (ht.dlc en hmem) s.txb
    have hlt : e < l.length := hll ▸ (List.getElem?_eq_some_iff.mp hen).1
    have hts : (nextAnswer s).2.txstat = some l := by rw [nextAnswer_state]; exact hl
    simp only [execSend, he, hs.cfg, need_of_some, index_of_some hen, hf, sendFrame, writeTxStat, hts, index_of_lt _ hlt]
    trivial
  case end_ => trivial

/-! ## Decoded words are well-formed -/

theorem accept_ok {a b : Bool} {i j : Instr} : accept a b i = .ok j ↔ a = true ∧ b = true ∧ i = j := by
  unfold accept
  cases a <;> cases b <;> simp

theorem decodeFields_wf {m : MicroWord} {i : Instr} (h : decodeFields m = .ok i) : i.wf = true := by
  unfold decodeFields at h
  split at h <;>
    first
      | cases h
      | (simp only [formatL, formatF, formatB, formatR, formatIC, formatK, formatT, formatZ, accept_ok] at h
         obtain ⟨_, hr, rfl⟩ := h
         first
           | rfl
           | exact hr
           | (simp only [Bool.and_eq_true] at hr; exact hr.2))

theorem decodeMicro_wf {w : Word} {i : Instr} (h : decodeMicro w = .ok i) : i.wf = true := decodeFields_wf h

/-- The list ends the run. -/
def endsRun (k : HandlerKind) : List Instr → Bool
  | [] => false
  | i :: is => isTerminator k i || endsRun k is

theorem scanWords_spec {k : HandlerKind} : ∀ {ws : List Word} {is : List Instr}, scanWords k ws = some is →
    endsRun k is = true ∧ ∀ i ∈ is, i.wf = true
  | [], is, h => by simp [scanWords] at h
  | w :: ws, is, h => by
    simp only [scanWords] at h
    split at h
    · cases h
    · rename_i i hd
      split at h
      · rename_i ht
        simp only [Option.some.injEq] at h
        subst h
        exact ⟨by simp [endsRun, ht], fun j hj => by rw [List.mem_singleton.mp hj]; exact decodeMicro_wf hd⟩
      · obtain ⟨js, hj, rfl⟩ := Option.map_eq_some_iff.mp h
        obtain ⟨h1, h2⟩ := scanWords_spec hj
        refine ⟨by simp [endsRun, h1], fun j hj => ?_⟩
        rcases List.mem_cons.mp hj with rfl | hj
        · exact decodeMicro_wf hd
        · exact h2 j hj

/-! ## The run of a checked handler -/

theorem RunState.after {c : Cfg} {k : HandlerKind} {dlc len : Nat} {a v : Bool} {i : Instr} {s t : State}
    (hs : RunState c k dlc len a v s) (hk : kindAdmits k i = true) (hm : MicroNext i s t) (hu : t.upc ≠ none) :
    RunState c k dlc len (a || writesA i) (v || writesV i) t where
  cfg := hm.frame.cfg.trans hs.cfg
  upc := by
    rcases hm.upc with ⟨u, _, h⟩ | h
    · exact ⟨_, h⟩
    · exact absurd h.1 hu
  a h := by
    cases hw : writesA i with
    | true => exact Option.ne_none_iff_exists'.mp ((hm.a hu).2 hw)
    | false => rw [(hm.a hu).1 hw]; exact hs.a (by simpa [hw] using h)
  v h := by
    cases hw : writesV i with
    | true => exact Option.ne_none_iff_exists'.mp ((hm.v hu).2 hw)
    | false => rw [(hm.v hu).1 hw]; exact hs.v (by simpa [hw] using h)
  frx h := by rw [hm.frame.frx]; exact hs.frx h
  enc h := by rw [hm.frame.idxE]; exact hs.enc h
  arrays h := by
    obtain ⟨⟨l, h1, h2⟩, ⟨r, h3, h4⟩, ⟨x, h5, h6⟩⟩ := hs.arrays h
    have hr := hm.frame.rollcnt
    have hx := hm.frame.txstat
    rw [h3] at hr
    rw [h5] at hx
    obtain ⟨r', hr', hr''⟩ := Option.map_eq_some_iff.mp hr
    obtain ⟨x', hx', hx''⟩ := Option.map_eq_some_iff.mp hx
    exact ⟨⟨l, hm.frame.cnt.trans h1, h2⟩, ⟨r', hr', hr''.trans h4⟩, ⟨x', hx', hx''.trans h6⟩⟩
  bus h := by
    have : writesBus i = false := by subst h; cases i <;> first | rfl | cases hk
    rw [hm.sb this]
    exact hs.bus h
  len := hs.len

/-- The outcome of the run of a checked handler. -/
def RunOutcome (c : Cfg) (k : HandlerKind) (is : List Instr) : Out → Prop
  | .next _ => True
  | .fault (.range _ _) => k = .encode ∧ ∃ i ∈ is, scalesForEncode i = true
  | .fault (.packOverflow _ _) => k = .encode ∧ c.ovfPolicy = .fault
  | _ => False

theorem RunOutcome.mono {c : Cfg} {k : HandlerKind} {i : Instr} {is : List Instr} {o : Out} (h : RunOutcome c k is o) :
    RunOutcome c k (i :: is) o := by
  cases o with
  | next s => trivial
  | refused r => exact h
  | fault r =>
    cases r with
    | range e u => exact ⟨h.1, h.2.imp fun j hj => ⟨List.mem_cons_of_mem _ hj.1, hj.2⟩⟩
    | packOverflow e u => exact h
    | _ => exact h

theorem runList_outcome {c : Cfg} {k : HandlerKind} {dlc len : Nat} (ht : TablesOk c) :
    ∀ (is : List Instr) (a v : Bool) (s : State), RunState c k dlc len a v s → endsRun k is = true →
      (∀ i ∈ is, i.wf = true ∧ wfInstr c k len i = true) → wfDefUse a v is = true → RunOutcome c k is (runList is s)
  | [], a, v, s, _, he, _, _ => by simp [endsRun] at he
  | i :: is, a, v, s, hs, he, hi, hd => by
    simp only [wfDefUse, Bool.and_eq_true, Bool.or_eq_true, Bool.not_eq_true'] at hd
    obtain ⟨⟨hda, hdv⟩, hd⟩ := hd
    have hi0 := hi i (by simp)
    have hk : kindAdmits k i = true := by
      have := hi0.2
      simp only [wfInstr, Bool.and_eq_true] at this
      exact this.1.1.1.1
    have ho := execMicro_outcome ht hs hi0.1 hi0.2
      (fun h => hda.resolve_left (by simp [h])) (fun h => hdv.resolve_left (by simp [h]))
    simp only [runList]
    cases hx : execMicro i s with
    | refused r => rw [hx] at ho; exact absurd ho id
    | fault r =>
      rw [hx] at ho
      cases r with
      | range e u => exact ⟨ho.1, i, by simp, ho.2⟩
      | packOverflow e u => exact ho
      | _ => exact absurd ho id
    | next t =>
      simp only [andThen_of_next]
      split
      · trivial
      · rename_i hu
        have hnt : isTerminator k i = false := by
          by_contra hc
          exact hu (terminator_ends (by simpa using hc) hx)
        exact (runList_outcome ht is _ _ t (hs.after hk (execMicro_microNext hx) hu) (by simpa [endsRun, hnt] using he)
          (fun j hj => hi j (by simp [hj])) hd).mono

/-- The operands a handler kind starts with. -/
structure StartState (c : Cfg) (k : HandlerKind) (dlc : Nat) (s : State) : Prop where
  cfg : s.cfg = some c
  frx : k = .decode → ∃ f, s.frx = some f
  enc : k = .encode → ∃ e en, s.idxE = some e ∧ c.enc[e]? = some en ∧ en.dlc = dlc
  arrays : k = .encode → Arrays c s
  bus : k = .encode → BusTyped c s.sb

theorem handlerLen_le {c : Cfg} {k : HandlerKind} {dlc base : Nat} {is : List Instr} (h : Checked c k dlc base is)
    (hd : dlc ≤ 8) : handlerLen k dlc is ≤ 8 := by
  have hw := (scanWords_spec h.scan).2
  unfold handlerLen
  split
  · rename_i n rest
    have := hw (.lenchk n) (by simp)
    simpa [Instr.wf] using this
  · exact hd
  · omega

/-- The run of a checked handler ends in a next state, or in an encode handler in a fault of the spec (45_engine_tick.md R265). -/
theorem runHandler_outcome {c : Cfg} {k : HandlerKind} {dlc base : Nat} {is : List Instr} {s : State} (ht : TablesOk c)
    (h : Checked c k dlc base is) (hd : dlc ≤ 8) (hs : StartState c k dlc s) :
    RunOutcome c k is (runHandler k base s) := by
  rw [runHandler_eq_runList h hs.cfg]
  have hspec := scanWords_spec h.scan
  refine runList_outcome (dlc := dlc) (len := handlerLen k dlc is) ht is false false _ ?_ hspec.1
    (fun i hi => ⟨hspec.2 i hi, h.each i hi⟩) h.defUse
  exact ⟨hs.cfg, ⟨base, rfl⟩, nofun, nofun, hs.frx, hs.enc, fun h => ⟨(hs.arrays h).cnt, (hs.arrays h).rollcnt, (hs.arrays h).txstat⟩, hs.bus, handlerLen_le h hd⟩

/-- What the run of a checked handler has done where it answers a next state. -/
theorem runHandler_effect {c : Cfg} {k : HandlerKind} {dlc base : Nat} {is : List Instr} {s t : State}
    (h : Checked c k dlc base is) (hc : s.cfg = some c) (hr : runHandler k base s = .next t) :
    RunEffect is (s.startRun k base) t ∧ ∀ i ∈ is, kindAdmits k i = true := by
  rw [runHandler_eq_runList h hc] at hr
  refine ⟨runList_effect is _ t hr, fun i hi => ?_⟩
  have := h.each i hi
  simp only [wfInstr, Bool.and_eq_true] at this
  exact this.1.1.1.1

end Sys2Proof.Machine
end

