-- ==== Sys2Proof/Laws/PerInstr.lean ====
section
/-! SUPPORT. One lemma for each instruction: its code, as the encoder writes it, is a word of its row of opcode_table.json. -/

namespace Sys2Proof.Laws.TableWord

-- One theorem at a time: theorems elaborated side by side each wait on the kernel in a thread of their own.
set_option Elab.async false

/-- A row's pattern: how many bits its word has, and the bits it fixes, with their values. -/
structure Row where
  nbits : Nat
  mask : Word
  value : Word

/-- The pattern of an instruction's row of opcode_table.json. -/
def row : Instr → Row
  | .reset _ => ⟨3, 0x4#64, 0x4#64⟩
  | .init => ⟨3, 0x7#64, 0x1#64⟩
  | .tick => ⟨3, 0x7#64, 0x2#64⟩
  | .drain => ⟨4, 0xF#64, 0x1#64⟩
  | .lookup => ⟨4, 0xF#64, 0x2#64⟩
  | .dispatch => ⟨4, 0xF#64, 0x3#64⟩
  | .rearm => ⟨4, 0xF#64, 0x4#64⟩
  | .decode => ⟨4, 0xF#64, 0x5#64⟩
  | .supervise => ⟨4, 0xF#64, 0x6#64⟩
  | .supent => ⟨4, 0xF#64, 0x7#64⟩
  | .tofire => ⟨4, 0xF#64, 0x8#64⟩
  | .sched => ⟨4, 0xF#64, 0x9#64⟩
  | .bucket => ⟨4, 0xF#64, 0xA#64⟩
  | .encode => ⟨4, 0xF#64, 0xB#64⟩
  | .lenchk _ => ⟨64, 0xFFFFFFFFFFF0FFFF#64, 0x0100000000000000#64⟩
  | .unpku .. => ⟨64, 0xFF00003FFFFFFFFF#64, 0x0200000000000000#64⟩
  | .unpks .. => ⟨64, 0xFF00003FFFFFFFFF#64, 0x0300000000000000#64⟩
  | .flgget .. => ⟨64, 0xFF1F8FFFFFFFFFFF#64, 0x0400000000000000#64⟩
  | .scdiv _ => ⟨64, 0xFFFFFFFF0000FFFF#64, 0x0500000000000000#64⟩
  | .scmul _ => ⟨64, 0xFFFFFFFF0000FFFF#64, 0x0600000000000000#64⟩
  | .sbsetv _ => ⟨64, 0xFFFFFFFFFFFF0000#64, 0x0700000000000000#64⟩
  | .sbseta _ => ⟨64, 0xFFFFFFFFFFFF0000#64, 0x0800000000000000#64⟩
  | .stclr _ => ⟨64, 0xFFFFFFFFFFFF0000#64, 0x0900000000000000#64⟩
  | .stset _ => ⟨64, 0xFFFFFFFFFFFF0000#64, 0x0A00000000000000#64⟩
  | .ldai _ => ⟨64, 0xFFFFFFFF0000FFFF#64, 0x0B00000000000000#64⟩
  | .ldvc _ => ⟨64, 0xFFFFFFFF0000FFFF#64, 0x0C00000000000000#64⟩
  | .sbgetv _ => ⟨64, 0xFFFFFFFFFFFF0000#64, 0x0D00000000000000#64⟩
  | .sbgeta _ => ⟨64, 0xFFFFFFFFFFFF0000#64, 0x0E00000000000000#64⟩
  | .catsel .. => ⟨64, 0xFFFFFFFF00000000#64, 0x0F00000000000000#64⟩
  | .uconv .. => ⟨64, 0xFFFFFFFF00000000#64, 0x1000000000000000#64⟩
  | .encmul _ => ⟨64, 0xFFFFFFFF0000FFFF#64, 0x1100000000000000#64⟩
  | .encdiv _ => ⟨64, 0xFFFFFFFF0000FFFF#64, 0x1200000000000000#64⟩
  | .packu .. => ⟨64, 0xFF00003FFFFFFFFF#64, 0x1300000000000000#64⟩
  | .packs .. => ⟨64, 0xFF00003FFFFFFFFF#64, 0x1400000000000000#64⟩
  | .flgput .. => ⟨64, 0xFF1F8FFFFFFFFFFF#64, 0x1500000000000000#64⟩
  | .roll .. => ⟨64, 0xFF1F8FFF0000FFFF#64, 0x160000C000000000#64⟩
  | .send => ⟨64, 0xFFFFFFFFFFFFFFFF#64, 0x1700000000000000#64⟩
  | .end_ => ⟨64, 0xFFFFFFFFFFFFFFFF#64, 0x1800000000000000#64⟩

/-- How many bits a code has. -/
def bits : Code → Nat
  | .host _ => 3
  | .phase _ => 4
  | .micro _ => 64

/-- A code as the table numbers its bits. -/
def word : Code → Word
  | .host w => w.setWidth 64
  | .phase w => w.setWidth 64
  | .micro w => w

/-- The code of a well-formed instruction is a word of its row (30_encoding.md R98, R105, R107). -/
def Statement (i : Instr) : Prop :=
  i.wf = true → bits (Sys2Proof.encode i) = (row i).nbits ∧ word (Sys2Proof.encode i) &&& (row i).mask = (row i).value

/-! ## Masking a micro-word field by field -/

theorem microBits_microFields (w : Word) : microBits (microFields w) = w := by
  apply BitVec.eq_of_getLsbD_eq
  intro i hi
  simp only [microBits, microFields, BitVec.getLsbD_append, BitVec.getLsbD_extractLsb']
  interval_cases i <;> rfl

theorem microFields_microBits (m : MicroWord) : microFields (microBits m) = m := by
  obtain ⟨op, byte, nb1, shift, w1, rsv, imm, key⟩ := m
  simp only [microFields, microBits, MicroWord.mk.injEq]
  refine ⟨?_, ?_, ?_, ?_, ?_, ?_, ?_, ?_⟩ <;>
    · apply BitVec.eq_of_getLsbD_eq
      intro i hi
      simp only [BitVec.getLsbD_append, BitVec.getLsbD_extractLsb']
      interval_cases i <;> simp

theorem microFields_and (v w : Word) :
    microFields (v &&& w) =
      { op := (microFields v).op &&& (microFields w).op, byte := (microFields v).byte &&& (microFields w).byte,
        nb1 := (microFields v).nb1 &&& (microFields w).nb1, shift := (microFields v).shift &&& (microFields w).shift,
        w1 := (microFields v).w1 &&& (microFields w).w1, rsv := (microFields v).rsv &&& (microFields w).rsv,
        imm := (microFields v).imm &&& (microFields w).imm, key := (microFields v).key &&& (microFields w).key } := by
  simp [microFields, BitVec.extractLsb'_and]

theorem and_microBits (m n : MicroWord) :
    microBits m &&& microBits n =
      microBits { op := m.op &&& n.op, byte := m.byte &&& n.byte, nb1 := m.nb1 &&& n.nb1, shift := m.shift &&& n.shift,
                  w1 := m.w1 &&& n.w1, rsv := m.rsv &&& n.rsv, imm := m.imm &&& n.imm, key := m.key &&& n.key } := by
  rw [← microBits_microFields (microBits m &&& microBits n), microFields_and, microFields_microBits, microFields_microBits]

/-- A mask taken field by field. -/
theorem masked_eq (m : MicroWord) (mask value : Word) :
    microBits m &&& mask = value ↔
      m.op &&& (microFields mask).op = (microFields value).op ∧
      m.byte &&& (microFields mask).byte = (microFields value).byte ∧
      m.nb1 &&& (microFields mask).nb1 = (microFields value).nb1 ∧
      m.shift &&& (microFields mask).shift = (microFields value).shift ∧
      m.w1 &&& (microFields mask).w1 = (microFields value).w1 ∧
      m.rsv &&& (microFields mask).rsv = (microFields value).rsv ∧
      m.imm &&& (microFields mask).imm = (microFields value).imm ∧
      m.key &&& (microFields mask).key = (microFields value).key := by
  constructor
  · rintro rfl
    simp [microFields_and, microFields_microBits]
  · rintro ⟨h1, h2, h3, h4, h5, h6, h7, h8⟩
    conv_lhs => rw [← microBits_microFields mask]
    rw [and_microBits, h1, h2, h3, h4, h5, h6, h7, h8]
    exact microBits_microFields value

theorem low3 (s : BitVec 6) (h : s.toNat ≤ 7) : s &&& 0x38#6 = 0#6 := by
  have : ∀ s : BitVec 6, s.toNat ≤ 7 → s &&& 0x38#6 = 0#6 := by decide
  exact this s h

theorem low4 (n : BitVec 16) (h : n.toNat ≤ 8) : n &&& 0xFFF0#16 = 0#16 := by
  obtain ⟨k, hk⟩ : ∃ k, k = n.toNat := ⟨_, rfl⟩
  have hn : n = BitVec.ofNat 16 k := by rw [hk, BitVec.ofNat_toNat, BitVec.setWidth_eq]
  subst hn
  have : k ≤ 8 := hk ▸ h
  interval_cases k <;> decide

/-! ## The lemmas -/

theorem reset (x) : Statement (.reset x) :=
  fun _ => ⟨rfl, by revert x; decide⟩

theorem init : Statement (.init) :=
  fun _ => ⟨rfl, rfl⟩

theorem tick : Statement (.tick) :=
  fun _ => ⟨rfl, rfl⟩

theorem drain : Statement (.drain) :=
  fun _ => ⟨rfl, rfl⟩

theorem lookup : Statement (.lookup) :=
  fun _ => ⟨rfl, rfl⟩

theorem dispatch : Statement (.dispatch) :=
  fun _ => ⟨rfl, rfl⟩

theorem rearm : Statement (.rearm) :=
  fun _ => ⟨rfl, rfl⟩

theorem decode : Statement (.decode) :=
  fun _ => ⟨rfl, rfl⟩

theorem supervise : Statement (.supervise) :=
  fun _ => ⟨rfl, rfl⟩

theorem supent : Statement (.supent) :=
  fun _ => ⟨rfl, rfl⟩

theorem tofire : Statement (.tofire) :=
  fun _ => ⟨rfl, rfl⟩

theorem sched : Statement (.sched) :=
  fun _ => ⟨rfl, rfl⟩

theorem bucket : Statement (.bucket) :=
  fun _ => ⟨rfl, rfl⟩

theorem encode : Statement (.encode) :=
  fun _ => ⟨rfl, rfl⟩

theorem lenchk (x) : Statement (.lenchk x) :=
  fun h => by
    simp [Sys2Proof.encode, microWordOf, word, bits, row, masked_eq, microFields, microOp, low4 x (of_decide_eq_true h)]

theorem unpku (x y z w) : Statement (.unpku x y z w) :=
  fun _ => by
    simp [Sys2Proof.encode, microWordOf, word, bits, row, masked_eq, microFields, microOp]

theorem unpks (x y z w) : Statement (.unpks x y z w) :=
  fun _ => by
    simp [Sys2Proof.encode, microWordOf, word, bits, row, masked_eq, microFields, microOp]

theorem flgget (x y) : Statement (.flgget x y) :=
  fun h => by
    simp [Sys2Proof.encode, microWordOf, word, bits, row, masked_eq, microFields, microOp, low3 y (of_decide_eq_true h)]

theorem scdiv (x) : Statement (.scdiv x) :=
  fun _ => by
    simp [Sys2Proof.encode, microWordOf, word, bits, row, masked_eq, microFields, microOp]

theorem scmul (x) : Statement (.scmul x) :=
  fun _ => by
    simp [Sys2Proof.encode, microWordOf, word, bits, row, masked_eq, microFields, microOp]

theorem sbsetv (x) : Statement (.sbsetv x) :=
  fun _ => by
    simp [Sys2Proof.encode, microWordOf, word, bits, row, masked_eq, microFields, microOp]

theorem sbseta (x) : Statement (.sbseta x) :=
  fun _ => by
    simp [Sys2Proof.encode, microWordOf, word, bits, row, masked_eq, microFields, microOp]

theorem stclr (x) : Statement (.stclr x) :=
  fun _ => by
    simp [Sys2Proof.encode, microWordOf, word, bits, row, masked_eq, microFields, microOp]

theorem stset (x) : Statement (.stset x) :=
  fun _ => by
    simp [Sys2Proof.encode, microWordOf, word, bits, row, masked_eq, microFields, microOp]

theorem ldai (x) : Statement (.ldai x) :=
  fun _ => by
    simp [Sys2Proof.encode, microWordOf, word, bits, row, masked_eq, microFields, microOp]

theorem ldvc (x) : Statement (.ldvc x) :=
  fun _ => by
    simp [Sys2Proof.encode, microWordOf, word, bits, row, masked_eq, microFields, microOp]

theorem sbgetv (x) : Statement (.sbgetv x) :=
  fun _ => by
    simp [Sys2Proof.encode, microWordOf, word, bits, row, masked_eq, microFields, microOp]

theorem sbgeta (x) : Statement (.sbgeta x) :=
  fun _ => by
    simp [Sys2Proof.encode, microWordOf, word, bits, row, masked_eq, microFields, microOp]

theorem catsel (x y) : Statement (.catsel x y) :=
  fun _ => by
    simp [Sys2Proof.encode, microWordOf, word, bits, row, masked_eq, microFields, microOp]

theorem uconv (x y) : Statement (.uconv x y) :=
  fun _ => by
    simp [Sys2Proof.encode, microWordOf, word, bits, row, masked_eq, microFields, microOp]

theorem encmul (x) : Statement (.encmul x) :=
  fun _ => by
    simp [Sys2Proof.encode, microWordOf, word, bits, row, masked_eq, microFields, microOp]

theorem encdiv (x) : Statement (.encdiv x) :=
  fun _ => by
    simp [Sys2Proof.encode, microWordOf, word, bits, row, masked_eq, microFields, microOp]

theorem packu (x y z w) : Statement (.packu x y z w) :=
  fun _ => by
    simp [Sys2Proof.encode, microWordOf, word, bits, row, masked_eq, microFields, microOp]

theorem packs (x y z w) : Statement (.packs x y z w) :=
  fun _ => by
    simp [Sys2Proof.encode, microWordOf, word, bits, row, masked_eq, microFields, microOp]

theorem flgput (x y) : Statement (.flgput x y) :=
  fun h => by
    simp [Sys2Proof.encode, microWordOf, word, bits, row, masked_eq, microFields, microOp, low3 y (of_decide_eq_true h)]

theorem roll (x y z) : Statement (.roll x y z) :=
  fun h => by
    simp [Sys2Proof.encode, microWordOf, word, bits, row, masked_eq, microFields, microOp, low3 z (le_trans (of_decide_eq_true h) (by decide))]

theorem send : Statement (.send) :=
  fun _ => by
    simp [Sys2Proof.encode, microWordOf, word, bits, row, masked_eq, microFields, microOp]

theorem end_ : Statement (.end_) :=
  fun _ => by
    simp [Sys2Proof.encode, microWordOf, word, bits, row, masked_eq, microFields, microOp]

end Sys2Proof.Laws.TableWord
end

