-- ==== Sys2Proof/Laws/Sequencer.lean ====
section
/-! SUPPORT. The sequencer operations over a checked configuration: what the runs of decode, timeout and encode handlers leave, and
what each operation made of them can do. -/

namespace Sys2Proof.Machine

/-! ## The runs of the three kinds -/

theorem receive_kind {k : HandlerKind} {i : Instr} (hk : k ≠ .encode) (h : kindAdmits k i = true) :
    writesRollcnt i = false ∧ writesTxstat i = false ∧ writesTxb i = false ∧ i ≠ .send := by
  cases k <;> first | exact absurd rfl hk | (cases i <;> first | exact ⟨rfl, rfl, rfl, nofun⟩ | cases h)

/-- The run of a decode or timeout handler changes the signal bus and the event list only. -/
theorem runHandler_receive {c : Cfg} {k : HandlerKind} {dlc base : Nat} {is : List Instr} {s t : State}
    (h : Checked c k dlc base is) (hk : k ≠ .encode) (hc : s.cfg = some c) (hr : runHandler k base s = .next t) :
    t = { s with a := none, v := none, upc := none, hk := none, sb := t.sb, events := t.events } := by
  obtain ⟨he, ha⟩ := runHandler_effect h hc hr
  have hx := fun i hi => receive_kind hk (ha i hi)
  obtain ⟨h1, h2, h3, h4⟩ := he.ended
  have h5 := he.rollcnt fun i hi => (hx i hi).1
  have h6 := he.txstat fun i hi => (hx i hi).2.1
  have h7 := he.txb fun i hi => (hx i hi).2.2.1
  have h8 := he.tx fun i hi => (hx i hi).2.2.2
  have hf := he.frame
  obtain ⟨g1, g2, g3, g4, g5, g6, g7, g8, g9, g10, g11, g12, g13, g14, g15, _, _, _, _, _⟩ := hf
  cases t
  cases s
  simp_all [State.startRun]

theorem encode_kind {i : Instr} (h : kindAdmits .encode i = true) : writesBus i = false := by
  cases i <;> first | rfl | cases h

/-- The run of an encode handler changes the buffer, the rolling counters, the send statuses, the answers and the event list
only. -/
theorem runHandler_encode {c : Cfg} {dlc base : Nat} {is : List Instr} {s t : State} (h : Checked c .encode dlc base is)
    (hc : s.cfg = some c) (hr : runHandler .encode base s = .next t) :
    t = { s with a := none, v := none, upc := none, hk := none, txb := t.txb, rollcnt := t.rollcnt, txstat := t.txstat,
                 tx := t.tx, freeCtr := t.freeCtr, events := t.events } := by
  obtain ⟨he, ha⟩ := runHandler_effect h hc hr
  obtain ⟨h1, h2, h3, h4⟩ := he.ended
  have h5 := he.sb fun i hi => encode_kind (ha i hi)
  obtain ⟨g1, g2, g3, g4, g5, g6, g7, g8, g9, g10, g11, g12, g13, g14, g15, _, _, _, _, _⟩ := he.frame
  cases t
  cases s
  simp_all [State.startRun]

/-! ## The signal bus keeps its types -/

theorem Bus.find_put (sb : Bus) (k : Key) (v : SigVal) (k' : Key) :
    Bus.find (Bus.put sb k v) k' = if k' = k then some v else Bus.find sb k' := by
  by_cases hk : k' = k
  · subst hk
    rw [if_pos rfl, Bus.find_put_self]
  · rw [if_neg hk]
    induction sb with
    | nil => simp [Bus.put, Bus.find, Ne.symm hk]
    | cons x sb ih =>
      obtain ⟨k2, v2⟩ := x
      simp only [Bus.put]
      split
      · simp only [Bus.find, ih]
      · split
        · rename_i h
          subst h
          simp [Bus.find, Ne.symm hk]
        · simp [Bus.find, Ne.symm hk]

theorem BusTyped.put {c : Cfg} {sb : Bus} (h : BusTyped c sb) {k : Key} {v : SigVal}
    (hv : keyType c.ktype k = some v.type) : BusTyped c (Bus.put sb k v) := by
  intro k' v' t hf hk
  rw [Bus.find_put] at hf
  split at hf
  · rename_i he
    subst he
    simp only [Option.some.injEq] at hf
    subst hf
    rw [hv] at hk
    exact Option.some.inj hk
  · exact h k' v' t hf hk

theorem execMicro_busTyped {c : Cfg} {i : Instr} {s t : State} (hk : wfKey c i = true) (hb : BusTyped c s.sb)
    (h : execMicro i s = .next t) : BusTyped c t.sb := by
  by_cases hw : writesBus i = false
  · rw [(execMicro_microNext h).sb hw]; exact hb
  · cases i <;> first | exact absurd rfl hw | (simp [execMicro] at h; done) | skip
    all_goals simp only [wfKey, beq_iff_eq] at hk
    case sbsetv key =>
      obtain ⟨v, _, h⟩ := need_next.mp h
      obtain ⟨cfg, _, h⟩ := need_next.mp h
      obtain ⟨u, _, rfl⟩ := advance_next.mp h
      exact BusTyped.put (c := c) (sb := s.sb) hb hk
    case sbseta key =>
      obtain ⟨a, _, h⟩ := need_next.mp h
      obtain ⟨u, _, rfl⟩ := advance_next.mp h
      exact BusTyped.put (c := c) (sb := s.sb) hb hk
    case stclr key =>
      obtain ⟨u, _, rfl⟩ := advance_next.mp h
      exact BusTyped.put (c := c) (sb := s.sb) hb hk
    case stset key =>
      obtain ⟨u, _, rfl⟩ := advance_next.mp h
      exact BusTyped.put (c := c) (sb := s.sb) hb hk

theorem runList_busTyped {c : Cfg} : ∀ (is : List Instr) (s t : State), (∀ i ∈ is, wfKey c i = true) → BusTyped c s.sb →
    runList is s = .next t → BusTyped c t.sb
  | [], s, t, _, _, h => by simp [runList] at h
  | i :: is, s, t, hk, hb, h => by
    simp only [runList, andThen_next] at h
    obtain ⟨s', hs, h⟩ := h
    have hb' := execMicro_busTyped (hk i (by simp)) hb hs
    split at h
    · simp only [Host.Outcome.next.injEq] at h
      exact h ▸ hb'
    · exact runList_busTyped is s' t (fun j hj => hk j (by simp [hj])) hb' h

theorem runHandler_busTyped {c : Cfg} {k : HandlerKind} {dlc base : Nat} {is : List Instr} {s t : State}
    (h : Checked c k dlc base is) (hc : s.cfg = some c) (hb : BusTyped c s.sb) (hr : runHandler k base s = .next t) :
    BusTyped c t.sb := by
  rw [runHandler_eq_runList h hc] at hr
  refine runList_busTyped is (s.startRun k base) t (fun i hi => ?_) hb hr
  have := h.each i hi
  simp only [wfInstr, Bool.and_eq_true] at this
  exact this.1.2

/-! ## Arrays -/

theorem Arrays.of_eq {c : Cfg} {s t : State} (h : Arrays c s) (h1 : t.cnt.map List.length = s.cnt.map List.length)
    (h2 : t.rollcnt.map List.length = s.rollcnt.map List.length)
    (h3 : t.txstat.map List.length = s.txstat.map List.length) : Arrays c t := by
  obtain ⟨⟨l, hl, hl'⟩, ⟨r, hr, hr'⟩, ⟨x, hx, hx'⟩⟩ := h
  rw [hl] at h1
  rw [hr] at h2
  rw [hx] at h3
  obtain ⟨l2, g1, g2⟩ := Option.map_eq_some_iff.mp h1
  obtain ⟨r2, g3, g4⟩ := Option.map_eq_some_iff.mp h2
  obtain ⟨x2, g5, g6⟩ := Option.map_eq_some_iff.mp h3
  exact ⟨⟨l2, g1, g2.trans hl'⟩, ⟨r2, g3, g4.trans hr'⟩, ⟨x2, g5, g6.trans hx'⟩⟩

theorem Ready.of_eq {c : Cfg} {s t : State} (h : Ready c s) (hc : t.cfg = s.cfg)
    (h1 : t.cnt.map List.length = s.cnt.map List.length) (h2 : t.rollcnt.map List.length = s.rollcnt.map List.length)
    (h3 : t.txstat.map List.length = s.txstat.map List.length) : Ready c t :=
  ⟨hc.trans h.held, h.checked, h.arrays.of_eq h1 h2 h3⟩

end Sys2Proof.Machine
end

