-- ==== Sys2Proof/Machine/Asm.lean ====
section
/-! DEFINITION. The pseudo-instructions of 30_encoding.md R116 and the assembler's spelling of an instruction (R114). -/

namespace Sys2Proof.Machine

/-- `UNPKU8 b`, `UNPKU16 b`, `UNPKU32 b` (30_encoding.md R116). -/
def unpku8 (b : BitVec 3) : List Instr := [.unpku b 0 0 7]
/-- See `unpku8`. -/
def unpku16 (b : BitVec 3) : List Instr := [.unpku b 1 0 15]
/-- See `unpku8`. -/
def unpku32 (b : BitVec 3) : List Instr := [.unpku b 3 0 31]
/-- `UNPKS16 b`, `UNPKS32 b` (30_encoding.md R116). -/
def unpks16 (b : BitVec 3) : List Instr := [.unpks b 1 0 15]
/-- See `unpks16`. -/
def unpks32 (b : BitVec 3) : List Instr := [.unpks b 3 0 31]
/-- `PACKU8 b`, `PACKU16 b`, `PACKU32 b` (30_encoding.md R116). -/
def packu8 (b : BitVec 3) : List Instr := [.packu b 0 0 7]
/-- See `packu8`. -/
def packu16 (b : BitVec 3) : List Instr := [.packu b 1 0 15]
/-- See `packu8`. -/
def packu32 (b : BitVec 3) : List Instr := [.packu b 3 0 31]
/-- `PACKS16 b`, `PACKS32 b` (30_encoding.md R116). -/
def packs16 (b : BitVec 3) : List Instr := [.packs b 1 0 15]
/-- See `packs16`. -/
def packs32 (b : BitVec 3) : List Instr := [.packs b 3 0 31]
/-- `SETI key, imm` (30_encoding.md R116). -/
def seti (key : Key) (imm : BitVec 16) : List Instr := [.ldai imm, .sbseta key]
/-- `SETC key, #c` (30_encoding.md R116). -/
def setc (key : Key) (c : BitVec 16) : List Instr := [.ldvc c, .sbsetv key]

/-- Format `F` operands as the assembler writes them: true sizes (30_encoding.md R114). -/
def asmF (b n : BitVec 3) (s w : BitVec 6) : String :=
  toString b.toNat ++ ", " ++ toString (n.toNat + 1) ++ ", " ++ toString s.toNat ++ ", " ++ toString (w.toNat + 1)

/-- Format `B` operands (30_encoding.md R114). -/
def asmB (b : BitVec 3) (s : BitVec 6) : String := toString b.toNat ++ ", " ++ toString s.toNat

/-- Format `C` operand (30_encoding.md R114). -/
def asmC (c : BitVec 16) : String := "#" ++ toString c.toNat

/-- An instruction as the assembler writes it, numbers in decimal (30_encoding.md R114). -/
def asm : Instr → String
  | .reset _ => "RESET"
  | .init => "INIT"
  | .tick => "TICK"
  | .drain => "DRAIN"
  | .lookup => "LOOKUP"
  | .dispatch => "DISPATCH"
  | .rearm => "REARM"
  | .decode => "DECODE"
  | .supervise => "SUPERVISE"
  | .supent => "SUPENT"
  | .tofire => "TOFIRE"
  | .sched => "SCHED"
  | .bucket => "BUCKET"
  | .encode => "ENCODE"
  | .lenchk n => "LENCHK " ++ toString n.toNat
  | .unpku b n s w => "UNPKU " ++ asmF b n s w
  | .unpks b n s w => "UNPKS " ++ asmF b n s w
  | .flgget b s => "FLGGET " ++ asmB b s
  | .scdiv c => "SCDIV " ++ asmC c
  | .scmul c => "SCMUL " ++ asmC c
  | .sbsetv k => "SBSETV " ++ toString k.toNat
  | .sbseta k => "SBSETA " ++ toString k.toNat
  | .stclr k => "STCLR " ++ toString k.toNat
  | .stset k => "STSET " ++ toString k.toNat
  | .ldai i => "LDAI " ++ toString i.toInt
  | .ldvc c => "LDVC " ++ asmC c
  | .sbgetv k => "SBGETV " ++ toString k.toNat
  | .sbgeta k => "SBGETA " ++ toString k.toNat
  | .catsel k t => "CATSEL " ++ toString k.toNat ++ ", " ++ asmC t
  | .uconv k u => "UCONV " ++ toString k.toNat ++ ", " ++ asmC u
  | .encmul c => "ENCMUL " ++ asmC c
  | .encdiv c => "ENCDIV " ++ asmC c
  | .packu b n s w => "PACKU " ++ asmF b n s w
  | .packs b n s w => "PACKS " ++ asmF b n s w
  | .flgput b s => "FLGPUT " ++ asmB b s
  | .roll r b s => "ROLL " ++ toString r.toNat ++ ", " ++ asmB b s
  | .send => "SEND"
  | .end_ => "END"

end Sys2Proof.Machine
end

