-- ==== Sys2Proof/Tests/Slice0.lean ====
section
/-! SUPPORT. Tests: expected values come from spec/95_test_vectors.md (its V and K numbers are named) or from the encodings of
spec/30_encoding.md; after them one witness for each obligation with hypotheses. -/

namespace Sys2Proof.Tests

-- One theorem at a time: theorems elaborated side by side each wait on the kernel in a thread of their own.
set_option Elab.async false

open Sys2Proof Sys2Proof.Machine

/-! ## Small states -/

/-- A registry of three entries, two encoders, two buckets, every table filled; it passes all checks. -/
def demo : Cfg where
  reg := [{ id := 0x171, ide := false, reload := 3, decAddr := 0, toAddr := 8 },
          { id := 0x18FF50E5, ide := true, reload := 0, decAddr := 0, toAddr := 8 },
          { id := 0x101, ide := false, reload := -1, decAddr := 0, toAddr := 8 }]
  enc := [{ id := 0x2A0, ide := false, dlc := 2, base := 10 }, { id := 0x18FF50E6, ide := true, dlc := 1, base := 13 }]
  bkt := [{ per := 1, list := [0] }, { per := 2, list := [1, 0] }]
  uc := [0x0100000000020000#64, 0x020403C000000000#64, 0x0600000000020000#64, 0x0700000000000010#64, 0x0420000000000000#64,
         0x0800000000000012#64, 0x0900000000000020#64, 0x1800000000000000#64, 0x0A00000000000020#64, 0x1800000000000000#64,
         0x0B00000000050000#64, 0x130001C000000000#64, 0x162000C000000000#64, 0x1700000000000000#64]
  cpool := [{ num := 1, den := 1 }, { num := 6213711, den := 10000000 }, { num := 128, den := 1 }, { num := 1, den := 10 },
            { num := 32, den := 1 }]
  catt := [{ cand := [{ key := 0x41, cidx := 0 }, { key := 0x42, cidx := 0 }], dflt := { key := 0x41, cidx := 0 } }]
  uct := [{ c0 := 0, c1 := 1 }]
  ktype := [(0x10, .real), (0x12, .int), (0x20, .int), (0x41, .real), (0x42, .real), (0x100, .int), (0x101, .int)]
  filt := [{ bank := 0, ids := [{ id := 0x171, ide := false }] }]
  nRoll := 1

/-- That machine right after INIT. -/
def run : State := { State.reset.configure demo with events := [] }

/-- The payload of the field vectors (V30a to V30r). -/
def frame8 : Frame :=
  { ident := .std 0x171, rtr := false, len := 8, payload := #v[0x00, 0x08, 0x00, 0xF8, 0x24, 0xFF, 0x80, 0x7F] }

/-- A frame of two bytes for the first entry. -/
def frame2 (b0 b1 : Byte) : Frame := { ident := .std 0x171, rtr := false, len := 2, payload := #v[b0, b1, 0, 0, 0, 0, 0, 0] }

/-- Inside a run, with a frame, an encoder and values on the signal bus (V49). -/
def mic : State :=
  { run with upc := some 7, hk := some .encode, frx := some frame8, idxE := some 0,
             sb := [(0x41, .real (mkRat (-73) 2)), (0x42, .real (mkRat 43 2)), (0x100, .int 1), (0x101, .int 9)] }

/-- `mic` with `A`. -/
def micA (a : Int) : State := { mic with a := some (BitVec.ofInt 64 a) }

/-- `mic` with `V`. -/
def micV (q : Rat) : State := { mic with v := some q }

/-- What a next state holds. -/
def got {α : Type} (o : Out) (g : State → α) : Option α :=
  match o with
  | .next s => some (g s)
  | _ => none

/-- The fault of a stop. -/
def faulted (o : Out) : Option Fault :=
  match o with
  | .fault r => some r
  | _ => none

/-- The refusal of a stop. -/
def refusal (o : Out) : Option Refusal :=
  match o with
  | .refused r => some r
  | _ => none

theorem of_got {o : Out} (h : (got o fun _ => ()).isSome = true) : ∃ t, o = .next t := by
  cases o with
  | next t => exact ⟨t, rfl⟩
  | _ => cases h

/-! ## Ill-formed terms are refused -/

theorem test_wf_lenchk : Instr.wf (.lenchk 8) = true ∧ Instr.wf (.lenchk 9) = false := by decide
theorem test_wf_flgget : Instr.wf (.flgget 7 7) = true ∧ Instr.wf (.flgget 0 8) = false := by decide
theorem test_wf_flgput : Instr.wf (.flgput 7 7) = true ∧ Instr.wf (.flgput 0 8) = false := by decide
theorem test_wf_roll : Instr.wf (.roll 0 7 4) = true ∧ Instr.wf (.roll 0 0 5) = false := by decide

/-! ## Decoding, one word of every row at least -/

theorem test_decode_host : decodeHost 0b100#3 = .ok (.reset 0) ∧ decodeHost 0b111#3 = .ok (.reset 3) ∧
    decodeHost 0b001#3 = .ok .init ∧ decodeHost 0b010#3 = .ok .tick ∧ decodeHost 0b011#3 = .error .reservedCommand ∧
    decodeHost 0b000#3 = .error .noOperation := ⟨rfl, rfl, rfl, rfl, rfl, rfl⟩

theorem test_decode_phase : decodePhase 1#4 = .ok .drain ∧ decodePhase 2#4 = .ok .lookup ∧ decodePhase 3#4 = .ok .dispatch ∧
    decodePhase 4#4 = .ok .rearm ∧ decodePhase 5#4 = .ok .decode ∧ decodePhase 6#4 = .ok .supervise ∧
    decodePhase 7#4 = .ok .supent ∧ decodePhase 8#4 = .ok .tofire ∧ decodePhase 9#4 = .ok .sched ∧
    decodePhase 10#4 = .ok .bucket ∧ decodePhase 11#4 = .ok .encode :=
  ⟨rfl, rfl, rfl, rfl, rfl, rfl, rfl, rfl, rfl, rfl, rfl⟩

theorem test_decode_receive : decodeMicro 0x0100000000080000#64 = .ok (.lenchk 8) ∧
    decodeMicro 0x020403C000000000#64 = .ok (.unpku 0 1 0 15) ∧ decodeMicro 0x034403C000000000#64 = .ok (.unpks 2 1 0 15) ∧
    decodeMicro 0x0460500000000000#64 = .ok (.flgget 3 5) ∧ decodeMicro 0x0500000000010000#64 = .ok (.scdiv 1) ∧
    decodeMicro 0x0600000000020000#64 = .ok (.scmul 2) ∧ decodeMicro 0x0700000000000010#64 = .ok (.sbsetv 0x10) ∧
    decodeMicro 0x0800000000000012#64 = .ok (.sbseta 0x12) ∧ decodeMicro 0x0900000000000200#64 = .ok (.stclr 0x200) := by decide

theorem test_decode_shared : decodeMicro 0x0A00000000000201#64 = .ok (.stset 0x201) ∧
    decodeMicro 0x0B000000FFFF0000#64 = .ok (.ldai 0xFFFF) ∧ decodeMicro 0x0C00000000020000#64 = .ok (.ldvc 2) ∧
    decodeMicro 0x1700000000000000#64 = .ok .send ∧ decodeMicro 0x1800000000000000#64 = .ok .end_ := by decide

theorem test_decode_encode : decodeMicro 0x0D00000000000040#64 = .ok (.sbgetv 0x40) ∧
    decodeMicro 0x0E00000000000050#64 = .ok (.sbgeta 0x50) ∧ decodeMicro 0x0F00000000000101#64 = .ok (.catsel 0x101 0) ∧
    decodeMicro 0x1000000000000100#64 = .ok (.uconv 0x100 0) ∧ decodeMicro 0x1100000000020000#64 = .ok (.encmul 2) ∧
    decodeMicro 0x1200000000040000#64 = .ok (.encdiv 4) ∧ decodeMicro 0x132040C000000000#64 = .ok (.packu 1 0 4 3) ∧
    decodeMicro 0x140402C000000000#64 = .ok (.packs 0 1 0 11) ∧ decodeMicro 0x1540700000000000#64 = .ok (.flgput 2 7) ∧
    decodeMicro 0x166040C000000000#64 = .ok (.roll 0 3 4) := by decide

/-- V75a to V75j. -/
theorem test_decode_illegal : [0x0000000000000000#64, 0x1900000000000000#64, 0xFF00000000000000#64, 0x0100000000090000#64,
    0x0100000000080001#64, 0x0460800000000000#64, 0x16E0000000000000#64, 0x16E050C000000000#64, 0x1800000100000000#64,
    0x020403C000010000#64].all (fun w => match decodeMicro w with | .ok _ => false | .error _ => true) = true := by decide

/-- V76a to V76q. -/
theorem test_images : (RegEntry.image { id := 0x18FF50E5, ide := true, reload := -1, decAddr := 0x100, toAddr := 0x10D }
      = 0x004340403FFFF8FF50E5#78) ∧
    (EncEntry.image { id := 0x18FF50E5, ide := true, dlc := 4, base := 0x20A } = 0x0082938FF50E5#50) ∧
    (PoolEntry.image { num := BitVec.ofInt 32 (-5), den := 2 } = 0x00000002FFFFFFFB#64) ∧
    (Bucket.image { per := 4, list := [1, 0] } = (0x00020004#32, [1, 0])) ∧
    (UnitConv.image { c0 := 0, c1 := 1 } = 0x00010000#32) ∧
    (FilterBank.image { bank := 0, ids := [{ id := 0x171, ide := false }] } = (0x0100#16, [0x171])) ∧
    (CatTable.image { cand := [{ key := 0x41, cidx := 0 }, { key := 0x42, cidx := 0 }], dflt := { key := 0x41, cidx := 0 } }
      = (2#8, [0x41, 0x42, 0x41])) := by decide

/-- A frame of P3. -/
def frame4 : Frame :=
  { ident := .ext 0x18FF50E5, rtr := false, len := 4, payload := #v[0x93, 0x5E, 0xC0, 0x2F, 0, 0, 0, 0] }

theorem test_frame_image : frame4.image = 0x0000000017E02F49A38FF50E5#99 := by decide

/-! ## Micro-instructions of decode and timeout handlers -/

theorem test_lenchk : got (exec (.lenchk 8) mic) (fun t => (t.upc, t.events)) = some (some 8, []) := by decide
/-- V22. -/
theorem test_lenchk_mismatch : got (exec (.lenchk 2) { mic with a := some 1 }) (fun t => (t.upc, t.a, t.events)) =
    some (none, none, [.cond (.lenmis 0x171 false 8 2)]) := by decide
/-- V30k, V30f. -/
theorem test_unpku : got (exec (.unpku 4 1 4 7) mic) (fun t => t.a) = some (some 242) ∧
    got (exec (.unpku 2 1 0 15) mic) (fun t => t.a) = some (some 63488) := by decide
/-- V30q: a field of 64 bits does not fit, and a field outside its container does not exist. -/
theorem test_unpku_outside : faulted (exec (.unpku 0 7 0 63) mic) = some .noSuchField ∧
    faulted (exec (.unpku 0 0 1 7) mic) = some .noSuchField := by decide
/-- V30c, V30l, V30p, V30r. -/
theorem test_unpks : got (exec (.unpks 0 1 0 11) mic) (fun t => t.a) = some (some (BitVec.ofInt 64 (-2048))) ∧
    got (exec (.unpks 4 1 4 7) mic) (fun t => t.a) = some (some (BitVec.ofInt 64 (-14))) ∧
    got (exec (.unpks 0 7 0 63) mic) (fun t => t.a) = some (some 9187623774080468992) ∧
    got (exec (.unpks 4 0 2 0) mic) (fun t => t.a) = some (some (BitVec.ofInt 64 (-1))) := by decide
/-- V30h, V30i, V30j. -/
theorem test_flgget : got (exec (.flgget 4 5) mic) (fun t => t.a) = some (some 1) ∧
    got (exec (.flgget 4 0) mic) (fun t => t.a) = some (some 0) ∧ got (exec (.flgget 7 7) mic) (fun t => t.a) = some (some 0) := by
  decide
/-- V31, V32. -/
theorem test_scdiv : got (exec (.scdiv 4) (micA (-64))) (fun t => (t.v, t.upc)) = some (some (-2), some 8) ∧
    got (exec (.scdiv 2) (micA 1)) (fun t => t.v) = some (some (mkRat 1 128)) := by decide +kernel
/-- V34. -/
theorem test_scmul : got (exec (.scmul 3) (micA (-7))) (fun t => t.v) = some (some (mkRat (-7) 10)) := by decide +kernel
theorem test_sbsetv : got (exec (.sbsetv 0x10) (micV (mkRat 1 2))) (fun t => (Bus.find t.sb 0x10, t.events, t.v)) =
    some (some (.real (mkRat 1 2)), [.set 0x10 (.real (mkRat 1 2))], some (mkRat 1 2)) := by decide +kernel
theorem test_sbseta : got (exec (.sbseta 0x12) (micA (-3))) (fun t => (Bus.find t.sb 0x12, t.events)) =
    some (some (.int (BitVec.ofInt 64 (-3))), [.set 0x12 (.int (BitVec.ofInt 64 (-3)))]) := by decide +kernel
theorem test_stclr : got (exec (.stclr 0x100) mic) (fun t => (Bus.find t.sb 0x100, t.events)) =
    some (some (.int 0), [.set 0x100 (.int 0)]) := by decide +kernel
theorem test_stset : got (exec (.stset 0x20) mic) (fun t => (Bus.find t.sb 0x20, t.events)) =
    some (some (.int 1), [.set 0x20 (.int 1)]) := by decide +kernel
theorem test_ldai : got (exec (.ldai 0xFFFF) mic) (fun t => (t.a, t.upc)) = some (some (BitVec.ofInt 64 (-1)), some 8) := by decide
theorem test_ldvc : got (exec (.ldvc 3) mic) (fun t => t.v) = some (some (mkRat 1 10)) := by decide +kernel
theorem test_end : got (exec .end_ (micA 5)) (fun t => (t.a, t.upc, t.hk, t.frx)) = some (none, none, none, some frame8) := by decide

/-! ## Micro-instructions of encode handlers -/

theorem test_sbgetv : got (exec (.sbgetv 0x101) mic) (fun t => (t.v, t.events)) = some (some 9, [.get 0x101 (.int 9)]) := by
  decide +kernel
theorem test_sbgeta : got (exec (.sbgeta 0x101) mic) (fun t => t.a) = some (some 9) ∧
    refusal (exec (.sbgeta 0x41) mic) = some (.busType 0x41) := by decide +kernel
/-- V49c; V49b, with the order of the reads. -/
theorem test_catsel : got (exec (.catsel 0x101 0) mic) (fun t => t.v) = some (some (mkRat (-73) 2)) ∧
    got (exec (.catsel 0x100 0) mic) (fun t => (t.v, t.events)) =
      some (some (mkRat 43 2), [.get 0x100 (.int 1), .get 0x42 (.real (mkRat 43 2))]) := by decide +kernel
/-- V49f. -/
theorem test_uconv : got (exec (.uconv 0x100 0) (micV (mkRat 201 2))) (fun t => t.v) = some (some (mkRat 1248955911 20000000)) := by
  decide +kernel
/-- V40, V43. -/
theorem test_encmul : got (exec (.encmul 2) (micV (mkRat 73 2))) (fun t => t.a) = some (some 4672) ∧
    got (exec (.encmul 0) (micV (mkRat (-1) 2))) (fun t => t.a) = some (some 0) := by decide +kernel
theorem test_encmul_range : faulted (exec (.encmul 0) (micV (2 ^ 63))) = some (.range 0 7) ∧
    got (exec (.encmul 0) (micV (-(2 ^ 63)))) (fun t => t.a) = some (some 0x8000000000000000) := by decide +kernel
/-- V46. -/
theorem test_encdiv : got (exec (.encdiv 3) (micV 25)) (fun t => t.a) = some (some 250) := by decide +kernel
/-- V48a, V48j. -/
theorem test_packu : got (exec (.packu 0 1 0 15) (micA 0x1240)) (fun t => t.txb) = some [(0, 0x40), (1, 0x12)] ∧
    got (exec (.packu 1 0 4 3) { micA 5 with txb := [(0, 0xAA), (1, 0xAA)] }) (fun t => t.txb) = some [(0, 0xAA), (1, 0x5A)] := by
  decide
/-- V48c, V48d, V48k. -/
theorem test_packu_overflow :
    got (exec (.packu 0 0 0 7) { micA 256 with txb := [(0, 0xAA), (1, 0xAA)] }) (fun t => (t.txb, t.events)) =
      some ([(1, 0xAA)], [.cond (.packovf 0 7)]) ∧
    got (exec (.packu 0 0 0 7) { micA 256 with cfg := some { demo with ovfPolicy := .saturate } }) (fun t => t.txb) =
      some [(0, 0xFF)] ∧
    faulted (exec (.packu 0 0 0 7) { micA 256 with cfg := some { demo with ovfPolicy := .fault } }) = some (.packOverflow 0 7) := by
  decide +kernel
/-- V48i, V48f. -/
theorem test_packs : got (exec (.packs 0 1 0 11) { micA (-2048) with txb := [(0, 0xFF), (1, 0xFF)] }) (fun t => (t.txb, t.events)) =
      some ([(1, 0xF8)], []) ∧
    got (exec (.packs 0 0 0 7) { micA 128 with txb := [(0, 0xAA), (1, 0xAA)] }) (fun t => (t.txb, t.events)) =
      some ([(0, 0x80), (1, 0xAA)], [.cond (.packovf 0 7)]) := by decide
/-- V48g, V48h. -/
theorem test_packs_saturate :
    got (exec (.packs 0 0 0 7) { micA 128 with cfg := some { demo with ovfPolicy := .saturate } }) (fun t => t.txb) =
      some [(0, 0x7F)] ∧
    got (exec (.packs 0 0 0 7) { micA (-129) with cfg := some { demo with ovfPolicy := .saturate } }) (fun t => t.txb) =
      some [(0, 0x80)] := by decide +kernel
/-- V48m, V48n. -/
theorem test_flgput : got (exec (.flgput 2 7) { micA (-3) with txb := [(2, 0x01)] }) (fun t => t.txb) = some [(2, 0x81)] ∧
    got (exec (.flgput 2 0) { micA 0 with txb := [(2, 0x01)] }) (fun t => t.txb) = some [] := by decide
/-- V48o, V48p. -/
theorem test_roll : got (exec (.roll 0 7 0) { mic with rollcnt := some [15] }) (fun t => (t.txb, t.rollcnt)) =
      some ([(7, 0x0F)], some [0]) ∧
    got (exec (.roll 0 3 4) { mic with rollcnt := some [2], txb := [(3, 0x0F)] }) (fun t => (t.txb, t.rollcnt)) =
      some ([(3, 0x2F)], some [3]) := by decide
theorem test_send : got (exec .send { mic with tx := [.bufferFull], txb := [(0, 0x40)] }) (fun t => (t.txstat, t.events, t.upc)) =
    some (some [{ valid := true, code := .bufferFull }, { valid := false, code := .ok }],
      [.send { ident := .std 0x2A0, rtr := false, len := 2, payload := #v[0x40, 0, 0, 0, 0, 0, 0, 0] } .bufferFull,
       .cond (.txdrop 0 .bufferFull)], none) := by decide

/-! ## Sequencer operations -/

/-- V23: two frames of the right length around one of a wrong length. -/
theorem test_drain : got (exec .drain { run with rx := [frame2 1 0, { frame2 9 9 with len := 3 }, frame2 0x34 0x12], cnt := some [-1, 0, -1] })
      (fun t => (t.cnt, t.rx, t.frx, t.events.filter fun e => match e with | .cond _ => true | _ => false)) =
    some (some [3, 0, -1], [], none, [.cond (.lenmis 0x171 false 3 2)]) := by decide +kernel
/-- V2, V3. -/
theorem test_lookup : got (exec .lookup { run with frx := some { frame8 with ident := .ext 0x18FF50E5 } }) (fun t => t.hit) =
      some (some (.found 1)) ∧
    got (exec .lookup { run with frx := some { frame8 with ident := .ext 0x171 } }) (fun t => t.hit) = some (some .miss) := by decide
/-- V24. -/
theorem test_dispatch : got (exec .dispatch { run with frx := some { frame8 with ident := .std 0x300 } }) (fun t => (t.cnt, t.events)) =
    some (some [3, 0, -1], [.cond (.unreg 0x300 false)]) := by decide
theorem test_rearm : got (exec .rearm { run with hit := some (.found 0), cnt := some [-1, 0, -1] }) (fun t => t.cnt) =
    some (some [3, 0, -1]) := by decide
/-- V21, with its scale and flags. -/
theorem test_decode : got (exec .decode { run with hit := some (.found 0), frx := some (frame2 0x34 0x12) }) (fun t => t.events) =
    some [.set 0x10 (.real (4660 * 128)), .set 0x12 (.int 0), .set 0x20 (.int 0)] := by decide +kernel
/-- V10, V12, V13 in one pass. -/
theorem test_supervise : got (exec .supervise { run with cnt := some [3, 0, -1] }) (fun t => (t.cnt, t.events)) =
    some (some [2, -1, -1], [.cond (.timeout 1), .set 0x20 (.int 1)]) := by decide +kernel
theorem test_supent : got (exec .supent { run with idxI := some 0, cnt := some [1, 0, -1] }) (fun t => (t.cnt, t.events)) =
    some (some [0, 0, -1], []) := by decide
theorem test_tofire : got (exec .tofire { run with idxI := some 1 }) (fun t => (t.cnt, t.events)) =
    some (some [3, 0, -1], [.cond (.timeout 1), .set 0x20 (.int 1)]) := by decide +kernel
/-- V65: the counter wraps to 0, where every bucket is due. -/
theorem test_sched :
    got (exec .sched { run with tickcnt := 65535, tx := [.ok, .error, .ok] }) (fun t => (t.tickcnt, sentIdents t.events)) =
      some (0, [(0x2A0, false), (0x18FF50E6, true), (0x2A0, false)]) ∧
    got (exec .sched { run with tickcnt := 65535, tx := [.ok, .error, .ok] }) (fun t => (t.rollcnt, t.txstat)) =
      some (some [2], some [{ valid := true, code := .ok }, { valid := true, code := .error }]) := by decide +kernel
/-- V60: at tick 1 the bucket of period 2 is not due. -/
theorem test_sched_due : got (exec .sched { run with tx := [.ok] }) (fun t => (t.tickcnt, sentIdents t.events)) =
    some (1, [(0x2A0, false)]) := by decide +kernel
theorem test_bucket : got (exec .bucket { run with idxB := some 1, tx := [.ok, .ok] }) (fun t => sentIdents t.events) =
    some [(0x18FF50E6, true), (0x2A0, false)] := by decide +kernel
theorem test_encode : got (exec .encode { run with idxB := some 0, idxJ := some 0, tx := [.ok], txb := [(7, 0xFF)] })
      (fun t => (t.events, t.idxE)) =
    some ([.send { ident := .std 0x2A0, rtr := false, len := 2, payload := #v[5, 0, 0, 0, 0, 0, 0, 0] } .ok], none) := by decide

/-! ## Host operations -/

theorem test_reset : got (exec (.reset 3) mic) (fun t => (t.engstate, t.initstat, t.cfg)) = some (.unconfig, .noinit, none) ∧
    got (exec (.reset 3) mic) (fun t => (t.cnt, t.upc, t.sb)) = some (none, none, mic.sb) := by decide +kernel
theorem test_init : got (exec .init { State.reset with cfgIn := demo }) (fun t => (t.engstate, t.cnt, t.rollcnt, t.events)) =
    some (.run, some [3, 0, -1], some [0], [.cfgFilt 0 [{ id := 0x171, ide := false }]]) := by decide +kernel
/-- V17: re-armed to 0, the entry fires again in the same tick; the first entry counts down. -/
theorem test_tick : got (exec .tick { run with rx := [{ frame2 1 2 with ident := .ext 0x18FF50E5 }], cnt := some [3, -1, -1], tx := [.ok] })
      (fun t => (t.cnt, t.tickcnt, timeoutsIn t.events, t.phase)) =
    some (some [2, -1, -1], 1, [1], .idle) := by decide +kernel
theorem test_not_admitted : refusal (exec .tick State.reset) = some .notAdmitted ∧ refusal (exec .init run) = some .notAdmitted := by
  decide +kernel

/-- The decode and the timeout handler of K1 to K14. -/
def decK : List Word := [0x0100000000020000#64, 0x020403C000000000#64, 0x0800000000000020#64, 0x1800000000000000#64]
/-- See `decK`. -/
def toK : List Word := [0x0A00000000000030#64, 0x1800000000000000#64]
/-- The configuration of K1 to K14 with the given entries and handlers. -/
def cfgK (ids : List (Nat × Bool × Int)) (dec tmo : List Word) : Cfg :=
  { ktype := [(0x20, .int), (0x30, .int), (0x40, .real)], uc := dec ++ tmo,
    reg := (ids.take 2).map fun x => { id := x.1, ide := x.2.1, reload := x.2.2, decAddr := 0, toAddr := dec.length },
    regLe := by simp only [List.length_map, List.length_take]; omega }

/-- K1, K3, K6, K16, K19, K21. -/
theorem test_check_ok : [cfgK [(0x100, false, 5)] decK toK, cfgK [(0x100, false, 5), (0x100, true, 9)] decK toK,
    cfgK [(0x100, false, 32767)] decK toK, {}, demo,
    { enc := [{ id := 1, ide := false, dlc := 0, base := 0 }], bkt := [{ per := 1, list := [0] }], uc := [0x1700000000000000#64] },
    cfgK [(0x100, false, 5)] [0x0100000000080000#64, 0x031C0FC000000000#64, 0x1800000000000000#64] toK].all
      (fun c => checkCfg c == .ok) = true := by decide +kernel
/-- K2, K4. -/
theorem test_check_dup : [cfgK [(0x100, false, 5), (0x100, false, 9)] decK toK,
    cfgK [(0x100, false, -2), (0x100, false, 9)] decK toK].all (fun c => checkCfg c == .dup) = true := by decide +kernel
/-- K5, K7, K8, K9, K10, K11. -/
theorem test_check_bad : [cfgK [(0x100, false, 32768)] decK toK, cfgK [(0x800, false, 5)] decK toK,
    cfgK [(0x100, false, 5)] (decK.drop 1) toK, cfgK [(0x100, false, 5)] (decK.eraseIdx 1) toK,
    cfgK [(0x100, false, 5)] (decK.set 1 0x022403C000000000#64) toK,
    cfgK [(0x100, false, 5)] (decK.set 1 0x0204430000000000#64) toK].all (fun c => checkCfg c == .bad) = true := by decide +kernel
/-- K12, K13, K14, K15, K17, K18, K20. -/
theorem test_check_bad_more : [cfgK [(0x100, false, 5)] (decK.set 2 0x0800000000000040#64) toK,
    cfgK [(0x100, false, 5)] (decK.set 1 0x0A00000000000030#64) toK, cfgK [(0x100, false, 5)] decK (toK.take 1),
    { enc := [{ id := 1, ide := false, dlc := 1, base := 0 }], bkt := [{ per := 1, list := [0] }],
      uc := [0x0B00000000010000#64, 0x130001C000000000#64, 0x1800000000000000#64] },
    { bkt := [{ per := 10, list := [] }, { per := 10, list := [] }] },
    { cfgK [(0x100, false, 5)] (decK.set 2 0x0500000000000000#64) toK with cpool := [{ num := 0, den := 1 }], cpoolLe := by decide },
    cfgK [(0x100, false, 5)] [0x0100000000080000#64, 0x021C0FC000000000#64, 0x1800000000000000#64] toK].all
      (fun c => checkCfg c == .bad) = true := by decide +kernel

/-! ## Witnesses: states and operands that meet the hypotheses of each obligation together -/

theorem demo_checks : checkCfg demo = .ok := by decide +kernel

theorem ready_demo {s : State} (h : s.cfg = some demo) (h1 : s.cnt.map List.length = some 3)
    (h2 : s.rollcnt.map List.length = some 1) (h3 : s.txstat.map List.length = some 2) : Ready demo s :=
  ⟨h, demo_checks, Option.map_eq_some_iff.mp h1, Option.map_eq_some_iff.mp h2, Option.map_eq_some_iff.mp h3⟩

theorem busTyped_nil (c : Cfg) : BusTyped c [] := nofun

/-- `DecodeOfEncode`: operands at the bounds of their fields. -/
theorem witness_DecodeOfEncode : Instr.wf (.lenchk 8) = true ∧ Instr.wf (.flgput 7 7) = true ∧ Instr.wf (.roll 0xFFFF 7 4) = true ∧
    Instr.wf (.unpks 7 7 63 63) = true ∧ Instr.wf (.reset 3) = true := by decide

theorem witness_LegalWordsAreTheTable : decodeMicro 0x0100000000080000#64 = .ok (.lenchk 8) ∧
    decodeMicro 0x167FC0C0FFFF0000#64 ≠ decodeMicro 0x166040C0FFFF0000#64 ∧
    decodeMicro 0x166040C0FFFF0000#64 = .ok (.roll 0xFFFF 3 4) := by decide

theorem witness_FrameWord : frameOfImage 0x0000000017E02F49A38FF50E5#99 = some frame4 := by decide

/-- `TableImages`: each premise at its bound. -/
theorem witness_TableImages :
    (let r : RegEntry := { id := 2 ^ 29 - 1, ide := true, reload := -(2 ^ 15), decAddr := 65535, toAddr := 65535 }
     r.id < 2 ^ 29 ∧ r.decAddr < 2 ^ 16 ∧ r.toAddr < 2 ^ 16 ∧ -(2 ^ 15) ≤ r.reload ∧ r.reload < 2 ^ 15) ∧
    (let e : EncEntry := { id := 2 ^ 29 - 1, ide := true, dlc := 15, base := 65535 }
     e.id < 2 ^ 29 ∧ e.dlc < 16 ∧ e.base < 2 ^ 16) ∧
    (let b : Bucket := { per := 65535, list := [65535, 0] }
     b.per < 2 ^ 16 ∧ ∀ e ∈ b.list, e < 2 ^ 16) ∧
    (let b : FilterBank := { bank := 255, ids := List.replicate 255 { id := 2 ^ 29 - 1, ide := true },
                             idsLe := by rw [List.length_replicate] }
     ∀ x ∈ b.ids, x.id < 2 ^ 29) := by decide +kernel

/-- A host that asks for one operation. -/
def asks (s : State) (w : BitVec 3) : State := { s with inputs := [{ word := w, cfg := demo, rx := [frame2 1 2], tx := [.ok] }] }

theorem witness_StepRunsDecoded :
    ((asks run 2).upc = none ∧ (asks run 2).phase = .idle ∧ (asks run 2).inputs = [{ word := 2, cfg := demo, rx := [frame2 1 2], tx := [.ok] }] ∧
      decode (.host 2) = .ok .tick ∧ Instr.tick.wf = true) ∧
    ((run.enter .sched).upc = none ∧ decode (.phase (run.enter .sched).phase.code) = .ok .sched ∧ Instr.sched.wf = true) ∧
    (mic.upc = some 7 ∧ mic.cfg = some demo ∧ demo.uc[7]? = some 0x1800000000000000#64 ∧
      decode (.micro 0x1800000000000000#64) = .ok .end_ ∧ Instr.end_.wf = true) :=
  ⟨⟨rfl, rfl, rfl, rfl, rfl⟩, ⟨rfl, rfl, rfl⟩, rfl, rfl, rfl, rfl, rfl⟩

/-- `HostCommands`: every clause, in the engine state it speaks of. -/
theorem witness_HostCommands : run.upc = none ∧ run.phase = .idle ∧ run.engstate ≠ .unconfig ∧
    State.reset.upc = none ∧ State.reset.phase = .idle ∧ State.reset.engstate ≠ .run ∧
    (asks run 7).inputs = [{ word := 1#1 ++ 3#2, cfg := demo, rx := [frame2 1 2], tx := [.ok] }] := by
  refine ⟨rfl, rfl, ?_, rfl, rfl, ?_, rfl⟩ <;> decide

theorem witness_MicroStepsAgree : (run.startRun .timeout 8).upc ≠ none ∧ ∃ t, runLoop 15 (run.startRun .timeout 8) = .next t :=
  ⟨nofun, of_got (by decide +kernel)⟩

/-- `InitResult`: each of the three results of the checks. -/
theorem witness_InitResult : State.reset.engstate = .unconfig ∧ checkCfg demo = .ok ∧
    checkCfg (cfgK [(0x100, false, -2), (0x100, false, 9)] decK toK) = .dup ∧
    checkCfg (cfgK [(0x100, false, 32768)] decK toK) = .bad := by decide +kernel

theorem witness_CheckOrder : checkCfg (cfgK [(0x100, false, 32768)] decK toK) ≠ .dup := by decide +kernel

/-- Both sides of the two equivalences of `HandlerShape`: a handler of each kind, and one that fails. -/
theorem witness_HandlerShape : wfHandler demo .decode 0 0 = true ∧ wfHandler demo .timeout 0 8 = true ∧
    wfHandler demo .encode 2 10 = true ∧ wfHandler demo .encode 1 10 = false ∧ wfHandlers demo = true := by decide +kernel

theorem run_running : Running demo run where
  ready := ready_demo rfl rfl rfl rfl
  domain cnt h := by
    obtain rfl : [3, 0, -1] = cnt := Option.some.inj h
    refine ⟨rfl, fun i r x hr hx => ?_⟩
    rcases i with _ | _ | _ | i <;> simp [demo] at hr hx <;> subst hr hx <;> simp
  tickcnt := by decide

theorem run_inv : Inv run where
  rest := ⟨rfl, rfl, rfl, rfl, rfl, rfl, rfl, rfl, rfl, rfl, rfl⟩
  engine := ⟨rfl, demo, run_running⟩
  txb := rfl
  sb := rfl

theorem witness_StepKeepsInv : Inv (asks run 2) ∧ ∃ t, step (asks run 2) = .next t :=
  ⟨⟨⟨rfl, rfl, rfl, rfl, rfl, rfl, rfl, rfl, rfl, rfl, rfl⟩,
     ⟨rfl, demo, ⟨ready_demo rfl rfl rfl rfl, run_running.domain, by decide⟩⟩, rfl, rfl⟩, of_got (by decide +kernel)⟩

theorem witness_CheckedTickOutcome : Ready demo run ∧ run.engstate = .run ∧ BusTyped demo run.sb :=
  ⟨run_running.ready, rfl, busTyped_nil demo⟩

/-- The machine with a frame to drain and answers of `send()`. -/
def busy : State := { run with rx := [frame2 1 2], tx := [.ok, .ok, .ok], idxI := some 1, idxB := some 1, idxJ := some 0 }

theorem busy_ready : Ready demo busy := ready_demo rfl rfl rfl rfl

/-- `OnlyWriters`: TICK for the first clause, ENCODE for the counters and the bus, SUPERVISE for the rest. -/
theorem witness_OnlyWriters : Ready demo busy ∧ (∃ t, exec .tick busy = .next t) ∧ writesConfig .tick = false ∧
    (∃ t, exec .encode busy = .next t) ∧ writesCnt .encode = false ∧ writesBus .encode = false ∧ writesTickcnt .encode = false ∧
    (∃ t, exec .supervise busy = .next t) ∧ writesRollcnt .supervise = false ∧ writesTxstat .supervise = false ∧
    writesTxb .supervise = false :=
  ⟨busy_ready, of_got (by decide +kernel), rfl, of_got (by decide +kernel), rfl, rfl, rfl, of_got (by decide +kernel), rfl, rfl, rfl⟩

/-- `OnlyWriters`, working registers and position: LOOKUP leaves the run and the indices, END all but the run, BUCKET `FRX`, `HIT`, `I`
and `B`, DISPATCH `FRX`, `J` and `E`. -/
theorem witness_OnlyWriters_position : (∃ t, exec .lookup { busy with frx := some frame8 } = .next t) ∧
    mayWriteA .lookup = false ∧ mayWriteV .lookup = false ∧ writesUpc .lookup = false ∧ writesHk .lookup = false ∧
    (∃ t, exec .end_ busy = .next t) ∧ writesPhase .end_ = false ∧ (∃ t, exec .bucket busy = .next t) ∧
    writesFrx .bucket = false ∧ writesHit .bucket = false ∧ writesI .bucket = false ∧ writesB .bucket = false ∧
    (∃ t, exec .dispatch { busy with frx := some frame8 } = .next t) ∧ writesFrx .dispatch = false ∧
    writesJ .dispatch = false ∧ writesE .dispatch = false :=
  ⟨of_got (by decide +kernel), rfl, rfl, rfl, rfl, of_got (by decide +kernel), rfl, of_got (by decide +kernel), rfl, rfl, rfl, rfl,
    of_got (by decide +kernel), rfl, rfl, rfl⟩

/-- `BusFollowsSets`: each of the three clauses. -/
theorem witness_BusFollowsSets : (∃ t, exec .tick busy = .next t) ∧ (∃ t, exec (.reset 0) busy = .next t) ∧
    resets (.reset 0) = true ∧ (∃ t, exec .supervise busy = .next t) ∧ resets .supervise = false :=
  ⟨of_got (by decide +kernel), ⟨_, rfl⟩, rfl, of_got (by decide +kernel), rfl⟩

/-- `TickNeedsTypedBus`: a TICK that completes, and a real value at a key declared `INT`. -/
theorem witness_TickNeedsTypedBus : Ready demo busy ∧ busy.engstate = .run ∧ (∃ t, exec .tick busy = .next t) ∧
    ¬ BusTyped demo [(0x12, .real 0)] ∧ refusal (exec .tick { busy with sb := [(0x12, .real 0)] }) = some (.busType 0x12) :=
  ⟨busy_ready, rfl, of_got (by decide +kernel), fun h => absurd (h 0x12 (.real 0) .int rfl rfl) (by decide), by decide +kernel⟩

theorem witness_ReadNoneFaults : readsA (.packs 0 0 0 7) = true ∧ readsV (.encmul 0) = true ∧ mic.a = none ∧ mic.v = none :=
  ⟨rfl, rfl, rfl, rfl⟩

/-- The machine in DISPATCH with a frame. -/
def inDispatch : State := { run with frx := some (frame2 1 2), hit := some (.found 0) }

theorem witness_LookupLaw : Ready demo inDispatch ∧ inDispatch.frx = some (frame2 1 2) ∧
    demo.reg[0]?.map (fun r => (r.id, r.ide)) = some ((frame2 1 2).ident.id, (frame2 1 2).ident.ide) :=
  ⟨ready_demo rfl rfl rfl rfl, rfl, by decide⟩

/-- `RearmResult`: a counter that has fired, and the last entry, whose reload value is -1. -/
theorem witness_RearmResult :
    (inDispatch.hit = some (.found 0) ∧ inDispatch.cfg = some demo ∧ (∃ r, demo.reg[0]? = some r) ∧
      inDispatch.cnt = some [3, 0, -1] ∧ 0 < [3, (0 : Int), -1].length) ∧
    ((∃ r, demo.reg[2]? = some r ∧ r.reload = -1) ∧ 2 < [3, (0 : Int), -1].length) :=
  ⟨⟨rfl, rfl, ⟨_, rfl⟩, rfl, by decide⟩, ⟨_, rfl, rfl⟩, by decide⟩

theorem witness_ReceiveCompletes : Ready demo inDispatch ∧ inDispatch.frx = some (frame2 1 2) ∧
    inDispatch.hit = some (.found 0) ∧ 0 < demo.reg.length :=
  ⟨ready_demo rfl rfl rfl rfl, rfl, rfl, by decide⟩

theorem witness_UnregisteredFrameDropped :
    let f : Frame := { frame8 with ident := .std 0x300 }
    let s : State := { run with rx := [f, frame2 1 2] }
    s.cfg = some demo ∧ s.rx = f :: [frame2 1 2] ∧ s.frx = none ∧ s.hit = none ∧
      ∀ r ∈ demo.reg, ¬(r.id = f.ident.id ∧ r.ide = f.ident.ide) := by
  refine ⟨rfl, rfl, rfl, rfl, ?_⟩
  decide

theorem witness_WrongLengthOnlyRearms :
    let f : Frame := { frame2 9 9 with len := 3 }
    let s : State := { run with rx := [f] }
    Ready demo s ∧ NoRun s ∧ s.rx = [f] ∧ s.frx = none ∧ s.hit = none ∧ s.cnt = some [3, 0, -1] ∧
      (∃ r, demo.reg[0]? = some r ∧ r.id = f.ident.id ∧ r.ide = f.ident.ide ∧
        demo.uc[r.decAddr]? = some 0x0100000000020000#64) ∧
      decodeMicro 0x0100000000020000#64 = .ok (.lenchk 2) ∧ f.len.val ≠ (2#16).toNat :=
  ⟨ready_demo rfl rfl rfl rfl, ⟨rfl, rfl, rfl, rfl⟩, rfl, rfl, rfl, rfl, ⟨_, rfl, by decide, by decide, rfl⟩, by decide, by decide⟩

/-- `MeaninglessBytesUnread`: two frames of length 2 whose bytes from 2 on differ. -/
theorem witness_MeaninglessBytesUnread :
    let f : Frame := frame2 1 2
    let g : Frame := { f with payload := #v[1, 2, 0xFF, 0, 0, 0, 0, 7] }
    Ready demo run ∧ g ≠ f ∧ g.ident = f.ident ∧ g.rtr = f.rtr ∧ g.len = f.len ∧ ∀ j, j < f.len.val → g.space j = f.space j := by
  refine ⟨run_running.ready, by decide, rfl, rfl, rfl, fun j hj => ?_⟩
  have : j < 2 := hj
  interval_cases j <;> rfl

/-- `SupentCases`: the counter at 1, at 0 and at -1. -/
theorem witness_SupentCases : Ready demo { run with idxI := some 0, cnt := some [1, 0, -1] } ∧
    [1, (0 : Int), -1][0]? = some 1 ∧ [1, (0 : Int), -1][1]? = some 0 ∧ [1, (0 : Int), -1][2]? = some (-1) :=
  ⟨ready_demo rfl rfl rfl rfl, rfl, rfl, rfl⟩

theorem witness_TofireResult : Ready demo busy ∧ busy.idxI = some 1 ∧ 1 < demo.reg.length := ⟨busy_ready, rfl, by decide⟩

theorem witness_SupervisePass : Ready demo run ∧ run.cnt = some [3, 0, -1] := ⟨run_running.ready, rfl⟩

/-- `FiresOnce`: reload values 3 and 0. -/
theorem witness_FiresOnce : Ready demo run ∧ cntAt run 0 = some ((3 : Nat) : Int) ∧ cntAt run 1 = some ((0 : Nat) : Int) :=
  ⟨run_running.ready, rfl, rfl⟩

/-- `TickCounters`: entry 0 has a matching frame, entries 1 and 2 have none. -/
theorem witness_TickCounters : Ready demo busy ∧ (∃ t, exec .tick busy = .next t) ∧
    (∃ r, demo.reg[0]? = some r ∧ cntAt busy 0 = some 3 ∧ ∃ f ∈ busy.rx, r.id = f.ident.id ∧ r.ide = f.ident.ide) ∧
    (∃ r, demo.reg[1]? = some r ∧ cntAt busy 1 = some 0 ∧ ∀ f ∈ busy.rx, ¬(r.id = f.ident.id ∧ r.ide = f.ident.ide)) := by
  refine ⟨busy_ready, of_got (by decide +kernel), ⟨_, rfl, rfl, ?_⟩, _, rfl, rfl, ?_⟩ <;> decide

/-- A machine with one registry entry, after k ticks. -/
def ticked (k : Nat) : State :=
  { State.reset with
    engstate := .run, initstat := .initOk, tickcnt := k % 65536,
    cfg := some { reg := [{ id := 1, ide := false, reload := -1, decAddr := 0, toAddr := 0 }] },
    cnt := some [-1], rollcnt := some [], txstat := some [], events := [.recv none], inputs := [] }

/-- `TicksCounted`: a run that has every number of TICKs. -/
theorem witness_TicksCounted : (ticked 0).cfg = some { reg := [{ id := 1, ide := false, reload := -1, decAddr := 0, toAddr := 0 }] } ∧
    (ticked 0).tickcnt = 0 ∧ ∀ k, exec .tick ((ticked k).take { word := 2 } []) = .next (ticked (k + 1)) := by
  refine ⟨rfl, rfl, fun k => ?_⟩
  have h : (k % 65536 + 1) % 65536 = (k + 1) % 65536 := Nat.mod_add_mod k 65536 1
  show Host.Outcome.next { ticked k with tickcnt := (k % 65536 + 1) % 65536 } = .next (ticked (k + 1))
  rw [h]
  rfl

theorem demo_faultless : demo.faultless = true := by decide +kernel

theorem witness_TransmitCompletes : Ready demo busy ∧ demo.faultless = true ∧ BusTyped demo busy.sb ∧ busy.engstate = .run ∧
    busy.idxB = some 1 ∧ demo.bkt[1]? = some { per := 2, list := [1, 0] } ∧ busy.idxJ = some 0 ∧ [1, 0][0]? = some 1 :=
  ⟨busy_ready, demo_faultless, busTyped_nil demo, rfl, rfl, rfl, rfl, rfl⟩

theorem witness_EncodeSendsOneFrame : Ready demo busy ∧ busy.idxB = some 1 ∧ demo.bkt[1]? = some { per := 2, list := [1, 0] } ∧
    busy.idxJ = some 0 ∧ [1, 0][0]? = some 1 ∧ demo.enc[1]? = some { id := 0x18FF50E6, ide := true, dlc := 1, base := 13 } ∧
    ∃ t, exec .encode busy = .next t :=
  ⟨busy_ready, rfl, rfl, rfl, rfl, rfl, of_got (by decide +kernel)⟩

theorem witness_EncodeOnlySend : Ready demo busy ∧ busy.idxB = some 1 ∧ demo.bkt[1]? = some { per := 2, list := [1, 0] } ∧
    busy.idxJ = some 0 ∧ [1, 0][0]? = some 1 ∧ demo.enc[1]? = some { id := 0x18FF50E6, ide := true, dlc := 1, base := 13 } ∧
    demo.uc[13]? = some 0x1700000000000000#64 ∧ (∃ l, busy.txstat = some l) ∧ busy.tx = .ok :: [.ok, .ok] :=
  ⟨busy_ready, rfl, rfl, rfl, rfl, rfl, rfl, ⟨_, rfl⟩, rfl⟩

theorem witness_SendsInOrder : Ready demo busy ∧ (∃ t, exec .tick busy = .next t) := ⟨busy_ready, of_got (by decide +kernel)⟩

/-- `LenchkResult`: both clauses, at the greatest length. -/
theorem witness_LenchkResult : mic.frx = some frame8 ∧ mic.upc = some 7 ∧ frame8.len.val = (8#16).toNat ∧ frame8.len.val ≠ (7#16).toNat := by
  refine ⟨rfl, rfl, ?_, ?_⟩ <;> decide

/-- `UnpackResult`: the widest fields, 64 bits signed and 63 unsigned, and the last bit of the last byte. -/
theorem witness_UnpackResult : mic.frx = some frame8 ∧ mic.upc = some 7 ∧
    ((0#6).toNat + ((63#6).toNat + 1) ≤ 8 * ((7#3).toNat + 1) ∧ (0#3).toNat + ((7#3).toNat + 1) ≤ 8) ∧
    ((1#6).toNat + ((62#6).toNat + 1) ≤ 8 * ((7#3).toNat + 1) ∧ (62#6).toNat + 1 ≤ 63) ∧ (7#6).toNat ≤ 7 := by
  refine ⟨rfl, rfl, ?_, ?_, ?_⟩ <;> decide

theorem witness_ScaleResult : (micA (-64)).a = some (BitVec.ofInt 64 (-64)) ∧ (micA (-64)).upc = some 7 ∧ (micA (-64)).cfg = some demo ∧
    demo.cpool[(4#16).toNat]? = some { num := 32, den := 1 } ∧ (1 : BitVec 32) ≠ 0 ∧ (32 : BitVec 32) ≠ 0 := by
  refine ⟨rfl, rfl, rfl, rfl, ?_, ?_⟩ <;> decide

/-- `SbsetvResult`: an exact dyadic of the greatest numerator and denominator. -/
theorem witness_SbsetvResult : (micV (((2 ^ 24 - 1 : Int) : Rat) / 2 ^ 24)).v = some (((2 ^ 24 - 1 : Int) : Rat) / 2 ^ 24) ∧
    mic.upc = some 7 ∧ mic.cfg = some demo ∧ demo.storeReal = .exact ∧ (2 ^ 24 - 1 : Int).natAbs < 2 ^ 24 ∧ 24 ≤ 24 := by
  refine ⟨rfl, rfl, rfl, rfl, ?_, ?_⟩ <;> decide

theorem witness_SetIntResult : (micA (-3)).upc = some 7 ∧ (micA (-3)).a = some (BitVec.ofInt 64 (-3)) := ⟨rfl, rfl⟩

theorem witness_LoadConstantResult : mic.upc = some 7 ∧ mic.cfg = some demo ∧
    demo.cpool[(3#16).toNat]? = some { num := 1, den := 10 } ∧ (10 : BitVec 32) ≠ 0 := by
  refine ⟨rfl, rfl, rfl, ?_⟩
  decide

/-- `GetResult`: a listed value of each kind, and a declared key with nothing listed. -/
theorem witness_GetResult : mic.upc = some 7 ∧ mic.cfg = some demo ∧ Bus.find mic.sb 0x42 = some (.real (mkRat 43 2)) ∧
    Bus.find mic.sb 0x101 = some (.int 9) ∧ Bus.find mic.sb 0x10 = none ∧ keyType demo.ktype 0x10 = some .real ∧
    Bus.find mic.sb 0x12 = none ∧ keyType demo.ktype 0x12 = some .int ∧ keyType demo.ktype 0x42 = some .real ∧
    keyType demo.ktype 0x101 = some .int := by
  refine ⟨rfl, rfl, ?_, ?_, ?_, ?_, ?_, ?_, ?_, ?_⟩ <;> decide +kernel

/-- `BusReadsLatestWrite`: a value of the key's type, one of another, and another key. -/
theorem witness_BusReadsLatestWrite : keyType demo.ktype 0x10 = some (SigVal.real 1).type ∧
    keyType demo.ktype 0x10 ≠ some (SigVal.int 1).type ∧ (0x11 : Key) ≠ 0x10 := by decide +kernel

/-- `BusContractRefusals`: a key not declared, one that holds a value of another type, one declared `REAL`, and an index that selects a
candidate; the candidate's key is then mistyped. -/
theorem witness_BusContractRefusals :
    let s : State := { micV 1 with sb := Bus.put mic.sb 0x42 (.int 5) }
    s.upc = some 7 ∧ s.cfg = some demo ∧ s.v = some 1 ∧ keyType demo.ktype 0x7000 = none ∧
    (keyType demo.ktype 0x42 = some .real ∧ Bus.find s.sb 0x42 = some (.int 5) ∧ (SigVal.int 5).type ≠ .real) ∧
    (∃ tab, demo.catt[(0#16).toNat]? = some tab ∧ busValue demo s.sb 0x100 = some (.int 1) ∧
      tab.cand[(1#64).toInt.toNat]? = some { key := 0x42, cidx := 0 }) ∧
    refusal (exec (.catsel 0x100 0) s) = some (.busType 0x42) := by
  refine ⟨rfl, rfl, rfl, ?_, ⟨?_, ?_, ?_⟩, ⟨_, rfl, ?_, ?_⟩, ?_⟩ <;> decide +kernel

/-- `BusContractRefusals`: a candidate whose key is not declared, which INIT refuses. -/
theorem witness_BusContractRefusals_candidate :
    let c : Cfg := { demo with catt := [{ cand := [], dflt := { key := 0x7000, cidx := 0 } }], cattLe := by decide }
    keyType c.ktype 0x7000 = none ∧ refusal (exec (.catsel 0x100 0) { micV 1 with cfg := some c }) = some (.undeclaredKey 0x7000) := by
  decide +kernel

/-- `CatselResult`: the selector below 0, at 0, at N - 1 and at N. -/
theorem witness_CatselResult :
    let tab : CatTable := { cand := [{ key := 0x41, cidx := 0 }, { key := 0x42, cidx := 0 }], dflt := { key := 0x41, cidx := 0 } }
    mic.upc = some 7 ∧ mic.cfg = some demo ∧ demo.catt[(0#16).toNat]? = some tab ∧
    (∀ i : BitVec 64, busValue demo (Bus.put mic.sb 0x101 (.int i)) 0x101 = some (.int i)) ∧
    ((0#64).toInt = 0 ∧ tab.cand[(0#64).toInt.toNat]? = some { key := 0x41, cidx := 0 }) ∧
    ((1#64).toInt = 1 ∧ tab.cand[(1#64).toInt.toNat]? = some { key := 0x42, cidx := 0 }) ∧
    ((2#64).toInt = tab.cand.length ∧ (BitVec.ofInt 64 (-1)).toInt < 0) ∧
    busValue demo mic.sb 0x42 = some (.real (mkRat 43 2)) ∧ demo.cpool[(0#16).toNat]? = some { num := 1, den := 1 } ∧
    (1 : BitVec 32) ≠ 0 := by
  refine ⟨rfl, rfl, rfl, fun i => rfl, ?_, ?_, ?_, rfl, rfl, ?_⟩ <;> decide

/-- `UconvResult`: a flag that is not 0, and one that is. -/
theorem witness_UconvResult : (micV 1).upc = some 7 ∧ (micV 1).cfg = some demo ∧ (micV 1).v = some 1 ∧
    demo.uct[(0#16).toNat]? = some { c0 := 0, c1 := 1 } ∧ busValue demo (micV 1).sb 0x100 = some (.int 1) ∧ (1 : BitVec 64) ≠ 0 ∧
    busValue demo (Bus.put mic.sb 0x100 (.int 0)) 0x100 = some (.int 0) ∧
    demo.cpool[(1#16).toNat]? = some { num := 6213711, den := 10000000 } ∧ demo.cpool[(0#16).toNat]? = some { num := 1, den := 1 } ∧
    (10000000 : BitVec 32) ≠ 0 := by
  refine ⟨rfl, rfl, rfl, rfl, rfl, ?_, rfl, rfl, rfl, ?_⟩ <;> decide

/-- `EncodeScaleResult`: a value in range, and one past each bound. -/
theorem witness_EncodeScaleResult : (micV (2 ^ 63)).v = some (2 ^ 63) ∧ mic.upc = some 7 ∧ mic.cfg = some demo ∧ mic.idxE = some 0 ∧
    demo.cpool[(0#16).toNat]? = some { num := 1, den := 1 } ∧ (1 : BitVec 32) ≠ 0 ∧
    faulted (exec (.encmul 0) (micV (2 ^ 63))) = some (.range 0 7) ∧
    faulted (exec (.encdiv 0) (micV (-(2 ^ 63) - 1))) = some (.range 0 7) ∧
    got (exec (.encdiv 0) (micV (2 ^ 63 - 1))) (fun t => t.a) = some (some 0x7FFFFFFFFFFFFFFF) := by
  refine ⟨rfl, rfl, rfl, rfl, rfl, ?_, ?_, ?_, ?_⟩ <;> decide +kernel

theorem witness_InsertChangesItsField : Memory.wf [(0, 0xAA), (7, 0xAA)] = true ∧
    FieldSpec.fits { o := 0, nb := 8, s := 0, w := 64 } = true ∧ FieldSpec.fits { o := 7, nb := 1, s := 7, w := 1 } = true := by decide

/-- `PackResult`: `A` at and just past both bounds of an 8-bit field, under each policy. -/
theorem witness_PackResult : (micA 255).a = some 255 ∧ (micA 256).a = some 256 ∧ mic.upc = some 7 ∧ mic.idxE = some 0 ∧
    FieldSpec.fits { o := (7#3).toNat, nb := (0#3).toNat + 1, s := (0#6).toNat, w := (7#6).toNat + 1 } = true ∧
    (255#64).toInt = 2 ^ 8 - 1 ∧ (2 ^ 8 - 1 : Int) < (256#64).toInt ∧ (BitVec.ofInt 64 (-128)).toInt = -(2 ^ (8 - 1)) ∧
    (BitVec.ofInt 64 (-129)).toInt < -(2 ^ (8 - 1)) ∧ demo.ovfPolicy = .wrap ∧
    ({ demo with ovfPolicy := .saturate } : Cfg).ovfPolicy = .saturate ∧ ({ demo with ovfPolicy := .fault } : Cfg).ovfPolicy = .fault := by
  refine ⟨rfl, rfl, rfl, rfl, ?_, ?_, ?_, ?_, ?_, rfl, rfl, rfl⟩ <;> decide

theorem witness_FlgputResult : (micA (-3)).a = some (BitVec.ofInt 64 (-3)) ∧ (micA (-3)).upc = some 7 ∧ (7#6).toNat ≤ 7 ∧
    Memory.wf (micA (-3)).txb = true := by
  refine ⟨rfl, rfl, ?_, rfl⟩
  decide

/-- `RollResult`: the counter at 15, which wraps, and the highest shift. -/
theorem witness_RollResult : ({ mic with rollcnt := some [15] } : State).rollcnt = some [15] ∧
    [(15 : BitVec 4)][(0#16).toNat]? = some 15 ∧ mic.upc = some 7 ∧ (4#6).toNat ≤ 4 ∧ Memory.wf mic.txb = true := by
  refine ⟨rfl, rfl, rfl, ?_, rfl⟩
  decide

/-- `SendResult`: with an answer listed, and with none. -/
theorem witness_SendResult : mic.idxE = some 0 ∧ mic.cfg = some demo ∧
    demo.enc[0]? = some { id := 0x2A0, ide := false, dlc := 2, base := 10 } ∧ IdFits 0x2A0 false ∧ 2 ≤ 8 ∧
    mic.txstat.map List.length = some 2 ∧ mic.tx = [] ∧ ({ mic with tx := [.error] } : State).tx = [.error] := by
  refine ⟨rfl, rfl, rfl, ⟨?_, fun _ => ?_⟩, ?_, rfl, rfl, rfl⟩ <;> decide

/-- `RoundTrip`: V51, -36.5 through ENCMUL, PACKS and back. -/
theorem witness_RoundTrip :
    got (andThen (exec (.encmul 2) (micV (mkRat (-73) 2))) fun s => exec (.packs 0 1 0 15) s) (fun t => (t.a, t.txb)) =
      some (some (BitVec.ofInt 64 (-4672)), [(0, 0xC0), (1, 0xED)]) ∧
    got (andThen (exec (.unpks 0 1 0 15) { mic with frx := some { frame8 with payload := #v[0xC0, 0xED, 0, 0, 0, 0, 0, 0] } })
        fun t => exec (.scdiv 2) t) (fun t => t.v) = some (some (mkRat (-73) 2)) ∧
    Memory.wf mic.txb = true ∧ (0 : Rat) < (128 : Rat) / 1 := by
  refine ⟨?_, ?_, rfl, ?_⟩ <;> decide +kernel

end Sys2Proof.Tests
end

section
/-! SUPPORT. 00_scope.md R19: the micro-instructions that read `A` or `V` read it before they do anything else, so one that finds
`NONE` there stops at that read. -/

namespace Sys2Proof.Machine

/-- R19, 10_state.md R33: a reader of `A` reads it first, and what it does afterwards depends on the content it found. -/
theorem exec_of_readsA {i : Instr} (hi : readsA i = true) :
    ∃ k : State → BitVec 64 → Out, ∀ s, exec i s = need .a s.a (k s) := by
  cases i with
  | scdiv | scmul | sbseta | packu | packs | flgput => exact ⟨_, fun _ => rfl⟩
  | _ => exact absurd hi Bool.false_ne_true

/-- R19, 10_state.md R34: a reader of `V` reads it first, and what it does afterwards depends on the content it found. -/
theorem exec_of_readsV {i : Instr} (hi : readsV i = true) :
    ∃ k : State → Rat → Out, ∀ s, exec i s = need .v s.v (k s) := by
  cases i with
  | sbsetv | uconv | encmul | encdiv => exact ⟨_, fun _ => rfl⟩
  | _ => exact absurd hi Bool.false_ne_true

theorem exec_of_readsA_of_none {i : Instr} {s : State} (hi : readsA i = true) (ha : s.a = none) :
    exec i s = .fault (.readNone .a) := by
  obtain ⟨k, hk⟩ := exec_of_readsA hi
  rw [hk, ha, need_of_none]

theorem exec_of_readsV_of_none {i : Instr} {s : State} (hi : readsV i = true) (hv : s.v = none) :
    exec i s = .fault (.readNone .v) := by
  obtain ⟨k, hk⟩ := exec_of_readsV hi
  rw [hk, hv, need_of_none]

/-- Settles O20: the first read of an instruction that reads `A` (`V`) is that register. -/
theorem readNoneFaults : Obligations.ReadNoneFaults :=
  fun _ _ => ⟨exec_of_readsA_of_none, exec_of_readsV_of_none⟩

end Sys2Proof.Machine
end

section
/-! SUPPORT. What each host or sequencer operation can change, and what it keeps of a checked configuration: one frame (`OpFrame`),
proved once for every operation. "Only the writers" (10_state.md R33 to R44, 20_memory.md R65) is its first field; the invariant
between operations (R57) rests on the others. -/

namespace Sys2Proof.Machine

/-! ## The items of the state and their writers -/

/-- The registers and spaces that 10_state.md and 20_memory.md R65 give writers to. -/
inductive Item where
  | cfg | engstate | initstat | tickcnt | cnt | bus | rollcnt | txstat | txb | a | v | upc | hk | phase | frx | hit | i | b | j | e

/-- The instructions that may change an item. -/
def Item.writtenBy : Item → Instr → Bool
  | .cfg | .engstate | .initstat => writesConfig
  | .tickcnt => writesTickcnt
  | .cnt => writesCnt
  | .bus => writesBus
  | .rollcnt => writesRollcnt
  | .txstat => writesTxstat
  | .txb => writesTxb
  | .a => mayWriteA
  | .v => mayWriteV
  | .upc => writesUpc
  | .hk => writesHk
  | .phase => writesPhase
  | .frx => writesFrx
  | .hit => writesHit
  | .i => writesI
  | .b => writesB
  | .j => writesJ
  | .e => writesE

/-- The item is in `t` what it is in `s`. -/
def Item.Same : Item → State → State → Prop
  | .cfg, s, t => t.cfg = s.cfg
  | .engstate, s, t => t.engstate = s.engstate
  | .initstat, s, t => t.initstat = s.initstat
  | .tickcnt, s, t => t.tickcnt = s.tickcnt
  | .cnt, s, t => t.cnt = s.cnt
  | .bus, s, t => t.sb = s.sb
  | .rollcnt, s, t => t.rollcnt = s.rollcnt
  | .txstat, s, t => t.txstat = s.txstat
  | .txb, s, t => t.txb = s.txb
  | .a, s, t => t.a = s.a
  | .v, s, t => t.v = s.v
  | .upc, s, t => t.upc = s.upc
  | .hk, s, t => t.hk = s.hk
  | .phase, s, t => t.phase = s.phase
  | .frx, s, t => t.frx = s.frx
  | .hit, s, t => t.hit = s.hit
  | .i, s, t => t.idxI = s.idxI
  | .b, s, t => t.idxB = s.idxB
  | .j, s, t => t.idxJ = s.idxJ
  | .e, s, t => t.idxE = s.idxE

theorem Item.same_trans (p : Item) {s t u : State} (h : p.Same s t) (g : p.Same t u) : p.Same s u := by
  cases p <;> exact Eq.trans g h

/-- Between `s` and `t` only items that the instruction may change are changed. -/
def WritesOnly (i : Instr) (s t : State) : Prop := ∀ p : Item, p.writtenBy i = false → p.Same s t

theorem WritesOnly.trans {i : Instr} {s t u : State} (h : WritesOnly i s t) (g : WritesOnly i t u) : WritesOnly i s u :=
  fun p hp => p.same_trans (h p hp) (g p hp)

/-- `t`, but every item that the instruction may not change as it is in `s`. -/
def restoreUnwritten (i : Instr) (s t : State) : State :=
  { t with
    cfg := bif writesConfig i then t.cfg else s.cfg
    engstate := bif writesConfig i then t.engstate else s.engstate
    initstat := bif writesConfig i then t.initstat else s.initstat
    tickcnt := bif writesTickcnt i then t.tickcnt else s.tickcnt
    cnt := bif writesCnt i then t.cnt else s.cnt
    sb := bif writesBus i then t.sb else s.sb
    rollcnt := bif writesRollcnt i then t.rollcnt else s.rollcnt
    txstat := bif writesTxstat i then t.txstat else s.txstat
    txb := bif writesTxb i then t.txb else s.txb
    a := bif mayWriteA i then t.a else s.a
    v := bif mayWriteV i then t.v else s.v
    upc := bif writesUpc i then t.upc else s.upc
    hk := bif writesHk i then t.hk else s.hk
    phase := bif writesPhase i then t.phase else s.phase
    frx := bif writesFrx i then t.frx else s.frx
    hit := bif writesHit i then t.hit else s.hit
    idxI := bif writesI i then t.idxI else s.idxI
    idxB := bif writesB i then t.idxB else s.idxB
    idxJ := bif writesJ i then t.idxJ else s.idxJ
    idxE := bif writesE i then t.idxE else s.idxE }

/-- For a named instruction and an explicit update the hypothesis holds by `rfl`. -/
theorem writesOnly_of_restored {i : Instr} {s t : State} (h : t = restoreUnwritten i s t) : WritesOnly i s t := by
  intro p hp
  rw [h]
  cases p <;> simp only [Item.writtenBy] at hp <;> simp only [Item.Same, restoreUnwritten, hp, cond_false]

/-- The operation `i` calls the operation `j` (41_dispatcher.md R150, R151; 40_registry_supervisor.md R133, R134;
44_scheduler.md R240, R242; 45_engine_tick.md R268). -/
inductive Calls : Instr → Instr → Prop where
  | lookup : Calls .dispatch .lookup
  | rearm : Calls .dispatch .rearm
  | decode : Calls .dispatch .decode
  | dispatch : Calls .drain .dispatch
  | tofire : Calls .supent .tofire
  | supent : Calls .supervise .supent
  | encode : Calls .bucket .encode
  | bucket : Calls .sched .bucket
  | drain : Calls .tick .drain
  | supervise : Calls .tick .supervise
  | sched : Calls .tick .sched

/-- What a caller may not change, none of the operations it calls may change. -/
theorem Calls.writtenBy {i j : Instr} (h : Calls i j) (p : Item) (hp : p.writtenBy i = false) : p.writtenBy j = false := by
  revert hp
  cases h <;> cases p <;> decide

/-! ## The frame of an operation -/

/-- What the operations inside a TICK keep beside `Ready`: the counter domain, both stores canonical, and no handler running. -/
structure Steady (c : Cfg) (s : State) : Prop where
  domain : ∀ cnt, s.cnt = some cnt → CntDomain c cnt
  txb : Memory.wf s.txb = true
  sb : Bus.wf s.sb = true
  a : s.a = none
  v : s.v = none
  upc : s.upc = none
  hk : s.hk = none

/-- What an operation of a checked configuration does where it completes: it changes only what it may change, the configuration
and the lengths of the arrays stay, and so does what a TICK in progress keeps. -/
structure OpFrame (c : Cfg) (i : Instr) (s t : State) : Prop where
  only : WritesOnly i s t
  ready : Ready c t
  steady : Steady c s → Steady c t

theorem OpFrame.trans {c : Cfg} {i : Instr} {s t u : State} (h : OpFrame c i s t) (g : OpFrame c i t u) : OpFrame c i s u :=
  ⟨h.only.trans g.only, g.ready, g.steady ∘ h.steady⟩

theorem OpFrame.of_call {c : Cfg} {i j : Instr} {s t : State} (h : OpFrame c j s t) (hc : Calls i j) : OpFrame c i s t :=
  ⟨fun p hp => h.only p (hc.writtenBy p hp), h.ready, h.steady⟩

/-- An update of the position, the working registers of the dispatcher and the scheduler, and the event list. -/
theorem OpFrame.of_update {c : Cfg} {i : Instr} {s t : State} (hr : Ready c s) (ho : t = restoreUnwritten i s t)
    (ht : t = { s with phase := t.phase, frx := t.frx, hit := t.hit, idxI := t.idxI, idxB := t.idxB, idxJ := t.idxJ,
                       idxE := t.idxE, tickcnt := t.tickcnt, rx := t.rx, events := t.events }) : OpFrame c i s t where
  only := writesOnly_of_restored ho
  ready := by rw [ht]; exact hr.of_eq rfl rfl rfl rfl
  steady h := by rw [ht]; exact ⟨h.domain, h.txb, h.sb, h.a, h.v, h.upc, h.hk⟩

/-! ## The counters (10_state.md R37) -/

/-- A counter as the domain of its entry has it. -/
def InDomain (r : RegEntry) (x : Int) : Prop := x = -1 ∨ (0 ≤ x ∧ x ≤ r.reload)

theorem CntDomain.set {c : Cfg} {l : List Int} (h : CntDomain c l) {n : Nat} {x : Int}
    (hx : ∀ r, c.reg[n]? = some r → InDomain r x) : CntDomain c (l.set n x) := by
  refine ⟨List.length_set.trans h.1, fun m r y hr hy => ?_⟩
  rw [List.getElem?_set] at hy
  split at hy
  · rename_i hnm
    subst hnm
    split at hy
    · exact Option.some.inj hy ▸ hx r hr
    · cases hy
  · exact h.2 m r y hr hy

theorem reload_inDomain {c : Cfg} (hc : checkCfg c = .ok) {r : RegEntry} (hr : r ∈ c.reg) : InDomain r r.reload :=
  ((tablesOk hc).reload r hr).imp_right fun h => ⟨h, le_rfl⟩

/-- INIT loads counters of the domain (10_state.md R55). -/
theorem reloads_cntDomain {c : Cfg} (hc : checkCfg c = .ok) : CntDomain c (c.reg.map (·.reload)) := by
  refine ⟨List.length_map _, fun n r x hr hx => ?_⟩
  rw [List.getElem?_map, hr] at hx
  exact Option.some.inj hx ▸ reload_inDomain hc (List.mem_of_getElem? hr)

/-- A counter written with a value its entry's domain has, by an operation that may write counters. -/
theorem writeCnt_opFrame {c : Cfg} {i : Instr} {s t : State} {n : Nat} {x : Int} (hr : Ready c s)
    (ho : ∀ l, { s with cnt := l } = restoreUnwritten i s { s with cnt := l })
    (hx : (∀ l, s.cnt = some l → CntDomain c l) → ∀ r, c.reg[n]? = some r → InDomain r x)
    (h : writeCnt s n x = .next t) : OpFrame c i s t := by
  obtain ⟨l, hl, _, rfl⟩ := writeCnt_next.mp h
  refine ⟨writesOnly_of_restored (ho _), hr.of_eq rfl (by simp [hl]) rfl rfl, fun g => ?_⟩
  refine ⟨?_, g.txb, g.sb, g.a, g.v, g.upc, g.hk⟩
  rintro _ ⟨⟩
  exact (g.domain l hl).set (hx g.domain)

/-! ## The runs of handlers -/

/-- The operation that runs the handlers of a kind (42_codec_decode.md R170). -/
def HandlerKind.runner : HandlerKind → Instr
  | .decode => .decode
  | .timeout => .tofire
  | .encode => .encode

theorem runHandler_opFrame {c : Cfg} {k : HandlerKind} {dlc base : Nat} {s t : State} (hr : Ready c s)
    (hw : wfHandler c k dlc base = true) (h : runHandler k base s = .next t) : OpFrame c k.runner s t := by
  obtain ⟨is, hk⟩ := checked_of_wfHandler hw
  obtain ⟨hf, hupc, ha, hv, hhk⟩ := runHandler_frame h
  refine ⟨?_, hr.of_eq hf.cfg (congrArg _ hf.cnt) hf.rollcnt hf.txstat,
    fun g => ⟨hf.cnt ▸ g.domain, hf.txb g.txb, hf.sb g.sb, ha, hv, hupc, hhk⟩⟩
  cases k with
  | decode =>
    rw [runHandler_receive hk nofun hr.held h]
    exact writesOnly_of_restored rfl
  | timeout =>
    rw [runHandler_receive hk nofun hr.held h]
    exact writesOnly_of_restored rfl
  | encode =>
    rw [runHandler_encode hk hr.held h]
    exact writesOnly_of_restored rfl

/-! ## The receive dispatcher -/

theorem execLookup_opFrame {c : Cfg} {s t : State} (hr : Ready c s) (h : execLookup s = .next t) :
    OpFrame c .lookup s t := by
  simp only [execLookup, need_next, Host.Outcome.next.injEq] at h
  obtain ⟨cfg, _, f, _, rfl⟩ := h
  exact .of_update hr rfl rfl

theorem execRearm_opFrame {c : Cfg} {s t : State} (hr : Ready c s) (h : execRearm s = .next t) :
    OpFrame c .rearm s t := by
  simp only [execRearm, needFound_next, need_next, index_next, hr.held, Option.some.injEq] at h
  obtain ⟨n, _, _, rfl, r, hreg, h⟩ := h
  have henter : OpFrame c .rearm s (s.enter .rearm) := .of_update hr rfl rfl
  refine henter.trans (writeCnt_opFrame henter.ready (fun _ => rfl) (fun _ r' hr' => ?_) h)
  rw [hreg] at hr'
  exact Option.some.inj hr' ▸ reload_inDomain hr.checked (List.mem_of_getElem? hreg)

theorem execDecode_opFrame {c : Cfg} {s t : State} (hr : Ready c s) (h : execDecode s = .next t) :
    OpFrame c .decode s t := by
  simp only [execDecode, needFound_next, need_next, index_next, hr.held, Option.some.injEq] at h
  obtain ⟨n, _, _, rfl, r, hreg, h⟩ := h
  have henter : OpFrame c .decode s (s.enter .decode) := .of_update hr rfl rfl
  exact henter.trans
    (runHandler_opFrame henter.ready ((tablesOk hr.checked).decode r (List.mem_of_getElem? hreg)) h)

/-- What DISPATCH runs: LOOKUP, then REARM and DECODE on a hit, or the record of a miss (41_dispatcher.md R151). -/
theorem execDispatch_next {s t : State} (h : execDispatch s = .next t) :
    ∃ s₁, execLookup (s.enter .dispatch) = .next s₁ ∧
      ((∃ s₂ s₃, execRearm (s₁.enter .dispatch) = .next s₂ ∧ execDecode (s₂.enter .dispatch) = .next s₃ ∧
          t = s₃.enter .dispatch) ∨
        ∃ e, t = (s₁.enter .dispatch).log e) := by
  simp only [execDispatch, andThen_next, need_next] at h
  obtain ⟨s₁, hl, hit, _, h⟩ := h
  refine ⟨s₁, hl, ?_⟩
  cases hit with
  | found n =>
    simp only [andThen_next, Host.Outcome.next.injEq] at h
    obtain ⟨s₂, hre, s₃, hd, rfl⟩ := h
    exact .inl ⟨s₂, s₃, hre, hd, rfl⟩
  | miss =>
    simp only [dropUnregistered, need_next, Host.Outcome.next.injEq] at h
    obtain ⟨f, _, rfl⟩ := h
    exact .inr ⟨_, rfl⟩

theorem execDispatch_opFrame {c : Cfg} {s t : State} (hr : Ready c s) (h : execDispatch s = .next t) :
    OpFrame c .dispatch s t := by
  have enter {u : State} (hu : Ready c u) : OpFrame c .dispatch u (u.enter .dispatch) := .of_update hu rfl rfl
  obtain ⟨s₁, hl, h⟩ := execDispatch_next h
  have lookup := (enter hr).trans ((execLookup_opFrame (enter hr).ready hl).of_call .lookup)
  have base := lookup.trans (enter lookup.ready)
  rcases h with ⟨s₂, s₃, hre, hd, rfl⟩ | ⟨e, rfl⟩
  · have rearm := base.trans ((execRearm_opFrame base.ready hre).of_call .rearm)
    have mid := rearm.trans (enter rearm.ready)
    have decode := mid.trans ((execDecode_opFrame mid.ready hd).of_call .decode)
    exact decode.trans (enter decode.ready)
  · exact base.trans (.of_update base.ready rfl rfl)

theorem drainLoop_opFrame {c : Cfg} : ∀ (fs : List Frame) {s t : State}, Ready c s → drainLoop fs s = .next t →
    OpFrame c .drain s t
  | [], s, t, hr, h => by
    obtain rfl := Host.Outcome.next.inj h
    exact .of_update hr rfl rfl
  | f :: fs, s, t, hr, h => by
    obtain ⟨s₁, hd, h⟩ := andThen_next.mp h
    have receive : OpFrame c .drain s (s.receive f fs) := .of_update hr rfl rfl
    have dispatch := receive.trans ((execDispatch_opFrame receive.ready hd).of_call .dispatch)
    have drop := dispatch.trans (.of_update (t := s₁.dropFrame) dispatch.ready rfl rfl)
    exact drop.trans (drainLoop_opFrame fs drop.ready h)

theorem execDrain_opFrame {c : Cfg} {s t : State} (hr : Ready c s) (h : execDrain s = .next t) : OpFrame c .drain s t :=
  have henter : OpFrame c .drain s (s.enter .drain) := .of_update hr rfl rfl
  henter.trans (drainLoop_opFrame _ henter.ready h)

/-! ## The timeout supervisor -/

theorem execTofire_opFrame {c : Cfg} {s t : State} (hr : Ready c s) (h : execTofire s = .next t) :
    OpFrame c .tofire s t := by
  simp only [execTofire, need_next, index_next, hr.held, Option.some.injEq] at h
  obtain ⟨n, _, _, rfl, r, hreg, h⟩ := h
  have hraise : OpFrame c .tofire s ((s.enter .tofire).raise (.timeout n)) := .of_update hr rfl rfl
  exact hraise.trans
    (runHandler_opFrame hraise.ready ((tablesOk hr.checked).timeout r (List.mem_of_getElem? hreg)) h)

theorem execSupent_opFrame {c : Cfg} {s t : State} (hr : Ready c s) (h : execSupent s = .next t) :
    OpFrame c .supent s t := by
  have enter {u : State} (hu : Ready c u) : OpFrame c .supent u (u.enter .supent) := .of_update hu rfl rfl
  simp only [execSupent, need_next, index_next] at h
  obtain ⟨n, _, l, hl, x, hx, h⟩ := h
  split at h
  · rename_i hpos
    refine (enter hr).trans (writeCnt_opFrame (enter hr).ready (fun _ => rfl) (fun hd r hreg => ?_) h)
    rcases (hd l hl).2 n r x hreg hx with rfl | ⟨_, hle⟩
    · exact absurd hpos (by decide)
    · exact .inr ⟨by omega, by omega⟩
  · split at h
    · obtain ⟨s₁, hf, h⟩ := andThen_next.mp h
      have fire := (enter hr).trans ((execTofire_opFrame (enter hr).ready hf).of_call .tofire)
      have back := fire.trans (enter fire.ready)
      exact back.trans (writeCnt_opFrame back.ready (fun _ => rfl) (fun _ _ _ => .inl rfl) h)
    · obtain rfl := Host.Outcome.next.inj h
      exact enter hr

theorem superviseLoop_opFrame {c : Cfg} : ∀ (n m : Nat) {s t : State}, Ready c s → superviseLoop n m s = .next t →
    OpFrame c .supervise s t
  | 0, _, s, t, hr, h => by
    obtain rfl := Host.Outcome.next.inj h
    exact .of_update hr rfl rfl
  | n + 1, m, s, t, hr, h => by
    obtain ⟨s₁, he, h⟩ := andThen_next.mp h
    have select : OpFrame c .supervise s { s with idxI := some m } := .of_update hr rfl rfl
    have entry := select.trans ((execSupent_opFrame select.ready he).of_call .supent)
    have back := entry.trans (.of_update (t := s₁.enter .supervise) entry.ready rfl rfl)
    exact back.trans (superviseLoop_opFrame n (m + 1) back.ready h)

theorem execSupervise_opFrame {c : Cfg} {s t : State} (hr : Ready c s) (h : execSupervise s = .next t) :
    OpFrame c .supervise s t := by
  obtain ⟨cfg, _, h⟩ := need_next.mp h
  have henter : OpFrame c .supervise s (s.enter .supervise) := .of_update hr rfl rfl
  exact henter.trans (superviseLoop_opFrame _ _ henter.ready h)

/-! ## The scheduler and ENCODE -/

/-- What ENCODE runs: the handler of the listed encoder, on a cleared buffer (43_codec_encode.md R200). -/
theorem execEncode_next {c : Cfg} {s t : State} (hc : s.cfg = some c) (h : execEncode s = .next t) :
    ∃ e en s₁, c.enc[e]? = some en ∧
      runHandler .encode en.base { s with idxE := some e, txb := [], phase := .encode } = .next s₁ ∧
      t = { s₁ with idxE := none } := by
  simp only [execEncode, listedEncoder, need_next, index_next, andThen_next, Host.Outcome.next.injEq] at h
  obtain ⟨cfg, hcfg, b, _, bk, _, j, _, e, _, en, hen, s₁, hrun, rfl⟩ := h
  obtain rfl := Option.some.inj (hc.symm.trans hcfg)
  exact ⟨e, en, s₁, hen, hrun, rfl⟩

theorem execEncode_opFrame {c : Cfg} {s t : State} (hr : Ready c s) (h : execEncode s = .next t) :
    OpFrame c .encode s t := by
  obtain ⟨e, en, s₁, hen, hrun, rfl⟩ := execEncode_next hr.held h
  have start : OpFrame c .encode s { s with idxE := some e, txb := [], phase := .encode } :=
    ⟨writesOnly_of_restored rfl, hr.of_eq rfl rfl rfl rfl, fun g => ⟨g.domain, rfl, g.sb, g.a, g.v, g.upc, g.hk⟩⟩
  have run := start.trans
    (runHandler_opFrame start.ready ((tablesOk hr.checked).encode en (List.mem_of_getElem? hen)) hrun)
  exact run.trans (.of_update run.ready rfl rfl)

theorem bucketLoop_opFrame {c : Cfg} : ∀ (n j : Nat) {s t : State}, Ready c s → bucketLoop n j s = .next t →
    OpFrame c .bucket s t
  | 0, _, s, t, hr, h => by
    obtain rfl := Host.Outcome.next.inj h
    exact .of_update hr rfl rfl
  | n + 1, j, s, t, hr, h => by
    obtain ⟨s₁, he, h⟩ := andThen_next.mp h
    have select : OpFrame c .bucket s { s with idxJ := some j } := .of_update hr rfl rfl
    have encode := select.trans ((execEncode_opFrame select.ready he).of_call .encode)
    have back := encode.trans (.of_update (t := s₁.enter .bucket) encode.ready rfl rfl)
    exact back.trans (bucketLoop_opFrame n (j + 1) back.ready h)

theorem execBucket_opFrame {c : Cfg} {s t : State} (hr : Ready c s) (h : execBucket s = .next t) :
    OpFrame c .bucket s t := by
  simp only [execBucket, need_next, index_next] at h
  obtain ⟨cfg, _, b, _, bk, _, h⟩ := h
  have henter : OpFrame c .bucket s (s.enter .bucket) := .of_update hr rfl rfl
  exact henter.trans (bucketLoop_opFrame _ _ henter.ready h)

/-- The two turns of the loop of SCHED: a due bucket runs, another is passed over (44_scheduler.md R240). -/
theorem schedLoop_cons_next {bk : Bucket} {bks : List Bucket} {b : Nat} {s t : State}
    (h : schedLoop (bk :: bks) b s = .next t) :
    (∃ s₁, execBucket { s with idxB := some b } = .next s₁ ∧ schedLoop bks (b + 1) (s₁.enter .sched) = .next t) ∨
      schedLoop bks (b + 1) { s with idxB := some b } = .next t := by
  rw [schedLoop] at h
  split at h
  · exact .inl (andThen_next.mp h)
  · exact .inr h

theorem schedLoop_opFrame {c : Cfg} : ∀ (bks : List Bucket) (b : Nat) {s t : State}, Ready c s →
    schedLoop bks b s = .next t → OpFrame c .sched s t
  | [], _, s, t, hr, h => by
    obtain rfl := Host.Outcome.next.inj h
    exact .of_update hr rfl rfl
  | bk :: bks, b, s, t, hr, h => by
    have select : OpFrame c .sched s { s with idxB := some b } := .of_update hr rfl rfl
    rcases schedLoop_cons_next h with ⟨s₁, hb, h⟩ | h
    · have bucket := select.trans ((execBucket_opFrame select.ready hb).of_call .bucket)
      have back := bucket.trans (.of_update (t := s₁.enter .sched) bucket.ready rfl rfl)
      exact back.trans (schedLoop_opFrame bks (b + 1) back.ready h)
    · exact select.trans (schedLoop_opFrame bks (b + 1) select.ready h)

theorem execSched_opFrame {c : Cfg} {s t : State} (hr : Ready c s) (h : execSched s = .next t) : OpFrame c .sched s t := by
  obtain ⟨cfg, _, h⟩ := need_next.mp h
  have count : OpFrame c .sched s { s with phase := .sched, tickcnt := (s.tickcnt + 1) % cfg.tickMod } :=
    .of_update hr rfl rfl
  exact count.trans (schedLoop_opFrame _ _ count.ready h)

/-! ## TICK -/

/-- What TICK runs, one after another (45_engine_tick.md R268). -/
theorem execTick_next {s t : State} (h : execTick s = .next t) :
    s.engstate = .run ∧ ∃ s₁ s₂ s₃, execDrain s.newOp = .next s₁ ∧ execSupervise s₁ = .next s₂ ∧ execSched s₂ = .next s₃ ∧
      t = s₃.enter .idle := by
  unfold execTick at h
  split at h
  · rename_i hrun
    obtain ⟨c, _, _, h⟩ := onTypedBus_next.mp h
    simp only [andThen_next, Host.Outcome.next.injEq] at h
    obtain ⟨s₁, hd, s₂, hs, s₃, hc, rfl⟩ := h
    exact ⟨hrun, s₁, s₂, s₃, hd, hs, hc, rfl⟩
  · cases h

theorem execTick_opFrame {c : Cfg} {s t : State} (hr : Ready c s) (h : execTick s = .next t) : OpFrame c .tick s t := by
  obtain ⟨_, s₁, s₂, s₃, hd, hs, hc, rfl⟩ := execTick_next h
  have start : OpFrame c .tick s s.newOp := .of_update hr rfl rfl
  have drain := start.trans ((execDrain_opFrame start.ready hd).of_call .drain)
  have supervise := drain.trans ((execSupervise_opFrame drain.ready hs).of_call .supervise)
  have sched := supervise.trans ((execSched_opFrame supervise.ready hc).of_call .sched)
  exact sched.trans (.of_update sched.ready rfl rfl)

/-! ## INIT -/

/-- What INIT leaves, by the result of the checks (45_engine_tick.md R262). -/
def State.initialised (s : State) : State :=
  match checkCfg s.cfgIn with
  | .ok => s.newOp.configure s.cfgIn
  | .dup => s.newOp.configError .cfgdup .cfgdup
  | .bad => s.newOp.configError .cfgbad .cfgbad

theorem execInit_of_unconfig {s : State} (h : s.engstate = .unconfig) : execInit s = .next s.initialised := by
  simp only [execInit, h, if_true, State.initialised]
  cases checkCfg s.cfgIn <;> rfl

theorem execInit_next {s t : State} (h : execInit s = .next t) : t = s.initialised := by
  by_cases hu : s.engstate = .unconfig
  · exact (Host.Outcome.next.inj ((execInit_of_unconfig hu).symm.trans h)).symm
  · simp [execInit, hu] at h

theorem initialised_of_ok {s : State} (h : checkCfg s.cfgIn = .ok) : s.initialised = s.newOp.configure s.cfgIn := by
  simp only [State.initialised, h]

theorem initialised_of_dup {s : State} (h : checkCfg s.cfgIn = .dup) :
    s.initialised = s.newOp.configError .cfgdup .cfgdup := by
  simp only [State.initialised, h]

theorem initialised_of_bad {s : State} (h : checkCfg s.cfgIn = .bad) :
    s.initialised = s.newOp.configError .cfgbad .cfgbad := by
  simp only [State.initialised, h]

/-- Whatever INIT answers, it is a state it configured or a state of error. -/
theorem initialised_cases (s : State) :
    (checkCfg s.cfgIn = .ok ∧ s.initialised = s.newOp.configure s.cfgIn) ∨
      ∃ st cond, (st = .cfgdup ∨ st = .cfgbad) ∧ s.initialised = s.newOp.configError st cond := by
  cases h : checkCfg s.cfgIn with
  | ok => exact .inl ⟨rfl, initialised_of_ok h⟩
  | dup => exact .inr ⟨_, _, .inl rfl, initialised_of_dup h⟩
  | bad => exact .inr ⟨_, _, .inr rfl, initialised_of_bad h⟩

theorem initialised_writesOnly (s : State) : WritesOnly .init s s.initialised := by
  rcases initialised_cases s with ⟨_, h⟩ | ⟨st, cond, _, h⟩ <;> rw [h] <;> exact writesOnly_of_restored rfl

end Sys2Proof.Machine
end

section
/-! SUPPORT. A micro-instruction that cannot end a run goes on at the next word, and the run's kind stays; with that, and the frame
of each operation, only the writers of an item change it. -/

namespace Sys2Proof.Machine

/-! ## Going on (42_codec_decode.md R172) -/

/-- Where it completes, the run goes on, its kind as in `s`. -/
def GoesOn (s : State) (o : Out) : Prop := ∀ t, o = .next t → t.upc ≠ none ∧ t.hk = s.hk

section
variable {s s' : State}

theorem goesOn_advance (h : s'.hk = s.hk) : GoesOn s (advance s') := by
  intro t ht
  obtain ⟨u, _, rfl⟩ := advance_next.mp ht
  exact ⟨Option.some_ne_none _, h⟩

theorem goesOn_fault (r : Fault) : GoesOn s (.fault r) := by
  intro t ht
  cases ht

theorem goesOn_need {α : Type} {r : NoneReg} {x : Option α} {k : α → Out} (h : ∀ y, GoesOn s (k y)) :
    GoesOn s (need r x k) := by
  intro t ht
  obtain ⟨y, _, ht⟩ := need_next.mp ht
  exact h y t ht

theorem goesOn_index {α : Type} {sp : Space} {l : List α} {n : Nat} {k : α → Out} (h : ∀ y, GoesOn s (k y)) :
    GoesOn s (index sp l n k) := by
  intro t ht
  obtain ⟨y, _, ht⟩ := index_next.mp ht
  exact h y t ht

theorem goesOn_rxField {p : FieldSpec} {k : Nat → Out} (h : ∀ x, GoesOn s (k x)) : GoesOn s (rxField s' p k) := by
  intro t ht
  obtain ⟨f, _, _, ht⟩ := rxField_next.mp ht
  exact h _ t ht

theorem goesOn_txInsert {p : FieldSpec} {x : Int} {k : State → Out} (hk : s'.hk = s.hk)
    (h : ∀ u : State, u.hk = s.hk → GoesOn s (k u)) : GoesOn s (txInsert s' p x k) :=
  fun t ht => h (s'.setTxb (insertField s'.txb p x)) hk t (txInsert_next.mp ht).2

theorem goesOn_constant {n : BitVec 16} {k : Rat → Out} (h : ∀ q, GoesOn s (k q)) : GoesOn s (constant s' n k) := by
  intro t ht
  obtain ⟨cfg, p, _, _, _, ht⟩ := constant_next.mp ht
  exact h _ t ht

theorem goesOn_divisor {n : BitVec 16} {k : Rat → Out} (h : ∀ q, GoesOn s (k q)) : GoesOn s (divisor s' n k) := by
  intro t ht
  obtain ⟨cfg, p, _, _, _, _, ht⟩ := divisor_next.mp ht
  exact h _ t ht

theorem goesOn_busGet {key : Key} {f : SigVal → State → Out} (hk : s'.hk = s.hk)
    (h : ∀ (x : SigVal) (u : State), u.hk = s.hk → GoesOn s (f x u)) : GoesOn s (busGet s' key f) := by
  intro t ht
  obtain ⟨c, x, _, _, ht⟩ := busGet_next.mp ht
  exact h x (s'.log _) hk t ht

theorem goesOn_busGetInt {key : Key} {f : Int → State → Out} (hk : s'.hk = s.hk)
    (h : ∀ (x : Int) (u : State), u.hk = s.hk → GoesOn s (f x u)) : GoesOn s (busGetInt s' key f) := by
  intro t ht
  obtain ⟨c, x, _, _, ht⟩ := busGetInt_next.mp ht
  exact h _ (s'.log _) hk t ht

theorem goesOn_quantise (x : Rat) : GoesOn s (quantise s x) := by
  intro t ht
  obtain ⟨cfg, u, _, _, _, rfl⟩ := quantise_next.mp ht
  exact ⟨Option.some_ne_none _, rfl⟩

/-- PACKU and PACKS after the read of `A`. -/
theorem goesOn_pack (r : PackRange) (p : FieldSpec) (x : Int) :
    GoesOn s (fitPack s r x fun y u => txInsert u p y advance) := by
  intro t ht
  obtain ⟨y, u, ht, hu⟩ := fitPack_next ht
  have hk : u.hk = s.hk := by
    rcases hu with rfl | ⟨e, n, rfl⟩ <;> rfl
  exact goesOn_txInsert hk (fun _ => goesOn_advance) t ht

end

/-- Every micro-instruction but LENCHK, SEND and END goes on. -/
theorem execMicro_goesOn {i : Instr} (hi : canEndRun i = false) (s : State) : GoesOn s (execMicro i s) := by
  cases i with
  | lenchk | send | end_ => cases hi
  | unpku =>
    unfold execMicro execUnpku
    refine goesOn_rxField fun x => ?_
    split
    · exact goesOn_advance rfl
    · exact goesOn_fault _
  | unpks =>
    unfold execMicro execUnpks
    exact goesOn_rxField fun _ => goesOn_advance rfl
  | flgget =>
    unfold execMicro execFlgget
    exact goesOn_rxField fun _ => goesOn_advance rfl
  | scdiv => exact goesOn_need fun _ => goesOn_divisor fun _ => goesOn_advance rfl
  | scmul => exact goesOn_need fun _ => goesOn_constant fun _ => goesOn_advance rfl
  | sbsetv => exact goesOn_need fun _ => goesOn_need fun _ => goesOn_advance rfl
  | sbseta => exact goesOn_need fun _ => goesOn_advance rfl
  | stclr | stset | ldai => exact goesOn_advance rfl
  | ldvc =>
    unfold execMicro execLdvc
    exact goesOn_constant fun _ => goesOn_advance rfl
  | sbgetv =>
    unfold execMicro execSbgetv
    exact goesOn_busGet rfl fun _ _ hk => goesOn_advance hk
  | sbgeta =>
    unfold execMicro execSbgeta
    exact goesOn_busGetInt rfl fun _ _ hk => goesOn_advance hk
  | catsel =>
    unfold execMicro execCatsel
    exact goesOn_busGetInt rfl fun _ _ h₁ => goesOn_need fun _ => goesOn_index fun _ =>
      goesOn_busGet h₁ fun _ _ h₂ => goesOn_constant fun _ => goesOn_advance h₂
  | uconv =>
    exact goesOn_need fun _ => goesOn_busGetInt rfl fun _ _ hk => goesOn_need fun _ => goesOn_index fun _ =>
      goesOn_constant fun _ => goesOn_advance hk
  | encmul => exact goesOn_need fun _ => goesOn_constant fun _ => goesOn_quantise _
  | encdiv => exact goesOn_need fun _ => goesOn_divisor fun _ => goesOn_quantise _
  | packu | packs => exact goesOn_need fun _ => goesOn_pack _ _ _
  | flgput => exact goesOn_need fun _ => goesOn_txInsert rfl fun _ => goesOn_advance
  | roll => exact goesOn_need fun _ => goesOn_index fun _ => goesOn_txInsert rfl fun _ hk => goesOn_advance hk
  | _ =>
    intro t ht
    cases ht

/-! ## Only the writers -/

theorem canEndRun_of_writesHk {i : Instr} (h : writesHk i = false) : canEndRun i = false :=
  (Bool.or_eq_false_iff.mp h).2

/-- The micro-sequencer refuses the operations that do not write `UPC`. -/
theorem execMicro_writesUpc {i : Instr} {s t : State} (h : execMicro i s = .next t) : writesUpc i = true := by
  cases i with
  | lookup | rearm => cases h
  | _ => rfl

/-- A micro-instruction changes `A`, `V` and `HK` only where it writes them or can end the run, and never what a run leaves. -/
theorem execMicro_writesOnly {i : Instr} {s t : State} (h : execMicro i s = .next t) : WritesOnly i s t := by
  have hm := execMicro_microNext h
  have hf := hm.frame
  have on (hw : writesHk i = false) := execMicro_goesOn (canEndRun_of_writesHk hw) s t h
  intro p hp
  cases p with
  | cfg => exact hf.cfg
  | engstate => exact hf.engstate
  | initstat => exact hf.initstat
  | tickcnt => exact hf.tickcnt
  | cnt => exact hf.cnt
  | bus => exact hm.sb hp
  | rollcnt => exact hm.rollcnt hp
  | txstat => exact hm.txstat hp
  | txb => exact hm.txb hp
  | a =>
    obtain ⟨hw, hk⟩ := Bool.or_eq_false_iff.mp hp
    exact (hm.a (on hk).1).1 hw
  | v =>
    obtain ⟨hw, hk⟩ := Bool.or_eq_false_iff.mp hp
    exact (hm.v (on hk).1).1 hw
  | upc => exact absurd (hp.symm.trans (execMicro_writesUpc h)) Bool.false_ne_true
  | hk => exact (on hp).2
  | phase => exact hf.phase
  | frx => exact hf.frx
  | hit => exact hf.hit
  | i => exact hf.idxI
  | b => exact hf.idxB
  | j => exact hf.idxJ
  | e => exact hf.idxE

/-- In a checked configuration an instruction changes only what it may change (10_state.md R33 to R44, 20_memory.md R65). -/
theorem exec_writesOnly {c : Cfg} {i : Instr} {s t : State} (hr : Ready c s) (h : exec i s = .next t) :
    WritesOnly i s t := by
  cases i with
  | reset cmd =>
    obtain rfl := Host.Outcome.next.inj h
    exact writesOnly_of_restored rfl
  | init => exact execInit_next h ▸ initialised_writesOnly s
  | tick => exact (execTick_opFrame hr h).only
  | drain => exact (execDrain_opFrame hr h).only
  | lookup => exact (execLookup_opFrame hr h).only
  | dispatch => exact (execDispatch_opFrame hr h).only
  | rearm => exact (execRearm_opFrame hr h).only
  | decode => exact (execDecode_opFrame hr h).only
  | supervise => exact (execSupervise_opFrame hr h).only
  | supent => exact (execSupent_opFrame hr h).only
  | tofire => exact (execTofire_opFrame hr h).only
  | sched => exact (execSched_opFrame hr h).only
  | bucket => exact (execBucket_opFrame hr h).only
  | encode => exact (execEncode_opFrame hr h).only
  | _ => exact execMicro_writesOnly h

/-- Settles O17, item by item of `exec_writesOnly`. -/
theorem onlyWriters : Obligations.OnlyWriters := by
  intro c i s t hr h
  have only := exec_writesOnly hr h
  exact ⟨fun hw => ⟨only .cfg hw, only .engstate hw, only .initstat hw⟩, only .tickcnt, only .cnt, only .bus, only .rollcnt,
    only .txstat, only .txb, only .a, only .v, only .upc, only .hk, only .phase, only .frx, only .hit, only .i, only .b,
    only .j, only .e⟩

end Sys2Proof.Machine
end

section
/-! SUPPORT. The invariant between operations (10_state.md R57): RESET and INIT establish it (R54 to R56), TICK keeps it, and so
does every step. -/

namespace Sys2Proof.Machine

/-! ## What RESET and INIT leave -/

theorem clearRegs_atRest (s : State) : AtRest s.clearRegs := ⟨rfl, rfl, rfl, rfl, rfl, rfl, rfl, rfl, rfl, rfl, rfl⟩

theorem configure_atRest (s : State) (c : Cfg) : AtRest (s.configure c) :=
  ⟨rfl, rfl, rfl, rfl, rfl, rfl, rfl, rfl, rfl, rfl, rfl⟩

theorem configError_atRest (s : State) (st : InitStat) (cond : Cond) : AtRest (s.configError st cond) :=
  ⟨rfl, rfl, rfl, rfl, rfl, rfl, rfl, rfl, rfl, rfl, rfl⟩

theorem configError_noConfig (s : State) (st : InitStat) (cond : Cond) : NoConfig (s.configError st cond) :=
  ⟨rfl, rfl, rfl, rfl, rfl⟩

theorem initialised_atRest (s : State) : AtRest s.initialised := by
  rcases initialised_cases s with ⟨_, h⟩ | ⟨st, cond, _, h⟩ <;> rw [h]
  · exact configure_atRest _ _
  · exact configError_atRest _ _ _

/-- INIT touches neither the signal bus nor the inputs (10_state.md R54). -/
theorem initialised_environment (s : State) :
    s.initialised.sb = s.sb ∧ s.initialised.inputs = s.inputs ∧ s.initialised.cfgIn = s.cfgIn ∧ s.initialised.rx = s.rx ∧
      s.initialised.tx = s.tx := by
  rcases initialised_cases s with ⟨_, h⟩ | ⟨st, cond, _, h⟩ <;> rw [h] <;> exact ⟨rfl, rfl, rfl, rfl, rfl⟩

/-- Settles O10: the three results of the checks, each with the state INIT makes of it. -/
theorem initResult : Obligations.InitResult := by
  intro s hu
  obtain ⟨hsb, hin, hcfg, hrx, htx⟩ := initialised_environment s
  refine ⟨s.initialised, execInit_of_unconfig hu, initialised_atRest s, hsb, hin, hcfg, hrx, htx, fun h => ?_, fun h => ?_,
    fun h => ?_⟩
  · rw [initialised_of_ok h]
    exact ⟨rfl, rfl, rfl, rfl, rfl, ⟨_, rfl, List.length_replicate, fun x hx => List.eq_of_mem_replicate hx⟩,
      ⟨_, rfl, List.length_replicate, fun x hx => by rw [List.eq_of_mem_replicate hx]⟩, rfl⟩
  · rw [initialised_of_dup h]
    exact ⟨rfl, rfl, configError_noConfig _ _ _, rfl⟩
  · rw [initialised_of_bad h]
    exact ⟨rfl, rfl, configError_noConfig _ _ _, rfl⟩

/-! ## RESET and INIT establish the invariant -/

theorem clearRegs_inv {s : State} (h : Bus.wf s.sb = true) : Inv s.clearRegs :=
  ⟨clearRegs_atRest s, ⟨rfl, rfl, rfl, rfl, rfl, rfl⟩, rfl, h⟩

/-- Settles O14: the registers at reset are those RESET leaves, on a signal bus that lists nothing. -/
theorem invAtReset : Obligations.InvAtReset := clearRegs_inv (s := State.reset) rfl

theorem configure_running {s : State} {c : Cfg} (h : checkCfg c = .ok) : Running c (s.configure c) where
  ready := ⟨rfl, h, ⟨_, rfl, List.length_map _⟩, ⟨_, rfl, List.length_replicate⟩, ⟨_, rfl, List.length_replicate⟩⟩
  domain := by
    rintro _ ⟨⟩
    exact reloads_cntDomain h
  tickcnt := Nat.lt_of_lt_of_le Nat.two_pos (tablesOk h).tickMod

theorem initialised_inv {s : State} (h : Bus.wf s.sb = true) : Inv s.initialised := by
  rcases initialised_cases s with ⟨hc, hi⟩ | ⟨st, cond, hst, hi⟩ <;> rw [hi]
  · exact ⟨configure_atRest _ _, ⟨rfl, _, configure_running hc⟩, rfl, h⟩
  · exact ⟨configError_atRest _ _ _, ⟨hst, configError_noConfig _ _ _⟩, rfl, h⟩

/-! ## Where the registers of a TICK return to `NONE` -/

/-- The working registers of the dispatcher and the indices hold `NONE` (10_state.md R35, R43). -/
structure NoWork (s : State) : Prop where
  frx : s.frx = none
  hit : s.hit = none
  i : s.idxI = none
  b : s.idxB = none
  j : s.idxJ = none
  e : s.idxE = none

/-- DRAIN clears `FRX` and `HIT` after each frame (41_dispatcher.md R150). -/
theorem drainLoop_clears : ∀ (fs : List Frame) {s t : State}, s.frx = none → s.hit = none → drainLoop fs s = .next t →
    t.frx = none ∧ t.hit = none
  | [], s, t, hf, hh, h => by
    obtain rfl := Host.Outcome.next.inj h
    exact ⟨hf, hh⟩
  | _ :: fs, s, t, _, _, h => by
    obtain ⟨s₁, _, h⟩ := andThen_next.mp h
    exact drainLoop_clears fs (s := s₁.dropFrame) rfl rfl h

theorem execDrain_noWork {c : Cfg} {s t : State} (hr : Ready c s) (hn : NoWork s) (h : execDrain s = .next t) : NoWork t := by
  have only := (execDrain_opFrame hr h).only
  obtain ⟨hfrx, hhit⟩ := drainLoop_clears s.rx (s := s.enter .drain) hn.frx hn.hit h
  exact ⟨hfrx, hhit, (only .i rfl).trans hn.i, (only .b rfl).trans hn.b, (only .j rfl).trans hn.j, (only .e rfl).trans hn.e⟩

theorem superviseLoop_idxI : ∀ (n m : Nat) {s t : State}, superviseLoop n m s = .next t → t.idxI = none
  | 0, _, s, t, h => by
    obtain rfl := Host.Outcome.next.inj h
    rfl
  | n + 1, m, s, t, h => by
    obtain ⟨s₁, _, h⟩ := andThen_next.mp h
    exact superviseLoop_idxI n (m + 1) h

theorem execSupervise_noWork {c : Cfg} {s t : State} (hr : Ready c s) (hn : NoWork s) (h : execSupervise s = .next t) :
    NoWork t := by
  have only := (execSupervise_opFrame hr h).only
  obtain ⟨cfg, _, hl⟩ := need_next.mp h
  exact ⟨(only .frx rfl).trans hn.frx, (only .hit rfl).trans hn.hit, superviseLoop_idxI _ _ hl, (only .b rfl).trans hn.b,
    (only .j rfl).trans hn.j, (only .e rfl).trans hn.e⟩

theorem execEncode_idxE {s t : State} (h : execEncode s = .next t) : t.idxE = none := by
  simp only [execEncode, listedEncoder, need_next, index_next, andThen_next, Host.Outcome.next.injEq] at h
  obtain ⟨_, _, _, _, _, _, _, _, _, _, _, _, s₁, _, rfl⟩ := h
  rfl

/-- BUCKET leaves `J` at `NONE`, and `E` where it was there before: each ENCODE clears it (43_codec_encode.md R200). -/
theorem bucketLoop_clears : ∀ (n j : Nat) {s t : State}, s.idxE = none → bucketLoop n j s = .next t →
    t.idxJ = none ∧ t.idxE = none
  | 0, _, s, t, he, h => by
    obtain rfl := Host.Outcome.next.inj h
    exact ⟨rfl, he⟩
  | n + 1, j, s, t, _, h => by
    obtain ⟨s₁, hen, h⟩ := andThen_next.mp h
    have he : s₁.idxE = none := execEncode_idxE hen
    exact bucketLoop_clears n (j + 1) (s := s₁.enter .bucket) he h

theorem execBucket_clears {s t : State} (he : s.idxE = none) (h : execBucket s = .next t) :
    t.idxJ = none ∧ t.idxE = none := by
  simp only [execBucket, need_next, index_next] at h
  obtain ⟨cfg, _, b, _, bk, _, h⟩ := h
  exact bucketLoop_clears _ _ (s := s.enter .bucket) he h

theorem schedLoop_clears : ∀ (bks : List Bucket) (b : Nat) {s t : State}, s.idxJ = none → s.idxE = none →
    schedLoop bks b s = .next t → t.idxB = none ∧ t.idxJ = none ∧ t.idxE = none
  | [], _, s, t, hj, he, h => by
    obtain rfl := Host.Outcome.next.inj h
    exact ⟨rfl, hj, he⟩
  | bk :: bks, b, s, t, hj, he, h => by
    rcases schedLoop_cons_next h with ⟨s₁, hb, h⟩ | h
    · obtain ⟨hj₁, he₁⟩ := execBucket_clears (s := { s with idxB := some b }) he hb
      exact schedLoop_clears bks (b + 1) (s := s₁.enter .sched) hj₁ he₁ h
    · exact schedLoop_clears bks (b + 1) (s := { s with idxB := some b }) hj he h

theorem execSched_noWork {c : Cfg} {s t : State} (hr : Ready c s) (hn : NoWork s) (h : execSched s = .next t) : NoWork t := by
  have only := (execSched_opFrame hr h).only
  obtain ⟨cfg, _, hl⟩ := need_next.mp h
  obtain ⟨hb, hj, he⟩ :=
    schedLoop_clears _ _ (s := { s with phase := .sched, tickcnt := (s.tickcnt + 1) % cfg.tickMod }) hn.j hn.e hl
  exact ⟨(only .frx rfl).trans hn.frx, (only .hit rfl).trans hn.hit, (only .i rfl).trans hn.i, hb, hj, he⟩

/-! ## The tick count (44_scheduler.md R240) -/

/-- The buckets leave the count as it is. -/
theorem schedLoop_tickcnt {c : Cfg} : ∀ (bks : List Bucket) (b : Nat) {s t : State}, Ready c s →
    schedLoop bks b s = .next t → t.tickcnt = s.tickcnt
  | [], _, s, t, _, h => by
    obtain rfl := Host.Outcome.next.inj h
    rfl
  | bk :: bks, b, s, t, hr, h => by
    have select : OpFrame c .sched s { s with idxB := some b } := .of_update hr rfl rfl
    rcases schedLoop_cons_next h with ⟨s₁, hb, h⟩ | h
    · have bucket := execBucket_opFrame select.ready hb
      have back : OpFrame c .sched s₁ (s₁.enter .sched) := .of_update bucket.ready rfl rfl
      exact (schedLoop_tickcnt bks (b + 1) back.ready h).trans (bucket.only .tickcnt rfl)
    · exact schedLoop_tickcnt bks (b + 1) (s := { s with idxB := some b }) select.ready h

theorem execSched_tickcnt {c : Cfg} {s t : State} (hr : Ready c s) (h : execSched s = .next t) :
    t.tickcnt = (s.tickcnt + 1) % c.tickMod := by
  obtain ⟨cfg, hcfg, h⟩ := need_next.mp h
  obtain rfl := Option.some.inj (hr.held.symm.trans hcfg)
  have count : OpFrame c .sched s { s with phase := .sched, tickcnt := (s.tickcnt + 1) % c.tickMod } :=
    .of_update hr rfl rfl
  exact schedLoop_tickcnt _ _ count.ready h

theorem execSched_tickcnt_lt {c : Cfg} {s t : State} (hr : Ready c s) (h : execSched s = .next t) :
    t.tickcnt < c.tickMod := by
  rw [execSched_tickcnt hr h]
  exact Nat.mod_lt _ (Nat.lt_of_lt_of_le Nat.two_pos (tablesOk hr.checked).tickMod)

/-! ## Every step keeps the invariant -/

theorem engineOk_unconfig {s : State} (h : s.engstate = .unconfig) : EngineOk s ↔ s.initstat = .noinit ∧ NoConfig s := by
  simp only [EngineOk, h]

theorem engineOk_cfgerr {s : State} (h : s.engstate = .cfgerr) :
    EngineOk s ↔ (s.initstat = .cfgdup ∨ s.initstat = .cfgbad) ∧ NoConfig s := by
  simp only [EngineOk, h]

theorem engineOk_run {s : State} (h : s.engstate = .run) : EngineOk s ↔ s.initstat = .initOk ∧ ∃ c, Running c s := by
  simp only [EngineOk, h]

/-- TICK keeps the invariant: its operations keep what is steady, and the last of each kind clears what it worked with. -/
theorem execTick_inv {s t : State} (hi : Inv s) (h : execTick s = .next t) : Inv t := by
  obtain ⟨hrun, s₁, s₂, s₃, hd, hs, hc, rfl⟩ := execTick_next h
  obtain ⟨hstat, c, hready, hdomain, _⟩ := (engineOk_run hrun).mp hi.engine
  have rest := hi.rest
  have frame := execTick_opFrame hready h
  have steady := frame.steady ⟨hdomain, hi.txb, hi.sb, rest.a, rest.v, rest.upc, rest.hk⟩
  have start : OpFrame c .tick s s.newOp := .of_update hready rfl rfl
  have ready₁ := (execDrain_opFrame start.ready hd).ready
  have ready₂ := (execSupervise_opFrame ready₁ hs).ready
  have work₁ := execDrain_noWork start.ready ⟨rest.frx, rest.hit, rest.i, rest.b, rest.j, rest.e⟩ hd
  have work₃ := execSched_noWork ready₂ (execSupervise_noWork ready₁ work₁ hs) hc
  have lt : s₃.tickcnt < c.tickMod := execSched_tickcnt_lt ready₂ hc
  have running : Running c (s₃.enter .idle) := ⟨frame.ready, steady.domain, lt⟩
  refine ⟨⟨steady.a, steady.v, work₃.frx, work₃.hit, rfl, work₃.i, work₃.b, work₃.j, work₃.e, steady.upc, steady.hk⟩, ?_,
    steady.txb, steady.sb⟩
  rw [engineOk_run ((frame.only .engstate rfl).trans hrun)]
  exact ⟨(frame.only .initstat rfl).trans hstat, c, running⟩

theorem engineOk_take {s : State} (h : EngineOk s) (r : HostRequest) (rest : List HostRequest) :
    EngineOk (s.take r rest) := by
  have keep (hn : NoConfig s) : NoConfig (s.take r rest) := ⟨hn.tickcnt, hn.cfg, hn.cnt, hn.rollcnt, hn.txstat⟩
  cases he : s.engstate with
  | unconfig =>
    obtain ⟨hstat, hn⟩ := (engineOk_unconfig he).mp h
    exact (engineOk_unconfig (s := s.take r rest) he).mpr ⟨hstat, keep hn⟩
  | cfgerr =>
    obtain ⟨hstat, hn⟩ := (engineOk_cfgerr he).mp h
    exact (engineOk_cfgerr (s := s.take r rest) he).mpr ⟨hstat, keep hn⟩
  | run =>
    obtain ⟨hstat, c, hc⟩ := (engineOk_run he).mp h
    exact (engineOk_run (s := s.take r rest) he).mpr
      ⟨hstat, c, hc.ready.of_eq rfl rfl rfl rfl, hc.domain, hc.tickcnt⟩

/-- The environment's moves keep the invariant: they reach the signal bus and the inputs only (20_memory.md R78). -/
theorem take_inv {s : State} (h : Inv s) (r : HostRequest) (rest : List HostRequest) : Inv (s.take r rest) := by
  obtain ⟨⟨ha, hv, hfrx, hhit, hphase, hI, hB, hJ, hE, hupc, hhk⟩, heng, htxb, hsb⟩ := h
  exact ⟨⟨ha, hv, hfrx, hhit, hphase, hI, hB, hJ, hE, hupc, hhk⟩, engineOk_take heng r rest, htxb,
    Bus.putAll_wf r.busWrites hsb⟩

theorem decodeHost_ok {w : BitVec 3} {i : Instr} (h : decodeHost w = .ok i) :
    i = .init ∨ i = .tick ∨ ∃ cmd, i = .reset cmd := by
  unfold decodeHost at h
  split at h <;> cases h
  · exact .inl rfl
  · exact .inr (.inl rfl)
  · exact .inr (.inr ⟨_, rfl⟩)

theorem notInstruction_next {e : Illegal} {s t : State} (h : notInstruction e s = .next t) : t = s := by
  cases e <;> cases h
  rfl

theorem position_of_atRest {s : State} (h : AtRest s) : position s = .host := by
  simp [position, h.upc, h.phase]

/-- Between operations a step does nothing, takes a request that runs nothing, or runs the host's operation of one (45_engine_tick.md
R270; log 7). -/
theorem step_next_of_host {s t : State} (hp : position s = .host) (h : step s = .next t) :
    t = s ∨ ∃ r rest, t = s.take r rest ∨ ∃ i, decodeHost r.word = .ok i ∧ exec i (s.take r rest) = .next t := by
  unfold step fetch at h
  rw [hp] at h
  cases hin : s.inputs with
  | nil =>
    rw [hin] at h
    exact .inl (Host.Outcome.next.inj h).symm
  | cons r rest =>
    rw [hin] at h
    refine .inr ⟨r, rest, ?_⟩
    cases hd : decodeHost r.word with
    | error e =>
      simp only [decode, hd] at h
      exact .inl (notInstruction_next h)
    | ok i =>
      simp only [decode, hd, andThen_next, resume, Host.Outcome.next.injEq] at h
      obtain ⟨_, hx, rfl⟩ := h
      exact .inr ⟨i, rfl, hx⟩

/-- Each of the host's operations keeps the invariant. -/
theorem exec_host_inv {w : BitVec 3} {i : Instr} {s t : State} (hd : decodeHost w = .ok i) (hi : Inv s)
    (h : exec i s = .next t) : Inv t := by
  rcases decodeHost_ok hd with rfl | rfl | ⟨cmd, rfl⟩
  · exact execInit_next h ▸ initialised_inv hi.sb
  · exact execTick_inv hi h
  · obtain rfl := Host.Outcome.next.inj h
    exact clearRegs_inv (s := s.newOp) hi.sb

/-- Settles O15: between operations only the host acts, and the environment's moves and the host's operations keep `Inv`. -/
theorem stepKeepsInv : Obligations.StepKeepsInv := by
  intro s t hi h
  rcases step_next_of_host (position_of_atRest hi.rest) h with rfl | ⟨r, rest, rfl | ⟨i, hd, hx⟩⟩
  · exact hi
  · exact take_inv hi r rest
  · exact exec_host_inv hd (take_inv hi r rest) hx

end Sys2Proof.Machine
end

section
/-! SUPPORT. The signal bus under the operations of the sequencer: what each of them, in every state, does to the signal bus is what
the sets it records do (20_memory.md R66, R77), and in a checked configuration it keeps the bus typed (R62). One frame (`BusFrame`)
carries both through a TICK. -/

namespace Sys2Proof.Machine

/-! ## The frame of the signal bus -/

/-- The configuration stays, the signal bus changes by the recorded sets alone, in their order, and where the configuration is a
checked one a typed bus stays typed. -/
structure BusFrame (s t : State) : Prop where
  cfg : t.cfg = s.cfg
  sets : ∃ es, t.events = s.events ++ es ∧ t.sb = applySets s.sb es
  typed : ∀ c, s.cfg = some c → checkCfg c = .ok → BusTyped c s.sb → BusTyped c t.sb

theorem BusFrame.trans {s t u : State} (h : BusFrame s t) (g : BusFrame t u) : BusFrame s u where
  cfg := g.cfg.trans h.cfg
  sets := by
    obtain ⟨es, he, hb⟩ := h.sets
    obtain ⟨fs, hf, hc⟩ := g.sets
    exact ⟨es ++ fs, by rw [hf, he, List.append_assoc], by rw [hc, hb, applySets_append]⟩
  typed c hc hk hb := g.typed c (h.cfg.trans hc) hk (h.typed c hc hk hb)

/-- An update that touches neither the configuration nor the signal bus nor the event list. -/
theorem BusFrame.of_same {s t : State} (hc : t.cfg = s.cfg) (hb : t.sb = s.sb) (he : t.events = s.events) : BusFrame s t where
  cfg := hc
  sets := ⟨[], by rw [he, List.append_nil], hb⟩
  typed _ _ _ h := hb ▸ h

/-- The record of an event that is no set. -/
theorem BusFrame.of_log (s : State) {e : Event} (he : ∀ k v, e ≠ .set k v) : BusFrame s (s.log e) where
  cfg := rfl
  sets := (runFrame_log s he).events
  typed _ _ _ h := h

theorem writeCnt_busFrame {s t : State} {i : Nat} {x : Int} (h : writeCnt s i x = .next t) : BusFrame s t := by
  obtain ⟨l, _, _, rfl⟩ := writeCnt_next.mp h
  exact .of_same rfl rfl rfl

/-- The run of a handler, which has passed its checks where the configuration has passed its own. -/
theorem runHandler_busFrame {c : Cfg} {k : HandlerKind} {dlc base : Nat} {s t : State} (hc : s.cfg = some c)
    (hw : checkCfg c = .ok → wfHandler c k dlc base = true) (h : runHandler k base s = .next t) : BusFrame s t where
  cfg := (runHandler_frame h).1.cfg
  sets := (runHandler_frame h).1.events
  typed c' hc' hk hb := by
    obtain rfl := Option.some.inj (hc.symm.trans hc')
    obtain ⟨is, hchecked⟩ := checked_of_wfHandler (hw hk)
    exact runHandler_busTyped hchecked hc hb h

/-! ## The receive dispatcher -/

theorem execLookup_busFrame {s t : State} (h : execLookup s = .next t) : BusFrame s t := by
  simp only [execLookup, need_next, Host.Outcome.next.injEq] at h
  obtain ⟨c, _, f, _, rfl⟩ := h
  exact .of_same rfl rfl rfl

theorem execRearm_busFrame {s t : State} (h : execRearm s = .next t) : BusFrame s t := by
  simp only [execRearm, needFound_next, need_next, index_next] at h
  obtain ⟨n, _, c, _, r, _, h⟩ := h
  have enter : BusFrame s (s.enter .rearm) := .of_same rfl rfl rfl
  exact enter.trans (writeCnt_busFrame h)

theorem execDecode_busFrame {s t : State} (h : execDecode s = .next t) : BusFrame s t := by
  simp only [execDecode, needFound_next, need_next, index_next] at h
  obtain ⟨n, _, c, hc, r, hr, h⟩ := h
  have enter : BusFrame s (s.enter .decode) := .of_same rfl rfl rfl
  exact enter.trans (runHandler_busFrame hc (fun hk => (tablesOk hk).decode r (List.mem_of_getElem? hr)) h)

/-- The record of a miss is no set. -/
theorem dropUnregistered_busFrame {s t : State} (h : dropUnregistered s = .next t) : BusFrame s t := by
  simp only [dropUnregistered, need_next, Host.Outcome.next.injEq] at h
  obtain ⟨f, _, rfl⟩ := h
  exact .of_log s nofun

theorem execDispatch_busFrame {s t : State} (h : execDispatch s = .next t) : BusFrame s t := by
  have enter (u : State) : BusFrame u (u.enter .dispatch) := .of_same rfl rfl rfl
  simp only [execDispatch, andThen_next, need_next] at h
  obtain ⟨s₁, hl, hit, _, h⟩ := h
  have base := ((enter s).trans (execLookup_busFrame hl)).trans (enter s₁)
  cases hit with
  | miss => exact base.trans (dropUnregistered_busFrame h)
  | found n =>
    simp only [andThen_next, Host.Outcome.next.injEq] at h
    obtain ⟨s₂, hre, s₃, hd, rfl⟩ := h
    have rearm := base.trans ((execRearm_busFrame hre).trans (enter s₂))
    exact rearm.trans ((execDecode_busFrame hd).trans (enter s₃))

theorem receive_busFrame (s : State) (f : Frame) (rest : List Frame) : BusFrame s (s.receive f rest) :=
  have take : BusFrame s { s with frx := some f, rx := rest } := .of_same rfl rfl rfl
  take.trans (.of_log _ nofun)

theorem drainLoop_busFrame : ∀ (fs : List Frame) {s t : State}, drainLoop fs s = .next t → BusFrame s t
  | [], s, t, h => by
    obtain rfl := Host.Outcome.next.inj h
    exact .of_log s nofun
  | f :: fs, s, t, h => by
    obtain ⟨s₁, hd, h⟩ := andThen_next.mp h
    have dispatch := (receive_busFrame s f fs).trans (execDispatch_busFrame hd)
    have drop : BusFrame s₁ s₁.dropFrame := .of_same rfl rfl rfl
    exact (dispatch.trans drop).trans (drainLoop_busFrame fs h)

theorem execDrain_busFrame {s t : State} (h : execDrain s = .next t) : BusFrame s t :=
  have enter : BusFrame s (s.enter .drain) := .of_same rfl rfl rfl
  enter.trans (drainLoop_busFrame _ h)

/-! ## The timeout supervisor -/

theorem execTofire_busFrame {s t : State} (h : execTofire s = .next t) : BusFrame s t := by
  simp only [execTofire, need_next, index_next] at h
  obtain ⟨n, _, c, hc, r, hr, h⟩ := h
  have enter : BusFrame s (s.enter .tofire) := .of_same rfl rfl rfl
  have raise := enter.trans (.of_log _ (e := .cond (.timeout n)) nofun)
  exact raise.trans (runHandler_busFrame hc (fun hk => (tablesOk hk).timeout r (List.mem_of_getElem? hr)) h)

theorem execSupent_busFrame {s t : State} (h : execSupent s = .next t) : BusFrame s t := by
  have enter (u : State) : BusFrame u (u.enter .supent) := .of_same rfl rfl rfl
  simp only [execSupent, need_next, index_next] at h
  obtain ⟨n, _, l, _, x, _, h⟩ := h
  split at h
  · exact (enter s).trans (writeCnt_busFrame h)
  · split at h
    · obtain ⟨s₁, hf, h⟩ := andThen_next.mp h
      have fire := (enter s).trans (execTofire_busFrame hf)
      exact (fire.trans (enter s₁)).trans (writeCnt_busFrame h)
    · obtain rfl := Host.Outcome.next.inj h
      exact enter s

theorem superviseLoop_busFrame : ∀ (n m : Nat) {s t : State}, superviseLoop n m s = .next t → BusFrame s t
  | 0, _, s, t, h => by
    obtain rfl := Host.Outcome.next.inj h
    exact .of_same rfl rfl rfl
  | n + 1, m, s, t, h => by
    obtain ⟨s₁, he, h⟩ := andThen_next.mp h
    have select : BusFrame s { s with idxI := some m } := .of_same rfl rfl rfl
    have back : BusFrame s₁ (s₁.enter .supervise) := .of_same rfl rfl rfl
    exact (select.trans (execSupent_busFrame he)).trans (back.trans (superviseLoop_busFrame n (m + 1) h))

theorem execSupervise_busFrame {s t : State} (h : execSupervise s = .next t) : BusFrame s t := by
  obtain ⟨c, _, h⟩ := need_next.mp h
  have enter : BusFrame s (s.enter .supervise) := .of_same rfl rfl rfl
  exact enter.trans (superviseLoop_busFrame _ _ h)

/-! ## The scheduler and ENCODE -/

theorem execEncode_busFrame {s t : State} (h : execEncode s = .next t) : BusFrame s t := by
  obtain ⟨c, hc, _⟩ := need_next.mp h
  obtain ⟨e, en, s₁, hen, hrun, rfl⟩ := execEncode_next hc h
  have start : BusFrame s { s with idxE := some e, txb := [], phase := .encode } := .of_same rfl rfl rfl
  have finish : BusFrame s₁ { s₁ with idxE := none } := .of_same rfl rfl rfl
  have run := runHandler_busFrame (start.cfg.trans hc) (fun hk => (tablesOk hk).encode en (List.mem_of_getElem? hen)) hrun
  exact (start.trans run).trans finish

theorem bucketLoop_busFrame : ∀ (n j : Nat) {s t : State}, bucketLoop n j s = .next t → BusFrame s t
  | 0, _, s, t, h => by
    obtain rfl := Host.Outcome.next.inj h
    exact .of_same rfl rfl rfl
  | n + 1, j, s, t, h => by
    obtain ⟨s₁, he, h⟩ := andThen_next.mp h
    have select : BusFrame s { s with idxJ := some j } := .of_same rfl rfl rfl
    have back : BusFrame s₁ (s₁.enter .bucket) := .of_same rfl rfl rfl
    exact (select.trans (execEncode_busFrame he)).trans (back.trans (bucketLoop_busFrame n (j + 1) h))

theorem execBucket_busFrame {s t : State} (h : execBucket s = .next t) : BusFrame s t := by
  simp only [execBucket, need_next, index_next] at h
  obtain ⟨c, _, b, _, bk, _, h⟩ := h
  have enter : BusFrame s (s.enter .bucket) := .of_same rfl rfl rfl
  exact enter.trans (bucketLoop_busFrame _ _ h)

theorem schedLoop_busFrame : ∀ (bks : List Bucket) (b : Nat) {s t : State}, schedLoop bks b s = .next t → BusFrame s t
  | [], _, s, t, h => by
    obtain rfl := Host.Outcome.next.inj h
    exact .of_same rfl rfl rfl
  | bk :: bks, b, s, t, h => by
    have select : BusFrame s { s with idxB := some b } := .of_same rfl rfl rfl
    rcases schedLoop_cons_next h with ⟨s₁, hb, h⟩ | h
    · have back : BusFrame s₁ (s₁.enter .sched) := .of_same rfl rfl rfl
      exact (select.trans (execBucket_busFrame hb)).trans (back.trans (schedLoop_busFrame bks (b + 1) h))
    · exact select.trans (schedLoop_busFrame bks (b + 1) h)

theorem execSched_busFrame {s t : State} (h : execSched s = .next t) : BusFrame s t := by
  obtain ⟨c, _, h⟩ := need_next.mp h
  have count : BusFrame s { s with phase := .sched, tickcnt := (s.tickcnt + 1) % c.tickMod } := .of_same rfl rfl rfl
  exact count.trans (schedLoop_busFrame _ _ h)

/-! ## TICK, and every instruction -/

/-- A TICK starts with an empty event list and with the signal bus as it was (log 15). -/
theorem execTick_busFrame {s t : State} (h : execTick s = .next t) : BusFrame s.newOp t := by
  obtain ⟨_, s₁, s₂, s₃, hd, hs, hc, rfl⟩ := execTick_next h
  have phases := ((execDrain_busFrame hd).trans (execSupervise_busFrame hs)).trans (execSched_busFrame hc)
  exact phases.trans (.of_same rfl rfl rfl)

/-- The sequencer operations that a TICK is made of. -/
theorem exec_busFrame {i : Instr} {s t : State} (hp : writesPhase i = true) (ht : i ≠ .tick) (hr : resets i = false)
    (h : exec i s = .next t) : BusFrame s t := by
  cases i with
  | reset | init => cases hr
  | tick => exact absurd rfl ht
  | drain => exact execDrain_busFrame h
  | lookup => exact execLookup_busFrame h
  | dispatch => exact execDispatch_busFrame h
  | rearm => exact execRearm_busFrame h
  | decode => exact execDecode_busFrame h
  | supervise => exact execSupervise_busFrame h
  | supent => exact execSupent_busFrame h
  | tofire => exact execTofire_busFrame h
  | sched => exact execSched_busFrame h
  | bucket => exact execBucket_busFrame h
  | encode => exact execEncode_busFrame h
  | _ => cases hp

/-- The instructions that keep `PHASE` are the micro-instructions. -/
theorem exec_eq_execMicro {i : Instr} (hp : writesPhase i = false) (s : State) : exec i s = execMicro i s := by
  cases i with
  | reset | init | tick | drain | lookup | dispatch | rearm | decode | supervise | supent | tofire | sched | bucket
  | encode => cases hp
  | _ => rfl

/-- Every instruction but TICK, RESET and INIT appends to the event list it finds, and sets what it records as sets. -/
theorem exec_sets {i : Instr} {s t : State} (ht : i ≠ .tick) (hr : resets i = false) (h : exec i s = .next t) :
    ∃ es, t.events = s.events ++ es ∧ t.sb = applySets s.sb es := by
  cases hp : writesPhase i with
  | true => exact (exec_busFrame hp ht hr h).sets
  | false =>
    rw [exec_eq_execMicro hp] at h
    exact (runFrame_execMicro h).events

/-- RESET and INIT leave the signal bus alone. -/
theorem exec_resets_sb {i : Instr} {s t : State} (hr : resets i = true) (h : exec i s = .next t) : t.sb = s.sb := by
  cases i with
  | reset cmd =>
    obtain rfl := Host.Outcome.next.inj h
    rfl
  | init => exact execInit_next h ▸ initialised_writesOnly s .bus rfl
  | _ => cases hr

/-- Settles O18: a TICK by the frame of what it runs from an empty event list, any other instruction by the sets it appends. -/
theorem busFollowsSets : Obligations.BusFollowsSets := by
  intro i s t h
  refine ⟨?_, fun hr => exec_resets_sb hr h, fun ht hr => exec_sets ht hr h⟩
  rintro rfl
  obtain ⟨es, he, hb⟩ := (execTick_busFrame h).sets
  have hes : t.events = es := he
  exact hes ▸ hb

/-! ## The test of the signal bus -/

/-- A declared key has no value to read exactly where what is listed there is of another type: what is not listed is of the type
asked for (log 4). -/
theorem busValue_eq_none {c : Cfg} {sb : Bus} {k : Key} {ty : SigType} (hk : keyType c.ktype k = some ty) :
    busValue c sb k = none ↔ ∃ x, Bus.find sb k = some x ∧ x.type ≠ ty := by
  cases hf : Bus.find sb k with
  | none => simp [busValue, busContent, hk, hf, unwritten_type]
  | some x => simp [busValue, busContent, hk, hf]

/-- The key that the test of the signal bus names is declared, and holds a value of another type. -/
theorem mistypedKey_eq_some {c : Cfg} {sb : Bus} {k : Key} (h : mistypedKey c sb = some k) :
    ∃ ty x, keyType c.ktype k = some ty ∧ Bus.find sb k = some x ∧ x.type ≠ ty := by
  obtain ⟨⟨k', ty'⟩, hfound, rfl⟩ := Option.map_eq_some_iff.mp h
  obtain ⟨ty, hty⟩ := Option.ne_none_iff_exists'.mp (keyType_of_mem (List.mem_of_find?_eq_some hfound))
  have hnone := List.find?_some hfound
  obtain ⟨x, hx, hne⟩ := (busValue_eq_none hty).mp (Option.isNone_iff_eq_none.mp hnone)
  exact ⟨ty, x, hty, hx, hne⟩

theorem onTypedBus_of_mistyped {s : State} {c : Cfg} {key : Key} (hc : s.cfg = some c) (hm : mistypedKey c s.sb = some key)
    (k : State → Out) : onTypedBus s k = .refused (.busType key) := by
  simp only [onTypedBus, hc, need_of_some, hm]

theorem execTick_of_mistyped {s : State} {c : Cfg} {key : Key} (hrun : s.engstate = .run) (hc : s.cfg = some c)
    (hm : mistypedKey c s.sb = some key) : execTick s = .refused (.busType key) := by
  rw [execTick, if_pos hrun, onTypedBus_of_mistyped hc hm]

/-- A TICK that completes has passed the test of the signal bus. -/
theorem execTick_typed {s t : State} {c : Cfg} (hc : s.cfg = some c) (h : execTick s = .next t) : BusTyped c s.sb := by
  unfold execTick at h
  split at h
  · obtain ⟨c', hc', hb, _⟩ := onTypedBus_next.mp h
    obtain rfl := Option.some.inj (hc.symm.trans hc')
    exact hb
  · cases h

/-- Settles O19: TICK tests the signal bus before it does anything, and what it then runs keeps it typed. -/
theorem tickNeedsTypedBus : Obligations.TickNeedsTypedBus := by
  intro c s hr hrun
  refine ⟨fun t h => ?_, fun hb => ?_⟩
  · have hb := execTick_typed hr.held h
    exact ⟨hb, (execTick_busFrame h).typed c hr.held hr.checked hb⟩
  · obtain ⟨key, hm⟩ := Option.ne_none_iff_exists'.mp (mt mistypedKey_eq_none.mp hb)
    obtain ⟨ty, x, hty, hx, hne⟩ := mistypedKey_eq_some hm
    exact ⟨key, ty, x, execTick_of_mistyped hrun hr.held hm, hty, hx, hne⟩

end Sys2Proof.Machine
end

section
/-! SUPPORT. Reads of the signal bus: a key reads what is listed at it, so the latest set (20_memory.md R66), and a get outside the
contract of the signal bus stops where it reads (R76, 60_exceptions.md R303). -/

namespace Sys2Proof.Machine

/-! ## Reads as a function of what is listed -/

/-- The value read at a key depends on what is listed at that key alone. -/
theorem busValue_congr {c : Cfg} {sb sb' : Bus} {k : Key} (h : Bus.find sb k = Bus.find sb' k) :
    busValue c sb k = busValue c sb' k := by
  unfold busValue busContent
  rw [h]

/-- A key that holds a listed value reads as that value exactly where it is declared with the value's type. -/
theorem busValue_of_find {c : Cfg} {sb : Bus} {k : Key} {v : SigVal} (h : Bus.find sb k = some v) :
    busValue c sb k = if keyType c.ktype k = some v.type then some v else none := by
  have hv (ty : SigType) : busContent sb k ty = v := by simp [busContent, h]
  cases hk : keyType c.ktype k with
  | none => simp [busValue, hk]
  | some ty => simp [busValue, hk, hv, eq_comm]

/-- Settles O44: what is listed after a set is known at every key, and a read follows what is listed. -/
theorem busReadsLatestWrite : Obligations.BusReadsLatestWrite := by
  intro c sb k v
  have hself := Bus.find_put_self sb k v
  refine ⟨hself, fun ht => ?_, fun ht => ?_, fun k' hk' => ?_⟩
  · rw [busValue_of_find hself, if_pos ht]
  · rw [busValue_of_find hself, if_neg ht]
  · have hother : Bus.find (Bus.put sb k v) k' = Bus.find sb k' := by rw [Bus.find_put, if_neg hk']
    exact ⟨hother, busValue_congr hother⟩

/-! ## Gets outside the contract -/

section
variable {s : State} {c : Cfg} {k : Key}

theorem busGet_of_undeclared (hc : s.cfg = some c) (hk : keyType c.ktype k = none) (f : SigVal → State → Out) :
    busGet s k f = .refused (.undeclaredKey k) := by
  simp [busGet, busValue, hc, hk]

theorem busGet_of_unreadable {ty : SigType} (hc : s.cfg = some c) (hk : keyType c.ktype k = some ty)
    (hv : busValue c s.sb k = none) (f : SigVal → State → Out) : busGet s k f = .refused (.busType k) := by
  simp [busGet, hc, hk, hv]

theorem busGet_of_mistyped {ty : SigType} {x : SigVal} (hc : s.cfg = some c) (hk : keyType c.ktype k = some ty)
    (hf : Bus.find s.sb k = some x) (hx : x.type ≠ ty) (f : SigVal → State → Out) : busGet s k f = .refused (.busType k) :=
  busGet_of_unreadable hc hk ((busValue_eq_none hk).mpr ⟨x, hf, hx⟩) f

/-- An integer is never read at a key declared `REAL`: what it holds is of another type, or it is a real. -/
theorem busGetInt_of_real (hc : s.cfg = some c) (hk : keyType c.ktype k = some .real) (f : Int → State → Out) :
    busGetInt s k f = .refused (.busType k) := by
  cases hv : busValue c s.sb k with
  | none => exact busGet_of_unreadable hc hk hv _
  | some x =>
    obtain ⟨ty, hty, _, hx⟩ := busValue_eq_some.mp hv
    obtain rfl := Option.some.inj (hk.symm.trans hty)
    cases x with
    | int i => cases hx
    | real q => rw [busGetInt, busGet_of hc hv]

end

/-! ## The instructions that get -/

/-- SBGETA, CATSEL and UCONV get an integer at their key before anything that depends on it. -/
theorem exec_getsInt_refused {k : Key} {s : State} {q : Rat} {r : Refusal} (n : BitVec 16) (hv : s.v = some q)
    (h : ∀ f, busGetInt s k f = .refused r) :
    exec (.sbgeta k) s = .refused r ∧ exec (.catsel k n) s = .refused r ∧ exec (.uconv k n) s = .refused r := by
  refine ⟨?_, ?_, ?_⟩
  · simp only [exec, execSbgeta, h]
  · simp only [exec, execCatsel, h]
  · simp only [exec, execUconv, hv, need_of_some, h]

/-- All four instructions that get do so at their key first. -/
theorem exec_gets_refused {k : Key} {s : State} {q : Rat} {r : Refusal} (n : BitVec 16) (hv : s.v = some q)
    (h : ∀ f, busGet s k f = .refused r) :
    exec (.sbgetv k) s = .refused r ∧ exec (.sbgeta k) s = .refused r ∧ exec (.catsel k n) s = .refused r ∧
      exec (.uconv k n) s = .refused r := by
  refine ⟨?_, exec_getsInt_refused n hv fun _ => h _⟩
  simp only [exec, execSbgetv, h]

/-- The candidate of an index (43_codec_encode.md R203): the one it counts to, the default below 0 and from N on. -/
theorem CatTable.select_eq {tab : CatTable} {idx : Int} {cand : Cand}
    (hin : 0 ≤ idx → idx < tab.cand.length → tab.cand[idx.toNat]? = some cand)
    (hout : idx < 0 ∨ (tab.cand.length : Int) ≤ idx → cand = tab.dflt) : tab.select idx = cand := by
  unfold CatTable.select
  split
  · rename_i h0
    rw [List.getD_eq_getElem?_getD]
    rcases lt_or_ge idx (tab.cand.length : Int) with hlt | hge
    · rw [hin h0 hlt, Option.getD_some]
    · rw [List.getElem?_eq_none (by omega), Option.getD_none, hout (.inr hge)]
  · rename_i h0
    exact (hout (.inl (by omega))).symm

/-- CATSEL goes on from its selector to a get at the key of the candidate. -/
theorem exec_catsel_candidate_refused {k : Key} {n : BitVec 16} {s : State} {c : Cfg} {tab : CatTable} {idx : BitVec 64}
    {r : Refusal} (hc : s.cfg = some c) (htab : c.catt[n.toNat]? = some tab) (hk : busValue c s.sb k = some (.int idx))
    (h : ∀ f, busGet (s.log (.get k (.int idx))) (tab.select idx.toInt).key f = .refused r) :
    exec (.catsel k n) s = .refused r := by
  simp only [exec, execCatsel, busGetInt_of hc hk, State.log_cfg, hc, need_of_some, index_of_some htab, h]

/-- Settles O48: each clause is the refusal of the get the instruction makes first, or for a candidate the one it makes next. -/
theorem busContractRefusals : Obligations.BusContractRefusals := by
  intro k n s c u q _ hc hv
  refine ⟨fun hk => ?_, fun ty x hk hf hx => ?_, fun hk => ?_, fun tab idx cand htab hidx hin hout => ?_⟩
  · exact exec_gets_refused n hv (busGet_of_undeclared hc hk)
  · exact exec_gets_refused n hv (busGet_of_mistyped hc hk hf hx)
  · exact exec_getsInt_refused n hv (busGetInt_of_real hc hk)
  · obtain rfl := CatTable.select_eq hin hout
    refine ⟨fun hk => ?_, fun ty x hk hf hx => ?_⟩
    · exact exec_catsel_candidate_refused hc htab hidx (busGet_of_undeclared hc hk)
    · exact exec_catsel_candidate_refused hc htab hidx (busGet_of_mistyped hc hk hf hx)

end Sys2Proof.Machine
end

section
/-! SUPPORT. The decoder of micro-words and the table of the encoder are inverse to one another (30_encoding.md R96 to R98): for
each format, what the words are that it accepts, and that it accepts the words of its pattern in opcode_table.json (R118). -/

namespace Sys2Proof.Machine

open Sys2Proof.Laws

/-! ## Decoding what the encoder writes -/

@[simp] theorem decodeMicro_microBits (m : MicroWord) : decodeMicro (microBits m) = decodeFields m := by
  rw [decodeMicro, TableWord.microFields_microBits]

/-- Every format accepts the fields the encoder fills in, with the operands in range (R97, R109). -/
theorem decodeFields_of_microWordOf {i : Instr} {m : MicroWord} (hm : microWordOf i = some m) (hw : i.wf = true) :
    decodeFields m = .ok i := by
  cases i with
  | reset | init | tick | drain | lookup | dispatch | rearm | decode | supervise | supent | tofire | sched | bucket | encode =>
    cases hm
  | lenchk | flgget | flgput | roll =>
    obtain rfl := Option.some.inj hm
    exact accept_ok.mpr ⟨rfl, hw, rfl⟩
  | _ =>
    obtain rfl := Option.some.inj hm
    rfl

/-- The codes of the host and sequencer operations (R105, R107). -/
theorem decode_shortCodeOf {i : Instr} (h : microWordOf i = none) : decode (shortCodeOf i) = .ok i := by
  cases i with
  | reset cmd => revert cmd; decide
  | init | tick | drain | lookup | dispatch | rearm | decode | supervise | supent | tofire | sched | bucket | encode => rfl
  | _ => cases h

/-- Settles O1: a micro-instruction by its format, a host or sequencer operation by its code. -/
theorem decodeOfEncode : Obligations.DecodeOfEncode := by
  intro i hw
  unfold encode
  cases hm : microWordOf i with
  | none => exact decode_shortCodeOf hm
  | some m => exact (decodeMicro_microBits m).trans (decodeFields_of_microWordOf hm hw)

/-! ## Encoding what the decoder reads: what a format accepts is the word the encoder writes (R97) -/

section
variable {m : MicroWord} {i : Instr}

theorem microWordOf_of_formatF {k : BitVec 3 → BitVec 3 → BitVec 6 → BitVec 6 → Instr} (h : formatF m k = .ok i)
    (hk : ∀ b n s w, microWordOf (k b n s w) = some { microOp m.op with byte := b, nb1 := n, shift := s, w1 := w }) :
    microWordOf i = some m := by
  obtain ⟨hz, -, rfl⟩ := accept_ok.mp h
  obtain ⟨⟩ := m
  simp_all [microOp]

theorem microWordOf_of_formatB {k : BitVec 3 → BitVec 6 → Instr} (h : formatB m k = .ok i)
    (hk : ∀ b s, microWordOf (k b s) = some { microOp m.op with byte := b, shift := s }) : microWordOf i = some m := by
  obtain ⟨hz, -, rfl⟩ := accept_ok.mp h
  obtain ⟨⟩ := m
  simp_all [microOp]

theorem microWordOf_of_formatR {k : BitVec 16 → BitVec 3 → BitVec 6 → Instr} (h : formatR m k = .ok i)
    (hk : ∀ r b s, microWordOf (k r b s) = some { microOp m.op with byte := b, shift := s, w1 := 3, imm := r }) :
    microWordOf i = some m := by
  obtain ⟨hz, hr, rfl⟩ := accept_ok.mp h
  obtain ⟨⟩ := m
  simp_all [microOp]

theorem microWordOf_of_formatL {k : BitVec 16 → Instr} (h : formatL m k = .ok i)
    (hk : ∀ n, microWordOf (k n) = some { microOp m.op with imm := n }) : microWordOf i = some m := by
  obtain ⟨hz, -, rfl⟩ := accept_ok.mp h
  obtain ⟨⟩ := m
  simp_all [microOp, noField]

theorem microWordOf_of_formatIC {k : BitVec 16 → Instr} (h : formatIC m k = .ok i)
    (hk : ∀ n, microWordOf (k n) = some { microOp m.op with imm := n }) : microWordOf i = some m := by
  obtain ⟨hz, -, rfl⟩ := accept_ok.mp h
  obtain ⟨⟩ := m
  simp_all [microOp, noField]

theorem microWordOf_of_formatK {k : Key → Instr} (h : formatK m k = .ok i)
    (hk : ∀ key, microWordOf (k key) = some { microOp m.op with key := key }) : microWordOf i = some m := by
  obtain ⟨hz, -, rfl⟩ := accept_ok.mp h
  obtain ⟨⟩ := m
  simp_all [microOp, noField]

theorem microWordOf_of_formatT {k : Key → BitVec 16 → Instr} (h : formatT m k = .ok i)
    (hk : ∀ key n, microWordOf (k key n) = some { microOp m.op with imm := n, key := key }) : microWordOf i = some m := by
  obtain ⟨hz, -, rfl⟩ := accept_ok.mp h
  obtain ⟨⟩ := m
  simp_all [microOp, noField]

theorem microWordOf_of_formatZ {j : Instr} (h : formatZ m j = .ok i) (hk : microWordOf j = some (microOp m.op)) :
    microWordOf i = some m := by
  obtain ⟨hz, -, rfl⟩ := accept_ok.mp h
  obtain ⟨⟩ := m
  simp_all [microOp, noField]

theorem op_of_toNat {n : Nat} (h : m.op.toNat = n) : m.op = BitVec.ofNat 8 n := by
  rw [← h, BitVec.ofNat_toNat, BitVec.setWidth_eq]

/-- What fields decode to is encoded by those fields; case `h_n` is the row of opcode n (R98). -/
theorem microWordOf_of_decodeFields (h : decodeFields m = .ok i) : microWordOf i = some m := by
  unfold decodeFields at h
  split at h
  all_goals rename_i hop
  case h_25 => cases h
  all_goals replace hop := op_of_toNat hop
  case h_1 => exact microWordOf_of_formatL h fun _ => by rw [hop]; rfl
  case h_2 | h_3 | h_19 | h_20 => exact microWordOf_of_formatF h fun _ _ _ _ => by rw [hop]; rfl
  case h_4 | h_21 => exact microWordOf_of_formatB h fun _ _ => by rw [hop]; rfl
  case h_5 | h_6 | h_11 | h_12 | h_17 | h_18 => exact microWordOf_of_formatIC h fun _ => by rw [hop]; rfl
  case h_7 | h_8 | h_9 | h_10 | h_13 | h_14 => exact microWordOf_of_formatK h fun _ => by rw [hop]; rfl
  case h_15 | h_16 => exact microWordOf_of_formatT h fun _ _ => by rw [hop]; rfl
  case h_22 => exact microWordOf_of_formatR h fun _ _ _ => by rw [hop]; rfl
  case h_23 | h_24 => exact microWordOf_of_formatZ h (by rw [hop]; rfl)

end

/-! ## The patterns of opcode_table.json (R118) -/

/-- The words of a pattern, within the range conditions, decode. -/
def Covers (p : Pattern) : Prop := ∀ w : Word, w &&& p.mask = p.value → rangesHold w → ∃ i, decodeMicro w = .ok i

/-- Fields masked one by one. -/
def maskFields (m mask : MicroWord) : MicroWord where
  op := m.op &&& mask.op
  byte := m.byte &&& mask.byte
  nb1 := m.nb1 &&& mask.nb1
  shift := m.shift &&& mask.shift
  w1 := m.w1 &&& mask.w1
  rsv := m.rsv &&& mask.rsv
  imm := m.imm &&& mask.imm
  key := m.key &&& mask.key

theorem microFields_and_microBits (w : Word) (mask : MicroWord) :
    microFields (w &&& microBits mask) = maskFields (microFields w) mask := by
  rw [TableWord.microFields_and, TableWord.microFields_microBits, maskFields]

/-- The mask that fixes every bit; a format's mask leaves bits of its operands free. -/
def fixedWord : MicroWord :=
  { op := .allOnes 8, byte := .allOnes 3, nb1 := .allOnes 3, shift := .allOnes 6, w1 := .allOnes 6, rsv := .allOnes 6,
    imm := .allOnes 16, key := .allOnes 16 }

/-- A pattern given field by field covers its words where each of them is the word of a well-formed instruction. -/
theorem covers_of_fields {mask value : MicroWord}
    (h : ∀ m : MicroWord, maskFields m mask = value → (m.op.toNat = 0x01 → m.imm.toNat ≤ 8) →
      (m.op.toNat = 0x16 → m.shift.toNat ≤ 4) → ∃ i, microWordOf i = some m ∧ i.wf = true) :
    Covers ⟨microBits mask, microBits value⟩ := by
  intro w hp ⟨hl, hr⟩
  have hm := congrArg microFields hp
  rw [microFields_and_microBits, TableWord.microFields_microBits] at hm
  obtain ⟨i, hi, hw⟩ := h (microFields w) hm hl hr
  exact ⟨i, decodeFields_of_microWordOf hi hw⟩

/-! Each format of R97 covers the words in which all but its operands is fixed; `B` and `R` bound `SHIFT` by its high bits. -/

theorem covers_formatF (op : BitVec 8) (k : BitVec 3 → BitVec 3 → BitVec 6 → BitVec 6 → Instr)
    (hk : ∀ b n s w, microWordOf (k b n s w) = some { microOp op with byte := b, nb1 := n, shift := s, w1 := w } ∧
      (k b n s w).wf = true := by exact fun _ _ _ _ => ⟨rfl, rfl⟩) :
    Covers ⟨microBits { fixedWord with byte := 0, nb1 := 0, shift := 0, w1 := 0 }, microBits (microOp op)⟩ := by
  refine covers_of_fields fun m hm _ _ => ⟨k m.byte m.nb1 m.shift m.w1, ?_, (hk _ _ _ _).2⟩
  obtain ⟨⟩ := m
  simp_all [maskFields, microOp, fixedWord, -BitVec.reduceAllOnes]

theorem low3_of_masked : ∀ s : BitVec 6, s &&& 0x38#6 = 0 → s.toNat ≤ 7 := by decide

theorem covers_formatB (op : BitVec 8) (k : BitVec 3 → BitVec 6 → Instr)
    (hk : ∀ b s, microWordOf (k b s) = some { microOp op with byte := b, shift := s } ∧
      (k b s).wf = decide (s.toNat ≤ 7) := by exact fun _ _ => ⟨rfl, rfl⟩) :
    Covers ⟨microBits { fixedWord with byte := 0, shift := 0x38 }, microBits (microOp op)⟩ := by
  refine covers_of_fields fun m hm _ _ => ⟨k m.byte m.shift, ?_, ?_⟩
  · obtain ⟨⟩ := m
    simp_all [maskFields, microOp, fixedWord, -BitVec.reduceAllOnes]
  · rw [(hk _ _).2, decide_eq_true_eq]
    exact low3_of_masked _ (congrArg MicroWord.shift hm)

theorem covers_formatIC (op : BitVec 8) (k : BitVec 16 → Instr)
    (hk : ∀ n, microWordOf (k n) = some { microOp op with imm := n } ∧ (k n).wf = true := by exact fun _ => ⟨rfl, rfl⟩) :
    Covers ⟨microBits { fixedWord with imm := 0 }, microBits (microOp op)⟩ := by
  refine covers_of_fields fun m hm _ _ => ⟨k m.imm, ?_, (hk _).2⟩
  obtain ⟨⟩ := m
  simp_all [maskFields, microOp, fixedWord, -BitVec.reduceAllOnes]

theorem covers_formatK (op : BitVec 8) (k : Key → Instr)
    (hk : ∀ key, microWordOf (k key) = some { microOp op with key := key } ∧ (k key).wf = true := by
      exact fun _ => ⟨rfl, rfl⟩) :
    Covers ⟨microBits { fixedWord with key := 0 }, microBits (microOp op)⟩ := by
  refine covers_of_fields fun m hm _ _ => ⟨k m.key, ?_, (hk _).2⟩
  obtain ⟨⟩ := m
  simp_all [maskFields, microOp, fixedWord, -BitVec.reduceAllOnes]

theorem covers_formatT (op : BitVec 8) (k : Key → BitVec 16 → Instr)
    (hk : ∀ key n, microWordOf (k key n) = some { microOp op with imm := n, key := key } ∧ (k key n).wf = true := by
      exact fun _ _ => ⟨rfl, rfl⟩) :
    Covers ⟨microBits { fixedWord with imm := 0, key := 0 }, microBits (microOp op)⟩ := by
  refine covers_of_fields fun m hm _ _ => ⟨k m.key m.imm, ?_, (hk _ _).2⟩
  obtain ⟨⟩ := m
  simp_all [maskFields, microOp, fixedWord, -BitVec.reduceAllOnes]

theorem covers_formatZ (op : BitVec 8) (i : Instr)
    (hi : microWordOf i = some (microOp op) ∧ i.wf = true := by exact ⟨rfl, rfl⟩) :
    Covers ⟨microBits fixedWord, microBits (microOp op)⟩ := by
  refine covers_of_fields fun m hm _ _ => ⟨i, ?_, hi.2⟩
  obtain ⟨⟩ := m
  simp_all [maskFields, microOp, fixedWord, -BitVec.reduceAllOnes]

theorem op_of_masked {m mask value : MicroWord} (h : maskFields m mask = value) (hmask : mask.op = .allOnes 8) :
    m.op = value.op := by
  rw [← h, maskFields, hmask, BitVec.and_allOnes]

/-- Format `L` has one row; its range condition is `rangesHold`'s first. -/
theorem covers_lenchk : Covers ⟨microBits { fixedWord with imm := 0xFFF0 }, microBits (microOp 0x01)⟩ := by
  refine covers_of_fields fun m hm hl _ => ⟨.lenchk m.imm, ?_, ?_⟩
  · obtain ⟨⟩ := m
    simp_all [maskFields, microOp, fixedWord, microWordOf, -BitVec.reduceAllOnes]
  · exact decide_eq_true (hl (congrArg BitVec.toNat (op_of_masked hm rfl)))

/-- Format `R` has one row; its range condition is `rangesHold`'s second. -/
theorem covers_roll : Covers
    ⟨microBits { fixedWord with byte := 0, shift := 0x38, imm := 0 }, microBits { microOp 0x16 with w1 := 3 }⟩ := by
  refine covers_of_fields fun m hm _ hr => ⟨.roll m.imm m.byte m.shift, ?_, ?_⟩
  · obtain ⟨⟩ := m
    simp_all [maskFields, microOp, fixedWord, microWordOf, -BitVec.reduceAllOnes]
  · exact decide_eq_true (hr (congrArg BitVec.toNat (op_of_masked hm rfl)))

/-- Each row's pattern covers its words: the rows in the table's order, by their formats. -/
theorem covers_of_mem : ∀ p ∈ microPatterns, Covers p := by
  simp only [microPatterns, List.forall_mem_cons]
  exact ⟨covers_lenchk, covers_formatF 0x02 .unpku, covers_formatF 0x03 .unpks, covers_formatB 0x04 .flgget,
    covers_formatIC 0x05 .scdiv, covers_formatIC 0x06 .scmul, covers_formatK 0x07 .sbsetv, covers_formatK 0x08 .sbseta,
    covers_formatK 0x09 .stclr, covers_formatK 0x0A .stset, covers_formatIC 0x0B .ldai, covers_formatIC 0x0C .ldvc,
    covers_formatK 0x0D .sbgetv, covers_formatK 0x0E .sbgeta, covers_formatT 0x0F .catsel, covers_formatT 0x10 .uconv,
    covers_formatIC 0x11 .encmul, covers_formatIC 0x12 .encdiv, covers_formatF 0x13 .packu, covers_formatF 0x14 .packs,
    covers_formatB 0x15 .flgput, covers_roll, covers_formatZ 0x17 .send, covers_formatZ 0x18 .end_, nofun⟩

/-! ## The words that decode (R118) -/

/-- The row of a micro-instruction is one of the 24. -/
theorem row_mem_microPatterns {i : Instr} {m : MicroWord} (h : microWordOf i = some m) :
    ⟨(TableWord.row i).mask, (TableWord.row i).value⟩ ∈ microPatterns := by
  cases i with
  | reset | init | tick | drain | lookup | dispatch | rearm | decode | supervise | supent | tofire | sched | bucket | encode =>
    cases h
  | _ => simp [TableWord.row, microPatterns]

theorem microWord_statement {i : Instr} {m : MicroWord} (h : microWordOf i = some m) : TableWord.Statement i := by
  cases i with
  | reset | init | tick | drain | lookup | dispatch | rearm | decode | supervise | supent | tofire | sched | bucket | encode =>
    cases h
  | lenchk => exact TableWord.lenchk _
  | unpku => exact TableWord.unpku _ _ _ _
  | unpks => exact TableWord.unpks _ _ _ _
  | flgget => exact TableWord.flgget _ _
  | scdiv => exact TableWord.scdiv _
  | scmul => exact TableWord.scmul _
  | sbsetv => exact TableWord.sbsetv _
  | sbseta => exact TableWord.sbseta _
  | stclr => exact TableWord.stclr _
  | stset => exact TableWord.stset _
  | ldai => exact TableWord.ldai _
  | ldvc => exact TableWord.ldvc _
  | sbgetv => exact TableWord.sbgetv _
  | sbgeta => exact TableWord.sbgeta _
  | catsel => exact TableWord.catsel _ _
  | uconv => exact TableWord.uconv _ _
  | encmul => exact TableWord.encmul _
  | encdiv => exact TableWord.encdiv _
  | packu => exact TableWord.packu _ _ _ _
  | packs => exact TableWord.packs _ _ _ _
  | flgput => exact TableWord.flgput _ _
  | roll => exact TableWord.roll _ _ _
  | send => exact TableWord.send
  | end_ => exact TableWord.end_

/-- What a word decodes to is well-formed and has that word as its code. -/
theorem encode_of_decodeMicro {w : Word} {i : Instr} (h : decodeMicro w = .ok i) : i.wf = true ∧ encode i = .micro w := by
  refine ⟨decodeMicro_wf h, ?_⟩
  rw [encode, microWordOf_of_decodeFields h]
  exact congrArg Code.micro (TableWord.microBits_microFields w)

/-- A word that decodes is a word of the row of what it decodes to. -/
theorem pattern_of_decodeMicro {w : Word} {i : Instr} (h : decodeMicro w = .ok i) :
    ∃ p ∈ microPatterns, w &&& p.mask = p.value := by
  have hm := microWordOf_of_decodeFields h
  obtain ⟨hw, he⟩ := encode_of_decodeMicro h
  have hrow := (microWord_statement hm hw).2
  rw [he] at hrow
  exact ⟨_, row_mem_microPatterns hm, hrow⟩

/-- `LENCHK` and `ROLL` alone have their opcodes, and are in range. -/
theorem ranges_of_microWordOf {i : Instr} {m : MicroWord} (hm : microWordOf i = some m) (hw : i.wf = true) :
    (m.op.toNat = 0x01 → m.imm.toNat ≤ 8) ∧ (m.op.toNat = 0x16 → m.shift.toNat ≤ 4) := by
  cases i with
  | reset | init | tick | drain | lookup | dispatch | rearm | decode | supervise | supent | tofire | sched | bucket | encode =>
    cases hm
  | lenchk =>
    obtain rfl := Option.some.inj hm
    exact ⟨fun _ => of_decide_eq_true hw, nofun⟩
  | roll =>
    obtain rfl := Option.some.inj hm
    exact ⟨nofun, fun _ => of_decide_eq_true hw⟩
  | _ =>
    obtain rfl := Option.some.inj hm
    exact ⟨nofun, nofun⟩

/-- Settles O2: the rows cover their words, what decodes has the code of a row, and the code determines the word. -/
theorem legalWordsAreTheTable : Obligations.LegalWordsAreTheTable := by
  refine ⟨fun w => ⟨?_, ?_⟩, fun w i h => encode_of_decodeMicro h, fun w w' i h h' => ?_⟩
  · rintro ⟨i, h⟩
    exact ⟨pattern_of_decodeMicro h, ranges_of_microWordOf (microWordOf_of_decodeFields h) (decodeMicro_wf h)⟩
  · rintro ⟨⟨p, hp, hw⟩, hr⟩
    exact covers_of_mem p hp w hw hr
  · exact Code.micro.inj ((encode_of_decodeMicro h).2.symm.trans (encode_of_decodeMicro h').2)

/-- Settles O3: each code evaluates. -/
theorem sampleWordsDecode : Obligations.SampleWordsDecode := by
  refine ⟨?_, ?_, ?_, ?_, ?_, ?_, ?_, ?_, ?_⟩ <;> rfl

end Sys2Proof.Machine
end

section
/-! SUPPORT. One step from each position: what is fetched there (30_encoding.md R105, R107; 42_codec_decode.md R170), and how the
machine goes on after it. -/

namespace Sys2Proof.Machine

/-! ## A step in terms of the fetch -/

section
variable {s s' : State} {code : Code} {i : Instr}

theorem step_of_fetch (hf : fetch s = .code code s') (hd : decode code = .ok i) :
    step s = andThen (exec i s') (resume (position s)) := by
  simp only [step, hf, hd]

theorem step_of_illegal {e : Illegal} (hf : fetch s = .code code s') (hd : decode code = .error e) :
    step s = notInstruction e s' := by
  simp only [step, hf, hd]

end

/-- Where the machine goes on with nothing, the outcome stands. -/
theorem andThen_resume_host (o : Out) : andThen o (resume .host) = o := by
  cases o <;> rfl

/-! ## The three positions -/

section
variable {s : State}

theorem position_host (hu : s.upc = none) (hp : s.phase = .idle) : position s = .host := by
  simp [position, hu, hp]

/-- A phase whose code decodes is one in which the sequencer runs an operation (R107). -/
theorem position_sequencer {i : Instr} (hu : s.upc = none) (hd : decode (.phase s.phase.code) = .ok i) :
    position s = .sequencer s.phase := by
  cases hp : s.phase with
  | idle | initp =>
    rw [hp] at hd
    cases hd
  | _ => simp [position, hu, hp]

theorem position_micro {u : Nat} (hu : s.upc = some u) : position s = .micro := by
  simp [position, hu]

theorem fetch_host {r : HostRequest} {rest : List HostRequest} (hpos : position s = .host) (hin : s.inputs = r :: rest) :
    fetch s = .code (.host r.word) (s.take r rest) := by
  simp only [fetch, hpos, hin]

theorem fetch_sequencer {p : Phase} (hpos : position s = .sequencer p) : fetch s = .code (.phase p.code) s := by
  simp only [fetch, hpos]

theorem fetch_micro {c : Cfg} {u : Nat} {w : Word} (hu : s.upc = some u) (hc : s.cfg = some c) (hw : c.uc[u]? = some w) :
    fetch s = .code (.micro w) s := by
  simp only [fetch, position_micro hu, fetchWord, hu, hc, hw]

/-- Between operations a step is the host's operation on the taken inputs. -/
theorem step_host {r : HostRequest} {rest : List HostRequest} {i : Instr} (hu : s.upc = none) (hp : s.phase = .idle)
    (hin : s.inputs = r :: rest) (hd : decode (.host r.word) = .ok i) : step s = exec i (s.take r rest) := by
  have hpos := position_host hu hp
  rw [step_of_fetch (fetch_host hpos hin) hd, hpos, andThen_resume_host]

end

/-- Settles O6: at each position, the fetch there and what follows it. -/
theorem stepRunsDecoded : Obligations.StepRunsDecoded := by
  refine ⟨fun s r rest i hu hp hin hd _ => ?_, fun s i hu hd _ => ?_, fun s c u w i hu hc hw hd _ => ?_⟩
  · exact step_host hu hp hin hd
  · have hpos := position_sequencer hu hd
    rw [step_of_fetch (fetch_sequencer hpos) hd, hpos]
    rfl
  · rw [step_of_fetch (fetch_micro hu hc hw) hd, position_micro hu]
    rfl

/-! ## The host's commands (R105, 45_engine_tick.md R270) -/

theorem decode_host_rst (cmd : BitVec 2) : decode (.host (1#1 ++ cmd)) = .ok (.reset cmd) := by
  revert cmd
  decide

/-- Settles O7: the command word decides, and INIT and TICK look at the engine state, which taking the inputs leaves. -/
theorem hostCommands : Obligations.HostCommands := by
  intro s r rest hu hp hin
  have hf := fetch_host (position_host hu hp) hin
  refine ⟨fun cmd hw => ?_, fun hw => ?_, fun hw he => ?_, fun hw he => ?_, fun hw => ?_⟩
  · exact step_host hu hp hin (hw ▸ decode_host_rst cmd)
  · exact step_of_illegal (e := .noOperation) hf (hw ▸ rfl)
  · rw [step_host hu hp hin (i := .init) (hw ▸ rfl)]
    exact if_neg he
  · rw [step_host hu hp hin (i := .tick) (hw ▸ rfl)]
    exact if_neg he
  · exact step_of_illegal (e := .reservedCommand) hf (hw ▸ rfl)

end Sys2Proof.Machine
end

section
/-! SUPPORT. Bit images (30_encoding.md R91, R93 to R95, R99 to R102): the fields of each record's image, and that reading an
image and writing it are inverse to one another. -/

namespace Sys2Proof.Machine

/-! ## Flags and numbers as bits -/

theorem ofBool_getLsbD {n : Nat} (w : BitVec n) (i : Nat) : BitVec.ofBool (w.getLsbD i) = w.extractLsb' i 1 := by
  have one_bit : ∀ b : BitVec 1, BitVec.ofBool (b == 1#1) = b := by decide
  rw [BitVec.getLsbD_eq_extractLsb', one_bit]

theorem getLsbD_of_extractLsb' {n i : Nat} {w : BitVec n} {b : Bool} (h : w.extractLsb' i 1 = BitVec.ofBool b) :
    w.getLsbD i = b := by
  rw [BitVec.getLsbD_eq_extractLsb', h]
  cases b <;> rfl

theorem toNat_ofNat_of_lt {n x : Nat} (h : x < 2 ^ n) : (BitVec.ofNat n x).toNat = x := by
  rw [BitVec.toNat_ofNat, Nat.mod_eq_of_lt h]

theorem map_map_of_leftInverse {α β : Type} {f : α → β} {g : β → α} {l : List α} (h : ∀ x ∈ l, g (f x) = x) :
    (l.map f).map g = l := by
  rw [List.map_map]
  exact (List.map_congr_left h).trans (List.map_id l)

/-! ## The frame (R91) -/

theorem payloadBits_byte (p : Vector Byte 8) {i : Nat} (h : i < 8) : (payloadBits p).extractLsb' (8 * i) 8 = p[i] := by
  simp only [payloadBits]
  interval_cases i <;>
  · simp only [BitVec.extractLsb'_append_eq_ite]
    simp

theorem payloadOfBits_byte (w : BitVec 64) {i : Nat} (h : i < 8) : (payloadOfBits w)[i] = w.extractLsb' (8 * i) 8 := by
  interval_cases i <;> rfl

theorem payloadOfBits_payloadBits (p : Vector Byte 8) : payloadOfBits (payloadBits p) = p :=
  Vector.ext fun _ h => (payloadOfBits_byte _ h).trans (payloadBits_byte p h)

theorem payloadBits_payloadOfBits (w : BitVec 64) : payloadBits (payloadOfBits w) = w := by
  simp only [payloadBits, payloadOfBits_byte]
  iterate 7 rw [BitVec.extractLsb'_append_extractLsb'_eq_extractLsb' (by rfl)]
  exact BitVec.extractLsb'_eq_self

theorem Ident.bits_eq (x : Ident) : x.bits = BitVec.ofNat 29 x.id := by
  cases x with
  | std i => exact (BitVec.ofNat_toNat 29 i).symm
  | ext i => exact ((BitVec.ofNat_toNat 29 i).trans (BitVec.setWidth_eq i)).symm

theorem Ident.id_lt (x : Ident) : x.id < 2 ^ 29 := by
  cases x with
  | std i => exact lt_trans i.isLt (by decide)
  | ext i => exact i.isLt

/-- A pair (`ID`, `IDE`) is that of exactly one identifier, or of none (R92). -/
theorem Ident.ofRaw_eq_some {id : Nat} {ide : Bool} {x : Ident} : Ident.ofRaw id ide = some x ↔ x.id = id ∧ x.ide = ide := by
  constructor
  · intro h
    have hf : idFits id ide = true := by
      cases ide <;> simp [Ident.ofRaw, idFits] at h ⊢ <;> omega
    obtain ⟨y, hy, hid⟩ := Ident.ofRaw_of_fits hf
    obtain rfl := Option.some.inj (hy.symm.trans h)
    exact hid
  · rintro ⟨rfl, rfl⟩
    cases x with
    | std i => simp [Ident.ofRaw, Ident.id, Ident.ide, i.isLt]
    | ext i => simp [Ident.ofRaw, Ident.id, Ident.ide, i.isLt]

theorem Frame.image_fields (f : Frame) :
    f.image.extractLsb' 0 29 = f.ident.bits ∧ f.image.extractLsb' 29 1 = BitVec.ofBool f.ident.ide ∧
      f.image.extractLsb' 30 1 = BitVec.ofBool f.rtr ∧ f.image.extractLsb' 31 4 = BitVec.ofNat 4 f.len.val ∧
      f.image.extractLsb' 35 64 = payloadBits f.payload := by
  simp only [Frame.image, BitVec.extractLsb'_append_eq_ite]
  simp

theorem Frame.image_byte (f : Frame) {i : Nat} (h : i < 8) : f.image.extractLsb' (35 + 8 * i) 8 = f.payload[i] := by
  rw [Frame.image]
  iterate 4 rw [BitVec.extractLsb'_append_eq_of_le (by omega)]
  rw [show 35 + 8 * i - 29 - 1 - 1 - 4 = 8 * i by omega, payloadBits_byte]

theorem frameOfImage_image (f : Frame) : frameOfImage f.image = some f := by
  obtain ⟨hid, hide, hrtr, hlen, hpay⟩ := f.image_fields
  have hraw : Ident.ofRaw f.ident.bits.toNat f.ident.ide = some f.ident :=
    Ident.ofRaw_eq_some.mpr ⟨by rw [Ident.bits_eq, toNat_ofNat_of_lt f.ident.id_lt], rfl⟩
  have hn : (BitVec.ofNat 4 f.len.val).toNat = f.len.val := toNat_ofNat_of_lt (by omega)
  simp only [frameOfImage, hid, getLsbD_of_extractLsb' hide, getLsbD_of_extractLsb' hrtr, hlen, hpay, hraw, hn,
    payloadOfBits_payloadBits, Option.bind_some, f.len.isLt, dif_pos]

theorem image_of_frameOfImage {w : BitVec 99} {f : Frame} (h : frameOfImage w = some f) : f.image = w := by
  obtain ⟨x, hx, h⟩ := Option.bind_eq_some_iff.mp h
  obtain ⟨hid, hide⟩ := Ident.ofRaw_eq_some.mp hx
  split at h
  · obtain rfl := Option.some.inj h
    simp only [Frame.image, Ident.bits_eq, hid, hide, payloadBits_payloadOfBits, BitVec.ofNat_toNat, BitVec.setWidth_eq,
      ofBool_getLsbD]
    iterate 4 rw [BitVec.extractLsb'_append_extractLsb'_eq_extractLsb' (by rfl)]
    exact BitVec.extractLsb'_eq_self
  · cases h

/-- Settles O4: the fields of the image, and the two ways round. -/
theorem frameWord : Obligations.FrameWord := by
  refine ⟨fun f => ?_, fun w f h => image_of_frameOfImage h⟩
  obtain ⟨hid, hide, hrtr, hlen, -⟩ := f.image_fields
  refine ⟨?_, getLsbD_of_extractLsb' hide, getLsbD_of_extractLsb' hrtr, ?_, fun i h => f.image_byte h, frameOfImage_image f⟩
  · rw [hid, Ident.bits_eq, toNat_ofNat_of_lt f.ident.id_lt]
  · rw [hlen, toNat_ofNat_of_lt (by omega)]

/-! ## Registry, encoder and bucket entries (R93 to R95) -/

theorem RegEntry.image_fields (r : RegEntry) :
    r.image.extractLsb' 0 29 = BitVec.ofNat 29 r.id ∧ r.image.extractLsb' 29 1 = BitVec.ofBool r.ide ∧
      r.image.extractLsb' 30 16 = BitVec.ofInt 16 r.reload ∧ r.image.extractLsb' 46 16 = BitVec.ofNat 16 r.decAddr ∧
      r.image.extractLsb' 62 16 = BitVec.ofNat 16 r.toAddr := by
  simp only [RegEntry.image, BitVec.extractLsb'_append_eq_ite]
  simp

theorem regOfImage_image {r : RegEntry} (hid : r.id < 2 ^ 29) (hdec : r.decAddr < 2 ^ 16) (hto : r.toAddr < 2 ^ 16)
    (hlo : -(2 ^ 15) ≤ r.reload) (hhi : r.reload < 2 ^ 15) : regOfImage r.image = r := by
  obtain ⟨h1, h2, h3, h4, h5⟩ := r.image_fields
  simp only [regOfImage, h1, getLsbD_of_extractLsb' h2, h3, h4, h5, toNat_ofNat_of_lt hid, toNat_ofNat_of_lt hdec,
    toNat_ofNat_of_lt hto, BitVec.toInt_ofInt_eq_self (w := 16) (by decide) hlo hhi]

theorem image_regOfImage (w : BitVec 78) : (regOfImage w).image = w := by
  simp only [regOfImage, RegEntry.image, BitVec.ofNat_toNat, BitVec.ofInt_toInt, BitVec.setWidth_eq, ofBool_getLsbD]
  iterate 4 rw [BitVec.extractLsb'_append_extractLsb'_eq_extractLsb' (by rfl)]
  exact BitVec.extractLsb'_eq_self

theorem EncEntry.image_fields (e : EncEntry) :
    e.image.extractLsb' 0 29 = BitVec.ofNat 29 e.id ∧ e.image.extractLsb' 29 1 = BitVec.ofBool e.ide ∧
      e.image.extractLsb' 30 4 = BitVec.ofNat 4 e.dlc ∧ e.image.extractLsb' 34 16 = BitVec.ofNat 16 e.base := by
  simp only [EncEntry.image, BitVec.extractLsb'_append_eq_ite]
  simp

theorem encOfImage_image {e : EncEntry} (hid : e.id < 2 ^ 29) (hdlc : e.dlc < 2 ^ 4) (hbase : e.base < 2 ^ 16) :
    encOfImage e.image = e := by
  obtain ⟨h1, h2, h3, h4⟩ := e.image_fields
  simp only [encOfImage, h1, getLsbD_of_extractLsb' h2, h3, h4, toNat_ofNat_of_lt hid, toNat_ofNat_of_lt hdlc,
    toNat_ofNat_of_lt hbase]

theorem image_encOfImage (w : BitVec 50) : (encOfImage w).image = w := by
  simp only [encOfImage, EncEntry.image, BitVec.ofNat_toNat, BitVec.setWidth_eq, ofBool_getLsbD]
  iterate 3 rw [BitVec.extractLsb'_append_extractLsb'_eq_extractLsb' (by rfl)]
  exact BitVec.extractLsb'_eq_self

theorem Bucket.image_fields (b : Bucket) :
    b.image.1.extractLsb' 0 16 = BitVec.ofNat 16 b.per ∧ b.image.1.extractLsb' 16 16 = BitVec.ofNat 16 b.list.length :=
  ⟨BitVec.extractLsb'_append_eq_right, BitVec.extractLsb'_append_eq_left⟩

theorem bucketOfImage_image {b : Bucket} (hper : b.per < 2 ^ 16) (hlist : b.image.2.map BitVec.toNat = b.list) :
    bucketOfImage b.image.1 b.image.2 = some b := by
  obtain ⟨h1, h2⟩ := b.image_fields
  have hlen : (BitVec.ofNat 16 b.list.length).toNat = b.image.2.length := by
    rw [toNat_ofNat_of_lt (Nat.lt_succ_of_le b.listLe), Bucket.image, List.length_map]
  simp only [bucketOfImage, h1, h2, hlen, le_refl, if_true, List.take_length, hlist, toNat_ofNat_of_lt hper]

/-! ## Constants, tables, filters (R99 to R102) -/

theorem PoolEntry.image_fields (p : PoolEntry) : p.image.extractLsb' 0 32 = p.num ∧ p.image.extractLsb' 32 32 = p.den :=
  ⟨BitVec.extractLsb'_append_eq_right, BitVec.extractLsb'_append_eq_left⟩

theorem UnitConv.image_fields (u : UnitConv) : u.image.extractLsb' 0 16 = u.c0 ∧ u.image.extractLsb' 16 16 = u.c1 :=
  ⟨BitVec.extractLsb'_append_eq_right, BitVec.extractLsb'_append_eq_left⟩

theorem Cand.image_fields (x : Cand) : x.image.extractLsb' 0 16 = x.key ∧ x.image.extractLsb' 16 16 = x.cidx :=
  ⟨BitVec.extractLsb'_append_eq_right, BitVec.extractLsb'_append_eq_left⟩

theorem candOfImage_image (x : Cand) : candOfImage x.image = x := by
  rw [candOfImage, x.image_fields.1, x.image_fields.2]

theorem catOfImage_image (t : CatTable) : catOfImage t.image.1 t.image.2 = some t := by
  have hn : t.image.1.toNat = (t.cand.map Cand.image).length := by
    rw [List.length_map]
    exact toNat_ofNat_of_lt (Nat.lt_succ_of_le t.candLe)
  have hd : t.image.2[t.image.1.toNat]? = some t.dflt.image := by
    rw [hn]
    exact List.getElem?_concat_length
  have htake : (t.image.2.take t.image.1.toNat).map candOfImage = t.cand := by
    rw [hn, CatTable.image, List.take_left]
    exact map_map_of_leftInverse fun x _ => candOfImage_image x
  simp only [catOfImage, hd, htake, candOfImage_image]

theorem RawIdent.image_fields (x : RawIdent) :
    x.image.extractLsb' 0 29 = BitVec.ofNat 29 x.id ∧ x.image.extractLsb' 29 1 = BitVec.ofBool x.ide :=
  ⟨BitVec.extractLsb'_append_eq_right, BitVec.extractLsb'_append_eq_left⟩

theorem FilterBank.image_fields (b : FilterBank) :
    b.image.1.extractLsb' 0 8 = b.bank ∧ b.image.1.extractLsb' 8 8 = BitVec.ofNat 8 b.ids.length :=
  ⟨BitVec.extractLsb'_append_eq_right, BitVec.extractLsb'_append_eq_left⟩

theorem rawOfImage_image {x : RawIdent} (h : x.id < 2 ^ 29) : rawOfImage x.image = x := by
  obtain ⟨h1, h2⟩ := x.image_fields
  rw [rawOfImage, h1, getLsbD_of_extractLsb' h2, toNat_ofNat_of_lt h]

theorem filterOfImage_image {b : FilterBank} (h : ∀ x ∈ b.ids, x.id < 2 ^ 29) :
    filterOfImage b.image.1 b.image.2 = some b := by
  obtain ⟨h1, h2⟩ := b.image_fields
  have hlen : (BitVec.ofNat 8 b.ids.length).toNat = b.image.2.length := by
    rw [toNat_ofNat_of_lt (Nat.lt_succ_of_le b.idsLe), FilterBank.image, List.length_map]
  have hids : b.image.2.map rawOfImage = b.ids := map_map_of_leftInverse fun x hx => rawOfImage_image (h x hx)
  simp only [filterOfImage, h1, h2, hlen, le_refl, if_true, List.take_length, hids]

/-- Settles O5: each record by the fields of its image; where the image of a record is read back as it, so is each field. -/
theorem tableImages : Obligations.TableImages := by
  refine ⟨fun r hid hdec hto hlo hhi => ?_, image_regOfImage, fun e hid hdlc hbase => ?_, image_encOfImage,
    fun b hper hlist => ?_, fun p => ?_, fun w => BitVec.extractLsb'_append_extractLsb', fun t => ?_, fun u => ?_,
    fun w => BitVec.extractLsb'_append_extractLsb', fun t => ?_, fun b hids => ?_⟩
  · have h := regOfImage_image hid hdec hto hlo hhi
    exact ⟨congrArg RegEntry.id h, congrArg RegEntry.ide h, congrArg RegEntry.reload h, congrArg RegEntry.decAddr h,
      congrArg RegEntry.toAddr h, h⟩
  · have h := encOfImage_image hid hdlc hbase
    exact ⟨congrArg EncEntry.id h, congrArg EncEntry.ide h, congrArg EncEntry.dlc h, congrArg EncEntry.base h, h⟩
  · obtain ⟨h1, h2⟩ := b.image_fields
    have hl : b.image.2.map BitVec.toNat = b.list := map_map_of_leftInverse fun x hx => toNat_ofNat_of_lt (hlist x hx)
    refine ⟨?_, ?_, hl, bucketOfImage_image hper hl⟩
    · rw [h1, toNat_ofNat_of_lt hper]
    · rw [h2, toNat_ofNat_of_lt (Nat.lt_succ_of_le b.listLe)]
  · obtain ⟨h1, h2⟩ := p.image_fields
    exact ⟨h1, h2, by rw [poolOfImage, h1, h2]⟩
  · refine ⟨toNat_ofNat_of_lt (Nat.lt_succ_of_le t.candLe), ?_, catOfImage_image t⟩
    have himage : t.image.2 = (t.cand ++ [t.dflt]).map Cand.image := by
      rw [CatTable.image, List.map_append, List.map_singleton]
    rw [himage, List.map_map]
    exact List.map_congr_left fun x _ => Prod.ext x.image_fields.1 x.image_fields.2
  · obtain ⟨h1, h2⟩ := u.image_fields
    exact ⟨h1, h2, by rw [uctOfImage, h1, h2]⟩
  · rcases t with _ | _ | _ <;> decide
  · obtain ⟨h1, h2⟩ := b.image_fields
    refine ⟨h1, ?_, ?_, filterOfImage_image hids⟩
    · rw [h2, toNat_ofNat_of_lt (Nat.lt_succ_of_le b.idsLe)]
    · rw [FilterBank.image, List.map_map]
      refine List.map_congr_left fun x hx => ?_
      have h := rawOfImage_image (hids x hx)
      exact Prod.ext (congrArg RawIdent.id h) (congrArg RawIdent.ide h)

end Sys2Proof.Machine
end

section
/-! SUPPORT. The registry (40_registry_supervisor.md R131, R132): where no two entries have the same identifier and addressing
mode, LOOKUP's loop finds the one that has the frame's. -/

namespace Sys2Proof.Machine

/-! ## Entries that match -/

theorem RegEntry.matches_iff {r : RegEntry} {f : Frame} :
    r.matches f = true ↔ r.id = f.ident.id ∧ r.ide = f.ident.ide := by
  simp only [RegEntry.matches, Bool.and_eq_true, beq_iff_eq]

/-- `WF_UNIQ` (45_engine_tick.md R264): no pair (`ID`, `IDE`) occurs twice. -/
theorem wfUniq_iff_nodup (rs : List RegEntry) : wfUniq rs = true ↔ (rs.map fun r => (r.id, r.ide)).Nodup := by
  induction rs with
  | nil => simp [wfUniq]
  | cons r rs ih => simp [wfUniq, absent, ih, or_iff_not_imp_left]

/-- In a checked configuration one entry at most has a frame's identifier and addressing mode. -/
theorem matches_unique {c : Cfg} (hc : checkCfg c = .ok) {f : Frame} {i j : Nat} {ri rj : RegEntry}
    (hi : c.reg[i]? = some ri) (hj : c.reg[j]? = some rj) (hri : ri.matches f = true) (hrj : rj.matches f = true) :
    i = j := by
  obtain ⟨hid, hide⟩ := RegEntry.matches_iff.mp hri
  obtain ⟨hjd, hjde⟩ := RegEntry.matches_iff.mp hrj
  have hlt : i < (c.reg.map fun r => (r.id, r.ide)).length := by
    rw [List.length_map]
    exact (List.getElem?_eq_some_iff.mp hi).1
  refine (List.getElem?_inj hlt ((wfUniq_iff_nodup _).mp (checkCfg_ok hc).1)).mp ?_
  simp only [List.getElem?_map, hi, hj, Option.map_some, hid, hide, hjd, hjde]

/-! ## The loop of LOOKUP -/

/-- Entries that do not match leave the hit as it was. -/
theorem lookupFrom_of_unmatched {f : Frame} : ∀ {rs : List RegEntry} (n : Nat) (h : Hit),
    (∀ r ∈ rs, r.matches f = false) → lookupFrom f n rs h = h
  | [], _, _, _ => rfl
  | r :: rs, n, h, hr => by
    rw [lookupFrom, hr r List.mem_cons_self]
    exact lookupFrom_of_unmatched (n + 1) h fun x hx => hr x (List.mem_cons_of_mem r hx)

/-- The loop finds an entry that matches where no other one does. -/
theorem lookupFrom_of_unique {f : Frame} : ∀ {rs : List RegEntry} (n : Nat) (h : Hit) {i : Nat} {r : RegEntry},
    rs[i]? = some r → r.matches f = true → (∀ j x, rs[j]? = some x → x.matches f = true → j = i) →
      lookupFrom f n rs h = .found (n + i)
  | x :: rs, n, h, 0, r, hi, hm, hu => by
    obtain rfl := Option.some.inj hi
    rw [lookupFrom, if_pos hm]
    refine lookupFrom_of_unmatched _ _ fun y hy => ?_
    obtain ⟨j, hj⟩ := List.mem_iff_getElem?.mp hy
    by_contra hne
    exact absurd (hu (j + 1) y hj (by simpa using hne)) (Nat.succ_ne_zero j)
  | x :: rs, n, h, i + 1, r, hi, hm, hu => by
    rw [lookupFrom, lookupFrom_of_unique (n + 1) _ (i := i) hi hm fun j y hj hy => Nat.succ.inj (hu (j + 1) y hj hy)]
    congr 1
    omega

/-- What the loop finds is an entry that matches. -/
theorem lookupFrom_found {f : Frame} : ∀ {rs : List RegEntry} {n i : Nat} {h : Hit}, lookupFrom f n rs h = .found i →
    h = .found i ∨ ∃ j r, rs[j]? = some r ∧ r.matches f = true ∧ i = n + j
  | [], _, _, _, hl => .inl hl
  | r :: rs, n, i, h, hl => by
    rw [lookupFrom] at hl
    rcases lookupFrom_found hl with hh | ⟨j, x, hx, hm, rfl⟩
    · split at hh
      · rename_i hm
        obtain rfl := Hit.found.inj hh
        exact .inr ⟨0, r, rfl, hm, rfl⟩
      · exact .inl hh
    · exact .inr ⟨j + 1, x, hx, hm, by omega⟩

/-! ## LOOKUP -/

/-- The hit that LOOKUP leaves for a frame. -/
def Cfg.lookup (c : Cfg) (f : Frame) : Hit := lookupFrom f 0 c.reg .miss

theorem execLookup_of {c : Cfg} {s : State} {f : Frame} (hc : s.cfg = some c) (hf : s.frx = some f) :
    execLookup s = .next { s with phase := .lookup, hit := some (c.lookup f) } := by
  simp only [execLookup, hc, hf, need_of_some, Cfg.lookup]

theorem lookup_eq_found {c : Cfg} (hc : checkCfg c = .ok) {f : Frame} {i : Nat} :
    c.lookup f = .found i ↔ ∃ r, c.reg[i]? = some r ∧ r.matches f = true := by
  constructor
  · intro h
    rcases lookupFrom_found h with hm | ⟨j, r, hr, hm, rfl⟩
    · cases hm
    · exact ⟨r, by rwa [Nat.zero_add], hm⟩
  · rintro ⟨r, hr, hm⟩
    rw [Cfg.lookup, lookupFrom_of_unique 0 .miss hr hm fun j x hj hx => matches_unique hc hj hr hx hm, Nat.zero_add]

/-- Settles O21: the loop finds what matches, and by `WF_UNIQ` one entry at most does. -/
theorem lookupLaw : Obligations.LookupLaw := by
  intro c s f hr hf
  refine ⟨c.lookup f, execLookup_of hr.held hf, fun i => ?_, fun i j ri rj hi hj hid hide hjd hjde => ?_⟩
  · simp only [lookup_eq_found hr.checked, RegEntry.matches_iff]
  · exact matches_unique hr.checked hi hj (RegEntry.matches_iff.mpr ⟨hid, hide⟩) (RegEntry.matches_iff.mpr ⟨hjd, hjde⟩)

end Sys2Proof.Machine
end

section
/-! SUPPORT. The timeout supervisor (40_registry_supervisor.md R133 to R138): a timeout handler only sets signals, so TOFIRE
completes and changes no counter; SUPENT takes one counter one step; SUPERVISE does so for every entry, in ascending order. -/

namespace Sys2Proof.Machine

/-! ## The setters of integers -/

theorem advance_busSet {s : State} {u : Nat} (hu : s.upc = some u) (k : Key) (v : SigVal) :
    advance (s.busSet k v) =
      .next { s with sb := Bus.put s.sb k v, events := s.events ++ [.set k v], upc := some (u + 1) } :=
  advance_of hu

/-- Settles O43: each is one set and the step to the next word; SBSETA reads `A` first. -/
theorem setIntResult : Obligations.SetIntResult := by
  refine fun k s u hu => ⟨fun a ha => ?_, advance_busSet hu k _, advance_busSet hu k _⟩
  have hread : exec (.sbseta k) s = advance (s.busSet k (.int a)) := by
    simp only [exec, execSbseta, ha, need_of_some]
  rw [hread, advance_busSet hu]

/-! ## Timeouts among the events -/

theorem mem_timeoutsIn {es : List Event} {i : Nat} : i ∈ timeoutsIn es ↔ Event.cond (.timeout i) ∈ es := by
  simp only [timeoutsIn, List.mem_filterMap]
  constructor
  · rintro ⟨e, he, h⟩
    split at h
    · exact Option.some.inj h ▸ he
    · cases h
  · exact fun h => ⟨_, h, rfl⟩

theorem timeoutsIn_append (es fs : List Event) : timeoutsIn (es ++ fs) = timeoutsIn es ++ timeoutsIn fs :=
  List.filterMap_append

theorem timeoutsIn_eq_nil {es : List Event} (h : ∀ e ∈ es, ∀ i, e ≠ .cond (.timeout i)) : timeoutsIn es = [] :=
  List.eq_nil_iff_forall_not_mem.mpr fun i hi => h _ (mem_timeoutsIn.mp hi) i rfl

/-! ## The runs of decode and timeout handlers -/

/-- The run of a checked decode or timeout handler completes (45_engine_tick.md R265): the faults that are left are those of
encode handlers. -/
theorem runHandler_completes {c : Cfg} {k : HandlerKind} {base : Nat} {is : List Instr} {s : State} (ht : TablesOk c)
    (h : Checked c k 0 base is) (hk : k ≠ .encode) (hc : s.cfg = some c) (hf : k = .decode → ∃ f, s.frx = some f) :
    ∃ t, runHandler k base s = .next t := by
  have ho := runHandler_outcome ht h (Nat.zero_le 8)
    ⟨hc, hf, fun he => absurd he hk, fun he => absurd he hk, fun he => absurd he hk⟩
  cases hr : runHandler k base s with
  | next t => exact ⟨t, rfl⟩
  | refused r =>
    rw [hr] at ho
    exact absurd ho id
  | fault r =>
    rw [hr] at ho
    cases r with
    | range e u => exact absurd ho.1 hk
    | packOverflow e u => exact absurd ho.1 hk
    | _ => exact absurd ho id

/-- What a timeout handler may hold records sets alone (42_codec_decode.md R171). -/
theorem isSet_of_timeout_kind {i : Instr} {e : Event} (hk : kindAdmits .timeout i = true) (he : mayRecord i e = true) :
    ∃ k v, e = .set k v := by
  cases i with
  | sbsetv | sbseta | stset =>
    cases e with
    | set k v => exact ⟨k, v, rfl⟩
    | _ => cases he
  | ldai | ldvc | end_ => cases he
  | _ => cases hk

theorem runHandler_timeout_sets {c : Cfg} {base : Nat} {is : List Instr} {s t : State} (h : Checked c .timeout 0 base is)
    (hc : s.cfg = some c) (hr : runHandler .timeout base s = .next t) :
    ∃ es, t.events = s.events ++ es ∧ ∀ e ∈ es, ∃ k v, e = .set k v := by
  obtain ⟨heff, hadm⟩ := runHandler_effect h hc hr
  obtain ⟨es, he, hes⟩ := heff.events
  refine ⟨es, he, fun e hm => ?_⟩
  obtain ⟨i, hi, hrec⟩ := hes e hm
  exact isSet_of_timeout_kind (hadm i hi) hrec

/-! ## TOFIRE (R135) -/

/-- Settles O29: the handler of the entry completes, and it may only set. -/
theorem tofireResult : Obligations.TofireResult := by
  intro c s i hr hi hlt
  have tables := tablesOk hr.checked
  have hreg := List.getElem?_eq_getElem hlt
  obtain ⟨is, hchecked⟩ := checked_of_wfHandler (tables.timeout _ (List.mem_of_getElem? hreg))
  have hc : ((s.enter .tofire).raise (.timeout i)).cfg = some c := hr.held
  obtain ⟨t, ht⟩ := runHandler_completes tables hchecked nofun hc nofun
  obtain ⟨es, he, hsets⟩ := runHandler_timeout_sets hchecked hc ht
  refine ⟨t, es, ?_, ?_, hsets, (runHandler_frame ht).1.bus he, runHandler_receive hchecked nofun hc ht⟩
  · simp only [exec, execTofire, hi, hr.held, need_of_some, index_of_some hreg, ht]
  · rw [he]
    exact List.append_assoc _ _ _

/-! ## SUPENT (R134) -/

section
variable {c : Cfg} {s : State} {i : Nat} {l : List Int} {x : Int}

theorem execSupent_of (hi : s.idxI = some i) (hl : s.cnt = some l) (hx : l[i]? = some x) :
    execSupent s =
      if 0 < x then writeCnt (s.enter .supent) i (x - 1)
      else if x = 0 then andThen (execTofire (s.enter .supent)) fun s₁ => writeCnt (s₁.enter .supent) i (-1)
      else .next (s.enter .supent) := by
  simp only [execSupent, hi, hl, need_of_some, index_of_some hx]

theorem Ready.enter (hr : Ready c s) (p : Phase) : Ready c (s.enter p) := hr.of_eq rfl rfl rfl rfl

theorem Ready.cnt_length (hr : Ready c s) (hl : s.cnt = some l) : l.length = c.reg.length := by
  obtain ⟨l', hl', hlen⟩ := hr.arrays.cnt
  rw [hl] at hl'
  exact Option.some.inj hl' ▸ hlen

end

/-- Settles O28: a positive counter and a negative one by the branch they take; at 0, TOFIRE completes and leaves the counters. -/
theorem supentCases : Obligations.SupentCases := by
  intro c s i l x hr hi hl hx
  have hlt : i < l.length := (List.getElem?_eq_some_iff.mp hx).1
  have hexec : exec .supent s = _ := execSupent_of hi hl hx
  rw [hexec]
  refine ⟨fun hpos => ?_, fun hzero => ?_, fun hneg => ?_⟩
  · rw [if_pos hpos]
    exact writeCnt_of (s := s.enter .supent) hl hlt (x - 1)
  · obtain ⟨t, es, hfire, _, _, _, ht⟩ := tofireResult c (s.enter .supent) i (hr.enter _) hi (hr.cnt_length hl ▸ hlt)
    have hcnt : t.cnt = some l := (congrArg State.cnt ht).trans hl
    have hfire' : execTofire (s.enter .supent) = .next t := hfire
    refine ⟨t, hfire, ?_⟩
    rw [if_neg (by omega), if_pos hzero, hfire', andThen_of_next]
    exact writeCnt_of (s := t.enter .supent) hcnt hlt (-1)
  · rw [if_neg (by omega), if_neg (by omega)]
    rfl

/-! ## What the supervisor leaves alone -/

theorem KeepsControl.trans {s t u : State} (h : KeepsControl s t) (g : KeepsControl t u) : KeepsControl s u where
  engstate := g.engstate.trans h.engstate
  initstat := g.initstat.trans h.initstat
  cfg := g.cfg.trans h.cfg
  inputs := g.inputs.trans h.inputs
  cfgIn := g.cfgIn.trans h.cfgIn

theorem KeepsTransmit.trans {s t u : State} (h : KeepsTransmit s t) (g : KeepsTransmit t u) : KeepsTransmit s u where
  tickcnt := g.tickcnt.trans h.tickcnt
  rollcnt := g.rollcnt.trans h.rollcnt
  txstat := g.txstat.trans h.txstat
  txb := g.txb.trans h.txb
  idxB := g.idxB.trans h.idxB
  idxJ := g.idxJ.trans h.idxJ
  idxE := g.idxE.trans h.idxE
  tx := g.tx.trans h.tx
  freeCtr := g.freeCtr.trans h.freeCtr

/-- The registers that neither the supervisor nor a timeout handler writes. -/
structure KeptBySupervisor (s t : State) : Prop where
  frx : t.frx = s.frx
  hit : t.hit = s.hit
  rx : t.rx = s.rx
  control : KeepsControl s t
  transmit : KeepsTransmit s t

theorem KeptBySupervisor.trans {s t u : State} (h : KeptBySupervisor s t) (g : KeptBySupervisor t u) :
    KeptBySupervisor s u :=
  ⟨g.frx.trans h.frx, g.hit.trans h.hit, g.rx.trans h.rx, h.control.trans g.control, h.transmit.trans g.transmit⟩

/-- An update of the position, `I`, the counters, the registers of a run, the signal bus and the event list. -/
theorem KeptBySupervisor.of_update {s t : State}
    (h : t = { s with phase := t.phase, idxI := t.idxI, cnt := t.cnt, a := t.a, v := t.v, upc := t.upc, hk := t.hk,
                      sb := t.sb, events := t.events }) : KeptBySupervisor s t := by
  rw [h]
  exact ⟨rfl, rfl, rfl, ⟨rfl, rfl, rfl, rfl, rfl⟩, ⟨rfl, rfl, rfl, rfl, rfl, rfl, rfl, rfl, rfl⟩⟩

/-! ## SUPERVISE (R133) -/

/-- One visit of an entry: its counter takes a step, and a timeout is recorded exactly where the counter is 0. -/
theorem execSupent_visit {c : Cfg} {s : State} {i : Nat} {l : List Int} {x : Int} (hr : Ready c s) (hi : s.idxI = some i)
    (hl : s.cnt = some l) (hx : l[i]? = some x) :
    ∃ t, execSupent s = .next t ∧ t.cnt = some (l.set i (countedDown x)) ∧
      timeoutsIn t.events = timeoutsIn s.events ++ (if x = 0 then [i] else []) ∧ KeptBySupervisor s t := by
  obtain ⟨hpos, hzero, hneg⟩ := supentCases c s i l x hr hi hl hx
  rcases lt_trichotomy x 0 with h | h | h
  · refine ⟨_, hneg h, ?_, ?_, .of_update rfl⟩
    · have hdown : countedDown x = x := by rw [countedDown, if_neg (by omega), if_neg (by omega)]
      obtain ⟨hlt, rfl⟩ := List.getElem?_eq_some_iff.mp hx
      rw [hdown, List.set_getElem_self]
      exact hl
    · rw [if_neg (by omega), List.append_nil]
  · obtain ⟨t, hfire, hexec⟩ := hzero h
    have hlt : i < c.reg.length := hr.cnt_length hl ▸ (List.getElem?_eq_some_iff.mp hx).1
    obtain ⟨t', es, hfire', hevents, hsets, _, ht⟩ := tofireResult c (s.enter .supent) i (hr.enter _) hi hlt
    obtain rfl := Host.Outcome.next.inj (hfire.symm.trans hfire')
    refine ⟨_, hexec, by rw [h]; rfl, ?_, ?_⟩
    · have hnone : timeoutsIn es = [] := timeoutsIn_eq_nil fun e he n => by
        obtain ⟨k, v, rfl⟩ := hsets e he
        exact nofun
      have hfired : timeoutsIn (.cond (.timeout i) :: es) = [i] := by
        rw [← List.singleton_append, timeoutsIn_append, hnone]
        rfl
      rw [hevents, timeoutsIn_append, hfired, if_pos h]
      rfl
    · rw [ht]
      exact .of_update rfl
  · refine ⟨_, hpos h, ?_, ?_, .of_update rfl⟩
    · rw [countedDown, if_pos h]
    · rw [if_neg (by omega), List.append_nil]

/-- The entries from index n on that a pass finds at 0. -/
def zerosFrom (n : Nat) : List Int → List Nat
  | [] => []
  | x :: xs => (if x = 0 then [n] else []) ++ zerosFrom (n + 1) xs

theorem zerosFrom_eq_filter : ∀ (pre suf : List Int),
    zerosFrom pre.length suf = (List.range' pre.length suf.length).filter fun i => (pre ++ suf)[i]? == some 0
  | _, [] => rfl
  | pre, x :: suf => by
    have ih := zerosFrom_eq_filter (pre ++ [x]) suf
    rw [List.length_append, List.length_singleton, List.append_assoc, List.singleton_append] at ih
    have hx : (pre ++ x :: suf)[pre.length]? = some x := by simp
    rw [zerosFrom, ih, List.length_cons, List.range'_succ, List.filter_cons, hx]
    by_cases h : x = 0 <;> simp [h]

/-- The loop over the entries whose counters are `suf`, after those whose counters are `pre`. -/
theorem superviseLoop_pass {c : Cfg} : ∀ (suf pre : List Int) {s : State}, Ready c s → s.cnt = some (pre ++ suf) →
    ∃ t, superviseLoop suf.length pre.length s = .next t ∧ t.cnt = some (pre ++ suf.map countedDown) ∧
      timeoutsIn t.events = timeoutsIn s.events ++ zerosFrom pre.length suf ∧ KeptBySupervisor s t
  | [], pre, s, _, hl => ⟨_, rfl, hl, (List.append_nil _).symm, .of_update rfl⟩
  | x :: suf, pre, s, hr, hl => by
    have select : Ready c { s with idxI := some pre.length } := hr.of_eq rfl rfl rfl rfl
    obtain ⟨s₁, hvisit, hcnt, htime, hkept⟩ :=
      execSupent_visit (x := x) select rfl hl (by simp)
    have ready₁ := (execSupent_opFrame select hvisit).ready.enter .supervise
    have hcnt₁ : (s₁.enter .supervise).cnt = some ((pre ++ [countedDown x]) ++ suf) := by
      rw [State.enter_cnt, hcnt]
      simp
    obtain ⟨t, hloop, hcnt', htime', hkept'⟩ := superviseLoop_pass suf (pre ++ [countedDown x]) ready₁ hcnt₁
    rw [List.length_append, List.length_singleton] at hloop htime'
    refine ⟨t, ?_, ?_, ?_, ?_⟩
    · rw [List.length_cons, superviseLoop, hvisit, andThen_of_next, hloop]
    · rw [hcnt', List.append_assoc]
      rfl
    · rw [htime', State.enter_events, htime, zerosFrom, List.append_assoc]
    · have start : KeptBySupervisor s { s with idxI := some pre.length } := .of_update rfl
      have back : KeptBySupervisor s₁ (s₁.enter .supervise) := .of_update rfl
      exact (start.trans hkept).trans (back.trans hkept')

/-- Settles O30: the loop over all the entries; the sets it records are all it does to the signal bus. -/
theorem supervisePass : Obligations.SupervisePass := by
  intro c s l hr hl
  obtain ⟨t, hloop, hcnt, htime, hkept⟩ := superviseLoop_pass (s := s.enter .supervise) l [] (hr.enter _) hl
  have hexec : execSupervise s = .next t := by
    rw [execSupervise, hr.held, need_of_some, ← hr.cnt_length hl]
    exact hloop
  obtain ⟨es, he, hbus⟩ := (execSupervise_busFrame hexec).sets
  have start : KeptBySupervisor s (s.enter .supervise) := .of_update rfl
  have kept := start.trans hkept
  refine ⟨t, es, hexec, hcnt, he, ?_, hbus, superviseLoop_idxI _ _ hloop, kept.frx, kept.hit, kept.rx, kept.control,
    kept.transmit⟩
  rw [he, timeoutsIn_append, State.enter_events] at htime
  rw [List.append_cancel_left htime, zerosFrom_eq_filter, List.range_eq_range']
  rfl

/-! ## One entry over many passes (R137, R138) -/

theorem cntAt_of {s : State} {l : List Int} (hl : s.cnt = some l) (i : Nat) : cntAt s i = l[i]? := by
  rw [cntAt, hl, Option.bind_some]

/-- What one pass does to one entry. -/
theorem execSupervise_entry {c : Cfg} {s : State} {i : Nat} {x : Int} (hr : Ready c s) (hx : cntAt s i = some x) :
    ∃ t es, execSupervise s = .next t ∧ t.events = s.events ++ es ∧ cntAt t i = some (countedDown x) ∧
      (Event.cond (.timeout i) ∈ es ↔ x = 0) := by
  obtain ⟨l, hl, _⟩ := hr.arrays.cnt
  obtain ⟨t, es, hexec, hcnt, he, htime, _⟩ := supervisePass c s l hr hl
  rw [cntAt_of hl] at hx
  refine ⟨t, es, hexec, he, ?_, ?_⟩
  · rw [cntAt_of hcnt, List.getElem?_map, hx, Option.map_some]
  · have hlt : i < l.length := (List.getElem?_eq_some_iff.mp hx).1
    rw [← mem_timeoutsIn, htime, List.mem_filter, List.mem_range, hx]
    simp [hlt]

/-- A counter that starts at R, after k passes. -/
def counterAfter (R k : Nat) : Int := if k ≤ R then (R : Int) - k else -1

theorem countedDown_counterAfter (R k : Nat) : countedDown (counterAfter R k) = counterAfter R (k + 1) := by
  simp only [counterAfter, countedDown]
  split_ifs <;> omega

theorem counterAfter_eq_zero {R k : Nat} : counterAfter R k = 0 ↔ k = R := by
  unfold counterAfter
  split <;> omega

theorem passes_counter {c : Cfg} {s : State} {i R : Nat} (hr : Ready c s) (hx : cntAt s i = some (R : Int)) :
    ∀ k, ∃ t, passes k s = .next t ∧ Ready c t ∧ cntAt t i = some (counterAfter R k)
  | 0 => ⟨s, rfl, hr, by simpa [counterAfter] using hx⟩
  | k + 1 => by
    obtain ⟨t, hpass, hready, hcnt⟩ := passes_counter hr hx k
    obtain ⟨t', es, hexec, _, hcnt', _⟩ := execSupervise_entry hready hcnt
    refine ⟨t', ?_, (execSupervise_opFrame hready hexec).ready, ?_⟩
    · rw [passes, hpass, andThen_of_next, hexec]
    · rw [hcnt', countedDown_counterAfter]

/-- Settles O31: the passes before bring the counter to `counterAfter R k`, which is 0 for k = R alone. -/
theorem firesOnce : Obligations.FiresOnce := by
  intro c s i R hr hx k
  obtain ⟨t, hpass, hready, hcnt⟩ := passes_counter hr hx k
  obtain ⟨t', es, hexec, he, hcnt', hfire⟩ := execSupervise_entry hready hcnt
  refine ⟨t, t', es, hpass, hexec, he, hfire.trans counterAfter_eq_zero, ?_⟩
  rw [hcnt', countedDown_counterAfter, counterAfter]
  simp only [Nat.succ_le_iff, Nat.cast_succ]

end Sys2Proof.Machine
end

section
/-! SUPPORT. A whole TICK seen by the counters (40_registry_supervisor.md R139): DRAIN reloads the entries that a frame matched,
SUPERVISE takes each counter one step and alone records timeouts, SCHED leaves both as they are. -/

namespace Sys2Proof.Machine

/-! ## Handlers record no timeout (60_exceptions.md R280) -/

/-- The same timeouts are recorded, in the same order. -/
def SameTimeouts (s t : State) : Prop := timeoutsIn t.events = timeoutsIn s.events

theorem SameTimeouts.trans {s t u : State} (h : SameTimeouts s t) (g : SameTimeouts t u) : SameTimeouts s u :=
  Eq.trans g h

theorem SameTimeouts.of_append {s t : State} {es : List Event} (he : t.events = s.events ++ es)
    (h : ∀ e ∈ es, ∀ i, e ≠ .cond (.timeout i)) : SameTimeouts s t := by
  rw [SameTimeouts, he, timeoutsIn_append, timeoutsIn_eq_nil h, List.append_nil]

/-- No micro-instruction may record a timeout. -/
theorem ne_timeout_of_mayRecord {i : Instr} {e : Event} (h : mayRecord i e = true) (n : Nat) : e ≠ .cond (.timeout n) := by
  rintro rfl
  cases i <;> cases h

theorem runHandler_sameTimeouts {k : HandlerKind} {base : Nat} {s t : State} (h : runHandler k base s = .next t) :
    SameTimeouts s t := by
  obtain ⟨c, _, h⟩ := runHandler_next.mp h
  refine runLoop_keeps (P := SameTimeouts s) (fun u v hu hv => ?_) _ (s.startRun k base) t rfl h
  obtain ⟨i, hm⟩ := microStep_microNext hv
  obtain ⟨es, he, hes⟩ := hm.events
  exact hu.trans (.of_append he fun e hmem => ne_timeout_of_mayRecord (hes e hmem))

/-! ## DISPATCH, by what LOOKUP finds (41_dispatcher.md R151) -/

section
variable {c : Cfg} {s : State} {f : Frame}

theorem execDispatch_of_found {n : Nat} (hc : s.cfg = some c) (hf : s.frx = some f) (hl : c.lookup f = .found n) :
    execDispatch s =
      andThen (execRearm { s with phase := .dispatch, hit := some (.found n) }) fun s₂ =>
        andThen (execDecode (s₂.enter .dispatch)) fun s₃ => .next (s₃.enter .dispatch) := by
  rw [execDispatch, execLookup_of (s := s.enter .dispatch) hc hf, hl]
  rfl

theorem execDispatch_of_miss (hc : s.cfg = some c) (hf : s.frx = some f) (hl : c.lookup f = .miss) :
    execDispatch s =
      .next (State.raise { s with phase := .dispatch, hit := some .miss } (.unreg f.ident.id f.ident.ide)) := by
  rw [execDispatch, execLookup_of (s := s.enter .dispatch) hc hf, hl]
  simp only [andThen_of_next, need_of_some, dropUnregistered, State.enter_frx, hf]
  rfl

end

/-- REARM loads the counter of the entry in `HIT` (41_dispatcher.md R152). -/
theorem execRearm_next {c : Cfg} {s t : State} (hc : s.cfg = some c) (h : execRearm s = .next t) :
    ∃ n r l, s.hit = some (.found n) ∧ c.reg[n]? = some r ∧ s.cnt = some l ∧ n < l.length ∧
      t = { s with phase := .rearm, cnt := some (l.set n r.reload) } := by
  simp only [execRearm, needFound_next, need_next, index_next, hc, Option.some.injEq] at h
  obtain ⟨n, hit, _, rfl, r, hr, h⟩ := h
  obtain ⟨l, hl, hlt, rfl⟩ := writeCnt_next.mp h
  exact ⟨n, r, l, hit, hr, hl, hlt, rfl⟩

theorem execDecode_sameTimeouts {s t : State} (h : execDecode s = .next t) : SameTimeouts s t := by
  simp only [execDecode, needFound_next, need_next, index_next] at h
  obtain ⟨n, _, c, _, r, _, h⟩ := h
  exact runHandler_sameTimeouts (s := s.enter .decode) h

/-! ## DRAIN -/

/-- What taking these frames does to the counters and the record of timeouts: an entry that one of them matches is reloaded. -/
structure Drained (c : Cfg) (fs : List Frame) (s t : State) : Prop where
  timeouts : SameTimeouts s t
  counters : ∀ i r, c.reg[i]? = some r → cntAt t i = if fs.any r.matches then some r.reload else cntAt s i

theorem Drained.append {c : Cfg} {fs gs : List Frame} {s t u : State} (h : Drained c fs s t) (g : Drained c gs t u) :
    Drained c (fs ++ gs) s u where
  timeouts := h.timeouts.trans g.timeouts
  counters i r hr := by
    rw [g.counters i r hr, h.counters i r hr, List.any_append]
    cases fs.any r.matches <;> cases gs.any r.matches <;> rfl

/-- An update that leaves the counters, and records no timeout. -/
theorem Drained.of_same {c : Cfg} {s t : State} (hc : t.cnt = s.cnt) (ht : SameTimeouts s t) : Drained c [] s t where
  timeouts := ht
  counters i r _ := by rw [cntAt, hc]; rfl

/-- The entry that a frame matches is the one LOOKUP finds for it. -/
theorem matches_iff_lookup {c : Cfg} (hc : checkCfg c = .ok) {f : Frame} {i : Nat} {r : RegEntry}
    (hreg : c.reg[i]? = some r) : r.matches f = true ↔ c.lookup f = .found i := by
  rw [lookup_eq_found hc]
  simp [hreg]

theorem execRearm_drained {c : Cfg} {s t : State} {f : Frame} {n : Nat} (hr : Ready c s)
    (hhit : s.hit = some (.found n)) (hl : c.lookup f = .found n) (h : execRearm s = .next t) : Drained c [f] s t := by
  obtain ⟨m, rm, l, hm, hrm, hcnt, hlt, rfl⟩ := execRearm_next hr.held h
  obtain rfl := Hit.found.inj (Option.some.inj (hm.symm.trans hhit))
  refine ⟨rfl, fun i r hreg => ?_⟩
  have hafter : cntAt { s with phase := .rearm, cnt := some (l.set m rm.reload) } i = (l.set m rm.reload)[i]? :=
    cntAt_of rfl i
  rw [hafter, cntAt_of hcnt, List.any_cons, List.any_nil, Bool.or_false, List.getElem?_set]
  by_cases hi : m = i
  · subst hi
    rw [if_pos rfl, if_pos hlt, if_pos ((matches_iff_lookup hr.checked hreg).mpr hl), Option.some.inj (hrm.symm.trans hreg)]
  · rw [if_neg hi, if_neg]
    rw [matches_iff_lookup hr.checked hreg, hl]
    exact fun he => hi (Hit.found.inj he)

theorem execDispatch_drained {c : Cfg} {s t : State} {f : Frame} (hr : Ready c s) (hf : s.frx = some f)
    (h : execDispatch s = .next t) : Drained c [f] s t := by
  cases hl : c.lookup f with
  | miss =>
    rw [execDispatch_of_miss hr.held hf hl] at h
    obtain rfl := Host.Outcome.next.inj h
    refine ⟨.of_append rfl (by simp), fun i r hreg => ?_⟩
    have hno : r.matches f = false := by
      rw [← Bool.not_eq_true, matches_iff_lookup hr.checked hreg, hl]
      exact nofun
    rw [List.any_cons, hno]
    rfl
  | found n =>
    rw [execDispatch_of_found hr.held hf hl] at h
    obtain ⟨s₂, hrearm, h⟩ := andThen_next.mp h
    obtain ⟨s₃, hdecode, h⟩ := andThen_next.mp h
    obtain rfl := Host.Outcome.next.inj h
    have ready₁ : Ready c { s with phase := .dispatch, hit := some (.found n) } := hr.of_eq rfl rfl rfl rfl
    have ready₂ := (execRearm_opFrame ready₁ hrearm).ready.enter .dispatch
    have select : Drained c [] s { s with phase := .dispatch, hit := some (.found n) } := .of_same rfl rfl
    have decode : Drained c [] (s₂.enter .dispatch) s₃ :=
      .of_same ((execDecode_opFrame ready₂ hdecode).only .cnt rfl) (execDecode_sameTimeouts hdecode)
    have enter (u : State) : Drained c [] u (u.enter .dispatch) := .of_same rfl rfl
    have rearm := (select.append (execRearm_drained ready₁ rfl hl hrearm)).append (enter s₂)
    exact (rearm.append decode).append (enter s₃)

theorem drainLoop_drained {c : Cfg} : ∀ (fs : List Frame) {s t : State}, Ready c s → drainLoop fs s = .next t →
    Drained c fs s t
  | [], s, t, _, h => by
    obtain rfl := Host.Outcome.next.inj h
    exact .of_same rfl (.of_append rfl (by simp))
  | f :: fs, s, t, hr, h => by
    obtain ⟨s₁, hd, h⟩ := andThen_next.mp h
    have taken : Ready c (s.receive f fs) := hr.of_eq rfl rfl rfl rfl
    have receive : Drained c [] s (s.receive f fs) := .of_same rfl (.of_append rfl (by simp))
    have dropped : Ready c s₁.dropFrame := (execDispatch_opFrame taken hd).ready.of_eq rfl rfl rfl rfl
    have drop : Drained c [] s₁ s₁.dropFrame := .of_same rfl rfl
    have dispatch := (receive.append (execDispatch_drained taken rfl hd)).append drop
    exact dispatch.append (drainLoop_drained fs dropped h)

theorem execDrain_drained {c : Cfg} {s t : State} (hr : Ready c s) (h : execDrain s = .next t) : Drained c s.rx s t :=
  have enter : Drained c [] s (s.enter .drain) := .of_same rfl rfl
  enter.append (drainLoop_drained s.rx (hr.enter .drain) h)

/-! ## SCHED -/

theorem execEncode_sameTimeouts {s t : State} (h : execEncode s = .next t) : SameTimeouts s t := by
  obtain ⟨c, hc, _⟩ := need_next.mp h
  obtain ⟨e, en, s₁, _, hrun, rfl⟩ := execEncode_next hc h
  have finish : SameTimeouts s₁ { s₁ with idxE := none } := rfl
  exact (runHandler_sameTimeouts (s := { s with idxE := some e, txb := [], phase := .encode }) hrun).trans finish

theorem bucketLoop_sameTimeouts : ∀ (n j : Nat) {s t : State}, bucketLoop n j s = .next t → SameTimeouts s t
  | 0, _, s, t, h => by
    obtain rfl := Host.Outcome.next.inj h
    rfl
  | n + 1, j, s, t, h => by
    obtain ⟨s₁, he, h⟩ := andThen_next.mp h
    have encode : SameTimeouts s s₁ := execEncode_sameTimeouts (s := { s with idxJ := some j }) he
    exact encode.trans (bucketLoop_sameTimeouts n (j + 1) (s := s₁.enter .bucket) h)

theorem execBucket_sameTimeouts {s t : State} (h : execBucket s = .next t) : SameTimeouts s t := by
  simp only [execBucket, need_next, index_next] at h
  obtain ⟨c, _, b, _, bk, _, h⟩ := h
  exact bucketLoop_sameTimeouts _ _ (s := s.enter .bucket) h

theorem schedLoop_sameTimeouts : ∀ (bks : List Bucket) (b : Nat) {s t : State}, schedLoop bks b s = .next t →
    SameTimeouts s t
  | [], _, s, t, h => by
    obtain rfl := Host.Outcome.next.inj h
    rfl
  | bk :: bks, b, s, t, h => by
    rcases schedLoop_cons_next h with ⟨s₁, hb, h⟩ | h
    · have bucket : SameTimeouts s s₁ := execBucket_sameTimeouts (s := { s with idxB := some b }) hb
      exact bucket.trans (schedLoop_sameTimeouts bks (b + 1) (s := s₁.enter .sched) h)
    · exact schedLoop_sameTimeouts bks (b + 1) (s := { s with idxB := some b }) h

theorem execSched_sameTimeouts {s t : State} (h : execSched s = .next t) : SameTimeouts s t := by
  obtain ⟨c, _, h⟩ := need_next.mp h
  exact schedLoop_sameTimeouts _ _ (s := { s with phase := .sched, tickcnt := (s.tickcnt + 1) % c.tickMod }) h

/-! ## TICK -/

/-- Settles O32: DRAIN brings the counter to `y`, SUPERVISE takes it one step and fires where `y` is 0, SCHED leaves it. -/
theorem tickCounters : Obligations.TickCounters := by
  intro c s t hr h i r x y hreg hx hmatch hnone
  obtain ⟨_, s₁, s₂, s₃, hdrain, hsup, hsched, rfl⟩ := execTick_next h
  have start : Ready c s.newOp := hr.of_eq rfl rfl rfl rfl
  have drained := execDrain_drained start hdrain
  have ready₁ := (execDrain_opFrame start hdrain).ready
  have hy : cntAt s₁ i = some y := by
    rw [drained.counters i r hreg]
    simp only [List.any_eq_true, RegEntry.matches_iff]
    split
    · rename_i hm
      rw [hmatch hm]
    · rename_i hm
      rw [hnone fun f hf hid => hm ⟨f, hf, hid⟩]
      exact hx
  obtain ⟨t', es, hsup', he, hcnt, hfire⟩ := execSupervise_entry ready₁ hy
  obtain rfl := Host.Outcome.next.inj (hsup.symm.trans hsup')
  have ready₂ := (execSupervise_opFrame ready₁ hsup).ready
  have hkeep : (s₃.enter .idle).cnt = s₂.cnt := (execSched_opFrame ready₂ hsched).only .cnt rfl
  refine ⟨by rw [cntAt, hkeep]; exact hcnt, ?_⟩
  have htimes : timeoutsIn (s₃.enter .idle).events = timeoutsIn es := by
    calc timeoutsIn s₃.events = timeoutsIn s₂.events := execSched_sameTimeouts hsched
      _ = timeoutsIn s₁.events ++ timeoutsIn es := by rw [he, timeoutsIn_append]
      _ = timeoutsIn es := by rw [drained.timeouts]; rfl
  rw [← mem_timeoutsIn, htimes, mem_timeoutsIn, hfire]

end Sys2Proof.Machine
end

section
/-! SUPPORT. The receive dispatcher (41_dispatcher.md R150 to R155): REARM and DECODE of a known entry complete, so DISPATCH and
DRAIN of a checked configuration do, whatever the frames are; and what they leave to the rest of a TICK. -/

namespace Sys2Proof.Machine

/-! ## REARM (R152) -/

theorem needFound_of {s : State} {n : Nat} (h : s.hit = some (.found n)) (k : Nat → Out) : needFound s k = k n := by
  simp only [needFound, h, need_of_some]

/-- Settles O22: the entry in `HIT` is in the registry and has a counter, so nothing stops the one write. -/
theorem rearmResult : Obligations.RearmResult := by
  intro c s i r l hhit hc hreg hl hlt
  have hwrite : exec .rearm s = writeCnt (s.enter .rearm) i r.reload := by
    simp only [exec, execRearm, needFound_of hhit, hc, need_of_some, index_of_some hreg]
  rw [hwrite]
  exact writeCnt_of (s := s.enter .rearm) hl hlt r.reload

/-! ## LENCHK (R154) -/

theorem execLenchk_of {n : BitVec 16} {s : State} {f : Frame} (hf : s.frx = some f) :
    execLenchk n s =
      if f.len.val = n.toNat then advance s
      else .next (s.raise (.lenmis f.ident.id f.ident.ide f.len.val n.toNat)).endRun := by
  simp only [execLenchk, hf, need_of_some]

/-- Settles O39: the two branches of the comparison. -/
theorem lenchkResult : Obligations.LenchkResult := by
  intro n s f u hf hu
  have hexec : exec (.lenchk n) s = _ := execLenchk_of hf
  rw [hexec]
  refine ⟨fun heq => ?_, fun hne => ?_⟩
  · rw [if_pos heq, advance_of hu]
  · rw [if_neg hne]
    rfl

/-! ## A frame that matches no entry (R155) -/

theorem lookup_of_unmatched {c : Cfg} {f : Frame} (h : ∀ r ∈ c.reg, ¬(r.id = f.ident.id ∧ r.ide = f.ident.ide)) :
    c.lookup f = .miss :=
  lookupFrom_of_unmatched 0 .miss fun r hr => Bool.eq_false_iff.mpr fun hm => h r hr (RegEntry.matches_iff.mp hm)

/-- Settles O24: DISPATCH of the frame misses and records that it does; DRAIN then clears what LOOKUP worked with. -/
theorem unregisteredFrameDropped : Obligations.UnregisteredFrameDropped := by
  intro c s f fs hc hrx hfrx hhit hno
  have hdispatch := execDispatch_of_miss (s := (s.enter .drain).receive f fs) hc rfl (lookup_of_unmatched hno)
  have hexec : exec .drain s = drainLoop (f :: fs) (s.enter .drain) := by rw [exec, execDrain, hrx]
  rw [hexec, drainLoop, hdispatch, andThen_of_next]
  show _ = drainLoop fs _
  congr 1
  simp only [State.dropFrame, State.raise, State.log, State.receive, State.enter, hfrx, hhit, List.append_assoc,
    List.cons_append, List.nil_append]

/-! ## What the dispatcher leaves alone (20_memory.md R65) -/

/-- The registers that neither the dispatcher nor a decode handler writes. -/
structure KeptByDispatcher (s t : State) : Prop where
  idxI : t.idxI = s.idxI
  control : KeepsControl s t
  transmit : KeepsTransmit s t

theorem KeptByDispatcher.trans {s t u : State} (h : KeptByDispatcher s t) (g : KeptByDispatcher t u) :
    KeptByDispatcher s u :=
  ⟨g.idxI.trans h.idxI, h.control.trans g.control, h.transmit.trans g.transmit⟩

/-- An update of the position, the frame, the hit, the counters, the registers of a run, the frames to come, the signal bus and
the event list. -/
theorem KeptByDispatcher.of_update {s t : State}
    (h : t = { s with phase := t.phase, frx := t.frx, hit := t.hit, cnt := t.cnt, a := t.a, v := t.v, upc := t.upc,
                      hk := t.hk, rx := t.rx, sb := t.sb, events := t.events }) : KeptByDispatcher s t := by
  rw [h]
  exact ⟨rfl, ⟨rfl, rfl, rfl, rfl, rfl⟩, ⟨rfl, rfl, rfl, rfl, rfl, rfl, rfl, rfl, rfl⟩⟩

/-! ## DECODE, DISPATCH and DRAIN complete (R150, R151, R153) -/

/-- DECODE of a known entry completes, and changes the signal bus and the event list only: its handler is checked, and the frame
it reads is there. -/
theorem execDecode_completes {c : Cfg} {s : State} {f : Frame} {n : Nat} (hr : Ready c s) (hf : s.frx = some f)
    (hhit : s.hit = some (.found n)) (hn : n < c.reg.length) :
    ∃ t, execDecode s = .next t ∧
      t = { s with phase := .decode, a := none, v := none, upc := none, hk := none, sb := t.sb, events := t.events } := by
  have tables := tablesOk hr.checked
  have hreg := List.getElem?_eq_getElem hn
  obtain ⟨is, hchecked⟩ := checked_of_wfHandler (tables.decode _ (List.mem_of_getElem? hreg))
  have hc : (s.enter .decode).cfg = some c := hr.held
  obtain ⟨t, ht⟩ := runHandler_completes tables hchecked nofun hc fun _ => ⟨f, hf⟩
  refine ⟨t, ?_, runHandler_receive hchecked nofun hc ht⟩
  simp only [execDecode, needFound_of hhit, hr.held, need_of_some, index_of_some hreg, ht]

/-- DISPATCH of a frame completes: a hit names an entry, whose counter and handler are there. -/
theorem execDispatch_completes {c : Cfg} {s : State} {f : Frame} (hr : Ready c s) (hf : s.frx = some f) :
    ∃ t, execDispatch s = .next t ∧
      t = { s with phase := .dispatch, hit := t.hit, cnt := t.cnt, a := t.a, v := t.v, upc := t.upc, hk := t.hk,
                   sb := t.sb, events := t.events } := by
  cases hl : c.lookup f with
  | miss => exact ⟨_, execDispatch_of_miss hr.held hf hl, rfl⟩
  | found n =>
    obtain ⟨r, hreg, _⟩ := (lookup_eq_found hr.checked).mp hl
    obtain ⟨l, hcnt, hlen⟩ := hr.arrays.cnt
    have hn : n < c.reg.length := (List.getElem?_eq_some_iff.mp hreg).1
    have hrearm : execRearm { s with phase := .dispatch, hit := some (.found n) } = _ :=
      rearmResult c _ n r l rfl hr.held hreg hcnt (hlen ▸ hn)
    have ready : Ready c { s with phase := .dispatch, hit := some (.found n), cnt := some (l.set n r.reload) } :=
      hr.of_eq rfl (by simp [hcnt]) rfl rfl
    obtain ⟨t, hdecode, ht⟩ := execDecode_completes ready hf rfl hn
    refine ⟨t.enter .dispatch, ?_, by rw [ht]; rfl⟩
    rw [execDispatch_of_found hr.held hf hl, hrearm, andThen_of_next]
    exact congrArg (andThen · fun u => .next (u.enter .dispatch)) hdecode

/-- The loop of DRAIN over the frames that are there completes, and takes them all. -/
theorem drainLoop_completes {c : Cfg} : ∀ (fs : List Frame) {s : State}, Ready c s → s.rx = fs →
    ∃ t, drainLoop fs s = .next t ∧ t.rx = [] ∧ KeptByDispatcher s t
  | [], _, _, hrx => ⟨_, rfl, hrx, .of_update rfl⟩
  | f :: fs, s, hr, _ => by
    have taken : Ready c (s.receive f fs) := hr.of_eq rfl rfl rfl rfl
    obtain ⟨s₁, hdispatch, hs₁⟩ := execDispatch_completes taken rfl
    have dropped : Ready c s₁.dropFrame := (execDispatch_opFrame taken hdispatch).ready.of_eq rfl rfl rfl rfl
    have hrx : s₁.dropFrame.rx = fs := by rw [hs₁]; rfl
    have kept : KeptByDispatcher s s₁.dropFrame := .of_update (by rw [hs₁]; rfl)
    obtain ⟨t, hloop, hempty, hkept⟩ := drainLoop_completes fs dropped hrx
    exact ⟨t, by rw [drainLoop, hdispatch, andThen_of_next, hloop], hempty, kept.trans hkept⟩

/-- Settles O23: each of the three completes by the checks, and the signal bus follows the recorded sets in any state. -/
theorem receiveCompletes : Obligations.ReceiveCompletes := by
  refine fun c s hr => ⟨?_, fun f hf => ⟨?_, fun i hhit hlt => ?_⟩⟩
  · obtain ⟨t, hexec, hrx, kept⟩ := drainLoop_completes s.rx (s := s.enter .drain) (hr.enter _) rfl
    have enter : KeptByDispatcher s (s.enter .drain) := .of_update rfl
    have kept := enter.trans kept
    obtain ⟨es, he, hb⟩ := (execDrain_busFrame (s := s) hexec).sets
    exact ⟨t, es, hexec, he, hb, hrx, kept.idxI, kept.control, kept.transmit⟩
  · obtain ⟨t, hexec, ht⟩ := execDispatch_completes hr hf
    have kept : KeptByDispatcher s t := .of_update (by rw [ht])
    obtain ⟨es, he, hb⟩ := (execDispatch_busFrame hexec).sets
    exact ⟨t, es, hexec, he, hb, by rw [ht]; exact hf, by rw [ht], kept.idxI, kept.control, kept.transmit⟩
  · obtain ⟨t, hexec, ht⟩ := execDecode_completes hr hf hhit hlt
    have kept : KeptByDispatcher s t := .of_update (by rw [ht])
    have ended : NoRun t := by
      rw [ht]
      exact ⟨rfl, rfl, rfl, rfl⟩
    obtain ⟨es, he, hb⟩ := (execDecode_busFrame hexec).sets
    exact ⟨t, es, hexec, he, hb, ended, by rw [ht], by rw [ht]; exact hf, by rw [ht], by rw [ht], kept.idxI, kept.control,
      kept.transmit⟩

end Sys2Proof.Machine
end

section
/-! SUPPORT. What DISPATCH depends on in the frame it handles (20_memory.md R83, 41_dispatcher.md R158). Two frames with the same
identifier and length, and the same bytes where they are read, take every operation to the same outcome but for `FRX`
(`AlikeBut`); it is proved once for each shared operation, then for every micro-instruction, for the run of a handler, and for
DISPATCH. -/

namespace Sys2Proof.Machine

/-! ## The same outcome but for the frame -/

/-- The state with another frame in `FRX`. -/
def State.withFrame (s : State) (g : Frame) : State := { s with frx := some g }

/-- The second outcome is the first, but for the frame `g` in `FRX`. -/
def AlikeBut (g : Frame) (o o' : Out) : Prop := o' = mapNext (fun t => t.withFrame g) o

section
variable {s : State} {g : Frame}

theorem alikeBut_next {t t' : State} (h : t' = t.withFrame g) : AlikeBut g (.next t) (.next t') := by
  rw [h]
  rfl

theorem alikeBut_andThen {o o' : Out} {k k' : State → Out} (h : AlikeBut g o o')
    (hk : ∀ t, o = .next t → AlikeBut g (k t) (k' (t.withFrame g))) : AlikeBut g (andThen o k) (andThen o' k') := by
  rw [AlikeBut] at h
  subst h
  cases o with
  | next t => exact hk t rfl
  | fault r => rfl
  | refused r => rfl

theorem alikeBut_need {α : Type} {r : NoneReg} {x : Option α} {k k' : α → Out}
    (h : ∀ y, x = some y → AlikeBut g (k y) (k' y)) : AlikeBut g (need r x k) (need r x k') := by
  cases x with
  | none => rfl
  | some y => exact h y rfl

theorem alikeBut_index {α : Type} {sp : Space} {l : List α} {n : Nat} {k k' : α → Out}
    (h : ∀ y, l[n]? = some y → AlikeBut g (k y) (k' y)) : AlikeBut g (index sp l n k) (index sp l n k') := by
  unfold index
  cases hy : l[n]? with
  | none => rfl
  | some y => exact h y hy

theorem alikeBut_ite {p : Prop} [Decidable p] {o₁ o₂ o₁' o₂' : Out} (h₁ : AlikeBut g o₁ o₁') (h₂ : AlikeBut g o₂ o₂') :
    AlikeBut g (if p then o₁ else o₂) (if p then o₁' else o₂') := by
  split
  · exact h₁
  · exact h₂

/-! ## The shared operations -/

theorem alikeBut_advance : AlikeBut g (advance s) (advance (s.withFrame g)) :=
  alikeBut_need fun _ _ => rfl

theorem alikeBut_writeCnt (n : Nat) (x : Int) : AlikeBut g (writeCnt s n x) (writeCnt (s.withFrame g) n x) :=
  alikeBut_need fun _ _ => alikeBut_index fun _ _ => rfl

theorem alikeBut_constant {n : BitVec 16} {k k' : Rat → Out} (h : ∀ q, AlikeBut g (k q) (k' q)) :
    AlikeBut g (constant s n k) (constant (s.withFrame g) n k') :=
  alikeBut_need fun _ _ => alikeBut_index fun _ _ => alikeBut_ite rfl (h _)

theorem alikeBut_divisor {n : BitVec 16} {k k' : Rat → Out} (h : ∀ q, AlikeBut g (k q) (k' q)) :
    AlikeBut g (divisor s n k) (divisor (s.withFrame g) n k') :=
  alikeBut_constant fun q => alikeBut_ite rfl (h q)

theorem alikeBut_busGet {key : Key} {k k' : SigVal → State → Out}
    (h : ∀ x u, AlikeBut g (k x u) (k' x (u.withFrame g))) :
    AlikeBut g (busGet s key k) (busGet (s.withFrame g) key k') := by
  have hsb : (s.withFrame g).sb = s.sb := rfl
  unfold busGet
  refine alikeBut_need fun c _ => ?_
  rw [hsb]
  cases busValue c s.sb key with
  | none => rfl
  | some x => exact h x _

theorem alikeBut_busGetInt {key : Key} {k k' : Int → State → Out}
    (h : ∀ x u, AlikeBut g (k x u) (k' x (u.withFrame g))) :
    AlikeBut g (busGetInt s key k) (busGetInt (s.withFrame g) key k') := by
  refine alikeBut_busGet fun x u => ?_
  cases x with
  | int i => exact h _ u
  | real q => rfl

theorem alikeBut_txInsert {p : FieldSpec} {x : Int} {k k' : State → Out}
    (h : ∀ u, AlikeBut g (k u) (k' (u.withFrame g))) :
    AlikeBut g (txInsert s p x k) (txInsert (s.withFrame g) p x k') :=
  alikeBut_ite (h _) rfl

theorem alikeBut_quantise (x : Rat) : AlikeBut g (quantise s x) (quantise (s.withFrame g) x) :=
  alikeBut_need fun _ _ =>
    alikeBut_ite alikeBut_advance (alikeBut_need fun _ _ => alikeBut_need fun _ _ => rfl)

theorem alikeBut_fitPack {r : PackRange} {x : Int} {k k' : Int → State → Out}
    (h : ∀ y u, AlikeBut g (k y u) (k' y (u.withFrame g))) :
    AlikeBut g (fitPack s r x k) (fitPack (s.withFrame g) r x k') := by
  refine alikeBut_ite (h x s) (alikeBut_need fun c _ => alikeBut_need fun e _ => alikeBut_need fun u _ => ?_)
  cases c.ovfPolicy with
  | wrap => exact h _ _
  | saturate => exact h _ _
  | fault => rfl

/-- PACKU and PACKS after the read of `A`. -/
theorem alikeBut_pack (r : PackRange) (p : FieldSpec) (x : Int) :
    AlikeBut g (fitPack s r x fun y u => txInsert u p y advance)
      (fitPack (s.withFrame g) r x fun y u => txInsert u p y advance) :=
  alikeBut_fitPack fun _ _ => alikeBut_txInsert fun _ => alikeBut_advance

theorem nextAnswer_withFrame (s : State) (g : Frame) :
    nextAnswer (s.withFrame g) = ((nextAnswer s).1, (nextAnswer s).2.withFrame g) := by
  cases h : s.tx <;> simp [nextAnswer, State.withFrame, h]

theorem alikeBut_sendFrame (e : Nat) (f : Frame) {k k' : State → Out} (h : ∀ u, AlikeBut g (k u) (k' (u.withFrame g))) :
    AlikeBut g (sendFrame e f s k) (sendFrame e f (s.withFrame g) k') := by
  simp only [sendFrame, nextAnswer_withFrame]
  exact alikeBut_need fun _ _ => alikeBut_index fun _ _ => h _

/-- A field of the payload that is the same in both frames. -/
theorem alikeBut_rxField {f : Frame} {p : FieldSpec} {k k' : Nat → Out} (hf : s.frx = some f)
    (hp : field g.space p = field f.space p) (h : ∀ x, AlikeBut g (k x) (k' x)) :
    AlikeBut g (rxField s p k) (rxField (s.withFrame g) p k') := by
  have hg : (s.withFrame g).frx = some g := rfl
  simp only [rxField, hf, hg, need_of_some, hp]
  exact alikeBut_ite (h _) rfl

end

/-! ## What an instruction reads of the frame -/

/-- What the instruction reads of the frame is in `g` what it is in `f`: the length, and the identifier for the record, or a field of
the payload. -/
def ReadsAlike (f g : Frame) : Instr → Prop
  | .lenchk _ => g.len = f.len ∧ g.ident = f.ident
  | .unpku byte nb1 shift w1 | .unpks byte nb1 shift w1 =>
    field g.space (fieldF byte nb1 shift w1) = field f.space (fieldF byte nb1 shift w1)
  | .flgget byte bit => field g.space (fieldB byte bit) = field f.space (fieldB byte bit)
  | _ => True

theorem execMicro_alike {s : State} {f g : Frame} {i : Instr} (hf : s.frx = some f) (hi : ReadsAlike f g i) :
    AlikeBut g (execMicro i s) (execMicro i (s.withFrame g)) := by
  cases i with
  | lenchk n =>
    obtain ⟨hlen, hident⟩ := hi
    have hg : (s.withFrame g).frx = some g := rfl
    simp only [execMicro, execLenchk_of hf, execLenchk_of hg, hlen, hident]
    exact alikeBut_ite alikeBut_advance rfl
  | unpku =>
    unfold execMicro execUnpku
    exact alikeBut_rxField hf hi fun _ => alikeBut_ite alikeBut_advance rfl
  | unpks =>
    unfold execMicro execUnpks
    exact alikeBut_rxField hf hi fun _ => alikeBut_advance
  | flgget =>
    unfold execMicro execFlgget
    exact alikeBut_rxField hf hi fun _ => alikeBut_advance
  | scdiv => exact alikeBut_need fun _ _ => alikeBut_divisor fun _ => alikeBut_advance
  | scmul => exact alikeBut_need fun _ _ => alikeBut_constant fun _ => alikeBut_advance
  | sbsetv => exact alikeBut_need fun _ _ => alikeBut_need fun _ _ => alikeBut_advance
  | sbseta => exact alikeBut_need fun _ _ => alikeBut_advance
  | stclr | stset | ldai => exact alikeBut_advance
  | ldvc => exact alikeBut_constant fun _ => alikeBut_advance
  | sbgetv =>
    unfold execMicro execSbgetv
    exact alikeBut_busGet fun _ _ => alikeBut_advance
  | sbgeta =>
    unfold execMicro execSbgeta
    exact alikeBut_busGetInt fun _ _ => alikeBut_advance
  | catsel =>
    unfold execMicro execCatsel
    exact alikeBut_busGetInt fun _ _ => alikeBut_need fun _ _ => alikeBut_index fun _ _ =>
      alikeBut_busGet fun _ _ => alikeBut_constant fun _ => alikeBut_advance
  | uconv =>
    exact alikeBut_need fun _ _ => alikeBut_busGetInt fun _ _ => alikeBut_need fun _ _ => alikeBut_index fun _ _ =>
      alikeBut_constant fun _ => alikeBut_advance
  | encmul => exact alikeBut_need fun _ _ => alikeBut_constant fun _ => alikeBut_quantise _
  | encdiv => exact alikeBut_need fun _ _ => alikeBut_divisor fun _ => alikeBut_quantise _
  | packu | packs => exact alikeBut_need fun _ _ => alikeBut_pack _ _ _
  | flgput => exact alikeBut_need fun _ _ => alikeBut_txInsert fun _ => alikeBut_advance
  | roll =>
    exact alikeBut_need fun _ _ => alikeBut_index fun _ _ => alikeBut_txInsert fun u =>
      alikeBut_advance (s := { u with rollcnt := _ })
  | send =>
    refine alikeBut_need fun e _ => alikeBut_need fun c _ => alikeBut_index fun en _ => ?_
    have htxb : (s.withFrame g).txb = s.txb := rfl
    rw [htxb]
    cases builtFrame en s.txb with
    | none => rfl
    | some f => exact alikeBut_sendFrame e f fun _ => rfl
  | end_ => rfl
  | _ => rfl

/-! ## The run of a handler -/

section
variable {f g : Frame}

/-- The loop of RUNH, where every instruction reads alike. -/
theorem runLoop_alike (hall : ∀ i, ReadsAlike f g i) : ∀ (n : Nat) {s : State}, s.frx = some f →
    AlikeBut g (runLoop n s) (runLoop n (s.withFrame g))
  | 0, _, _ => alikeBut_need fun _ _ => rfl
  | n + 1, s, hf => by
    have hstep : AlikeBut g (microStep s) (microStep (s.withFrame g)) := by
      refine alikeBut_need fun u _ => alikeBut_need fun c _ => alikeBut_index fun w _ => ?_
      cases decodeMicro w with
      | error e => rfl
      | ok i => exact execMicro_alike hf (hall i)
    refine alikeBut_andThen hstep fun t ht => alikeBut_ite rfl (runLoop_alike hall n ?_)
    obtain ⟨i, hm⟩ := microStep_microNext ht
    exact hm.frame.frx.trans hf

/-- The run of a list, where its instructions read alike. -/
theorem runList_alike : ∀ (is : List Instr) {s : State}, (∀ i ∈ is, ReadsAlike f g i) → s.frx = some f →
    AlikeBut g (runList is s) (runList is (s.withFrame g))
  | [], _, _, _ => rfl
  | i :: is, _, hall, hf =>
    alikeBut_andThen (execMicro_alike hf (hall i List.mem_cons_self)) fun _ ht =>
      alikeBut_ite rfl (runList_alike is (fun j hj => hall j (List.mem_cons_of_mem i hj))
        ((runFrame_execMicro ht).frx.trans hf))

/-- A handler that starts with LENCHK n: its other instructions need to read alike only where the frame has length n. -/
theorem runList_lenchk_alike {n : BitVec 16} {is : List Instr} {s : State} (hlen : g.len = f.len) (hident : g.ident = f.ident)
    (hall : f.len.val = n.toNat → ∀ i ∈ is, ReadsAlike f g i) (hf : s.frx = some f) :
    AlikeBut g (runList (.lenchk n :: is) s) (runList (.lenchk n :: is) (s.withFrame g)) := by
  refine alikeBut_andThen (execMicro_alike hf ⟨hlen, hident⟩) fun t ht => ?_
  by_cases heq : f.len.val = n.toNat
  · exact alikeBut_ite rfl (runList_alike is (hall heq) ((runFrame_execMicro ht).frx.trans hf))
  · have hend : t = (s.raise (.lenmis f.ident.id f.ident.ide f.len.val n.toNat)).endRun := by
      rw [execMicro, execLenchk_of hf, if_neg heq] at ht
      exact (Host.Outcome.next.inj ht).symm
    rw [hend]
    rfl

/-- `WF_FIELD` (45_engine_tick.md R265): an instruction of a handler of length `len` reads bytes below `len` only. -/
theorem readsAlike_of_wfField {i : Instr} (hlen : g.len = f.len) (hident : g.ident = f.ident)
    (hspace : ∀ j, j < f.len.val → g.space j = f.space j) (hi : wfField f.len.val i = true) : ReadsAlike f g i := by
  cases i with
  | lenchk n => exact ⟨hlen, hident⟩
  | unpku byte nb1 shift w1 =>
    simp only [wfField, Bool.and_eq_true, decide_eq_true_eq] at hi
    obtain ⟨⟨_, hin⟩, _⟩ := hi
    exact field_congr fun j _ hj => hspace j (Nat.lt_of_lt_of_le hj hin)
  | unpks byte nb1 shift w1 =>
    simp only [wfField, Bool.and_eq_true, decide_eq_true_eq] at hi
    obtain ⟨_, hin⟩ := hi
    exact field_congr fun j _ hj => hspace j (Nat.lt_of_lt_of_le hj hin)
  | flgget byte bit =>
    simp only [wfField, decide_eq_true_eq] at hi
    exact field_congr fun j _ hj => hspace j (Nat.lt_of_lt_of_le hj hi)
  | _ => trivial

/-- A decode handler starts with its one LENCHK (45_engine_tick.md R265). -/
theorem eq_lenchk_cons {is : List Instr} (h : wfLenFirst .decode is = true) : ∃ n rest, is = .lenchk n :: rest := by
  cases is with
  | nil => cases h
  | cons i rest =>
    cases i with
    | lenchk n => exact ⟨n, rest, rfl⟩
    | _ => cases h

/-- Every decode handler of the configuration takes the two frames to the same outcome but for `FRX`. -/
def HandlersAlike (f g : Frame) (c : Cfg) : Prop :=
  ∀ r ∈ c.reg, ∀ s : State, s.cfg = some c → s.frx = some f →
    AlikeBut g (runHandler .decode r.decAddr s) (runHandler .decode r.decAddr (s.withFrame g))

theorem handlersAlike_of_readsAlike (hall : ∀ i, ReadsAlike f g i) (c : Cfg) : HandlersAlike f g c := by
  intro r _ s hc hf
  have hc' : (s.withFrame g).cfg = some c := hc
  simp only [runHandler, hc, hc', need_of_some]
  exact runLoop_alike (s := s.startRun .decode r.decAddr) hall _ hf

/-- The checked handlers take two frames of one length with the same bytes below it alike. -/
theorem handlersAlike_of_checked {c : Cfg} (hchk : checkCfg c = .ok) (hlen : g.len = f.len) (hident : g.ident = f.ident)
    (hspace : ∀ j, j < f.len.val → g.space j = f.space j) : HandlersAlike f g c := by
  intro r hr s hc hf
  obtain ⟨is, hchecked⟩ := checked_of_wfHandler ((tablesOk hchk).decode r hr)
  obtain ⟨n, rest, rfl⟩ := eq_lenchk_cons hchecked.lenFirst
  rw [runHandler_eq_runList hchecked hc, runHandler_eq_runList (s := s.withFrame g) hchecked hc]
  refine runList_lenchk_alike (s := s.startRun .decode r.decAddr) hlen hident (fun heq i hi => ?_) hf
  have hwf := hchecked.each i (List.mem_cons_of_mem _ hi)
  simp only [wfInstr, Bool.and_eq_true] at hwf
  obtain ⟨⟨⟨⟨_, hfield⟩, _⟩, _⟩, _⟩ := hwf
  exact readsAlike_of_wfField hlen hident hspace (heq ▸ hfield)

/-! ## DISPATCH -/

theorem lookupFrom_congr (hident : g.ident = f.ident) : ∀ (rs : List RegEntry) (n : Nat) (h : Hit),
    lookupFrom g n rs h = lookupFrom f n rs h
  | [], _, _ => rfl
  | r :: rs, n, h => by
    have hm : r.matches g = r.matches f := by rw [RegEntry.matches, RegEntry.matches, hident]
    rw [lookupFrom, lookupFrom, hm, lookupFrom_congr hident rs]

theorem execRearm_alike (s : State) : AlikeBut g (execRearm s) (execRearm (s.withFrame g)) := by
  refine alikeBut_need fun hit _ => ?_
  cases hit with
  | miss => rfl
  | found n => exact alikeBut_need fun _ _ => alikeBut_index fun _ _ => alikeBut_writeCnt (s := s.enter .rearm) n _

theorem execDecode_alike {s : State} (hf : s.frx = some f) (hrun : ∀ c, s.cfg = some c → HandlersAlike f g c) :
    AlikeBut g (execDecode s) (execDecode (s.withFrame g)) := by
  refine alikeBut_need fun hit _ => ?_
  cases hit with
  | miss => rfl
  | found n =>
    exact alikeBut_need fun c hc => alikeBut_index fun r hr =>
      hrun c hc r (List.mem_of_getElem? hr) (s.enter .decode) hc hf

/-- DISPATCH reads the identifier, and otherwise what the decode handlers read (41_dispatcher.md R151). -/
theorem execDispatch_alike {s : State} (hident : g.ident = f.ident) (hf : s.frx = some f)
    (hrun : ∀ c, s.cfg = some c → HandlersAlike f g c) :
    AlikeBut g (execDispatch s) (execDispatch (s.withFrame g)) := by
  have hg : (s.withFrame g).frx = some g := rfl
  cases hc : s.cfg with
  | none =>
    have hnone : (s.withFrame g).cfg = none := hc
    simp only [execDispatch, execLookup, State.enter_cfg, hc, hnone, need_of_none, andThen_of_fault]
    rfl
  | some c =>
    have hc' : (s.withFrame g).cfg = some c := hc
    have hsame : c.lookup g = c.lookup f := lookupFrom_congr hident c.reg 0 .miss
    cases hl : c.lookup f with
    | miss =>
      rw [execDispatch_of_miss hc hf hl, execDispatch_of_miss hc' hg (hsame.trans hl), hident]
      rfl
    | found n =>
      rw [execDispatch_of_found hc hf hl, execDispatch_of_found hc' hg (hsame.trans hl)]
      refine alikeBut_andThen (execRearm_alike { s with phase := .dispatch, hit := some (.found n) }) fun s₂ hrearm => ?_
      obtain ⟨_, _, _, _, _, _, _, rfl⟩ :=
        execRearm_next (s := { s with phase := .dispatch, hit := some (.found n) }) hc hrearm
      exact alikeBut_andThen (execDecode_alike (s := State.enter _ .dispatch) hf hrun) fun _ _ => rfl

end

/-- Settles O26: the flag is in no byte of the payload, so every instruction reads the two frames alike. -/
theorem rtrIgnored : Obligations.RtrIgnored := by
  intro s f b
  have hall (i : Instr) : ReadsAlike f { f with rtr := b } i := by
    cases i with
    | lenchk n => exact ⟨rfl, rfl⟩
    | unpku | unpks | flgget => exact field_congr fun _ _ _ => rfl
    | _ => trivial
  exact execDispatch_alike (s := s.withFrame f) (f := f) (g := { f with rtr := b }) rfl rfl fun c _ =>
    handlersAlike_of_readsAlike hall c

/-- Settles O27: LENCHK ends the run of a frame of another length, and where it does not the fields lie below the length. -/
theorem meaninglessBytesUnread : Obligations.MeaninglessBytesUnread := by
  intro c s f g hr hident _ hlen hspace
  refine execDispatch_alike (s := s.withFrame f) hident rfl fun c' hc => ?_
  obtain rfl := Option.some.inj (hr.held.symm.trans hc)
  exact handlersAlike_of_checked hr.checked hlen hident hspace

end Sys2Proof.Machine
end

section
/-! SUPPORT. Decode and timeout handlers (42_codec_decode.md R173 to R184): what the operand forms give where they exist, the
value each instruction computes as the claims state it, and the step through a run word by word (R170, R172). -/

namespace Sys2Proof.Machine

/-! ## Stepping through a run (R170, R172) -/

/-- What the micro-sequencer completes is an instruction of the machine, with that meaning. -/
theorem exec_of_execMicro_next {i : Instr} {s t : State} (h : execMicro i s = .next t) : exec i s = .next t := by
  cases i with
  | reset | init | tick | drain | lookup | dispatch | rearm | decode | supervise | supent | tofire | sched | bucket
  | encode => cases h
  | _ => exact h

/-- Where one turn of the loop of RUNH completes, one step does the same, and the sequencer goes on from there. -/
theorem step_of_microStep {s t : State} (h : microStep s = .next t) : step s = afterMicro t := by
  obtain ⟨u, c, w, i, hu, hc, hw, hd, hi⟩ := fetchMicro_next.mp h
  rw [step_of_fetch (fetch_micro hu hc hw) hd, exec_of_execMicro_next hi, position_micro hu]
  rfl

theorem afterMicro_of_running {s : State} (hu : s.upc ≠ none) : afterMicro s = .next s := if_pos hu

theorem run_succ_of_next {s t : State} (k : Nat) (h : step s = .next t) :
    Host.Core.run Sys2Proof.core (k + 1) s = Host.Core.run Sys2Proof.core k t := by
  simp only [Host.Core.run, core, h]

theorem run_one (s : State) : Host.Core.run Sys2Proof.core 1 s = step s := by
  simp only [Host.Core.run, core]
  cases step s <;> rfl

/-- As many steps of the machine as the loop made turns, the last of which ends the run. -/
theorem run_of_runLoop : ∀ (n : Nat) (s t : State), runLoop n s = .next t →
    ∃ k, k ≤ n ∧ Host.Core.run Sys2Proof.core k s = afterMicro t
  | 0, s, t, h => by simp [runLoop] at h
  | n + 1, s, t, h => by
    obtain ⟨s', hs, ⟨_, rfl⟩ | ⟨hu, h⟩⟩ := runLoop_succ_next h
    · exact ⟨1, by omega, (run_one s).trans (step_of_microStep hs)⟩
    · obtain ⟨k, hk, hrun⟩ := run_of_runLoop n s' t h
      have hstep : step s = .next s' := (step_of_microStep hs).trans (afterMicro_of_running hu)
      exact ⟨k + 1, by omega, (run_succ_of_next k hstep).trans hrun⟩

/-- Settles O8, by induction on the words the loop may run. -/
theorem microStepsAgree : Obligations.MicroStepsAgree :=
  fun n s t _ h => run_of_runLoop n s t h

/-! ## Extension (00_scope.md R11) -/

/-- `sext_n` reads a number as a signed bit vector does. -/
theorem sext_eq_toInt (n x : Nat) : sext (n + 1) x = (BitVec.ofNat (n + 1) x).toInt := by
  have hpow : 2 ^ (n + 1) = 2 * 2 ^ n := by ring
  simp only [sext, zext, BitVec.toInt_eq_toNat_cond, BitVec.toNat_ofNat, Nat.add_sub_cancel]
  split <;> split <;> omega

theorem ofInt_sext (n x : Nat) : BitVec.ofInt 64 (sext (n + 1) x) = (BitVec.ofNat (n + 1) x).signExtend 64 := by
  rw [sext_eq_toInt, BitVec.signExtend]

theorem ofNat_eq_setWidth {w x : Nat} (hx : x < 2 ^ w) : BitVec.ofNat 64 x = (BitVec.ofNat w x).setWidth 64 := by
  apply BitVec.eq_of_toNat_eq
  rw [BitVec.toNat_setWidth, toNat_ofNat_of_lt hx, BitVec.toNat_ofNat]

theorem extractLsb_one_setWidth (x : BitVec 64) (i : Nat) :
    (x.extractLsb' i 1).setWidth 64 = if x.getLsbD i then 1 else 0 := by
  rw [← ofBool_getLsbD]
  cases x.getLsbD i <;> rfl

/-! ## Fields of the payload (R173) -/

theorem rxField_of {s : State} {f : Frame} {p : FieldSpec} (hf : s.frx = some f) (hp : p.fits = true) (k : Nat → Out) :
    rxField s p k = k (field f.space p) := by
  simp only [rxField, hf, need_of_some, if_pos hp]

theorem field_lt (space : Nat → Byte) (p : FieldSpec) : field space p < 2 ^ p.w :=
  Nat.mod_lt _ (Nat.two_pow_pos p.w)

/-- The field zero-extended, as bits of the payload read as one number (20_memory.md R68). -/
theorem ofNat_field (f : Frame) {p : FieldSpec} (hp : p.fits = true) :
    BitVec.ofNat 64 (field f.space p) = ((payloadBits f.payload).extractLsb' (8 * p.o + p.s) p.w).setWidth 64 := by
  rw [ofNat_eq_setWidth (field_lt f.space p), field_payloadBits f hp]

section
variable {byte nb1 : BitVec 3} {shift w1 : BitVec 6} {s : State} {f : Frame} {u : Nat}

theorem execUnpku_of (hf : s.frx = some f) (hu : s.upc = some u) (hp : (fieldF byte nb1 shift w1).fits = true)
    (hw : w1.toNat + 1 ≤ 63) :
    execUnpku byte nb1 shift w1 s =
      .next { s with
        a := some (((payloadBits f.payload).extractLsb' (8 * byte.toNat + shift.toNat) (w1.toNat + 1)).setWidth 64),
        upc := some (u + 1) } := by
  rw [execUnpku, rxField_of hf hp, if_pos hw, ofNat_field f hp]
  exact advance_of hu

theorem execUnpks_of (hf : s.frx = some f) (hu : s.upc = some u) (hp : (fieldF byte nb1 shift w1).fits = true) :
    execUnpks byte nb1 shift w1 s =
      .next { s with
        a := some (((payloadBits f.payload).extractLsb' (8 * byte.toNat + shift.toNat) (w1.toNat + 1)).signExtend 64),
        upc := some (u + 1) } := by
  have hbits : BitVec.ofNat (w1.toNat + 1) (field f.space (fieldF byte nb1 shift w1)) = _ := field_payloadBits f hp
  rw [execUnpks, rxField_of hf hp, ofInt_sext, hbits]
  exact advance_of hu

theorem execFlgget_of (hf : s.frx = some f) (hu : s.upc = some u) (hp : (fieldB byte shift).fits = true) :
    execFlgget byte shift s =
      .next { s with
        a := some (if (payloadBits f.payload).getLsbD (8 * byte.toNat + shift.toNat) then 1 else 0),
        upc := some (u + 1) } := by
  have hbit : BitVec.ofNat 64 (field f.space (fieldB byte shift)) = _ :=
    (ofNat_field f hp).trans (extractLsb_one_setWidth _ _)
  rw [execFlgget, rxField_of hf hp, hbit]
  exact advance_of hu

end

/-- Settles O40: each reads a field that fits, which is a slice of the payload. -/
theorem unpackResult : Obligations.UnpackResult := by
  intro byte nb1 shift w1 s f u hf hu
  refine ⟨fun hin hend => ?_, fun hbit => execFlgget_of hf hu ((fieldB_fits byte shift).mpr hbit)⟩
  have hp := (fieldF_fits byte nb1 shift w1).mpr ⟨hin, hend⟩
  exact ⟨execUnpku_of hf hu hp, execUnpks_of hf hu hp⟩

/-! ## Constants (10_state.md R26) -/

theorem PoolEntry.value_eq_div (p : PoolEntry) : p.value = (p.num.toInt : Rat) / (p.den.toNat : Rat) :=
  Rat.mkRat_eq_div _ _

section
variable {n : BitVec 16} {s : State} {c : Cfg} {p : PoolEntry}

theorem constant_of (hc : s.cfg = some c) (hp : c.cpool[n.toNat]? = some p) (hd : p.den ≠ 0) (k : Rat → Out) :
    constant s n k = k p.value := by
  simp only [constant, hc, need_of_some, index_of_some hp, if_neg hd]

theorem divisor_of (hc : s.cfg = some c) (hp : c.cpool[n.toNat]? = some p) (hd : p.den ≠ 0) (hn : p.num ≠ 0)
    (k : Rat → Out) : divisor s n k = k p.value := by
  rw [divisor, constant_of hc hp hd, if_neg (PoolEntry.value_ne hn hd)]

end

/-- Settles O41: the operand is there, and the numerator decides whether it divides. -/
theorem scaleResult : Obligations.ScaleResult := by
  intro n s c p a u ha hu hc hp hd
  rw [← p.value_eq_div]
  refine ⟨fun hn => ?_, ?_⟩
  · have hdiv : exec (.scdiv n) s = advance (s.setV ((a.toInt : Rat) / p.value)) := by
      simp only [exec, execScdiv, ha, need_of_some, divisor_of hc hp hd hn]
    exact hdiv.trans (advance_of hu)
  · have hmul : exec (.scmul n) s = advance (s.setV ((a.toInt : Rat) * p.value)) := by
      simp only [exec, execScmul, ha, need_of_some, constant_of hc hp hd]
    exact hmul.trans (advance_of hu)

/-- Settles O45: the immediate is a signed number of 16 bits, the constant one of the pool. -/
theorem loadConstantResult : Obligations.LoadConstantResult := by
  intro n s u hu
  refine ⟨?_, fun c p hc hp hd => ?_⟩
  · have himm : exec (.ldai n) s = advance (s.setA (n.signExtend 64)) := by
      simp only [exec, execLdai, ofInt_sext, BitVec.ofNat_toNat, BitVec.setWidth_eq]
    exact himm.trans (advance_of hu)
  · rw [← p.value_eq_div]
    have hpool : exec (.ldvc n) s = advance (s.setV p.value) := constant_of hc hp hd fun q => advance (s.setV q)
    exact hpool.trans (advance_of hu)

/-! ## `NUM.store_real` (R179) -/

/-- In lowest terms n/2^j keeps a power of two below and grows no larger above. -/
theorem exactDyadic_of {n : Int} {j : Nat} (hn : n.natAbs < 2 ^ 24) (hj : j ≤ 24) :
    exactDyadic ((n : Rat) / 2 ^ j) = true := by
  have hq : (n : Rat) / 2 ^ j = Rat.divInt n (2 ^ j : Int) := by
    rw [Rat.divInt_eq_div]
    push_cast
    rfl
  have hden : (Rat.divInt n (2 ^ j : Int)).den ∣ 2 ^ 24 := by
    have hdvd : (Rat.divInt n (2 ^ j : Int)).den ∣ 2 ^ j := by exact_mod_cast Rat.den_dvd n (2 ^ j)
    exact hdvd.trans (Nat.pow_dvd_pow 2 hj)
  have hnum : (Rat.divInt n (2 ^ j : Int)).num.natAbs < 2 ^ 24 := by
    obtain rfl | hne := eq_or_ne n 0
    · simp
    · have hdvd := Int.natAbs_dvd_natAbs.mpr (Rat.num_dvd n (b := 2 ^ j) (by positivity))
      exact (Nat.le_of_dvd (Int.natAbs_pos.mpr hne) hdvd).trans_lt hn
  rw [hq, exactDyadic, Nat.mod_eq_zero_of_dvd hden]
  simpa using hnum

theorem StoreReal.apply_of_exactDyadic (f : StoreReal) {q : Rat} (h : exactDyadic q = true) : f.apply q = q := by
  cases f with
  | exact => rfl
  | impl n => exact if_pos h

/-- Settles O42: the value set is that of `NUM.store_real`, which keeps the arguments of `NUM_EXACT_DYADIC`. -/
theorem sbsetvResult : Obligations.SbsetvResult := by
  intro k s c q u hv hu hc
  refine ⟨c.storeReal.apply q, ?_, fun hexact => ?_, fun n j hn hj hq => ?_⟩
  · have hset : exec (.sbsetv k) s = advance (s.busSet k (.real (c.storeReal.apply q))) := by
      simp only [exec, execSbsetv, hv, hc, need_of_some]
    exact hset.trans (advance_of hu)
  · rw [hexact]
    rfl
  · exact StoreReal.apply_of_exactDyadic _ (hq ▸ exactDyadic_of hn hj)

/-! ## END (R184) -/

/-- Settles O46: END is the end of the run, which is where the registers of the run are cleared. -/
theorem endResult : Obligations.EndResult := fun _ => rfl

end Sys2Proof.Machine
end

section
/-! SUPPORT. The micro-instructions of encode handlers that read the signal bus or scale (43_codec_encode.md R201 to R206): the get
each makes, the constant it takes, and how far quantisation moves a value. -/

namespace Sys2Proof.Machine

/-! ## Gets (R201 to R204) -/

section
variable {k : Key} {n : BitVec 16} {s : State} {c : Cfg} {u : Nat}

theorem exec_sbgetv_of {x : SigVal} (hu : s.upc = some u) (hc : s.cfg = some c) (hx : busValue c s.sb k = some x) :
    exec (.sbgetv k) s = .next { s with v := some x.val, events := s.events ++ [.get k x], upc := some (u + 1) } := by
  have hget : exec (.sbgetv k) s = advance ((s.log (.get k x)).setV x.val) := by
    simp only [exec, execSbgetv, busGet_of hc hx]
  exact hget.trans (advance_of hu)

theorem exec_sbgeta_of {i : BitVec 64} (hu : s.upc = some u) (hc : s.cfg = some c)
    (hx : busValue c s.sb k = some (.int i)) :
    exec (.sbgeta k) s = .next { s with a := some i, events := s.events ++ [.get k (.int i)], upc := some (u + 1) } := by
  have hget : exec (.sbgeta k) s = advance ((s.log (.get k (.int i))).setA i) := by
    simp only [exec, execSbgeta, busGetInt_of hc hx, BitVec.ofInt_toInt]
  exact hget.trans (advance_of hu)

end

/-- A declared key where nothing is listed reads as the environment's value of the key's type (log 4). -/
theorem busValue_of_unlisted {c : Cfg} {sb : Bus} {k : Key} {ty : SigType} (hf : Bus.find sb k = none)
    (hk : keyType c.ktype k = some ty) : busValue c sb k = some (unwritten ty k) := by
  have hcontent : busContent sb k ty = unwritten ty k := by rw [busContent, hf, Option.getD_none]
  rw [busValue_of hk (hcontent ▸ unwritten_type ty k), hcontent]

/-- Settles O47: a listed value of the declared type is what is read, and else the environment's. -/
theorem getResult : Obligations.GetResult := by
  intro k s c u hu hc
  refine ⟨fun x hf hk => ?_, fun i hf hk => ?_, fun ty hf hk => ?_, fun hf hk => ?_⟩
  · exact exec_sbgetv_of hu hc (by rw [busValue_of_find hf, if_pos hk])
  · exact exec_sbgeta_of hu hc (by rw [busValue_of_find hf]; exact if_pos hk)
  · exact ⟨unwritten ty k, unwritten_type ty k, exec_sbgetv_of hu hc (busValue_of_unlisted hf hk)⟩
  · exact ⟨Config.busInt k, exec_sbgeta_of hu hc (busValue_of_unlisted hf hk)⟩

/-- Settles O49: the selector names the candidate, whose key and constant give the product. -/
theorem catselResult : Obligations.CatselResult := by
  intro k n s c u tab idx cand x p hu hc htab hidx hin hout hx hp hd
  obtain rfl := CatTable.select_eq hin hout
  have hcat : exec (.catsel k n) s =
      advance (((s.log (.get k (.int idx))).log (.get (tab.select idx.toInt).key x)).setV (x.val * p.value)) := by
    have hx' : busValue c (s.log (.get k (.int idx))).sb (tab.select idx.toInt).key = some x := hx
    have hc' : (s.log (.get k (.int idx))).cfg = some c := hc
    simp only [exec, execCatsel, busGetInt_of hc hidx, hc', need_of_some, index_of_some htab, busGet_of hc' hx']
    exact constant_of (by exact hc) hp hd _
  rw [← p.value_eq_div, ← List.singleton_append, ← List.append_assoc]
  exact hcat.trans (advance_of hu)

/-- Settles O50: the flag at the key chooses the constant. -/
theorem uconvResult : Obligations.UconvResult := by
  intro k n s c u uc flag q p hu hc hv huc hflag h1 h0 hd
  have hp : c.cpool[(if flag.toInt ≠ 0 then uc.c1 else uc.c0).toNat]? = some p := by
    have hzero : flag.toInt = 0 ↔ flag = 0 := BitVec.toInt_inj (y := 0#64)
    by_cases h : flag = 0
    · rw [if_neg (not_not.mpr (hzero.mpr h))]
      exact h0 h
    · rw [if_pos (mt hzero.mp h)]
      exact h1 h
  have hconv : exec (.uconv k n) s = advance ((s.log (.get k (.int flag))).setV (q * p.value)) := by
    have hc' : (s.log (.get k (.int flag))).cfg = some c := hc
    simp only [exec, execUconv, hv, need_of_some, busGetInt_of hc hflag, hc', index_of_some huc]
    exact constant_of hc' hp hd _
  rw [← p.value_eq_div]
  exact hconv.trans (advance_of hu)

/-! ## Quantisation (R205, R206, R217) -/

theorem withinStep_iff {n : Int} {q : Rat} : withinStep n q = true ↔ (n : Rat) - q < 1 ∧ q - (n : Rat) < 1 := by
  simp only [withinStep, Bool.and_eq_true, decide_eq_true_eq]

theorem trunc_of_nonneg {q : Rat} (h : 0 ≤ q) : trunc q = ⌊q⌋ := by
  rw [trunc, Rat.floor_def', Int.tdiv_eq_ediv_of_nonneg (Rat.num_nonneg.mpr h)]

theorem trunc_neg (q : Rat) : trunc (-q) = -trunc q := by
  rw [trunc, trunc, Rat.num_neg_eq_neg_num, Rat.den_neg_eq_den, Int.neg_tdiv]

theorem trunc_towardZero_of_nonneg {q : Rat} (h : 0 ≤ q) : (trunc q : Rat) ≤ q ∧ q - (trunc q : Rat) < 1 := by
  rw [trunc_of_nonneg h]
  have := Int.floor_le q
  have := Int.lt_floor_add_one q
  constructor <;> linarith

theorem trunc_towardZero_of_nonpos {q : Rat} (h : q ≤ 0) : q ≤ (trunc q : Rat) ∧ (trunc q : Rat) - q < 1 := by
  obtain ⟨h1, h2⟩ := trunc_towardZero_of_nonneg (neg_nonneg.mpr h)
  rw [trunc_neg, Int.cast_neg] at h1 h2
  constructor <;> linarith

theorem trunc_withinStep (q : Rat) : withinStep (trunc q) q = true := by
  rw [withinStep_iff]
  rcases le_total 0 q with h | h
  · obtain ⟨h1, h2⟩ := trunc_towardZero_of_nonneg h
    exact ⟨by linarith, h2⟩
  · obtain ⟨h1, h2⟩ := trunc_towardZero_of_nonpos h
    exact ⟨h2, by linarith⟩

/-- `NUM_QUANT_STEP` (R205) holds of every choice of `NUM.quant`. -/
theorem Quant.apply_withinStep (f : Quant) (q : Rat) : (f.apply q : Rat) - q < 1 ∧ q - (f.apply q : Rat) < 1 := by
  rw [← withinStep_iff]
  cases f with
  | trunc => exact trunc_withinStep q
  | impl n =>
    simp only [Quant.apply]
    split
    · assumption
    · exact trunc_withinStep q

theorem fitsA_iff {n : Int} : fitsA n = true ↔ -(2 ^ 63) ≤ n ∧ n < 2 ^ 63 := by
  simp only [fitsA, Bool.and_eq_true, decide_eq_true_eq]

/-- An integer less than 1 from a value that keeps a distance of 1 from the bounds fits 64 bits. -/
theorem fitsA_of_bounds {n : Int} {y : Rat} (h1 : (n : Rat) - y < 1) (h2 : y - (n : Rat) < 1) (hlo : -(2 ^ 63) + 1 ≤ y)
    (hhi : y ≤ 2 ^ 63 - 2) : fitsA n = true := by
  have hn1 : (-(2 ^ 63) : Rat) < n := by linarith
  have hn2 : (n : Rat) < 2 ^ 63 := by linarith
  exact fitsA_iff.mpr ⟨by exact_mod_cast hn1.le, by exact_mod_cast hn2⟩

section
variable {m : BitVec 16} {s : State} {c : Cfg} {p : PoolEntry} {q y : Rat} {u : Nat} {i : Instr}

theorem quantise_of_fits (hc : s.cfg = some c) (hu : s.upc = some u) (hf : fitsA (c.quant.apply y) = true) :
    quantise s y = .next { s with a := some (BitVec.ofInt 64 (c.quant.apply y)), upc := some (u + 1) } :=
  quantise_next.mpr ⟨c, u, hc, hu, hf, rfl⟩

theorem quantise_of_overflow {e : Nat} (hc : s.cfg = some c) (hu : s.upc = some u) (he : s.idxE = some e)
    (hf : ¬fitsA (c.quant.apply y) = true) : quantise s y = .fault (.range e u) := by
  simp only [quantise, hc, he, hu, need_of_some, if_neg hf]

/-- ENCMUL and ENCDIV quantise the exact product and the exact quotient. -/
theorem exec_scale_eq_quantise (hv : s.v = some q) (hc : s.cfg = some c) (hp : c.cpool[m.toNat]? = some p) (hd : p.den ≠ 0)
    (hi : (i = .encmul m ∧ y = q * ((p.num.toInt : Rat) / (p.den.toNat : Rat))) ∨
      (i = .encdiv m ∧ p.num ≠ 0 ∧ y = q / ((p.num.toInt : Rat) / (p.den.toNat : Rat)))) :
    exec i s = quantise s y := by
  rw [← p.value_eq_div] at hi
  rcases hi with ⟨rfl, rfl⟩ | ⟨rfl, hn, rfl⟩
  · simp only [exec, execEncmul, hv, need_of_some, constant_of hc hp hd]
  · simp only [exec, execEncdiv, hv, need_of_some, divisor_of hc hp hd hn]

end

/-- Settles O51: the integer is that of `NUM.quant`; whether it fits decides. -/
theorem encodeScaleResult : Obligations.EncodeScaleResult := by
  intro m s c p q y u i hv hu hc hp hd hi
  rw [exec_scale_eq_quantise hv hc hp hd hi]
  obtain ⟨h1, h2⟩ := c.quant.apply_withinStep y
  refine ⟨c.quant.apply y, h1, h2, fun hq => ?_, fun hlo hhi => ?_, fun hlo hhi => ?_, fun hout e he => ?_⟩
  · rw [hq]
    exact ⟨fun h => (trunc_towardZero_of_nonneg h).1, fun h => (trunc_towardZero_of_nonpos h).1⟩
  · exact quantise_of_fits hc hu (fitsA_iff.mpr ⟨hlo, by omega⟩)
  · exact quantise_of_fits hc hu (fitsA_of_bounds h1 h2 hlo hhi)
  · exact quantise_of_overflow hc hu he (by rw [fitsA_iff]; omega)

end Sys2Proof.Machine
end

section
/-! SUPPORT. The micro-instructions of encode handlers that write the transmit buffer (43_codec_encode.md R207 to R212): an
insertion bit by bit, and what each packs. -/

namespace Sys2Proof.Machine

/-! ## Insertions (R207) -/

/-- Settles O52: the laws of the insertion, read as a number and bit by bit. -/
theorem insertChangesItsField : Obligations.InsertChangesItsField := by
  intro m p x hm hp
  refine ⟨?_, fun b hb => ?_, insertField_wf hm hp x⟩
  · rw [field_insertField hm hp, modPow_cast]
  · rw [insertField_getLsbD hm hp, if_neg (by omega)]

/-- Every bit after an insertion in one byte: the field's are the value's low bits, every other is as before. -/
theorem insertField_byte_getLsbD {m : Memory} (hm : Memory.wf m = true) {p : FieldSpec} (hnb : p.nb = 1)
    (hp : p.fits = true) (x : Int) (n b : Nat) :
    ((insertField m p x).read n).getLsbD b =
      if n = p.o ∧ p.s ≤ b ∧ b < p.s + p.w then (modPow x p.w).testBit (b - p.s) else (m.read n).getLsbD b := by
  obtain ⟨hin, _⟩ := (FieldSpec.fits_iff p).mp hp
  rcases lt_or_ge b 8 with hb | hb
  · have h := insertField_getLsbD hm hp x (8 * n + b)
    rw [show (8 * n + b) / 8 = n by omega, show (8 * n + b) % 8 = b by omega] at h
    rw [h]
    by_cases hf : n = p.o ∧ p.s ≤ b ∧ b < p.s + p.w
    · rw [if_pos hf, if_pos (by omega), show 8 * n + b - (8 * p.o + p.s) = b - p.s by omega]
    · rw [if_neg hf, if_neg (by omega)]
  · rw [if_neg (by omega), BitVec.getLsbD_of_ge _ _ hb, BitVec.getLsbD_of_ge _ _ hb]

theorem insertField_byte_read {m : Memory} (hm : Memory.wf m = true) {p : FieldSpec} (hnb : p.nb = 1)
    (hp : p.fits = true) (x : Int) {n : Nat} (hn : n ≠ p.o) : (insertField m p x).read n = m.read n :=
  BitVec.eq_of_getLsbD_eq fun b _ => by
    rw [insertField_byte_getLsbD hm hnb hp, if_neg fun h => hn h.1]

theorem txInsert_of {s : State} {p : FieldSpec} (hp : p.fits = true) (x : Int) (k : State → Out) :
    txInsert s p x k = k (s.setTxb (insertField s.txb p x)) := if_pos hp

/-! ## FLGPUT and ROLL (R211, R212) -/

theorem modPow_of_nonneg {x : Int} {w : Nat} (h0 : 0 ≤ x) (h : x < 2 ^ w) : ((modPow x w : Nat) : Int) = x := by
  rw [modPow_cast, Int.emod_eq_of_lt h0 h]

theorem modPow_flagBit (a : BitVec 64) : (modPow (flagBit a) 1).testBit 0 = (a != 0) := by
  unfold flagBit
  by_cases h : a = 0
  · rw [if_pos h, h]
    rfl
  · rw [if_neg h, bne_iff_ne.mpr h]
    rfl

/-- Settles O54: the insertion of one bit. -/
theorem flgputResult : Obligations.FlgputResult := by
  intro byte bit s a u ha hu hbit hm
  have hp := (fieldB_fits byte bit).mpr hbit
  refine ⟨insertField s.txb (fieldB byte bit) (flagBit a), ?_, ?_, fun n hn => ?_, fun b hb => ?_⟩
  · have hput : exec (.flgput byte bit) s = advance (s.setTxb (insertField s.txb (fieldB byte bit) (flagBit a))) := by
      simp only [exec, execFlgput, ha, need_of_some, txInsert_of hp]
    exact hput.trans (advance_of hu)
  · rw [insertField_byte_getLsbD hm rfl hp, if_pos ⟨rfl, le_rfl, Nat.lt_succ_self _⟩, ← modPow_flagBit]
    exact congrArg _ (Nat.sub_self _)
  · exact insertField_byte_read hm rfl hp _ hn
  · rw [insertField_byte_getLsbD hm rfl hp, if_neg]
    rintro ⟨-, hlo, hhi⟩
    simp only [fieldB] at hlo hhi
    omega

/-- Settles O55: the insertion of four bits, and the counter of 4 bits one further. -/
theorem rollResult : Obligations.RollResult := by
  intro r byte shift s l x u hl hx hu hshift hm
  have hp := (fieldR_fits byte shift).mpr hshift
  refine ⟨insertField s.txb (fieldR byte shift) x.toNat, ?_, ?_, fun n hn => ?_, fun b hb => ?_⟩
  · have hnext : BitVec.ofNat 4 ((x.toNat + 1) % 16) = x + 1 := by
      apply BitVec.eq_of_toNat_eq
      simp
    have hroll : exec (.roll r byte shift) s =
        advance { s.setTxb (insertField s.txb (fieldR byte shift) x.toNat) with
                  rollcnt := some (l.set r.toNat (x + 1)) } := by
      simp only [exec, execRoll, hl, need_of_some, index_of_some hx, txInsert_of hp]
    rw [hnext]
    exact hroll.trans (advance_of hu)
  · have hval : modPow x.toNat 4 = x.toNat := by
      have := modPow_of_nonneg (x := x.toNat) (w := 4) (by omega) (by exact_mod_cast x.isLt)
      exact_mod_cast this
    apply BitVec.eq_of_getLsbD_eq
    intro i hi
    rw [BitVec.getLsbD_extractLsb', insertField_byte_getLsbD hm rfl hp, if_pos]
    · simp only [fieldR, hval, hi, decide_true, Bool.true_and, Nat.add_sub_cancel_left]
      rfl
    · exact ⟨rfl, Nat.le_add_right _ _, Nat.add_lt_add_left hi _⟩
  · exact insertField_byte_read hm rfl hp _ hn
  · rw [insertField_byte_getLsbD hm rfl hp, if_neg]
    rintro ⟨-, hlo, hhi⟩
    simp only [fieldR] at hlo hhi
    omega

/-! ## PACKU and PACKS (R208 to R210) -/

section
variable {s : State} {r : PackRange} {x : Int} {c : Cfg} {e u : Nat}

theorem fitPack_of_mem (hlo : r.lo ≤ x) (hhi : x ≤ r.hi) (k : Int → State → Out) : fitPack s r x k = k x s :=
  if_pos ⟨hlo, hhi⟩

/-- Outside the range the policy decides, with `PACKOVF` recorded first. -/
theorem fitPack_of_not_mem (hx : x < r.lo ∨ r.hi < x) (hc : s.cfg = some c) (he : s.idxE = some e) (hu : s.upc = some u)
    (k : Int → State → Out) :
    (c.ovfPolicy = .wrap → fitPack s r x k = k x (s.raise (.packovf e u))) ∧
    (c.ovfPolicy = .saturate → fitPack s r x k = k (if x < r.lo then r.lo else r.hi) (s.raise (.packovf e u))) ∧
    (c.ovfPolicy = .fault → fitPack s r x k = .fault (.packOverflow e u)) := by
  have hout : ¬(r.lo ≤ x ∧ x ≤ r.hi) := by omega
  unfold fitPack
  simp only [if_neg hout, hc, he, hu, need_of_some]
  exact ⟨fun h => by rw [h], fun h => by rw [h], fun h => by rw [h]⟩

end

/-- The range of a pack, by its instruction, and what it does after the read of `A`. -/
theorem exec_pack_eq_fitPack {byte nb1 : BitVec 3} {shift w1 : BitVec 6} {s : State} {a : BitVec 64} {i : Instr} {lo hi : Int}
    (ha : s.a = some a)
    (hinstr : (i = .packu byte nb1 shift w1 ∧ lo = 0 ∧ hi = 2 ^ (w1.toNat + 1) - 1) ∨
      (i = .packs byte nb1 shift w1 ∧ lo = -(2 ^ w1.toNat) ∧ hi = 2 ^ w1.toNat - 1)) :
    exec i s = fitPack s ⟨lo, hi⟩ a.toInt fun y s' => txInsert s' (fieldF byte nb1 shift w1) y advance := by
  rcases hinstr with ⟨rfl, rfl, rfl⟩ | ⟨rfl, rfl, rfl⟩
  · simp only [exec, execPacku, ha, need_of_some, unsignedRange]
  · simp only [exec, execPacks, ha, need_of_some, signedRange, Nat.add_sub_cancel]

/-- Settles O53: in range the value is inserted, outside it the policy gives the value or the fault. -/
theorem packResult : Obligations.PackResult := by
  intro byte nb1 shift w1 s a u i lo hi p ha hu hspec hp hinstr
  have hpack : exec i s = fitPack s ⟨lo, hi⟩ a.toInt fun y s' => txInsert s' p y advance := by
    subst hspec
    exact exec_pack_eq_fitPack ha hinstr
  simp only [txInsert_of hp] at hpack
  rw [hpack]
  refine ⟨fun hlo hhi => ?_, fun hout c e hc he => ?_⟩
  · rw [fitPack_of_mem hlo hhi]
    exact advance_of hu
  · obtain ⟨hwrap, hsat, hfault⟩ := fitPack_of_not_mem (r := ⟨lo, hi⟩) hout hc he hu
      fun y s' => advance (s'.setTxb (insertField s'.txb p y))
    exact ⟨fun h => (hwrap h).trans (advance_of hu), fun h => (hsat h).trans (advance_of hu), hfault⟩

end Sys2Proof.Machine
end

section
/-! SUPPORT. The round trip of a value (43_codec_encode.md R216): what is packed in range is unpacked as it was, so what the two
scalings differ by is the step of the quantisation. -/

namespace Sys2Proof.Machine

/-! ## Unpacking what was packed (R173 to R175, R207 to R209) -/

/-- The pack and the unpack of one field and signedness, with the range of the field. -/
def SameField (byte nb1 : BitVec 3) (shift w1 : BitVec 6) (pack unpack : Instr) (lo hi : Int) : Prop :=
  (pack = .packu byte nb1 shift w1 ∧ unpack = .unpku byte nb1 shift w1 ∧ lo = 0 ∧ hi = 2 ^ (w1.toNat + 1) - 1) ∨
    (pack = .packs byte nb1 shift w1 ∧ unpack = .unpks byte nb1 shift w1 ∧ lo = -(2 ^ w1.toNat) ∧ hi = 2 ^ w1.toNat - 1)

section
variable {byte nb1 : BitVec 3} {shift w1 : BitVec 6} {s t : State} {f : Frame} {a : BitVec 64} {pack unpack : Instr}
variable {lo hi : Int}

theorem exec_pack_next_of_mem (hsame : SameField byte nb1 shift w1 pack unpack lo hi) (ha : s.a = some a)
    (hlo : lo ≤ a.toInt) (hhi : a.toInt ≤ hi) (h : exec pack s = .next t) :
    (fieldF byte nb1 shift w1).fits = true ∧ t.txb = insertField s.txb (fieldF byte nb1 shift w1) a.toInt := by
  rw [exec_pack_eq_fitPack ha (hsame.imp (fun h => ⟨h.1, h.2.2⟩) fun h => ⟨h.1, h.2.2⟩), fitPack_of_mem hlo hhi] at h
  obtain ⟨hp, h⟩ := txInsert_next.mp h
  obtain ⟨u, _, rfl⟩ := advance_next.mp h
  exact ⟨hp, rfl⟩

theorem ofNat_modPow (w : Nat) (x : Int) : BitVec.ofNat w (modPow x w) = BitVec.ofInt w x := by
  apply BitVec.eq_of_toNat_eq
  rw [toNat_ofNat_of_lt (modPow_lt x w), BitVec.toNat_ofInt, modPow]

theorem sext_modPow {n : Nat} {x : Int} (hlo : -(2 ^ n) ≤ x) (hhi : x ≤ 2 ^ n - 1) : sext (n + 1) (modPow x (n + 1)) = x := by
  rw [sext_eq_toInt, ofNat_modPow, BitVec.toInt_ofInt_eq_self (Nat.succ_pos n) hlo (Int.lt_of_le_sub_one hhi)]

theorem ofNat_modPow_of_nonneg {w : Nat} {x : Int} (h0 : 0 ≤ x) (h : x ≤ 2 ^ w - 1) :
    BitVec.ofNat 64 (modPow x w) = BitVec.ofInt 64 x := by
  rw [← BitVec.ofInt_natCast, modPow_of_nonneg h0 (Int.lt_of_le_sub_one h)]

/-- A frame whose field holds the low bits of a value in range gives the value. -/
theorem exec_unpack_next_of_mem (hsame : SameField byte nb1 shift w1 pack unpack lo hi) (hf : t.frx = some f)
    (hlo : lo ≤ a.toInt) (hhi : a.toInt ≤ hi)
    (hfield : field f.space (fieldF byte nb1 shift w1) = modPow a.toInt (w1.toNat + 1)) {t₁ : State}
    (h : exec unpack t = .next t₁) : t₁.a = some a ∧ t₁.cfg = t.cfg := by
  rcases hsame with ⟨-, rfl, rfl, rfl⟩ | ⟨-, rfl, rfl, rfl⟩
  · rw [exec, execUnpku] at h
    obtain ⟨g, hg, _, h⟩ := rxField_next.mp h
    obtain rfl := Option.some.inj (hf.symm.trans hg)
    split at h
    · obtain ⟨u, _, rfl⟩ := advance_next.mp h
      refine ⟨congrArg some ?_, rfl⟩
      rw [hfield, ofNat_modPow_of_nonneg hlo hhi, BitVec.ofInt_toInt]
    · cases h
  · rw [exec, execUnpks] at h
    obtain ⟨g, hg, _, h⟩ := rxField_next.mp h
    obtain rfl := Option.some.inj (hf.symm.trans hg)
    obtain ⟨u, _, rfl⟩ := advance_next.mp h
    refine ⟨congrArg some ?_, rfl⟩
    rw [hfield, sext_modPow hlo hhi, BitVec.ofInt_toInt]

end

/-! ## Scaling (R177, R205) -/

section
variable {m : BitVec 16} {s t : State} {c : Cfg} {p : PoolEntry}

theorem exec_encmul_next {x : Rat} (hc : s.cfg = some c) (hp : c.cpool[m.toNat]? = some p) (hv : s.v = some x)
    (h : exec (.encmul m) s = .next t) :
    t.txb = s.txb ∧ fitsA (c.quant.apply (x * p.value)) = true ∧
      t.a = some (BitVec.ofInt 64 (c.quant.apply (x * p.value))) := by
  obtain ⟨x', hx', h⟩ := need_next.mp h
  obtain rfl := Option.some.inj (hv.symm.trans hx')
  obtain ⟨c', p', hc', hp', _, h⟩ := constant_next.mp h
  obtain rfl := Option.some.inj (hc.symm.trans hc')
  obtain rfl := Option.some.inj (hp.symm.trans hp')
  obtain ⟨c'', u, hc'', _, hfits, rfl⟩ := quantise_next.mp h
  obtain rfl := Option.some.inj (hc.symm.trans hc'')
  exact ⟨rfl, hfits, rfl⟩

theorem exec_scdiv_next {a : BitVec 64} (hc : s.cfg = some c) (hp : c.cpool[m.toNat]? = some p) (ha : s.a = some a)
    (h : exec (.scdiv m) s = .next t) : t.v = some ((a.toInt : Rat) / p.value) := by
  obtain ⟨a', ha', h⟩ := need_next.mp h
  obtain rfl := Option.some.inj (ha.symm.trans ha')
  obtain ⟨c', p', hc', hp', _, _, h⟩ := divisor_next.mp h
  obtain rfl := Option.some.inj (hc.symm.trans hc')
  obtain rfl := Option.some.inj (hp.symm.trans hp')
  obtain ⟨u, _, rfl⟩ := advance_next.mp h
  rfl

end

theorem toInt_ofInt_of_fitsA {n : Int} (h : fitsA n = true) : (BitVec.ofInt 64 n).toInt = n := by
  obtain ⟨hlo, hhi⟩ := fitsA_iff.mp h
  exact BitVec.toInt_ofInt_eq_self (w := 64) (by decide) hlo hhi

/-- Settles O57: the field gives back the integer that ENCMUL quantised, and a step of the product is 1/d of a step of the value. -/
theorem roundTrip : Obligations.RoundTrip := by
  intro m byte nb1 shift w1 p d x pack unpack c c' s s₁ s₂ t t₁ t₂ f lo hi a hsame hc hp hc' hp' hd hdpos hv hm hmul ha hlo hhi
    hpack hf hspace hunpack hdiv
  rw [← p.value_eq_div] at hd
  subst hd
  obtain ⟨htxb, hfits, ha'⟩ := exec_encmul_next hc hp hv hmul
  obtain ⟨hfit, hins⟩ := exec_pack_next_of_mem hsame ha hlo hhi hpack
  have hfield : field f.space (fieldF byte nb1 shift w1) = modPow a.toInt (w1.toNat + 1) := by
    obtain ⟨_, hend⟩ := (FieldSpec.fits_iff _).mp hfit
    calc field f.space (fieldF byte nb1 shift w1) = field s₂.txb.read (fieldF byte nb1 shift w1) :=
          field_congr fun n _ hn => hspace n (Nat.lt_of_lt_of_le hn hend)
      _ = modPow a.toInt (w1.toNat + 1) := by
          rw [hins]
          exact field_insertField (htxb ▸ hm) hfit _
  obtain ⟨hat, hct⟩ := exec_unpack_next_of_mem hsame hf hlo hhi hfield hunpack
  refine ⟨(a.toInt : Rat) / p.value, exec_scdiv_next (hct.trans hc') hp' hat hdiv, ?_⟩
  have hn : a.toInt = c.quant.apply (x * p.value) := by
    rw [Option.some.inj (ha.symm.trans ha'), toInt_ofInt_of_fitsA hfits]
  obtain ⟨hup, hdown⟩ := c.quant.apply_withinStep (x * p.value)
  rw [← hn] at hup hdown
  have hx : x = x * p.value / p.value := (mul_div_cancel_right₀ x hdpos.ne').symm
  constructor
  · calc (a.toInt : Rat) / p.value - x = (a.toInt - x * p.value) / p.value := by rw [sub_div, ← hx]
      _ < 1 / p.value := by gcongr
  · calc x - (a.toInt : Rat) / p.value = (x * p.value - a.toInt) / p.value := by rw [sub_div, ← hx]
      _ < 1 / p.value := by gcongr

end Sys2Proof.Machine
end

section
/-! SUPPORT. SEND and ENCODE (43_codec_encode.md R200, R213): the frame handed over, the record of its answer, and the run of a
checked encode handler, whose one `send()` is its last act. -/

namespace Sys2Proof.Machine

/-! ## SEND (R213) -/

theorem idFits_iff {id : Nat} {ide : Bool} : idFits id ide = true ↔ IdFits id ide := by
  cases ide <;> simp [idFits, IdFits]

theorem nextAnswer_of_cons {s : State} {st : SendStatus} {rest : List SendStatus} (h : s.tx = st :: rest) :
    nextAnswer s = (st, { s with tx := rest }) := by
  rw [nextAnswer, h]

theorem nextAnswer_of_nil {s : State} (h : s.tx = []) :
    nextAnswer s = (SendStatus.ofCode (Config.sendAnswer s.freeCtr), { s with freeCtr := s.freeCtr + 1 }) := by
  rw [nextAnswer, h]

/-- The state after SEND of a frame by the encoder `e`: the answer taken, its record, and the run ended. -/
def State.sent (s : State) (e : Nat) (f : Frame) (l : List TxStat) : State :=
  { (nextAnswer s).2 with
    a := none, v := none, upc := none, hk := none,
    txstat := some (l.set e { valid := true, code := (nextAnswer s).1 }),
    events := s.events ++ (.send f (nextAnswer s).1 :: dropEvents e (nextAnswer s).1) }

theorem nextAnswer_txstat (s : State) : (nextAnswer s).2.txstat = s.txstat := by
  rw [nextAnswer_state]

/-- The `send()` of SEND stops only where `TXSTAT` has no place for the answer. -/
theorem sendFrame_eq (e : Nat) (f : Frame) (s : State) :
    (sendFrame e f s fun s₁ => .next s₁.endRun) =
      need .txstat s.txstat fun l => index .txstat l e fun _ => .next (s.sent e f l) := by
  rw [← nextAnswer_txstat]
  rfl

section
variable {s : State} {c : Cfg} {e : Nat} {en : EncEntry} {l : List TxStat} {f : Frame}

theorem execSend_of (he : s.idxE = some e) (hc : s.cfg = some c) (hen : c.enc[e]? = some en)
    (hf : builtFrame en s.txb = some f) (hl : s.txstat = some l) (hlt : e < l.length) :
    execSend s = .next (s.sent e f l) := by
  simp only [execSend, he, hc, need_of_some, index_of_some hen, hf, sendFrame_eq, hl, index_of_lt _ hlt]

theorem execSend_next {t : State} (he : s.idxE = some e) (hc : s.cfg = some c) (hen : c.enc[e]? = some en)
    (h : execSend s = .next t) :
    ∃ f l, builtFrame en s.txb = some f ∧ s.txstat = some l ∧ e < l.length ∧ t = s.sent e f l := by
  simp only [execSend, he, hc, need_of_some, index_of_some hen] at h
  split at h
  · cases h
  · rename_i f hf
    rw [sendFrame_eq] at h
    obtain ⟨l, hl, h⟩ := need_next.mp h
    obtain ⟨y, hy, h⟩ := index_next.mp h
    exact ⟨f, l, hf, hl, (List.getElem?_eq_some_iff.mp hy).1, (Host.Outcome.next.inj h).symm⟩

end

theorem sent_of_cons {s : State} {st : SendStatus} {rest : List SendStatus} (h : s.tx = st :: rest) (e : Nat) (f : Frame)
    (l : List TxStat) :
    s.sent e f l = { s with a := none, v := none, upc := none, hk := none, tx := rest,
                            txstat := some (l.set e { valid := true, code := st }),
                            events := s.events ++ (.send f st :: dropEvents e st) } := by
  simp only [State.sent, nextAnswer_of_cons h]

theorem sent_of_nil {s : State} (h : s.tx = []) (e : Nat) (f : Frame) (l : List TxStat) :
    ∃ st, s.sent e f l = { s with a := none, v := none, upc := none, hk := none, freeCtr := s.freeCtr + 1,
                                  txstat := some (l.set e { valid := true, code := st }),
                                  events := s.events ++ (.send f st :: dropEvents e st) } := by
  simp only [State.sent, nextAnswer_of_nil h]
  exact ⟨_, rfl⟩

/-- Settles O56: the frame of the encoder's fields is there, and the answer is listed or free. -/
theorem sendResult : Obligations.SendResult := by
  intro s c e en l he hc hen hid hdlc hl hlt
  obtain ⟨f, hf, h1, h2, h3, h4, h5⟩ := builtFrame_of_fits (idFits_iff.mpr hid) hdlc s.txb
  have hexec : exec .send s = .next (s.sent e f l) := execSend_of he hc hen hf hl hlt
  refine ⟨f, h1, h2, h3, h4, h5, fun st rest htx => ?_, fun htx => ?_⟩
  · rw [hexec, sent_of_cons htx]
    rfl
  · obtain ⟨st, hst⟩ := sent_of_nil htx e f l
    exact ⟨st, by rw [hexec, hst]; rfl⟩

/-! ## ENCODE (R200) -/

/-- The state in which ENCODE starts the handler of an encoder: on a cleared buffer. -/
def State.encoding (s : State) (e : Nat) : State := { s with idxE := some e, txb := [], phase := .encode }

/-- The position (`B`, `J`) names the encoder `e`, whose entry is `en` (44_scheduler.md R242). -/
structure Listed (c : Cfg) (s : State) (e : Nat) (en : EncEntry) : Prop where
  cfg : s.cfg = some c
  position : ∃ b j bk, s.idxB = some b ∧ c.bkt[b]? = some bk ∧ s.idxJ = some j ∧ bk.list[j]? = some e
  entry : c.enc[e]? = some en

section
variable {c : Cfg} {s : State} {e : Nat} {en : EncEntry}

theorem listedEncoder_of (h : Listed c s e en) (k : Nat → EncEntry → Out) : listedEncoder s k = k e en := by
  obtain ⟨hc, ⟨b, j, bk, hb, hbk, hj, he⟩, hen⟩ := h
  simp only [listedEncoder, hc, hb, hj, need_of_some, index_of_some hbk, index_of_some he, index_of_some hen]

theorem execEncode_of (h : Listed c s e en) :
    execEncode s = andThen (runHandler .encode en.base (s.encoding e)) fun s₁ => .next { s₁ with idxE := none } :=
  listedEncoder_of h _

end

/-- Settles O36: the first word is SEND, which ends the run. -/
theorem encodeOnlySend : Obligations.EncodeOnlySend := by
  intro c s b j e bk en l st rest hr hb hbk hj he hen hw hl htx
  have tables := tablesOk hr.checked
  have hmem := List.mem_of_getElem? hen
  obtain ⟨f, hf, h1, h2, h3, h4, h5⟩ := builtFrame_of_fits (tables.encId en hmem) (tables.dlc en hmem) []
  refine ⟨f, h1, h2, h3, h4, fun n => ?_, ?_⟩
  · rcases lt_or_ge n 8 with hn | hn
    · exact h5 n hn
    · simp [Frame.space, Vector.getD, Nat.not_lt.mpr hn]
  have hlt : e < l.length := by
    obtain ⟨l', hl', hlen⟩ := hr.arrays.txstat
    obtain rfl := Option.some.inj (hl.symm.trans hl')
    exact hlen ▸ (List.getElem?_eq_some_iff.mp hen).1
  have hstep : microStep ((s.encoding e).startRun .encode en.base) =
      .next (((s.encoding e).startRun .encode en.base).sent e f l) := by
    have hc : ((s.encoding e).startRun .encode en.base).cfg = some c := hr.held
    have hsend : decodeMicro 0x1700000000000000#64 = .ok .send := rfl
    simp only [microStep, fetchMicro, State.startRun_upc, hc, need_of_some, index_of_some hw, hsend]
    exact execSend_of rfl hc hen hf hl hlt
  have hrun : runHandler .encode en.base (s.encoding e) = .next (((s.encoding e).startRun .encode en.base).sent e f l) := by
    have hc : (s.encoding e).cfg = some c := hr.held
    rw [runHandler, hc, need_of_some, runLoop, hstep]
    rfl
  have hexec : exec .encode s = _ := execEncode_of ⟨hr.held, ⟨b, j, bk, hb, hbk, hj, he⟩, hen⟩
  rw [hexec, hrun, sent_of_cons (by exact htx)]
  rfl

/-! ## The run of an encode handler (R200, R213; 20_memory.md R61) -/

/-- The bytes of the buffer from an offset on are zero, and the buffer is canonical. -/
structure ZeroFrom (len : Nat) (m : Memory) : Prop where
  wf : Memory.wf m = true
  zero : ∀ n, len ≤ n → n < 8 → m.read n = 0

theorem insertField_read_of_ge {m : Memory} (hm : Memory.wf m = true) {p : FieldSpec} (hp : p.fits = true) (x : Int) {n : Nat}
    (hn : p.o + p.nb ≤ n) : (insertField m p x).read n = m.read n := by
  obtain ⟨_, hend⟩ := (FieldSpec.fits_iff p).mp hp
  rw [insertField, memWrite_read _ _ _ _ hm hend, if_neg (by omega)]

theorem ZeroFrom.insert {len : Nat} {m : Memory} (h : ZeroFrom len m) {p : FieldSpec} (hp : p.fits = true)
    (hlen : p.o + p.nb ≤ len) (x : Int) : ZeroFrom len (insertField m p x) :=
  ⟨insertField_wf h.wf hp x, fun n h1 h2 => by rw [insertField_read_of_ge h.wf hp x (hlen.trans h1), h.zero n h1 h2]⟩

theorem pack_zeroFrom {len : Nat} {s t : State} {r : PackRange} {p : FieldSpec} {x : Int} (hz : ZeroFrom len s.txb)
    (hlen : p.o + p.nb ≤ len) (h : (fitPack s r x fun y s' => txInsert s' p y advance) = .next t) : ZeroFrom len t.txb := by
  obtain ⟨y, s', h, hs⟩ := fitPack_next h
  obtain ⟨hp, h⟩ := txInsert_next.mp h
  obtain ⟨u, _, rfl⟩ := advance_next.mp h
  have htxb : s'.txb = s.txb := by
    rcases hs with rfl | ⟨e, u, rfl⟩ <;> rfl
  exact (htxb ▸ hz).insert hp hlen y

/-- `WF_FIELD` (45_engine_tick.md R265): an instruction of a handler of length `len` writes bytes below `len` only. -/
theorem execMicro_zeroFrom {len : Nat} {i : Instr} {s t : State} (hi : wfField len i = true) (hz : ZeroFrom len s.txb)
    (h : execMicro i s = .next t) : ZeroFrom len t.txb := by
  by_cases hw : writesTxb i = false
  · rw [(execMicro_microNext h).txb hw]
    exact hz
  cases i with
  | packu byte nb1 shift w1 =>
    simp only [wfField, Bool.and_eq_true, decide_eq_true_eq] at hi
    obtain ⟨⟨_, hlen⟩, _⟩ := hi
    obtain ⟨a, _, h⟩ := need_next.mp h
    exact pack_zeroFrom hz hlen h
  | packs byte nb1 shift w1 =>
    simp only [wfField, Bool.and_eq_true, decide_eq_true_eq] at hi
    obtain ⟨_, hlen⟩ := hi
    obtain ⟨a, _, h⟩ := need_next.mp h
    exact pack_zeroFrom hz hlen h
  | flgput byte bit =>
    obtain ⟨a, _, h⟩ := need_next.mp h
    obtain ⟨hp, h⟩ := txInsert_next.mp h
    obtain ⟨u, _, rfl⟩ := advance_next.mp h
    exact hz.insert hp (of_decide_eq_true hi) _
  | roll r byte shift =>
    obtain ⟨l, _, h⟩ := need_next.mp h
    obtain ⟨x, _, h⟩ := index_next.mp h
    obtain ⟨hp, h⟩ := txInsert_next.mp h
    obtain ⟨u, _, rfl⟩ := advance_next.mp h
    exact hz.insert hp (of_decide_eq_true hi) _
  | reset | init | tick | encode | bucket | sched => cases h
  | _ => exact absurd rfl hw

theorem sentIdents_append (es fs : List Event) : sentIdents (es ++ fs) = sentIdents es ++ sentIdents fs :=
  List.filterMap_append

/-- Only SEND may record a `send()`. -/
theorem sentIdents_eq_nil {i : Instr} {es : List Event} (hi : i ≠ .send) (h : ∀ e ∈ es, mayRecord i e = true) :
    sentIdents es = [] := by
  refine List.filterMap_eq_nil_iff.mpr fun e he => ?_
  have hrec := h e he
  cases e with
  | send f st =>
    cases i with
    | send => exact absurd rfl hi
    | _ => cases hrec
  | _ => rfl

/-- What a run up to its SEND has done. -/
structure Built (len : Nat) (s t : State) : Prop where
  frame : RunFrame s t
  buffer : ZeroFrom len s.txb → ZeroFrom len t.txb
  events : ∃ es, t.events = s.events ++ es ∧ sentIdents es = []

theorem Built.trans {len : Nat} {s t u : State} (h : Built len s t) (g : Built len t u) : Built len s u where
  frame := h.frame.trans g.frame
  buffer := g.buffer ∘ h.buffer
  events := by
    obtain ⟨es, he, hes⟩ := h.events
    obtain ⟨fs, hf, hfs⟩ := g.events
    exact ⟨es ++ fs, by rw [hf, he, List.append_assoc], by rw [sentIdents_append, hes, hfs, List.append_nil]⟩

theorem Built.refl (len : Nat) (s : State) : Built len s s := ⟨.refl s, id, [], (List.append_nil _).symm, rfl⟩

theorem execMicro_built {len : Nat} {i : Instr} {s t : State} (hi : wfField len i = true) (hs : i ≠ .send)
    (h : execMicro i s = .next t) : Built len s t := by
  have hm := execMicro_microNext h
  obtain ⟨es, he, hes⟩ := hm.events
  exact ⟨hm.frame, fun hz => execMicro_zeroFrom hi hz h, es, he, sentIdents_eq_nil hs hes⟩

/-- What an encode handler may hold before its terminator cannot end the run (42_codec_decode.md R171). -/
theorem canEndRun_of_encode_kind {i : Instr} (hk : kindAdmits .encode i = true) (hs : i ≠ .send) : canEndRun i = false := by
  cases i with
  | send => exact absurd rfl hs
  | lenchk | end_ => cases hk
  | _ => rfl

/-- A scanned encode handler runs up to its SEND, and that SEND is its last act. -/
theorem runList_encode_next {c : Cfg} {len : Nat} : ∀ (ws : List Word) {is : List Instr} {s t : State},
    scanWords .encode ws = some is → (∀ i ∈ is, wfInstr c .encode len i = true) → runList is s = .next t →
      ∃ s', Built len s s' ∧ execSend s' = .next t
  | [], is, _, _, hscan, _, _ => by cases hscan
  | w :: ws, is, s, t, hscan, hwf, h => by
    simp only [scanWords] at hscan
    split at hscan
    · cases hscan
    split at hscan
    · rename_i i _ hterm
      obtain rfl : i = .send := by simpa [isTerminator] using hterm
      obtain rfl := Option.some.inj hscan
      obtain ⟨s', hsend, h⟩ := andThen_next.mp h
      rw [if_pos (terminator_ends hterm hsend)] at h
      obtain rfl := Host.Outcome.next.inj h
      exact ⟨s, .refl len s, hsend⟩
    · rename_i i _ hterm
      have hne : i ≠ .send := by simpa [isTerminator] using hterm
      obtain ⟨js, hjs, rfl⟩ := Option.map_eq_some_iff.mp hscan
      have hi := hwf i List.mem_cons_self
      simp only [wfInstr, Bool.and_eq_true] at hi
      obtain ⟨⟨⟨⟨hkind, hfield⟩, _⟩, _⟩, _⟩ := hi
      obtain ⟨s₁, hexec, h⟩ := andThen_next.mp h
      rw [if_neg (execMicro_goesOn (canEndRun_of_encode_kind hkind hne) s s₁ hexec).1] at h
      obtain ⟨s', hbuilt, hsend⟩ := runList_encode_next ws hjs (fun j hj => hwf j (List.mem_cons_of_mem i hj)) h
      exact ⟨s', (execMicro_built hfield hne hexec).trans hbuilt, hsend⟩

/-- Settles O35: the run builds the buffer below `DLC`, records no `send()`, and ends with SEND. -/
theorem encodeSendsOneFrame : Obligations.EncodeSendsOneFrame := by
  intro c s t b j e bk en hr hb hbk hj he hen h
  have tables := tablesOk hr.checked
  have hmem := List.mem_of_getElem? hen
  obtain ⟨is, hchecked⟩ := checked_of_wfHandler (tables.encode en hmem)
  have hexec : exec .encode s = _ := execEncode_of ⟨hr.held, ⟨b, j, bk, hb, hbk, hj, he⟩, hen⟩
  rw [hexec, runHandler_eq_runList (s := s.encoding e) hchecked hr.held] at h
  obtain ⟨s₂, hrun, h⟩ := andThen_next.mp h
  obtain rfl := Host.Outcome.next.inj h
  obtain ⟨s₁, hbuilt, hsend⟩ := runList_encode_next _ hchecked.scan hchecked.each hrun
  obtain ⟨es, hevents, hnone⟩ := hbuilt.events
  have hc : s₁.cfg = some c := hbuilt.frame.cfg.trans hr.held
  obtain ⟨f, l, hf, hl, hlt, rfl⟩ := execSend_next hbuilt.frame.idxE hc hen hsend
  obtain ⟨g, hg, h1, h2, h3, h4, h5⟩ := builtFrame_of_fits (tables.encId en hmem) (tables.dlc en hmem) s₁.txb
  obtain rfl := Option.some.inj (hf.symm.trans hg)
  have hzero := (hbuilt.buffer ⟨rfl, fun _ _ _ => rfl⟩).zero
  refine ⟨es, f, (nextAnswer s₁).1, _, ?_, hnone, h1, h2, h3, h4, fun n hn h8 => ?_, rfl, ?_, rfl, rfl, rfl, rfl, rfl⟩
  · show s₁.events ++ _ = _
    rw [hevents]
    rfl
  · rw [h5 n h8]
    exact hzero n hn h8
  · exact List.getElem?_set_self hlt

end Sys2Proof.Machine
end

section
/-! SUPPORT. Where no fault of the spec can be met (60_exceptions.md R290), encode handlers complete, and with them ENCODE, BUCKET,
SCHED (44_scheduler.md R240, R242) and TICK (45_engine_tick.md R268); what the scheduler leaves of the rest of a TICK. -/

namespace Sys2Proof.Machine

/-! ## What the scheduler leaves alone (20_memory.md R65) -/

theorem KeepsReceive.trans {s t u : State} (h : KeepsReceive s t) (g : KeepsReceive t u) : KeepsReceive s u where
  cnt := g.cnt.trans h.cnt
  frx := g.frx.trans h.frx
  hit := g.hit.trans h.hit
  idxI := g.idxI.trans h.idxI
  sb := g.sb.trans h.sb
  rx := g.rx.trans h.rx

/-- The registers that neither the scheduler nor an encode handler writes. -/
structure KeptByScheduler (s t : State) : Prop where
  control : KeepsControl s t
  receive : KeepsReceive s t

theorem KeptByScheduler.trans {s t u : State} (h : KeptByScheduler s t) (g : KeptByScheduler t u) : KeptByScheduler s u :=
  ⟨h.control.trans g.control, h.receive.trans g.receive⟩

/-- An update of the position, the tick count, the indices of the scheduler, the registers of a run, the buffer, the rolling
counters, the send statuses, the answers and the event list. -/
theorem KeptByScheduler.of_update {s t : State}
    (h : t = { s with phase := t.phase, tickcnt := t.tickcnt, idxB := t.idxB, idxJ := t.idxJ, idxE := t.idxE, a := t.a,
                      v := t.v, upc := t.upc, hk := t.hk, txb := t.txb, rollcnt := t.rollcnt, txstat := t.txstat,
                      tx := t.tx, freeCtr := t.freeCtr, events := t.events }) : KeptByScheduler s t := by
  rw [h]
  exact ⟨⟨rfl, rfl, rfl, rfl, rfl⟩, ⟨rfl, rfl, rfl, rfl, rfl, rfl⟩⟩

/-! ## Configurations without a fault of the spec (R290) -/

theorem faultless_iff {c : Cfg} : c.faultless = true ↔ c.ovfPolicy ≠ .fault ∧
    ∀ en ∈ c.enc, ∀ is, scanHandler c .encode en.base = some is → ∀ i ∈ is, scalesForEncode i = false := by
  simp only [Cfg.faultless, Bool.and_eq_true, bne_iff_ne, List.all_eq_true]
  refine and_congr_right fun _ => forall₂_congr fun en _ => ?_
  cases scanHandler c .encode en.base with
  | none => simp
  | some is => simp

/-- What ENCODE needs to complete: a checked configuration without a fault of the spec, and a signal bus that keeps its types. -/
structure FaultFree (c : Cfg) (s : State) : Prop where
  ready : Ready c s
  faultless : c.faultless = true
  typed : BusTyped c s.sb

theorem FaultFree.of_kept {c : Cfg} {s t : State} (h : FaultFree c s) (hr : Ready c t) (hk : KeptByScheduler s t) :
    FaultFree c t :=
  ⟨hr, h.faultless, hk.receive.sb ▸ h.typed⟩

theorem runHandler_encode_completes {c : Cfg} {en : EncEntry} {is : List Instr} {s : State} (ht : TablesOk c)
    (hf : c.faultless = true) (hen : en ∈ c.enc) (h : Checked c .encode en.dlc en.base is)
    (hs : StartState c .encode en.dlc s) : ∃ t, runHandler .encode en.base s = .next t := by
  obtain ⟨hpolicy, hscale⟩ := faultless_iff.mp hf
  have ho := runHandler_outcome ht h (ht.dlc en hen) hs
  cases hr : runHandler .encode en.base s with
  | next t => exact ⟨t, rfl⟩
  | refused r =>
    rw [hr] at ho
    exact absurd ho id
  | fault r =>
    rw [hr] at ho
    cases r with
    | range e u =>
      obtain ⟨_, i, hi, hsc⟩ := ho
      exact absurd (hscale en hen is h.scan i hi) (by rw [hsc]; exact nofun)
    | packOverflow e u => exact absurd ho.2 hpolicy
    | _ => exact absurd ho id

/-! ## ENCODE (43_codec_encode.md R200) -/

/-- A position of a checked configuration names an encoder that is there (`WF_LIST`). -/
theorem Ready.listed {c : Cfg} {s : State} {b j e : Nat} {bk : Bucket} (hr : Ready c s) (hb : s.idxB = some b)
    (hbk : c.bkt[b]? = some bk) (hj : s.idxJ = some j) (he : bk.list[j]? = some e) : ∃ en, Listed c s e en := by
  have hlt := (tablesOk hr.checked).list bk (List.mem_of_getElem? hbk) e (List.mem_of_getElem? he)
  exact ⟨_, hr.held, ⟨b, j, bk, hb, hbk, hj, he⟩, List.getElem?_eq_getElem hlt⟩

theorem execEncode_completes {c : Cfg} {s : State} {e : Nat} {en : EncEntry} (hs : FaultFree c s) (hl : Listed c s e en) :
    ∃ t, execEncode s = .next t ∧ NoRun t ∧ KeptByScheduler s t := by
  have tables := tablesOk hs.ready.checked
  have hmem := List.mem_of_getElem? hl.entry
  obtain ⟨is, hchecked⟩ := checked_of_wfHandler (tables.encode en hmem)
  have start : Ready c (s.encoding e) := hs.ready.of_eq rfl rfl rfl rfl
  obtain ⟨s₁, hrun⟩ := runHandler_encode_completes tables hs.faultless hmem hchecked
    ⟨start.held, nofun, fun _ => ⟨e, en, rfl, hl.entry, rfl⟩, fun _ => start.arrays, fun _ => hs.typed⟩
  have hs₁ := runHandler_encode hchecked start.held hrun
  refine ⟨{ s₁ with idxE := none }, by rw [execEncode_of hl, hrun, andThen_of_next], ?_, .of_update ?_⟩
  · rw [hs₁]
    exact ⟨rfl, rfl, rfl, rfl⟩
  · rw [hs₁]
    rfl

/-! ## BUCKET and SCHED (44_scheduler.md R240, R242) -/

/-- The loop of BUCKET over the last n positions of the list. -/
theorem bucketLoop_completes {c : Cfg} {b : Nat} {bk : Bucket} (hbk : c.bkt[b]? = some bk) : ∀ (n j : Nat) {s : State},
    FaultFree c s → s.idxB = some b → j + n = bk.list.length →
      ∃ t, bucketLoop n j s = .next t ∧ t.idxJ = none ∧ KeptByScheduler s t
  | 0, _, _, _, _, _ => ⟨_, rfl, rfl, .of_update rfl⟩
  | n + 1, j, s, hs, hb, hlen => by
    have select : KeptByScheduler s { s with idxJ := some j } := .of_update rfl
    have selected := hs.of_kept (t := { s with idxJ := some j }) (hs.ready.of_eq rfl rfl rfl rfl) select
    have hj : bk.list[j]? = some bk.list[j] := List.getElem?_eq_getElem (by omega)
    obtain ⟨en, hlisted⟩ := selected.ready.listed hb hbk rfl hj
    obtain ⟨s₁, hencode, _, kept⟩ := execEncode_completes selected hlisted
    have frame := execEncode_opFrame selected.ready hencode
    have back : KeptByScheduler s₁ (s₁.enter .bucket) := .of_update rfl
    have kept := (select.trans kept).trans back
    obtain ⟨t, hloop, hJ, kept'⟩ := bucketLoop_completes hbk n (j + 1) (s := s₁.enter .bucket)
      (hs.of_kept (frame.ready.enter .bucket) kept) ((frame.only .b rfl).trans hb) (by omega)
    exact ⟨t, by rw [bucketLoop, hencode, andThen_of_next, hloop], hJ, kept.trans kept'⟩

theorem execBucket_completes {c : Cfg} {s : State} {b : Nat} {bk : Bucket} (hs : FaultFree c s) (hb : s.idxB = some b)
    (hbk : c.bkt[b]? = some bk) : ∃ t, execBucket s = .next t ∧ t.idxJ = none ∧ KeptByScheduler s t := by
  have enter : KeptByScheduler s (s.enter .bucket) := .of_update rfl
  obtain ⟨t, hloop, hJ, kept⟩ := bucketLoop_completes hbk bk.list.length 0 (s := s.enter .bucket)
    (hs.of_kept (hs.ready.enter _) enter) hb (Nat.zero_add _)
  refine ⟨t, ?_, hJ, enter.trans kept⟩
  simp only [execBucket, hs.ready.held, hb, need_of_some, index_of_some hbk, hloop]

/-- The loop of SCHED over the buckets from index b on. -/
theorem schedLoop_completes {c : Cfg} : ∀ (bks : List Bucket) (b : Nat) {s : State}, FaultFree c s → c.bkt.drop b = bks →
    ∃ t, schedLoop bks b s = .next t ∧ t.idxB = none ∧ KeptByScheduler s t
  | [], _, _, _, _ => ⟨_, rfl, rfl, .of_update rfl⟩
  | bk :: bks, b, s, hs, hdrop => by
    have hbk : c.bkt[b]? = some bk := by
      rw [← List.head?_drop, hdrop, List.head?_cons]
    have hrest : c.bkt.drop (b + 1) = bks := by
      rw [← List.tail_drop, hdrop, List.tail_cons]
    have select : KeptByScheduler s { s with idxB := some b } := .of_update rfl
    have selected := hs.of_kept (t := { s with idxB := some b }) (hs.ready.of_eq rfl rfl rfl rfl) select
    by_cases hdue : bk.due s.tickcnt = true
    · obtain ⟨s₁, hbucket, _, kept⟩ := execBucket_completes selected rfl hbk
      have back : KeptByScheduler s₁ (s₁.enter .sched) := .of_update rfl
      have kept := (select.trans kept).trans back
      have ready := (execBucket_opFrame selected.ready hbucket).ready.enter .sched
      obtain ⟨t, hloop, hB, kept'⟩ := schedLoop_completes bks (b + 1) (hs.of_kept ready kept) hrest
      exact ⟨t, by rw [schedLoop, if_pos hdue, hbucket, andThen_of_next, hloop], hB, kept.trans kept'⟩
    · obtain ⟨t, hloop, hB, kept'⟩ := schedLoop_completes bks (b + 1) selected hrest
      exact ⟨t, by rw [schedLoop, if_neg hdue, hloop], hB, select.trans kept'⟩

/-- The state in which SCHED tests its buckets: one tick further. -/
def State.counted (s : State) (c : Cfg) : State := { s with phase := .sched, tickcnt := (s.tickcnt + 1) % c.tickMod }

theorem execSched_of {c : Cfg} {s : State} (hc : s.cfg = some c) : execSched s = schedLoop c.bkt 0 (s.counted c) :=
  congrArg (need .cfg · fun cfg : Cfg => schedLoop cfg.bkt 0 (s.counted cfg)) hc

theorem execSched_completes {c : Cfg} {s : State} (hs : FaultFree c s) :
    ∃ t, execSched s = .next t ∧ t.idxB = none ∧ KeptByScheduler s t := by
  have count : KeptByScheduler s (s.counted c) := .of_update rfl
  obtain ⟨t, hloop, hB, kept⟩ :=
    schedLoop_completes c.bkt 0 (s := s.counted c) (hs.of_kept (hs.ready.of_eq rfl rfl rfl rfl) count) List.drop_zero
  exact ⟨t, (execSched_of hs.ready.held).trans hloop, hB, count.trans kept⟩

/-! ## TICK (45_engine_tick.md R268) -/

theorem execTick_of {c : Cfg} {s s₁ s₂ s₃ : State} (hrun : s.engstate = .run) (hc : s.cfg = some c) (hb : BusTyped c s.sb)
    (hdrain : execDrain s.newOp = .next s₁) (hsup : execSupervise s₁ = .next s₂) (hsched : execSched s₂ = .next s₃) :
    execTick s = .next (s₃.enter .idle) := by
  rw [execTick, if_pos hrun, onTypedBus_of hc hb, hdrain, andThen_of_next, hsup, andThen_of_next, hsched, andThen_of_next]

theorem execTick_completes {c : Cfg} {s : State} (hs : FaultFree c s) (hrun : s.engstate = .run) :
    ∃ t, exec .tick s = .next t ∧ t.phase = .idle ∧ t.rx = [] ∧ t.idxI = none ∧ t.idxB = none ∧
      t.tickcnt = (s.tickcnt + 1) % c.tickMod ∧ KeepsControl s t := by
  have start : Ready c s.newOp := hs.ready.of_eq rfl rfl rfl rfl
  obtain ⟨s₁, _, hdrain, _, _, hrx₁, _, control₁, transmit₁⟩ := (receiveCompletes c s.newOp start).1
  have ready₁ := (execDrain_opFrame start hdrain).ready
  have typed₁ := (execDrain_busFrame hdrain).typed c hs.ready.held hs.ready.checked hs.typed
  obtain ⟨l, hl, _⟩ := ready₁.arrays.cnt
  obtain ⟨s₂, _, hsup, _, _, _, _, hI₂, _, _, hrx₂, control₂, transmit₂⟩ := supervisePass c s₁ l ready₁ hl
  have ready₂ := (execSupervise_opFrame ready₁ hsup).ready
  have typed₂ := (execSupervise_busFrame hsup).typed c ready₁.held ready₁.checked typed₁
  obtain ⟨s₃, hsched, hB, kept⟩ := execSched_completes ⟨ready₂, hs.faultless, typed₂⟩
  refine ⟨s₃.enter .idle, execTick_of hrun hs.ready.held hs.typed hdrain hsup hsched, rfl, ?_, ?_, hB, ?_, ?_⟩
  · exact (kept.receive.rx.trans hrx₂).trans hrx₁
  · exact kept.receive.idxI.trans hI₂
  · have hcount : s₂.tickcnt = s.tickcnt := transmit₂.tickcnt.trans transmit₁.tickcnt
    rw [State.enter_tickcnt, execSched_tickcnt ready₂ hsched, hcount]
  · have newOp : KeepsControl s s.newOp := ⟨rfl, rfl, rfl, rfl, rfl⟩
    have leave : KeepsControl s₃ (s₃.enter .idle) := ⟨rfl, rfl, rfl, rfl, rfl⟩
    exact (((newOp.trans control₁).trans control₂).trans kept.control).trans leave

/-- Settles O34: each operation completes because the one it calls does. -/
theorem transmitCompletes : Obligations.TransmitCompletes := by
  intro c s hr hf hb
  have hs : FaultFree c s := ⟨hr, hf, hb⟩
  refine ⟨execTick_completes hs, ?_, fun b bk hB hbk => ⟨?_, fun j e hJ he => ?_⟩⟩
  · obtain ⟨t, hexec, hidx, kept⟩ := execSched_completes hs
    exact ⟨t, hexec, hidx, execSched_tickcnt hr hexec, kept.control, kept.receive⟩
  · obtain ⟨t, hexec, hidx, kept⟩ := execBucket_completes hs hB hbk
    have only := (execBucket_opFrame hr hexec).only
    exact ⟨t, hexec, (only .b rfl).trans hB, hidx, only .tickcnt rfl, kept.control, kept.receive⟩
  · obtain ⟨en, hlisted⟩ := hr.listed hB hbk hJ he
    obtain ⟨t, hexec, ended, kept⟩ := execEncode_completes hs hlisted
    have only := (execEncode_opFrame hr hexec).only
    exact ⟨t, hexec, ended, (only .b rfl).trans hB, (only .j rfl).trans hJ, execEncode_idxE hexec, only .tickcnt rfl,
      kept.control, kept.receive⟩

end Sys2Proof.Machine
end

section
/-! SUPPORT. What the answers of `send()` can influence (43_codec_encode.md R214): from two states that are equal but for what the
answers are recorded in, every operation answers the same but for that (`AnswerBlind`). It is proved once for each shared
operation, then for every micro-instruction, for the run of a handler, and for the operations of a TICK. -/

namespace Sys2Proof.Machine

/-! ## Operations that do not depend on the answers -/

/-- The two states are equal but for `TXSTAT`, the answers not yet taken, and their records. -/
def SameButAnswers (s s' : State) : Prop := s.forgetAnswers = s'.forgetAnswers

/-- From states that are equal but for the answers, the operation stops alike, or goes to states that are equal but for them. -/
def AnswerBlind (f : State → Out) : Prop :=
  ∀ s s', SameButAnswers s s' → mapNext State.forgetAnswers (f s) = mapNext State.forgetAnswers (f s')

/-- The update does not depend on the answers. -/
def KeepsSame (g : State → State) : Prop := ∀ s s', SameButAnswers s s' → SameButAnswers (g s) (g s')

/-- An update that writes nothing the answers are recorded in. -/
theorem keepsSame_of_comm {g : State → State} (h : ∀ s, (g s).forgetAnswers = g s.forgetAnswers) : KeepsSame g :=
  fun s s' hs => by
    have hs : s.forgetAnswers = s'.forgetAnswers := hs
    rw [SameButAnswers, h, h, hs]

/-- A read of what the answers are not recorded in. -/
theorem SameButAnswers.read {α : Type} {s s' : State} (hs : SameButAnswers s s') (get : State → α)
    (h : ∀ u : State, get u.forgetAnswers = get u) : get s = get s' := by
  rw [← h s, ← h s']
  exact congrArg get hs

theorem keepsSame_comp {f g : State → State} (hf : KeepsSame f) (hg : KeepsSame g) : KeepsSame fun s => f (g s) :=
  fun s s' hs => hf _ _ (hg s s' hs)

theorem blind_next {g : State → State} (hg : KeepsSame g) : AnswerBlind fun s => .next (g s) :=
  fun s s' hs => congrArg Host.Outcome.next (hg s s' hs)

theorem blind_const (o : Out) : AnswerBlind fun _ => o := fun _ _ _ => rfl

theorem blind_comp {f : State → Out} {g : State → State} (hf : AnswerBlind f) (hg : KeepsSame g) :
    AnswerBlind fun s => f (g s) :=
  fun s s' hs => hf _ _ (hg s s' hs)

theorem mapNext_eq_next {g : State → State} {o : Out} {u : State} : mapNext g o = .next u ↔ ∃ t, o = .next t ∧ g t = u := by
  cases o <;> simp [mapNext]

theorem mapNext_eq_fault {g : State → State} {o : Out} {r : Fault} : mapNext g o = .fault r ↔ o = .fault r := by
  cases o <;> simp [mapNext]

theorem mapNext_eq_refused {g : State → State} {o : Out} {r : Refusal} : mapNext g o = .refused r ↔ o = .refused r := by
  cases o <;> simp [mapNext]

theorem blind_andThen {f k : State → Out} (hf : AnswerBlind f) (hk : AnswerBlind k) :
    AnswerBlind fun s => andThen (f s) k := by
  intro s s' hs
  have h := (hf s s' hs).symm
  dsimp only
  cases ho : f s with
  | next t =>
    rw [ho] at h
    obtain ⟨t', ho', ht⟩ := mapNext_eq_next.mp h
    rw [ho']
    exact hk t t' ht.symm
  | fault r =>
    rw [ho] at h
    rw [mapNext_eq_fault.mp h]
  | refused r =>
    rw [ho] at h
    rw [mapNext_eq_refused.mp h]

/-- An operation that reads a part of the state the answers are not recorded in, and goes on from there. -/
theorem blind_read {α : Type} {f : α → State → Out} (get : State → α) (hget : ∀ u : State, get u.forgetAnswers = get u)
    (hf : ∀ y, AnswerBlind (f y)) : AnswerBlind fun s => f (get s) s := by
  intro s s' hs
  show mapNext _ (f (get s) s) = mapNext _ (f (get s') s')
  rw [hs.read get hget]
  exact hf _ s s' hs

theorem blind_need {α : Type} {r : NoneReg} {get : State → Option α} {k : α → State → Out}
    (hget : ∀ u : State, get u.forgetAnswers = get u) (hk : ∀ y, AnswerBlind (k y)) :
    AnswerBlind fun s => need r (get s) fun y => k y s := by
  refine blind_read (f := fun x s => need r x fun y => k y s) get hget fun x => ?_
  cases x with
  | none => exact blind_const _
  | some y => exact hk y

theorem blind_index {α : Type} {sp : Space} {l : List α} {n : Nat} {k : α → State → Out} (hk : ∀ y, AnswerBlind (k y)) :
    AnswerBlind fun s => index sp l n fun y => k y s := by
  unfold index
  cases l[n]? with
  | none => exact blind_const _
  | some y => exact hk y

/-- A test of what the answers are not recorded in. -/
theorem blind_test {p : State → Prop} [DecidablePred p] {f g : State → Out} (hp : ∀ u : State, p u.forgetAnswers = p u)
    (hf : AnswerBlind f) (hg : AnswerBlind g) : AnswerBlind fun s => if p s then f s else g s := by
  intro s s' hs
  have hps : p s = p s' := hs.read p hp
  by_cases h : p s
  · simp only [if_pos h, if_pos (hps ▸ h)]
    exact hf s s' hs
  · simp only [if_neg h, if_neg (hps ▸ h)]
    exact hg s s' hs

theorem blind_ite {p : Prop} [Decidable p] {f g : State → Out} (hf : AnswerBlind f) (hg : AnswerBlind g) :
    AnswerBlind fun s => if p then f s else g s := blind_test (fun _ => rfl) hf hg

/-! ## The named updates -/

theorem keepsSame_enter (p : Phase) : KeepsSame (State.enter · p) := keepsSame_of_comm fun _ => rfl
theorem keepsSame_endRun : KeepsSame State.endRun := keepsSame_of_comm fun _ => rfl
theorem keepsSame_setA (x : BitVec 64) : KeepsSame (State.setA · x) := keepsSame_of_comm fun _ => rfl
theorem keepsSame_setV (q : Rat) : KeepsSame (State.setV · q) := keepsSame_of_comm fun _ => rfl

/-- A record of an event that holds no answer. -/
theorem forgetAnswers_log (s : State) {e : Event} (he : forgetAnswer e = some e) :
    (s.log e).forgetAnswers = s.forgetAnswers.log e := by
  have hev : (s.events ++ [e]).filterMap forgetAnswer = s.events.filterMap forgetAnswer ++ [e] := by
    rw [List.filterMap_append, List.filterMap_cons_some he, List.filterMap_nil]
  simp only [State.forgetAnswers, State.log, hev]

theorem keepsSame_log {e : Event} (he : forgetAnswer e = some e) : KeepsSame (State.log · e) :=
  keepsSame_of_comm fun s => forgetAnswers_log s he

theorem keepsSame_busSet (k : Key) (x : SigVal) : KeepsSame (State.busSet · k x) :=
  keepsSame_of_comm fun s => forgetAnswers_log { s with sb := Bus.put s.sb k x } (e := .set k x) rfl

/-! ## The shared operations -/

theorem blind_advance : AnswerBlind advance :=
  blind_need (fun _ => rfl) fun _ => blind_next (keepsSame_of_comm fun _ => rfl)

theorem blind_setA (x : BitVec 64) : AnswerBlind fun s => advance (s.setA x) := blind_comp blind_advance (keepsSame_setA x)

theorem blind_setV (q : Rat) : AnswerBlind fun s => advance (s.setV q) := blind_comp blind_advance (keepsSame_setV q)

theorem blind_busSet (k : Key) (x : SigVal) : AnswerBlind fun s => advance (s.busSet k x) :=
  blind_comp blind_advance (keepsSame_busSet k x)

theorem blind_writeCnt (n : Nat) (x : Int) : AnswerBlind fun s => writeCnt s n x :=
  blind_need (fun _ => rfl) fun _ => blind_index fun _ => blind_next (keepsSame_of_comm fun _ => rfl)

theorem blind_constant {n : BitVec 16} {k : Rat → State → Out} (hk : ∀ q, AnswerBlind (k q)) :
    AnswerBlind fun s => constant s n fun q => k q s :=
  blind_need (fun _ => rfl) fun _ => blind_index fun _ => blind_ite (blind_const _) (hk _)

theorem blind_divisor {n : BitVec 16} {k : Rat → State → Out} (hk : ∀ q, AnswerBlind (k q)) :
    AnswerBlind fun s => divisor s n fun q => k q s :=
  blind_constant fun q => blind_ite (blind_const _) (hk q)

theorem blind_rxField {p : FieldSpec} {k : Nat → State → Out} (hk : ∀ x, AnswerBlind (k x)) :
    AnswerBlind fun s => rxField s p fun x => k x s :=
  blind_need (fun _ => rfl) fun _ => blind_ite (hk _) (blind_const _)

theorem blind_txInsert {p : FieldSpec} {x : Int} {k : State → Out} (hk : AnswerBlind k) :
    AnswerBlind fun s => txInsert s p x k :=
  blind_ite (blind_comp hk (keepsSame_of_comm fun _ => rfl)) (blind_const _)

theorem blind_busGet {key : Key} {k : SigVal → State → Out} (hk : ∀ x, AnswerBlind (k x)) :
    AnswerBlind fun s => busGet s key k := by
  refine blind_need (fun _ => rfl) fun c => ?_
  refine blind_read (f := fun v s => match v with
    | some v => k v (s.log (.get key v))
    | none => .refused (if keyType c.ktype key = none then .undeclaredKey key else .busType key))
    (fun s => busValue c s.sb key) (fun _ => rfl) fun v => ?_
  cases v with
  | none => exact blind_const _
  | some v => exact blind_comp (hk v) (keepsSame_log rfl)

theorem blind_busGetInt {key : Key} {k : Int → State → Out} (hk : ∀ x, AnswerBlind (k x)) :
    AnswerBlind fun s => busGetInt s key k := by
  refine blind_busGet fun x => ?_
  cases x with
  | int i => exact hk _
  | real q => exact blind_const _

theorem blind_quantise (x : Rat) : AnswerBlind fun s => quantise s x :=
  blind_need (fun _ => rfl) fun _ => blind_ite (blind_setA _)
    (blind_need (fun _ => rfl) fun _ => blind_need (fun _ => rfl) fun _ => blind_const _)

theorem blind_fitPack {r : PackRange} {x : Int} {k : Int → State → Out} (hk : ∀ y, AnswerBlind (k y)) :
    AnswerBlind fun s => fitPack s r x k := by
  refine blind_ite (hk x) (blind_need (fun _ => rfl) fun c => blind_need (fun _ => rfl) fun e =>
    blind_need (fun _ => rfl) fun u => ?_)
  have hraise : KeepsSame (State.raise · (.packovf e u)) := keepsSame_log rfl
  cases c.ovfPolicy with
  | wrap => exact blind_comp (hk x) hraise
  | saturate => exact blind_comp (hk _) hraise
  | fault => exact blind_const _

/-- PACKU and PACKS after the read of `A`. -/
theorem blind_pack (r : PackRange) (p : FieldSpec) (x : Int) :
    AnswerBlind fun s => fitPack s r x fun y u => txInsert u p y advance :=
  blind_fitPack fun _ => blind_txInsert blind_advance

/-! ## SEND (43_codec_encode.md R213) -/

/-- `TXSTAT` with its contents forgotten shows which encoders it has. -/
theorem txstat_length_of_same {s s' : State} (hs : SameButAnswers s s') :
    s.txstat.map List.length = s'.txstat.map List.length := by
  have h := congrArg (fun u : State => u.txstat.map List.length) hs
  simpa [State.forgetAnswers, Function.comp_def] using h

theorem forgetAnswer_sent (e : Nat) (f : Frame) (st : SendStatus) :
    (Event.send f st :: dropEvents e st).filterMap forgetAnswer = [.send f .ok] := by
  cases st <;> rfl

/-- What SEND leaves, but for the answer. -/
theorem forgetAnswers_sent {s : State} {l : List TxStat} (hl : s.txstat = some l) (e : Nat) (f : Frame) :
    (s.sent e f l).forgetAnswers = (s.forgetAnswers.log (.send f .ok)).endRun := by
  have hset : (l.set e { valid := true, code := (nextAnswer s).1 }).map (fun _ => ({ valid := false, code := .ok } : TxStat)) =
      l.map fun _ => { valid := false, code := .ok } := by
    simp only [List.map_const', List.length_set]
  have hev : (s.events ++ (Event.send f (nextAnswer s).1 :: dropEvents e (nextAnswer s).1)).filterMap forgetAnswer =
      s.events.filterMap forgetAnswer ++ [.send f .ok] := by
    rw [List.filterMap_append, forgetAnswer_sent]
  rw [State.sent, nextAnswer_state]
  simp only [State.forgetAnswers, State.log, State.endRun, Option.map_some, hset, hev, hl]

theorem index_of_ge {α : Type} (sp : Space) {l : List α} {i : Nat} (h : l.length ≤ i) (k : α → Out) :
    index sp l i k = .fault (.noSuchIndex sp i) := by
  rw [index, List.getElem?_eq_none h]

theorem blind_sendFrame (e : Nat) (f : Frame) : AnswerBlind fun s => sendFrame e f s fun s₁ => .next s₁.endRun := by
  intro s s' hs
  have hlen := txstat_length_of_same hs
  simp only [sendFrame_eq]
  cases hl : s.txstat with
  | none =>
    have hl' : s'.txstat = none := by simpa [hl] using hlen.symm
    rw [hl', need_of_none, need_of_none]
  | some l =>
    obtain ⟨l', hl', hll⟩ : ∃ l', s'.txstat = some l' ∧ l'.length = l.length := by simpa [hl] using hlen.symm
    rw [hl', need_of_some, need_of_some]
    rcases lt_or_ge e l.length with he | he
    · rw [index_of_lt _ he, index_of_lt _ (hll.symm ▸ he), mapNext, mapNext, forgetAnswers_sent hl, forgetAnswers_sent hl', hs]
    · rw [index_of_ge _ he, index_of_ge _ (hll.symm ▸ he)]

/-! ## The run of a handler -/

theorem execMicro_blind (i : Instr) : AnswerBlind (execMicro i) := by
  cases i with
  | lenchk n =>
    exact blind_need (fun _ => rfl) fun f =>
      blind_ite blind_advance (blind_next (keepsSame_comp keepsSame_endRun (keepsSame_log rfl)))
  | unpku => exact blind_rxField fun _ => blind_ite (blind_setA _) (blind_const _)
  | unpks =>
    unfold execMicro execUnpks
    exact blind_rxField fun _ => blind_setA _
  | flgget => exact blind_rxField fun _ => blind_setA _
  | scdiv => exact blind_need (fun _ => rfl) fun _ => blind_divisor fun _ => blind_setV _
  | scmul => exact blind_need (fun _ => rfl) fun _ => blind_constant fun _ => blind_setV _
  | sbsetv => exact blind_need (fun _ => rfl) fun _ => blind_need (fun _ => rfl) fun _ => blind_busSet _ _
  | sbseta => exact blind_need (fun _ => rfl) fun _ => blind_busSet _ _
  | stclr | stset => exact blind_busSet _ _
  | ldai => exact blind_setA _
  | ldvc =>
    unfold execMicro execLdvc
    exact blind_constant fun _ => blind_setV _
  | sbgetv => exact blind_busGet fun _ => blind_setV _
  | sbgeta => exact blind_busGetInt fun _ => blind_setA _
  | catsel =>
    unfold execMicro execCatsel
    exact blind_busGetInt fun _ => blind_need (fun _ => rfl) fun _ => blind_index fun _ => blind_busGet fun _ =>
      blind_constant fun _ => blind_setV _
  | uconv =>
    exact blind_need (fun _ => rfl) fun _ => blind_busGetInt fun _ => blind_need (fun _ => rfl) fun _ =>
      blind_index fun _ => blind_constant fun _ => blind_setV _
  | encmul => exact blind_need (fun _ => rfl) fun _ => blind_constant fun _ => blind_quantise _
  | encdiv => exact blind_need (fun _ => rfl) fun _ => blind_divisor fun _ => blind_quantise _
  | packu | packs => exact blind_need (fun _ => rfl) fun _ => blind_pack _ _ _
  | flgput => exact blind_need (fun _ => rfl) fun _ => blind_txInsert blind_advance
  | roll =>
    exact blind_need (fun _ => rfl) fun _ => blind_index fun _ => blind_txInsert
      (blind_comp blind_advance (keepsSame_of_comm fun _ => rfl))
  | send =>
    refine blind_need (fun _ => rfl) fun e => blind_need (fun _ => rfl) fun c => blind_index fun en => ?_
    refine blind_read (f := fun x s => match x with
      | none => .fault .reservedValue
      | some f => sendFrame e f s fun s₁ => .next s₁.endRun)
      (fun s => builtFrame en s.txb) (fun _ => rfl) fun x => ?_
    cases x with
    | none => exact blind_const _
    | some f => exact blind_sendFrame e f
  | end_ => exact blind_next keepsSame_endRun
  | _ => exact blind_const _

theorem microStep_blind : AnswerBlind microStep := by
  refine blind_need (fun _ => rfl) fun u => blind_need (fun _ => rfl) fun c => blind_index fun w => ?_
  cases decodeMicro w with
  | error e => exact blind_const _
  | ok i => exact execMicro_blind i

theorem runLoop_blind : ∀ n : Nat, AnswerBlind (runLoop n)
  | 0 => blind_need (fun _ => rfl) fun _ => blind_const _
  | n + 1 => blind_andThen microStep_blind
      (blind_test (fun _ => rfl) (blind_next fun _ _ h => h) (runLoop_blind n))

theorem runHandler_blind (k : HandlerKind) (base : Nat) : AnswerBlind (runHandler k base) :=
  blind_need (fun _ => rfl) fun c => blind_comp (runLoop_blind (c.uc.length + 1)) (keepsSame_of_comm fun _ => rfl)

/-! ## The dispatcher and the supervisor -/

theorem execLookup_blind : AnswerBlind execLookup :=
  blind_need (fun _ => rfl) fun _ => blind_need (fun _ => rfl) fun _ => blind_next (keepsSame_of_comm fun _ => rfl)

theorem blind_needFound {k : Nat → State → Out} (hk : ∀ n, AnswerBlind (k n)) :
    AnswerBlind fun s => needFound s fun n => k n s := by
  refine blind_need (fun _ => rfl) fun h => ?_
  cases h with
  | miss => exact blind_const _
  | found n => exact hk n

theorem execRearm_blind : AnswerBlind execRearm :=
  blind_needFound fun n => blind_need (fun _ => rfl) fun _ => blind_index fun r =>
    blind_comp (blind_writeCnt n r.reload) (keepsSame_enter .rearm)

theorem execDecode_blind : AnswerBlind execDecode :=
  blind_needFound fun _ => blind_need (fun _ => rfl) fun _ => blind_index fun r =>
    blind_comp (runHandler_blind .decode r.decAddr) (keepsSame_enter .decode)

theorem dropUnregistered_blind : AnswerBlind dropUnregistered :=
  blind_need (fun _ => rfl) fun _ => blind_next (keepsSame_log rfl)

theorem execDispatch_blind : AnswerBlind execDispatch := by
  have enter := keepsSame_enter .dispatch
  refine blind_andThen (blind_comp execLookup_blind enter) (blind_need (fun _ => rfl) fun h => ?_)
  cases h with
  | found n =>
    exact blind_andThen (blind_comp execRearm_blind enter)
      (blind_andThen (blind_comp execDecode_blind enter) (blind_next enter))
  | miss => exact blind_comp dropUnregistered_blind enter

theorem drainLoop_blind : ∀ fs : List Frame, AnswerBlind (drainLoop fs)
  | [] => blind_next (keepsSame_log rfl)
  | f :: fs =>
    have receive : KeepsSame (State.receive · f fs) :=
      keepsSame_of_comm fun s => forgetAnswers_log { s with frx := some f, rx := fs } (e := .recv (some f)) rfl
    blind_andThen (blind_comp execDispatch_blind receive) (blind_comp (drainLoop_blind fs) (keepsSame_of_comm fun _ => rfl))

theorem execDrain_blind : AnswerBlind execDrain :=
  blind_read (fun s => s.rx) (fun _ => rfl) fun fs => blind_comp (drainLoop_blind fs) (keepsSame_enter .drain)

theorem execTofire_blind : AnswerBlind execTofire :=
  blind_need (fun _ => rfl) fun i => blind_need (fun _ => rfl) fun _ => blind_index fun r =>
    blind_comp (runHandler_blind .timeout r.toAddr)
      (keepsSame_comp (keepsSame_log (e := .cond (.timeout i)) rfl) (keepsSame_enter .tofire))

theorem execSupent_blind : AnswerBlind execSupent :=
  have enter := keepsSame_enter .supent
  blind_need (fun _ => rfl) fun i => blind_need (fun _ => rfl) fun _ => blind_index fun x =>
    blind_ite (blind_comp (blind_writeCnt i (x - 1)) enter)
      (blind_ite (blind_andThen (blind_comp execTofire_blind enter) (blind_comp (blind_writeCnt i (-1)) enter))
        (blind_next enter))

theorem superviseLoop_blind : ∀ n m : Nat, AnswerBlind (superviseLoop n m)
  | 0, _ => blind_next (keepsSame_of_comm fun _ => rfl)
  | n + 1, m => blind_andThen (blind_comp execSupent_blind (keepsSame_of_comm fun _ => rfl))
      (blind_comp (superviseLoop_blind n (m + 1)) (keepsSame_enter .supervise))

theorem execSupervise_blind : AnswerBlind execSupervise :=
  blind_need (fun _ => rfl) fun c => blind_comp (superviseLoop_blind c.reg.length 0) (keepsSame_enter .supervise)

/-! ## The scheduler and ENCODE -/

theorem execEncode_blind : AnswerBlind execEncode :=
  blind_need (fun _ => rfl) fun _ => blind_need (fun _ => rfl) fun _ => blind_index fun _ =>
    blind_need (fun _ => rfl) fun _ => blind_index fun _ => blind_index fun en =>
      blind_andThen (blind_comp (runHandler_blind .encode en.base) (keepsSame_of_comm fun _ => rfl))
        (blind_next (keepsSame_of_comm fun _ => rfl))

theorem bucketLoop_blind : ∀ n j : Nat, AnswerBlind (bucketLoop n j)
  | 0, _ => blind_next (keepsSame_of_comm fun _ => rfl)
  | n + 1, j => blind_andThen (blind_comp execEncode_blind (keepsSame_of_comm fun _ => rfl))
      (blind_comp (bucketLoop_blind n (j + 1)) (keepsSame_enter .bucket))

theorem execBucket_blind : AnswerBlind execBucket :=
  blind_need (fun _ => rfl) fun _ => blind_need (fun _ => rfl) fun _ => blind_index fun bk =>
    blind_comp (bucketLoop_blind bk.list.length 0) (keepsSame_enter .bucket)

theorem schedLoop_blind : ∀ (bks : List Bucket) (b : Nat), AnswerBlind (schedLoop bks b)
  | [], _ => blind_next (keepsSame_of_comm fun _ => rfl)
  | _ :: bks, b =>
    have select : KeepsSame fun s => { s with idxB := some b } := keepsSame_of_comm fun _ => rfl
    blind_test (fun _ => rfl)
      (blind_andThen (blind_comp execBucket_blind select)
        (blind_comp (schedLoop_blind bks (b + 1)) (keepsSame_enter .sched)))
      (blind_comp (schedLoop_blind bks (b + 1)) select)

theorem execSched_blind : AnswerBlind execSched :=
  blind_need (fun _ => rfl) fun c => blind_comp (schedLoop_blind c.bkt 0) (keepsSame_of_comm fun _ => rfl)

/-! ## TICK -/

theorem blind_onTypedBus {k : State → Out} (hk : AnswerBlind k) : AnswerBlind fun s => onTypedBus s k := by
  refine blind_need (fun _ => rfl) fun c => ?_
  refine blind_read (f := fun x s => match x with
    | none => k s
    | some key => .refused (.busType key)) (fun s => mistypedKey c s.sb) (fun _ => rfl) fun x => ?_
  cases x with
  | none => exact hk
  | some key => exact blind_const _

theorem execTick_blind : AnswerBlind execTick :=
  blind_test (fun _ => rfl)
    (blind_onTypedBus (blind_andThen (blind_comp execDrain_blind (keepsSame_of_comm fun _ => rfl))
      (blind_andThen execSupervise_blind (blind_andThen execSched_blind (blind_next (keepsSame_enter .idle))))))
    (blind_const _)

/-- Settles O38: TICK does not depend on the answers, and the two states are equal but for them. -/
theorem sendAnswersStayLocal : Obligations.SendAnswersStayLocal :=
  fun _ _ _ => execTick_blind _ _ rfl

end Sys2Proof.Machine
end

section
/-! SUPPORT. The scheduler over whole TICKs. DRAIN and SUPERVISE leave the tick count as it is, and hand no frame to `send()` in a
checked configuration (42_codec_decode.md R171); SCHED counts once (44_scheduler.md R240) and runs the due buckets in index order,
BUCKET its list in order (R242), ENCODE sends one frame for each encoder (43_codec_encode.md R200). -/

namespace Sys2Proof.Machine

/-! ## Events that are no `send()` -/

theorem sentIdents_eq_nil_iff {es : List Event} : sentIdents es = [] ↔ ∀ e ∈ es, ∀ f st, e ≠ .send f st := by
  refine List.filterMap_eq_nil_iff.trans (forall₂_congr fun e _ => ?_)
  cases e with
  | send f st => exact ⟨nofun, fun h => absurd rfl (h f st)⟩
  | _ => exact ⟨fun _ => nofun, fun _ => rfl⟩

theorem eq_send_of_mayRecord {i : Instr} {f : Frame} {st : SendStatus} (h : mayRecord i (.send f st) = true) :
    i = .send := by
  cases i with
  | send => rfl
  | _ => cases h

/-! ## DRAIN and SUPERVISE neither count nor send (20_memory.md R65, 42_codec_decode.md R171) -/

/-- The configuration and the tick count stay, and where the configuration is a checked one no frame is handed to `send()`. -/
structure ReceiveFrame (s t : State) : Prop where
  cfg : t.cfg = s.cfg
  tickcnt : t.tickcnt = s.tickcnt
  sends : ∀ c, s.cfg = some c → checkCfg c = .ok → sentIdents t.events = sentIdents s.events

theorem ReceiveFrame.trans {s t u : State} (h : ReceiveFrame s t) (g : ReceiveFrame t u) : ReceiveFrame s u where
  cfg := g.cfg.trans h.cfg
  tickcnt := g.tickcnt.trans h.tickcnt
  sends c hc hk := (g.sends c (h.cfg.trans hc) hk).trans (h.sends c hc hk)

/-- An update of the position, the registers of the dispatcher and the supervisor, and the frames not yet taken. -/
theorem ReceiveFrame.of_update {s t : State}
    (h : t = { s with phase := t.phase, frx := t.frx, hit := t.hit, idxI := t.idxI, cnt := t.cnt, rx := t.rx }) :
    ReceiveFrame s t := by
  rw [h]
  exact ⟨rfl, rfl, fun _ _ _ => rfl⟩

theorem ReceiveFrame.of_enter (s : State) (p : Phase) : ReceiveFrame s (s.enter p) := .of_update rfl

/-- The record of an event that is no `send()`. -/
theorem ReceiveFrame.of_log (s : State) {e : Event} (he : ∀ f st, e ≠ .send f st) : ReceiveFrame s (s.log e) where
  cfg := rfl
  tickcnt := rfl
  sends _ _ _ := by
    have hnone : sentIdents [e] = [] := sentIdents_eq_nil_iff.mpr fun _ hmem => List.mem_singleton.mp hmem ▸ he
    rw [State.log_events, sentIdents_append, hnone, List.append_nil]

theorem writeCnt_receiveFrame {s t : State} {i : Nat} {x : Int} (h : writeCnt s i x = .next t) : ReceiveFrame s t := by
  obtain ⟨l, _, _, rfl⟩ := writeCnt_next.mp h
  exact .of_update rfl

/-- A checked decode or timeout handler holds no SEND, so its run hands over no frame. -/
theorem runHandler_receiveFrame {c : Cfg} {k : HandlerKind} {base : Nat} {s t : State} (hk : k ≠ .encode)
    (hc : s.cfg = some c) (hw : checkCfg c = .ok → wfHandler c k 0 base = true) (h : runHandler k base s = .next t) :
    ReceiveFrame s t where
  cfg := (runHandler_frame h).1.cfg
  tickcnt := (runHandler_frame h).1.tickcnt
  sends c' hc' hok := by
    obtain rfl := Option.some.inj (hc.symm.trans hc')
    obtain ⟨is, hchecked⟩ := checked_of_wfHandler (hw hok)
    obtain ⟨effect, hadmits⟩ := runHandler_effect hchecked hc h
    obtain ⟨es, hevents, hrecord⟩ := effect.events
    have hnone : sentIdents es = [] := by
      refine sentIdents_eq_nil_iff.mpr ?_
      rintro _ hmem f st rfl
      obtain ⟨i, hi, hrec⟩ := hrecord _ hmem
      obtain ⟨_, _, _, hsend⟩ := receive_kind hk (hadmits i hi)
      exact hsend (eq_send_of_mayRecord hrec)
    rw [hevents, sentIdents_append, hnone, List.append_nil]
    rfl

theorem execLookup_receiveFrame {s t : State} (h : execLookup s = .next t) : ReceiveFrame s t := by
  simp only [execLookup, need_next, Host.Outcome.next.injEq] at h
  obtain ⟨c, _, f, _, rfl⟩ := h
  exact .of_update rfl

theorem execRearm_receiveFrame {s t : State} (h : execRearm s = .next t) : ReceiveFrame s t := by
  simp only [execRearm, needFound_next, need_next, index_next] at h
  obtain ⟨n, _, c, _, r, _, h⟩ := h
  exact (ReceiveFrame.of_enter s .rearm).trans (writeCnt_receiveFrame h)

theorem execDecode_receiveFrame {s t : State} (h : execDecode s = .next t) : ReceiveFrame s t := by
  simp only [execDecode, needFound_next, need_next, index_next] at h
  obtain ⟨n, _, c, hc, r, hr, h⟩ := h
  exact (ReceiveFrame.of_enter s .decode).trans
    (runHandler_receiveFrame (k := .decode) nofun hc (fun hok => (tablesOk hok).decode r (List.mem_of_getElem? hr)) h)

theorem dropUnregistered_receiveFrame {s t : State} (h : dropUnregistered s = .next t) : ReceiveFrame s t := by
  simp only [dropUnregistered, need_next, Host.Outcome.next.injEq] at h
  obtain ⟨f, _, rfl⟩ := h
  exact .of_log s nofun

theorem execDispatch_receiveFrame {s t : State} (h : execDispatch s = .next t) : ReceiveFrame s t := by
  have enter (u : State) : ReceiveFrame u (u.enter .dispatch) := .of_enter u .dispatch
  simp only [execDispatch, andThen_next, need_next] at h
  obtain ⟨s₁, hlookup, hit, _, h⟩ := h
  have base := ((enter s).trans (execLookup_receiveFrame hlookup)).trans (enter s₁)
  cases hit with
  | miss => exact base.trans (dropUnregistered_receiveFrame h)
  | found n =>
    simp only [andThen_next, Host.Outcome.next.injEq] at h
    obtain ⟨s₂, hrearm, s₃, hdecode, rfl⟩ := h
    have rearm := base.trans ((execRearm_receiveFrame hrearm).trans (enter s₂))
    exact rearm.trans ((execDecode_receiveFrame hdecode).trans (enter s₃))

theorem drainLoop_receiveFrame : ∀ (fs : List Frame) {s t : State}, drainLoop fs s = .next t → ReceiveFrame s t
  | [], s, t, h => by
    obtain rfl := Host.Outcome.next.inj h
    exact .of_log s nofun
  | f :: fs, s, t, h => by
    obtain ⟨s₁, hdispatch, h⟩ := andThen_next.mp h
    have take : ReceiveFrame s { s with frx := some f, rx := fs } := .of_update rfl
    have receive : ReceiveFrame s (s.receive f fs) := take.trans (.of_log _ nofun)
    have drop : ReceiveFrame s₁ s₁.dropFrame := .of_update rfl
    exact (receive.trans (execDispatch_receiveFrame hdispatch)).trans (drop.trans (drainLoop_receiveFrame fs h))

theorem execDrain_receiveFrame {s t : State} (h : execDrain s = .next t) : ReceiveFrame s t :=
  (ReceiveFrame.of_enter s .drain).trans (drainLoop_receiveFrame _ h)

theorem execTofire_receiveFrame {s t : State} (h : execTofire s = .next t) : ReceiveFrame s t := by
  simp only [execTofire, need_next, index_next] at h
  obtain ⟨n, _, c, hc, r, hr, h⟩ := h
  have raise := (ReceiveFrame.of_enter s .tofire).trans (.of_log _ (e := .cond (.timeout n)) nofun)
  exact raise.trans
    (runHandler_receiveFrame (k := .timeout) nofun hc (fun hok => (tablesOk hok).timeout r (List.mem_of_getElem? hr)) h)

theorem execSupent_receiveFrame {s t : State} (h : execSupent s = .next t) : ReceiveFrame s t := by
  have enter (u : State) : ReceiveFrame u (u.enter .supent) := .of_enter u .supent
  simp only [execSupent, need_next, index_next] at h
  obtain ⟨n, _, l, _, x, _, h⟩ := h
  split at h
  · exact (enter s).trans (writeCnt_receiveFrame h)
  · split at h
    · obtain ⟨s₁, hfire, h⟩ := andThen_next.mp h
      have fire := (enter s).trans (execTofire_receiveFrame hfire)
      exact (fire.trans (enter s₁)).trans (writeCnt_receiveFrame h)
    · obtain rfl := Host.Outcome.next.inj h
      exact enter s

theorem superviseLoop_receiveFrame : ∀ (n m : Nat) {s t : State}, superviseLoop n m s = .next t → ReceiveFrame s t
  | 0, _, s, t, h => by
    obtain rfl := Host.Outcome.next.inj h
    exact .of_update rfl
  | n + 1, m, s, t, h => by
    obtain ⟨s₁, hentry, h⟩ := andThen_next.mp h
    have select : ReceiveFrame s { s with idxI := some m } := .of_update rfl
    have back := ReceiveFrame.of_enter s₁ .supervise
    exact (select.trans (execSupent_receiveFrame hentry)).trans (back.trans (superviseLoop_receiveFrame n (m + 1) h))

theorem execSupervise_receiveFrame {s t : State} (h : execSupervise s = .next t) : ReceiveFrame s t := by
  obtain ⟨c, _, h⟩ := need_next.mp h
  exact (ReceiveFrame.of_enter s .supervise).trans (superviseLoop_receiveFrame _ _ h)

/-- A TICK as its two halves: what DRAIN and SUPERVISE leave, and the SCHED that follows (45_engine_tick.md R268). -/
theorem execTick_halves {s t : State} (h : execTick s = .next t) :
    ∃ s₂ s₃, ReceiveFrame s.newOp s₂ ∧ (∀ c, Ready c s → Ready c s₂) ∧ execSched s₂ = .next s₃ ∧
      t = s₃.enter .idle := by
  obtain ⟨_, s₁, s₂, s₃, hdrain, hsup, hsched, rfl⟩ := execTick_next h
  refine ⟨s₂, s₃, (execDrain_receiveFrame hdrain).trans (execSupervise_receiveFrame hsup), fun c hr => ?_, hsched, rfl⟩
  have start : Ready c s.newOp := hr.of_eq rfl rfl rfl rfl
  exact (execSupervise_opFrame (execDrain_opFrame start hdrain).ready hsup).ready

/-! ## The tick count, in any configuration (44_scheduler.md R240, R241) -/

theorem execEncode_keeps_tickcnt {s t : State} (h : execEncode s = .next t) : t.tickcnt = s.tickcnt := by
  obtain ⟨c, hc, _⟩ := need_next.mp h
  obtain ⟨e, en, s₁, _, hrun, rfl⟩ := execEncode_next hc h
  exact (runHandler_frame hrun).1.tickcnt

theorem bucketLoop_keeps_tickcnt : ∀ (n j : Nat) {s t : State}, bucketLoop n j s = .next t → t.tickcnt = s.tickcnt
  | 0, _, s, t, h => by
    obtain rfl := Host.Outcome.next.inj h
    rfl
  | n + 1, j, s, t, h => by
    obtain ⟨s₁, hencode, h⟩ := andThen_next.mp h
    have encode : s₁.tickcnt = s.tickcnt := execEncode_keeps_tickcnt (s := { s with idxJ := some j }) hencode
    exact (bucketLoop_keeps_tickcnt n (j + 1) h).trans encode

theorem execBucket_keeps_tickcnt {s t : State} (h : execBucket s = .next t) : t.tickcnt = s.tickcnt := by
  simp only [execBucket, need_next, index_next] at h
  obtain ⟨c, _, b, _, bk, _, h⟩ := h
  exact bucketLoop_keeps_tickcnt _ _ (s := s.enter .bucket) h

theorem schedLoop_keeps_tickcnt : ∀ (bks : List Bucket) (b : Nat) {s t : State}, schedLoop bks b s = .next t →
    t.tickcnt = s.tickcnt
  | [], _, s, t, h => by
    obtain rfl := Host.Outcome.next.inj h
    rfl
  | bk :: bks, b, s, t, h => by
    rcases schedLoop_cons_next h with ⟨s₁, hbucket, h⟩ | h
    · have bucket : s₁.tickcnt = s.tickcnt := execBucket_keeps_tickcnt (s := { s with idxB := some b }) hbucket
      exact (schedLoop_keeps_tickcnt bks (b + 1) h).trans bucket
    · exact schedLoop_keeps_tickcnt bks (b + 1) (s := { s with idxB := some b }) h

/-- Each TICK that completes counts once, and keeps the configuration that it counts by. -/
theorem execTick_counts {c : Cfg} {s t : State} (hc : s.cfg = some c) (h : execTick s = .next t) :
    t.cfg = some c ∧ t.tickcnt = (s.tickcnt + 1) % c.tickMod := by
  obtain ⟨s₂, s₃, receive, _, hsched, rfl⟩ := execTick_halves h
  have hc₂ : s₂.cfg = some c := receive.cfg.trans hc
  refine ⟨(execSched_busFrame hsched).cfg.trans hc₂, ?_⟩
  rw [execSched_of hc₂] at hsched
  calc s₃.tickcnt = (s₂.tickcnt + 1) % c.tickMod := schedLoop_keeps_tickcnt _ _ hsched
    _ = (s.tickcnt + 1) % c.tickMod := by rw [receive.tickcnt]; rfl

/-- Settles O33, by induction on the number of TICKs: what the environment does between them touches neither the configuration nor
the count. -/
theorem ticksCounted : Obligations.TicksCounted := by
  intro c σ r rest n hc hzero _ hticks
  have counted : ∀ k, k ≤ n → (σ k).cfg = some c ∧ (σ k).tickcnt = k % c.tickMod := by
    intro k
    induction k with
    | zero => exact fun _ => ⟨hc, by rw [hzero, Nat.zero_mod]⟩
    | succ k ih =>
      intro hk
      obtain ⟨hcfg, hcount⟩ := ih (Nat.le_of_succ_le hk)
      have htick : execTick ((σ k).take (r k) (rest k)) = .next (σ (k + 1)) := hticks k hk
      obtain ⟨hcfg', hcount'⟩ := execTick_counts (s := (σ k).take (r k) (rest k)) hcfg htick
      have htake : ((σ k).take (r k) (rest k)).tickcnt = k % c.tickMod := hcount
      exact ⟨hcfg', by rw [hcount', htake, Nat.mod_add_mod]⟩
  exact fun k hk => (counted k hk).2

/-! ## The frames of a TICK, in order (R240, R242 to R244) -/

/-- The identifier and addressing mode of the encoder `e` (10_state.md R23). -/
def Cfg.encIdent (c : Cfg) (e : Nat) : Option (Nat × Bool) := c.enc[e]?.map fun en => (en.id, en.ide)

/-- ENCODE hands over the frame of the encoder at (`B`, `J`), whatever `send()` answers. -/
theorem execEncode_sentIdents {c : Cfg} {s t : State} {b j e : Nat} {bk : Bucket} (hr : Ready c s) (hb : s.idxB = some b)
    (hbk : c.bkt[b]? = some bk) (hj : s.idxJ = some j) (he : bk.list[j]? = some e) (h : execEncode s = .next t) :
    sentIdents t.events = sentIdents s.events ++ (c.encIdent e).toList := by
  obtain ⟨en, hlisted⟩ := hr.listed hb hbk hj he
  obtain ⟨es, f, st, l, hevents, hnone, hid, hide, _⟩ :=
    encodeSendsOneFrame c s t b j e bk en hr hb hbk hj he hlisted.entry h
  have hsend : sentIdents (.send f st :: if st = .ok then [] else [.cond (.txdrop e st)]) = [(en.id, en.ide)] := by
    rw [← hid, ← hide]
    split <;> rfl
  have hident : c.encIdent e = some (en.id, en.ide) := by rw [Cfg.encIdent, hlisted.entry, Option.map_some]
  rw [hevents, sentIdents_append, sentIdents_append, hnone, hsend, hident, List.append_nil, Option.toList_some]

/-- The loop of BUCKET from position j on, where `es` is the rest of the list. -/
theorem bucketLoop_sentIdents {c : Cfg} {b : Nat} {bk : Bucket} (hbk : c.bkt[b]? = some bk) : ∀ (es : List Nat) (j : Nat)
    {s t : State}, Ready c s → s.idxB = some b → bk.list.drop j = es → bucketLoop es.length j s = .next t →
      sentIdents t.events = sentIdents s.events ++ es.filterMap c.encIdent
  | [], _, s, t, _, _, _, h => by
    obtain rfl := Host.Outcome.next.inj h
    exact (List.append_nil _).symm
  | e :: es, j, s, t, hr, hb, hdrop, h => by
    obtain ⟨s₁, hencode, h⟩ := andThen_next.mp h
    have he : bk.list[j]? = some e := by rw [← List.head?_drop, hdrop, List.head?_cons]
    have hrest : bk.list.drop (j + 1) = es := by rw [← List.tail_drop, hdrop, List.tail_cons]
    have selected : Ready c { s with idxJ := some j } := hr.of_eq rfl rfl rfl rfl
    have frame := execEncode_opFrame selected hencode
    have hb₁ : s₁.idxB = some b := (frame.only .b rfl).trans hb
    calc sentIdents t.events = sentIdents s₁.events ++ es.filterMap c.encIdent :=
          bucketLoop_sentIdents hbk es (j + 1) (s := s₁.enter .bucket) (frame.ready.enter .bucket) hb₁ hrest h
      _ = sentIdents s.events ++ ((c.encIdent e).toList ++ es.filterMap c.encIdent) := by
          rw [execEncode_sentIdents selected hb hbk rfl he hencode, List.append_assoc]
      _ = sentIdents s.events ++ (e :: es).filterMap c.encIdent := by
          rw [List.filterMap_cons]
          cases c.encIdent e <;> rfl

/-- BUCKET sends the frames of its list, in order, none skipped (R242, R244). -/
theorem execBucket_sentIdents {c : Cfg} {s t : State} {b : Nat} {bk : Bucket} (hr : Ready c s) (hb : s.idxB = some b)
    (hbk : c.bkt[b]? = some bk) (h : execBucket s = .next t) :
    sentIdents t.events = sentIdents s.events ++ bk.list.filterMap c.encIdent := by
  simp only [execBucket, hr.held, hb, need_of_some, index_of_some hbk] at h
  exact bucketLoop_sentIdents hbk bk.list 0 (s := s.enter .bucket) (hr.enter .bucket) hb List.drop_zero h

/-- The loop of SCHED from index b on, where `bks` are the buckets left: those that are due at the count run, in order. -/
theorem schedLoop_sentIdents {c : Cfg} : ∀ (bks : List Bucket) (b : Nat) {s t : State}, Ready c s → c.bkt.drop b = bks →
    schedLoop bks b s = .next t →
      sentIdents t.events = sentIdents s.events ++
        ((bks.filter fun bk => bk.due s.tickcnt).flatMap fun bk => bk.list).filterMap c.encIdent
  | [], _, s, t, _, _, h => by
    obtain rfl := Host.Outcome.next.inj h
    exact (List.append_nil _).symm
  | bk :: bks, b, s, t, hr, hdrop, h => by
    have hbk : c.bkt[b]? = some bk := by rw [← List.head?_drop, hdrop, List.head?_cons]
    have hrest : c.bkt.drop (b + 1) = bks := by rw [← List.tail_drop, hdrop, List.tail_cons]
    have selected : Ready c { s with idxB := some b } := hr.of_eq rfl rfl rfl rfl
    by_cases hdue : bk.due s.tickcnt = true
    · rw [schedLoop, if_pos hdue] at h
      obtain ⟨s₁, hbucket, h⟩ := andThen_next.mp h
      have ready₁ := (execBucket_opFrame selected hbucket).ready.enter .sched
      have hcount : s₁.tickcnt = s.tickcnt := execBucket_keeps_tickcnt (s := { s with idxB := some b }) hbucket
      have rest := schedLoop_sentIdents bks (b + 1) ready₁ hrest h
      rw [State.enter_tickcnt, hcount, State.enter_events, execBucket_sentIdents selected rfl hbk hbucket] at rest
      rw [rest, List.filter_cons, if_pos hdue, List.flatMap_cons, List.filterMap_append, List.append_assoc]
    · rw [schedLoop, if_neg hdue] at h
      rw [List.filter_cons, if_neg hdue]
      exact schedLoop_sentIdents bks (b + 1) (s := { s with idxB := some b }) selected hrest h

/-- SCHED sends the frames of the buckets due at the count it has advanced to. -/
theorem execSched_sentIdents {c : Cfg} {s t : State} (hr : Ready c s) (h : execSched s = .next t) :
    sentIdents t.events = sentIdents s.events ++ (dueEncoders c t.tickcnt).filterMap c.encIdent := by
  rw [execSched_tickcnt hr h]
  rw [execSched_of hr.held] at h
  exact schedLoop_sentIdents c.bkt 0 (s := s.counted c) (hr.of_eq rfl rfl rfl rfl) List.drop_zero h

/-- Settles O37: DRAIN and SUPERVISE hand over no frame, SCHED those of the due buckets. -/
theorem sendsInOrder : Obligations.SendsInOrder := by
  intro c s t hr h
  obtain ⟨s₂, s₃, receive, ready, hsched, rfl⟩ := execTick_halves h
  have hnone : sentIdents s₂.events = [] := receive.sends c hr.held hr.checked
  calc sentIdents s₃.events = sentIdents s₂.events ++ (dueEncoders c s₃.tickcnt).filterMap c.encIdent :=
        execSched_sentIdents (ready c hr) hsched
    _ = (dueEncoders c s₃.tickcnt).filterMap c.encIdent := by rw [hnone, List.nil_append]

end Sys2Proof.Machine
end

section
/-! SUPPORT. RESET (45_engine_tick.md R261), and what the table checks of INIT say (R263, R264): each check as the row of the
table it is named after. -/

namespace Sys2Proof.Machine

/-! ## RESET (R261) -/

theorem clearRegs_noConfig (s : State) : NoConfig s.clearRegs := ⟨rfl, rfl, rfl, rfl, rfl⟩

/-- Settles O9: RESET clears the registers of the state with an empty event list, and nothing beside them. -/
theorem resetResult : Obligations.ResetResult := fun _ s =>
  ⟨s.newOp.clearRegs, rfl, rfl, rfl, clearRegs_noConfig _, clearRegs_atRest _, rfl, rfl, rfl, rfl, rfl, rfl⟩

/-! ## The result of the checks (R263) -/

theorem checkCfg_eq_dup {c : Cfg} : checkCfg c = .dup ↔ wfUniq c.reg = false := by
  unfold checkCfg
  cases wfUniq c.reg <;> cases wfRest c <;> decide

theorem checkCfg_eq_ok {c : Cfg} : checkCfg c = .ok ↔ wfUniq c.reg = true ∧ wfRest c = true := by
  unfold checkCfg
  cases wfUniq c.reg <;> cases wfRest c <;> decide

theorem checkCfg_eq_bad {c : Cfg} : checkCfg c = .bad ↔ wfUniq c.reg = true ∧ wfRest c = false := by
  unfold checkCfg
  cases wfUniq c.reg <;> cases wfRest c <;> decide

/-- `WF_UNIQ`: entries at different indices differ in identifier or addressing mode. -/
theorem wfUniq_iff {rs : List RegEntry} : wfUniq rs = true ↔
    ∀ (i j : Nat) (ri rj : RegEntry), i ≠ j → rs[i]? = some ri → rs[j]? = some rj → (ri.id, ri.ide) ≠ (rj.id, rj.ide) := by
  rw [wfUniq_iff_nodup, List.nodup_iff_pairwise_ne, List.pairwise_map, List.pairwise_iff_getElem]
  constructor
  · intro h i j ri rj hij hi hj
    obtain ⟨hi', rfl⟩ := List.getElem?_eq_some_iff.mp hi
    obtain ⟨hj', rfl⟩ := List.getElem?_eq_some_iff.mp hj
    rcases Nat.lt_or_gt_of_ne hij with hlt | hlt
    · exact h i j hi' hj' hlt
    · exact (h j i hj' hi' hlt).symm
  · exact fun h i j hi hj hlt => h i j _ _ hlt.ne (List.getElem?_eq_getElem hi) (List.getElem?_eq_getElem hj)

/-- Settles O11: the result names a duplicate before it looks at any other check. -/
theorem checkOrder : Obligations.CheckOrder := by
  intro c
  refine ⟨?_, fun hdup => ?_⟩
  · rw [checkCfg_eq_dup, ← Bool.not_eq_true, wfUniq_iff]
    simp only [ne_eq, Prod.mk.injEq, not_forall, not_not, exists_prop]
  · have huniq : wfUniq c.reg = true := Bool.of_not_eq_false fun h => hdup (checkCfg_eq_dup.mpr h)
    exact ⟨by rw [checkCfg_eq_bad, and_iff_right huniq], by rw [checkCfg_eq_ok, and_iff_right huniq]⟩

/-! ## The rows of the table (R264) -/

section
variable {c : Cfg}

/-- `WF_ID`. -/
theorem wfId_iff : wfId c = true ↔ (∀ r ∈ c.reg, IdFits r.id r.ide) ∧ (∀ e ∈ c.enc, IdFits e.id e.ide) ∧
    ∀ b ∈ c.filt, ∀ x ∈ b.ids, IdFits x.id x.ide := by
  simp only [wfId, Bool.and_eq_true, List.all_eq_true, idFits_iff, and_assoc]

/-- `WF_RELOAD`. -/
theorem wfReload_iff : wfReload c = true ↔
    ∀ r ∈ c.reg, r.reload = -1 ∨ (0 ≤ r.reload ∧ r.reload ≤ 2 ^ (c.cntW - 1) - 1) := by
  simp only [wfReload, List.all_eq_true, Bool.or_eq_true, beq_iff_eq, Bool.and_eq_true, decide_eq_true_eq]
  exact Iff.rfl

/-- `WF_HADDR`. -/
theorem wfHaddr_iff : wfHaddr c = true ↔ (∀ r ∈ c.reg, r.decAddr < c.uc.length ∧ r.toAddr < c.uc.length) ∧
    ∀ e ∈ c.enc, e.base < c.uc.length := by
  simp only [wfHaddr, Bool.and_eq_true, List.all_eq_true, decide_eq_true_eq]

/-- `WF_DLC`. -/
theorem wfDlc_iff : wfDlc c = true ↔ ∀ e ∈ c.enc, e.dlc ≤ 8 := by
  simp only [wfDlc, List.all_eq_true, decide_eq_true_eq]

/-- Periods rise from above `lo` where `lo` and the periods are a rising chain. -/
theorem risingFrom_iff_isChain : ∀ (lo : Nat) (bs : List Bucket),
    risingFrom lo bs = true ↔ List.IsChain (· < ·) (lo :: bs.map Bucket.per)
  | _, [] => by simp [risingFrom]
  | lo, b :: bs => by
    rw [risingFrom, Bool.and_eq_true, decide_eq_true_eq, risingFrom_iff_isChain b.per bs, List.map_cons,
      List.isChain_cons_cons]

/-- Periods rise from above 0 where each is positive and each is less than the next. -/
theorem risingFrom_zero_iff {bs : List Bucket} : risingFrom 0 bs = true ↔ (∀ b ∈ bs, 1 ≤ b.per) ∧
    ∀ (n : Nat) (b b' : Bucket), bs[n]? = some b → bs[n + 1]? = some b' → b.per < b'.per := by
  rw [risingFrom_iff_isChain]
  constructor
  · intro h
    refine ⟨fun b hb => ?_, fun n b b' hb hb' => ?_⟩
    · have hpos := (List.pairwise_cons.mp (List.isChain_iff_pairwise.mp h)).1
      exact hpos b.per (List.mem_map_of_mem hb)
    · obtain ⟨hn, rfl⟩ := List.getElem?_eq_some_iff.mp hb
      obtain ⟨hn', rfl⟩ := List.getElem?_eq_some_iff.mp hb'
      have := List.isChain_iff_getElem.mp h (n + 1) (by simpa using hn')
      simpa using this
  · rintro ⟨hpos, hrise⟩
    refine List.isChain_iff_getElem.mpr fun n hn => ?_
    cases n with
    | zero => simpa using Nat.lt_of_succ_le (hpos _ (List.getElem_mem _))
    | succ n => simpa using hrise n _ _ (List.getElem?_eq_getElem _) (List.getElem?_eq_getElem _)

/-- `WF_PER`. -/
theorem wfPer_iff : wfPer c = true ↔ (∀ b ∈ c.bkt, 1 ≤ b.per ∧ b.per < c.tickMod) ∧
    ∀ (n : Nat) (b b' : Bucket), c.bkt[n]? = some b → c.bkt[n + 1]? = some b' → b.per < b'.per := by
  simp only [wfPer, Bool.and_eq_true, risingFrom_zero_iff, List.all_eq_true, decide_eq_true_eq, forall_and]
  exact and_right_comm

/-- `WF_LIST`. -/
theorem wfList_iff : wfList c = true ↔ ∀ b ∈ c.bkt, ∀ e ∈ b.list, e < c.enc.length := by
  simp only [wfList, List.all_eq_true, decide_eq_true_eq]

/-- `WF_POOL`. -/
theorem wfPool_iff : wfPool c = true ↔ ∀ p ∈ c.cpool, p.den ≠ 0 := by
  simp only [wfPool, List.all_eq_true, bne_iff_ne]

theorem candFits_iff {x : Cand} :
    candFits c x = true ↔ x.cidx.toNat < c.cpool.length ∧ keyType c.ktype x.key ≠ none := by
  simp only [candFits, Bool.and_eq_true, decide_eq_true_eq, Option.isSome_iff_ne_none]

/-- `WF_CATT`. -/
theorem wfCatt_iff : wfCatt c = true ↔
    ∀ t ∈ c.catt, ∀ x ∈ t.dflt :: t.cand, x.cidx.toNat < c.cpool.length ∧ keyType c.ktype x.key ≠ none := by
  simp only [wfCatt, List.all_eq_true, Bool.and_eq_true, candFits_iff, List.forall_mem_cons]
  exact forall₂_congr fun _ _ => and_comm

/-- `WF_UCT`. -/
theorem wfUct_iff : wfUct c = true ↔
    ∀ u ∈ c.uct, u.c0.toNat < c.cpool.length ∧ u.c1.toNat < c.cpool.length := by
  simp only [wfUct, List.all_eq_true, Bool.and_eq_true, decide_eq_true_eq]

/-- `WF_PARAM`. -/
theorem wfParam_iff : wfParam c = true ↔ 2 ≤ c.cntW ∧ 2 ≤ c.tickMod ∧ c.uc.length ≤ 65536 := by
  simp only [wfParam, Bool.and_eq_true, decide_eq_true_eq, and_assoc]

end

/-- Settles O12: row by row, each check says its row. -/
theorem tableChecksMeaning : Obligations.TableChecksMeaning := by
  intro c
  simp only [checkCfg_eq_ok, wfRest, Bool.and_eq_true, wfUniq_iff, wfId_iff, wfReload_iff, wfHaddr_iff, wfDlc_iff, wfPer_iff,
    wfList_iff, wfPool_iff, wfCatt_iff, wfUct_iff, wfParam_iff]
  constructor
  · rintro ⟨uniq, ⟨⟨⟨⟨⟨⟨⟨⟨⟨⟨⟨regId, encId, filtId⟩, reload⟩, regAddr, encAddr⟩, dlc⟩, per, rising⟩, list⟩, pool⟩, catt⟩, uct⟩,
      param⟩, handlers⟩⟩
    exact ⟨⟨uniq, regId, encId, filtId, reload, regAddr, encAddr, dlc, per, rising, list, pool, catt, uct, param⟩, handlers⟩
  · rintro ⟨⟨uniq, regId, encId, filtId, reload, regAddr, encAddr, dlc, per, rising, list, pool, catt, uct, param⟩, handlers⟩
    exact ⟨uniq, ⟨⟨⟨⟨⟨⟨⟨⟨⟨⟨⟨regId, encId, filtId⟩, reload⟩, regAddr, encAddr⟩, dlc⟩, per, rising⟩, list⟩, pool⟩, catt⟩, uct⟩,
      param⟩, handlers⟩⟩

end Sys2Proof.Machine
end

section
/-! SUPPORT. What a TICK of a checked configuration can answer (45_engine_tick.md R265, 60_exceptions.md R290): DRAIN and SUPERVISE
complete, and every outcome of SCHED is one that the encode handlers it runs can have. -/

namespace Sys2Proof.Machine

theorem SpecOutcome.andThen {c : Cfg} {o : Out} {k : State → Out} (h : SpecOutcome c o)
    (hk : ∀ t, o = .next t → SpecOutcome c (k t)) : SpecOutcome c (andThen o k) := by
  cases o with
  | next t => exact hk t rfl
  | fault r => exact h
  | refused r => exact h

theorem RunOutcome.specOutcome {c : Cfg} {k : HandlerKind} {is : List Instr} {o : Out} (h : RunOutcome c k is o) :
    SpecOutcome c o := by
  cases o with
  | next t => trivial
  | refused r => exact h
  | fault r =>
    cases r with
    | range e u => trivial
    | packOverflow e u => exact h.2
    | _ => exact h

/-- What the operations of a TICK find: a checked configuration with its arrays, and a signal bus that keeps its types. -/
structure Admitted (c : Cfg) (s : State) : Prop where
  ready : Ready c s
  typed : BusTyped c s.sb

theorem Admitted.of_same {c : Cfg} {s t : State} (h : Admitted c s) (hr : Ready c t) (hb : t.sb = s.sb) : Admitted c t :=
  ⟨hr, hb ▸ h.typed⟩

/-- An operation that follows the recorded sets keeps the types of the signal bus. -/
theorem Admitted.of_frames {c : Cfg} {i : Instr} {s t : State} (h : Admitted c s) (hf : OpFrame c i s t)
    (hb : BusFrame s t) : Admitted c t :=
  ⟨hf.ready, hb.typed c h.ready.held h.ready.checked h.typed⟩

theorem Admitted.enter {c : Cfg} {s : State} (h : Admitted c s) (p : Phase) : Admitted c (s.enter p) :=
  h.of_same (h.ready.enter p) rfl

/-! ## The scheduler (44_scheduler.md R240, R242) -/

theorem execEncode_outcome {c : Cfg} {s : State} {e : Nat} {en : EncEntry} (hs : Admitted c s) (hl : Listed c s e en) :
    SpecOutcome c (execEncode s) := by
  have tables := tablesOk hs.ready.checked
  have hmem := List.mem_of_getElem? hl.entry
  obtain ⟨is, hchecked⟩ := checked_of_wfHandler (tables.encode en hmem)
  have start : Ready c (s.encoding e) := hs.ready.of_eq rfl rfl rfl rfl
  have hrun := runHandler_outcome tables hchecked (tables.dlc en hmem)
    ⟨start.held, nofun, fun _ => ⟨e, en, rfl, hl.entry, rfl⟩, fun _ => start.arrays, fun _ => hs.typed⟩
  rw [execEncode_of hl]
  exact hrun.specOutcome.andThen fun _ _ => trivial

/-- The loop of BUCKET over the last n positions of the list. -/
theorem bucketLoop_outcome {c : Cfg} {b : Nat} {bk : Bucket} (hbk : c.bkt[b]? = some bk) : ∀ (n j : Nat) {s : State},
    Admitted c s → s.idxB = some b → j + n = bk.list.length → SpecOutcome c (bucketLoop n j s)
  | 0, _, _, _, _, _ => trivial
  | n + 1, j, s, hs, hb, hlen => by
    have selected : Admitted c { s with idxJ := some j } := hs.of_same (hs.ready.of_eq rfl rfl rfl rfl) rfl
    have hj : bk.list[j]? = some bk.list[j] := List.getElem?_eq_getElem (by omega)
    obtain ⟨en, hlisted⟩ := selected.ready.listed hb hbk rfl hj
    refine (execEncode_outcome selected hlisted).andThen fun s₁ hencode => ?_
    have frame := execEncode_opFrame selected.ready hencode
    have encoded := selected.of_frames frame (execEncode_busFrame hencode)
    exact bucketLoop_outcome hbk n (j + 1) (encoded.enter .bucket) ((frame.only .b rfl).trans hb) (by omega)

theorem execBucket_outcome {c : Cfg} {s : State} {b : Nat} {bk : Bucket} (hs : Admitted c s) (hb : s.idxB = some b)
    (hbk : c.bkt[b]? = some bk) : SpecOutcome c (execBucket s) := by
  simp only [execBucket, hs.ready.held, hb, need_of_some, index_of_some hbk]
  exact bucketLoop_outcome hbk bk.list.length 0 (hs.enter .bucket) hb (Nat.zero_add _)

/-- The loop of SCHED over the buckets from index b on. -/
theorem schedLoop_outcome {c : Cfg} : ∀ (bks : List Bucket) (b : Nat) {s : State}, Admitted c s → c.bkt.drop b = bks →
    SpecOutcome c (schedLoop bks b s)
  | [], _, _, _, _ => trivial
  | bk :: bks, b, s, hs, hdrop => by
    have hbk : c.bkt[b]? = some bk := by rw [← List.head?_drop, hdrop, List.head?_cons]
    have hrest : c.bkt.drop (b + 1) = bks := by rw [← List.tail_drop, hdrop, List.tail_cons]
    have selected : Admitted c { s with idxB := some b } := hs.of_same (hs.ready.of_eq rfl rfl rfl rfl) rfl
    rw [schedLoop]
    split
    · refine (execBucket_outcome selected rfl hbk).andThen fun s₁ hbucket => ?_
      have ran := selected.of_frames (execBucket_opFrame selected.ready hbucket) (execBucket_busFrame hbucket)
      exact schedLoop_outcome bks (b + 1) (ran.enter .sched) hrest
    · exact schedLoop_outcome bks (b + 1) selected hrest

theorem execSched_outcome {c : Cfg} {s : State} (hs : Admitted c s) : SpecOutcome c (execSched s) := by
  rw [execSched_of hs.ready.held]
  exact schedLoop_outcome c.bkt 0 (hs.of_same (hs.ready.of_eq rfl rfl rfl rfl) rfl) List.drop_zero

/-! ## TICK (45_engine_tick.md R268) -/

/-- Settles O16: DRAIN and SUPERVISE complete and keep what SCHED relies on, whose outcomes are those of encode handlers. -/
theorem checkedTickOutcome : Obligations.CheckedTickOutcome := by
  intro c s hr hrun hb
  have start : Admitted c s.newOp := ⟨hr.of_eq rfl rfl rfl rfl, hb⟩
  obtain ⟨s₁, _, hdrain, _⟩ := (receiveCompletes c s.newOp start.ready).1
  have drained := start.of_frames (execDrain_opFrame start.ready hdrain) (execDrain_busFrame hdrain)
  obtain ⟨l, hl, _⟩ := drained.ready.arrays.cnt
  obtain ⟨s₂, _, hsup, _⟩ := supervisePass c s₁ l drained.ready hl
  have supervised := drained.of_frames (execSupervise_opFrame drained.ready hsup) (execSupervise_busFrame hsup)
  have htick : exec .tick s = andThen (execSched s₂) fun s₃ => .next (s₃.enter .idle) := by
    have hdrain : execDrain s.newOp = .next s₁ := hdrain
    have hsup : execSupervise s₁ = .next s₂ := hsup
    rw [exec, execTick, if_pos hrun, onTypedBus_of hr.held hb, hdrain, andThen_of_next, hsup, andThen_of_next]
  rw [htick]
  exact (execSched_outcome supervised).andThen fun _ _ => trivial

end Sys2Proof.Machine
end

section
/-! SUPPORT. What the checks of a handler say (45_engine_tick.md R265): the scan as the words it decodes, each check as the row of
the table it is named after. -/

namespace Sys2Proof.Machine

/-! ## The scan (`WF_TERM`, `WF_LEGAL`) -/

theorem isTerminator_iff {k : HandlerKind} {i : Instr} :
    isTerminator k i = true ↔ i = if k = .encode then .send else .end_ := by
  cases k <;> simp [isTerminator]

theorem terminator_cases {k : HandlerKind} {i : Instr} (h : isTerminator k i = true) : i = .send ∨ i = .end_ := by
  rw [isTerminator_iff] at h
  split at h
  · exact .inl h
  · exact .inr h

/-- A terminator reads neither `A` nor `V`, and is no LENCHK. -/
theorem terminator_reads_nothing {k : HandlerKind} {i : Instr} (h : isTerminator k i = true) :
    readsA i = false ∧ readsV i = false ∧ isLenchk i = false := by
  rcases terminator_cases h with rfl | rfl <;> exact ⟨rfl, rfl, rfl⟩

/-- Among the instructions a kind admits, its terminator is the only one of the two. -/
theorem isTerminator_eq_false_iff {k : HandlerKind} {i : Instr} (hk : kindAdmits k i = true) :
    isTerminator k i = false ↔ i ≠ .send ∧ i ≠ .end_ := by
  rw [← Bool.not_eq_true, isTerminator_iff]
  by_cases he : k = .encode
  · have hend : i ≠ .end_ := by
      rintro rfl
      rw [he] at hk
      cases hk
    rw [if_pos he, and_iff_left hend]
  · have hsend : i ≠ .send := by
      rintro rfl
      exact he (beq_iff_eq.mp hk)
    rw [if_neg he, and_iff_right hsend]

/-- The words begin with those of these instructions. -/
def Decodes (ws : List Word) (is : List Instr) : Prop :=
  ∀ (n : Nat) (i : Instr), is[n]? = some i → ∃ w, ws[n]? = some w ∧ decodeMicro w = .ok i

theorem decodes_nil (ws : List Word) : Decodes ws [] := nofun

theorem not_decodes_nil_cons (i : Instr) (is : List Instr) : ¬Decodes [] (i :: is) := fun h => by
  obtain ⟨w, hw, _⟩ := h 0 i rfl
  cases hw

theorem decodes_cons {w : Word} {ws : List Word} {i : Instr} {is : List Instr} :
    Decodes (w :: ws) (i :: is) ↔ decodeMicro w = .ok i ∧ Decodes ws is := by
  constructor
  · intro h
    refine ⟨?_, fun n => h (n + 1)⟩
    obtain ⟨_, ⟨⟩, hd⟩ := h 0 i rfl
    exact hd
  · rintro ⟨hd, hrest⟩ n j hj
    cases n with
    | zero => exact ⟨w, rfl, Option.some.inj hj ▸ hd⟩
    | succ n => exact hrest n j hj

/-- The scan of these words is `is` and the terminator `z` (45_engine_tick.md R265). -/
structure ScanOf (k : HandlerKind) (ws : List Word) (is : List Instr) (z : Instr) : Prop where
  ends : isTerminator k z = true
  inner : ∀ i ∈ is, isTerminator k i = false
  decodes : Decodes ws (is ++ [z])

theorem scanOf_of_scanWords {k : HandlerKind} : ∀ {ws : List Word} {js : List Instr}, scanWords k ws = some js →
    ∃ is z, js = is ++ [z] ∧ ScanOf k ws is z
  | [], _, h => by cases h
  | w :: ws, js, h => by
    rw [scanWords] at h
    split at h
    · cases h
    · rename_i i hd
      split at h
      · rename_i hz
        exact ⟨[], i, (Option.some.inj h).symm, hz, nofun, decodes_cons.mpr ⟨hd, decodes_nil ws⟩⟩
      · rename_i hi
        obtain ⟨js, hjs, rfl⟩ := Option.map_eq_some_iff.mp h
        obtain ⟨is, z, rfl, hz, hinner, hdec⟩ := scanOf_of_scanWords hjs
        exact ⟨i :: is, z, rfl, hz, List.forall_mem_cons.mpr ⟨Bool.eq_false_of_not_eq_true hi, hinner⟩,
          decodes_cons.mpr ⟨hd, hdec⟩⟩

theorem ScanOf.scanWords {k : HandlerKind} {z : Instr} : ∀ {ws : List Word} {is : List Instr}, ScanOf k ws is z →
    scanWords k ws = some (is ++ [z])
  | [], [], h => absurd h.decodes (not_decodes_nil_cons _ _)
  | [], _ :: _, h => absurd h.decodes (not_decodes_nil_cons _ _)
  | w :: ws, [], h => by
    obtain ⟨hd, _⟩ := decodes_cons.mp h.decodes
    simp only [Machine.scanWords, hd, h.ends, if_true, List.nil_append]
  | w :: ws, i :: is, h => by
    obtain ⟨hd, hdec⟩ := decodes_cons.mp h.decodes
    obtain ⟨hi, hinner⟩ := List.forall_mem_cons.mp h.inner
    have ih := ScanOf.scanWords ⟨h.ends, hinner, hdec⟩
    simp only [Machine.scanWords, hd, hi, ih, Bool.false_eq_true, if_false, Option.map_some, List.cons_append]

/-! ## `WF_LENFIRST` -/

section
variable {is : List Instr} {z : Instr}

theorem wfLenFirst_decode_iff (hz : isLenchk z = false) :
    wfLenFirst .decode (is ++ [z]) = true ↔ ∃ n rest, is = .lenchk n :: rest ∧ ∀ i ∈ rest, isLenchk i = false := by
  cases is with
  | nil => simp [wfLenFirst, hz]
  | cons i rest =>
    have hi : isLenchk i = true ↔ ∃ n, i = .lenchk n := by cases i <;> simp [isLenchk]
    simp [wfLenFirst, hz, hi, and_assoc]

theorem wfLenFirst_other_iff {k : HandlerKind} (hk : k ≠ .decode) (hz : isLenchk z = false) :
    wfLenFirst k (is ++ [z]) = true ↔ ∀ i ∈ is, isLenchk i = false := by
  cases k with
  | decode => exact absurd rfl hk
  | timeout => simp [wfLenFirst, hz]
  | encode => simp [wfLenFirst, hz]

end

/-! ## `WF_DEFUSE` -/

/-- Every instruction that reads a register follows one that writes it, unless the register is written already (`w`). -/
def WrittenBeforeRead (reads writes : Instr → Bool) (w : Bool) (is : List Instr) : Prop :=
  ∀ (n : Nat) (i : Instr), is[n]? = some i → reads i = true →
    w = true ∨ ∃ m j, m < n ∧ is[m]? = some j ∧ writes j = true

theorem writtenBeforeRead_cons {reads writes : Instr → Bool} {w : Bool} {i : Instr} {is : List Instr} :
    WrittenBeforeRead reads writes w (i :: is) ↔
      (reads i = true → w = true) ∧ WrittenBeforeRead reads writes (w || writes i) is := by
  constructor
  · intro h
    refine ⟨fun hr => ?_, fun n j hj hr => ?_⟩
    · exact (h 0 i rfl hr).resolve_right fun ⟨m, _, hm, _⟩ => Nat.not_lt_zero m hm
    · rcases h (n + 1) j hj hr with hw | ⟨m, x, hm, hx, hw⟩
      · exact .inl (by rw [hw, Bool.true_or])
      · cases m with
        | zero => exact .inl (by rw [Option.some.inj hx, hw, Bool.or_true])
        | succ m => exact .inr ⟨m, x, Nat.lt_of_succ_lt_succ hm, hx, hw⟩
  · rintro ⟨hfirst, hrest⟩ n j hj hr
    cases n with
    | zero => exact .inl (hfirst (Option.some.inj hj ▸ hr))
    | succ n =>
      rcases hrest n j hj hr with hw | ⟨m, x, hm, hx, hw⟩
      · rcases Bool.or_eq_true_iff.mp hw with hw | hw
        · exact .inl hw
        · exact .inr ⟨0, i, Nat.succ_pos n, rfl, hw⟩
      · exact .inr ⟨m + 1, x, Nat.succ_lt_succ hm, hx, hw⟩

theorem wfDefUse_iff : ∀ (is : List Instr) (a v : Bool), wfDefUse a v is = true ↔
    WrittenBeforeRead readsA writesA a is ∧ WrittenBeforeRead readsV writesV v is
  | [], _, _ => ⟨fun _ => ⟨nofun, nofun⟩, fun _ => rfl⟩
  | i :: is, a, v => by
    have himp (r w : Bool) : (!r || w) = true ↔ (r = true → w = true) := by cases r <;> simp
    rw [wfDefUse, Bool.and_eq_true, Bool.and_eq_true, himp, himp, wfDefUse_iff is, writtenBeforeRead_cons,
      writtenBeforeRead_cons]
    exact and_and_and_comm

/-- A last instruction that reads neither register adds nothing to the check. -/
theorem wfDefUse_append {z : Instr} (ha : readsA z = false) (hv : readsV z = false) : ∀ (is : List Instr) (a v : Bool),
    wfDefUse a v (is ++ [z]) = wfDefUse a v is
  | [], _, _ => by simp [wfDefUse, ha, hv]
  | i :: is, a, v => by rw [List.cons_append, wfDefUse, wfDefUse, wfDefUse_append ha hv is]

/-! ## The rows that speak of one instruction at a time -/

section
variable {c : Cfg} {is : List Instr}

/-- `WF_FIELD`. -/
theorem wfField_rows {len : Nat} : (∀ i ∈ is, wfField len i = true) ↔
    (∀ b n s w, .unpku b n s w ∈ is ∨ .unpks b n s w ∈ is ∨ .packu b n s w ∈ is ∨ .packs b n s w ∈ is →
      s.toNat + (w.toNat + 1) ≤ 8 * (n.toNat + 1) ∧ b.toNat + (n.toNat + 1) ≤ len) ∧
    (∀ b n s w, .unpku b n s w ∈ is ∨ .packu b n s w ∈ is → w.toNat + 1 ≤ 63) ∧
    ∀ b x, .flgget b x ∈ is ∨ .flgput b x ∈ is ∨ (∃ r, .roll r b x ∈ is) → b.toNat < len := by
  constructor
  · intro h
    refine ⟨fun b n s w hi => ?_, fun b n s w hi => ?_, fun b x hi => ?_⟩
    · rcases hi with hi | hi | hi | hi <;> have hf := h _ hi <;>
        simp only [wfField, Bool.and_eq_true, decide_eq_true_eq] at hf <;> omega
    · rcases hi with hi | hi <;> have hf := h _ hi <;>
        simp only [wfField, Bool.and_eq_true, decide_eq_true_eq] at hf <;> omega
    · rcases hi with hi | hi | ⟨r, hi⟩ <;> exact decide_eq_true_iff.mp (h _ hi)
  · rintro ⟨hfield, hunsigned, hbyte⟩ i hi
    cases i with
    | unpku b n s w =>
      simp only [wfField, Bool.and_eq_true, decide_eq_true_eq]
      exact ⟨hfield b n s w (.inl hi), hunsigned b n s w (.inl hi)⟩
    | unpks b n s w =>
      simp only [wfField, Bool.and_eq_true, decide_eq_true_eq]
      exact hfield b n s w (.inr (.inl hi))
    | packu b n s w =>
      simp only [wfField, Bool.and_eq_true, decide_eq_true_eq]
      exact ⟨hfield b n s w (.inr (.inr (.inl hi))), hunsigned b n s w (.inr hi)⟩
    | packs b n s w =>
      simp only [wfField, Bool.and_eq_true, decide_eq_true_eq]
      exact hfield b n s w (.inr (.inr (.inr hi)))
    | flgget b x => exact decide_eq_true (hbyte b x (.inl hi))
    | flgput b x => exact decide_eq_true (hbyte b x (.inr (.inl hi)))
    | roll r b x => exact decide_eq_true (hbyte b x (.inr (.inr ⟨r, hi⟩)))
    | _ => rfl

theorem constNonzero_iff {n : BitVec 16} : constNonzero c n = true ↔
    n.toNat < c.cpool.length ∧ ∀ p, c.cpool[n.toNat]? = some p → p.num ≠ 0 := by
  unfold constNonzero
  cases hp : c.cpool[n.toNat]? with
  | some p =>
    have hlt := (List.getElem?_eq_some_iff.mp hp).1
    simp [hlt]
  | none =>
    have hge := List.getElem?_eq_none_iff.mp hp
    simp [hge]

/-- `WF_CONST`. -/
theorem wfConst_rows : (∀ i ∈ is, wfConst c i = true) ↔
    (∀ n, .scdiv n ∈ is ∨ .scmul n ∈ is ∨ .ldvc n ∈ is ∨ .encmul n ∈ is ∨ .encdiv n ∈ is → n.toNat < c.cpool.length) ∧
    ∀ n p, .scdiv n ∈ is ∨ .encdiv n ∈ is → c.cpool[n.toNat]? = some p → p.num ≠ 0 := by
  constructor
  · intro h
    refine ⟨fun n hi => ?_, fun n p hi => ?_⟩
    · rcases hi with hi | hi | hi | hi | hi
      · exact (constNonzero_iff.mp (h _ hi)).1
      · exact decide_eq_true_iff.mp (h _ hi)
      · exact decide_eq_true_iff.mp (h _ hi)
      · exact decide_eq_true_iff.mp (h _ hi)
      · exact (constNonzero_iff.mp (h _ hi)).1
    · rcases hi with hi | hi <;> exact (constNonzero_iff.mp (h _ hi)).2 p
  · rintro ⟨hconst, hdivisor⟩ i hi
    cases i with
    | scdiv n => exact constNonzero_iff.mpr ⟨hconst n (.inl hi), fun p => hdivisor n p (.inl hi)⟩
    | scmul n => exact decide_eq_true (hconst n (.inr (.inl hi)))
    | ldvc n => exact decide_eq_true (hconst n (.inr (.inr (.inl hi))))
    | encmul n => exact decide_eq_true (hconst n (.inr (.inr (.inr (.inl hi)))))
    | encdiv n => exact constNonzero_iff.mpr ⟨hconst n (.inr (.inr (.inr (.inr hi)))), fun p => hdivisor n p (.inr hi)⟩
    | _ => rfl

/-- `WF_KEY`. -/
theorem wfKey_rows : (∀ i ∈ is, wfKey c i = true) ↔
    (∀ key, .sbsetv key ∈ is → keyType c.ktype key = some .real) ∧
    (∀ key, .sbseta key ∈ is ∨ .stclr key ∈ is ∨ .stset key ∈ is ∨ .sbgeta key ∈ is ∨ (∃ n, .catsel key n ∈ is) ∨
      (∃ n, .uconv key n ∈ is) → keyType c.ktype key = some .int) ∧
    ∀ key, .sbgetv key ∈ is → keyType c.ktype key ≠ none := by
  constructor
  · intro h
    refine ⟨fun key hi => beq_iff_eq.mp (h _ hi), fun key hi => ?_, fun key hi => Option.isSome_iff_ne_none.mp (h _ hi)⟩
    rcases hi with hi | hi | hi | hi | ⟨n, hi⟩ | ⟨n, hi⟩ <;> exact beq_iff_eq.mp (h _ hi)
  · rintro ⟨hreal, hint, hany⟩ i hi
    cases i with
    | sbsetv key => exact beq_iff_eq.mpr (hreal key hi)
    | sbseta key => exact beq_iff_eq.mpr (hint key (.inl hi))
    | stclr key => exact beq_iff_eq.mpr (hint key (.inr (.inl hi)))
    | stset key => exact beq_iff_eq.mpr (hint key (.inr (.inr (.inl hi))))
    | sbgeta key => exact beq_iff_eq.mpr (hint key (.inr (.inr (.inr (.inl hi)))))
    | catsel key n => exact beq_iff_eq.mpr (hint key (.inr (.inr (.inr (.inr (.inl ⟨n, hi⟩))))))
    | uconv key n => exact beq_iff_eq.mpr (hint key (.inr (.inr (.inr (.inr (.inr ⟨n, hi⟩))))))
    | sbgetv key => exact Option.isSome_iff_ne_none.mpr (hany key hi)
    | _ => rfl

/-- `WF_TABLE`. -/
theorem wfTable_rows : (∀ i ∈ is, wfTable c i = true) ↔
    (∀ key n, .catsel key n ∈ is → n.toNat < c.catt.length) ∧
    (∀ key n, .uconv key n ∈ is → n.toNat < c.uct.length) ∧
    ∀ r b x, .roll r b x ∈ is → r.toNat < c.nRoll := by
  constructor
  · intro h
    exact ⟨fun _ _ hi => decide_eq_true_iff.mp (h _ hi), fun _ _ hi => decide_eq_true_iff.mp (h _ hi),
      fun _ _ _ hi => decide_eq_true_iff.mp (h _ hi)⟩
  · rintro ⟨hcat, hunit, hroll⟩ i hi
    cases i with
    | catsel key n => exact decide_eq_true (hcat key n hi)
    | uconv key n => exact decide_eq_true (hunit key n hi)
    | roll r b x => exact decide_eq_true (hroll r b x hi)
    | _ => rfl

end

/-- The checks of single instructions, one check after another. -/
theorem wfInstr_rows {c : Cfg} {k : HandlerKind} {len : Nat} {is : List Instr} : (∀ i ∈ is, wfInstr c k len i = true) ↔
    (∀ i ∈ is, kindAdmits k i = true) ∧ (∀ i ∈ is, wfField len i = true) ∧ (∀ i ∈ is, wfConst c i = true) ∧
      (∀ i ∈ is, wfKey c i = true) ∧ ∀ i ∈ is, wfTable c i = true := by
  simp only [wfInstr, Bool.and_eq_true, imp_and, forall_and, and_assoc]

theorem kindAdmits_terminator {k : HandlerKind} {z : Instr} (hz : isTerminator k z = true) : kindAdmits k z = true := by
  rw [isTerminator_iff.mp hz]
  cases k <;> rfl

/-- The terminator of a kind passes every check of a single instruction, whatever L is. -/
theorem wfInstr_terminator {c : Cfg} {k : HandlerKind} {len : Nat} {z : Instr} (hz : isTerminator k z = true) :
    wfInstr c k len z = true := by
  rw [isTerminator_iff.mp hz]
  cases k <;> rfl

/-- No instruction of a timeout handler names a byte, so it has no L to keep to (42_codec_decode.md R171). -/
theorem wfField_of_timeout {len : Nat} {i : Instr} (hk : kindAdmits .timeout i = true) : wfField len i = true := by
  cases i <;> first | rfl | cases hk

/-! ## All checks of a handler -/

/-- What the checks of a handler say of its scan: those of each instruction, which its terminator passes anyway. -/
theorem wfHandler_iff {c : Cfg} {k : HandlerKind} {dlc base : Nat} : wfHandler c k dlc base = true ↔
    ∃ is z, ScanOf k (c.uc.drop base) is z ∧ wfLenFirst k (is ++ [z]) = true ∧ wfDefUse false false is = true ∧
      ∀ i ∈ is, wfInstr c k (handlerLen k dlc (is ++ [z])) i = true := by
  constructor
  · intro h
    obtain ⟨js, hscan, hlen, huse, heach⟩ := checked_of_wfHandler h
    obtain ⟨is, z, rfl, hs⟩ := scanOf_of_scanWords hscan
    obtain ⟨ha, hv, _⟩ := terminator_reads_nothing hs.ends
    rw [wfDefUse_append ha hv] at huse
    exact ⟨is, z, hs, hlen, huse, fun i hi => heach i (List.mem_append_left _ hi)⟩
  · rintro ⟨is, z, hs, hlen, huse, heach⟩
    obtain ⟨ha, hv, _⟩ := terminator_reads_nothing hs.ends
    have hall : ∀ i ∈ is ++ [z], wfInstr c k (handlerLen k dlc (is ++ [z])) i = true := by
      refine List.forall_mem_append.mpr ⟨heach, fun i hi => ?_⟩
      rw [List.mem_singleton.mp hi]
      exact wfInstr_terminator hs.ends
    simp only [wfHandler, scanHandler, hs.scanWords, hlen, wfDefUse_append ha hv, huse, Bool.true_and, List.all_eq_true]
    exact hall

theorem decodes_drop_iff {c : Cfg} {base : Nat} {is : List Instr} {z : Instr} :
    Decodes (c.uc.drop base) (is ++ [z]) ↔
      ∀ (n : Nat) (i : Instr), (is ++ [z])[n]? = some i → ∃ w, c.uc[base + n]? = some w ∧ decodeMicro w = .ok i := by
  simp only [Decodes, List.getElem?_drop]

/-- What a handler that passes its checks gives: the rows, of its scan and of the L the checks take. -/
theorem handlerChecks_of_scan {c : Cfg} {k : HandlerKind} {dlc base : Nat} {is : List Instr} {z : Instr}
    (hs : ScanOf k (c.uc.drop base) is z) (hlen : wfLenFirst k (is ++ [z]) = true)
    (huse : wfDefUse false false is = true) (heach : ∀ i ∈ is, wfInstr c k (handlerLen k dlc (is ++ [z])) i = true) :
    HandlerChecks c k dlc base (handlerLen k dlc (is ++ [z])) is z := by
  obtain ⟨_, _, hz⟩ := terminator_reads_nothing hs.ends
  obtain ⟨useA, useV⟩ := (wfDefUse_iff is false false).mp huse
  obtain ⟨hkind, hfield, hconst, hkey, htable⟩ := wfInstr_rows.mp heach
  obtain ⟨field, fieldUnsigned, fieldByte⟩ := wfField_rows.mp hfield
  obtain ⟨const, divisor⟩ := wfConst_rows.mp hconst
  obtain ⟨keyReal, keyInt, keyAny⟩ := wfKey_rows.mp hkey
  obtain ⟨tableCat, tableUnit, tableRoll⟩ := wfTable_rows.mp htable
  exact {
    term := isTerminator_iff.mp hs.ends
    termOnce := fun i hi => (isTerminator_eq_false_iff (hkind i hi)).mp (hs.inner i hi)
    legal := decodes_drop_iff.mp hs.decodes
    kind := List.forall_mem_append.mpr ⟨hkind, List.forall_mem_singleton.mpr (kindAdmits_terminator hs.ends)⟩
    lenFirst := by
      rintro rfl
      obtain ⟨n, rest, rfl, hrest⟩ := (wfLenFirst_decode_iff hz).mp hlen
      exact ⟨n, rest, rfl, rfl, hrest⟩
    lenNone := fun hk => (wfLenFirst_other_iff hk hz).mp hlen
    encLen := by
      rintro rfl
      rfl
    useA := fun n i hi hr => (useA n i hi hr).resolve_left nofun
    useV := fun n i hi hr => (useV n i hi hr).resolve_left nofun
    field, fieldUnsigned, fieldByte, const, divisor, keyReal, keyInt, keyAny, tableCat, tableUnit, tableRoll }

/-- The L of the rows is the one the checks take; a timeout handler has no use for one. -/
theorem HandlerChecks.wfField {c : Cfg} {k : HandlerKind} {dlc base len : Nat} {is : List Instr} {z : Instr}
    (h : HandlerChecks c k dlc base len is z) : ∀ i ∈ is, wfField (handlerLen k dlc (is ++ [z])) i = true := by
  cases k with
  | decode =>
    obtain ⟨n, rest, rfl, hn, _⟩ := h.lenFirst rfl
    obtain rfl := hn
    exact wfField_rows.mpr ⟨h.field, h.fieldUnsigned, h.fieldByte⟩
  | timeout => exact fun i hi => wfField_of_timeout (h.kind i (List.mem_append_left _ hi))
  | encode =>
    obtain rfl := h.encLen rfl
    exact wfField_rows.mpr ⟨h.field, h.fieldUnsigned, h.fieldByte⟩

theorem HandlerChecks.scan {c : Cfg} {k : HandlerKind} {dlc base len : Nat} {is : List Instr} {z : Instr}
    (h : HandlerChecks c k dlc base len is z) : ScanOf k (c.uc.drop base) is z where
  ends := isTerminator_iff.mpr h.term
  inner i hi := (isTerminator_eq_false_iff (h.kind i (List.mem_append_left _ hi))).mpr (h.termOnce i hi)
  decodes := decodes_drop_iff.mpr h.legal

theorem HandlerChecks.wfHandler {c : Cfg} {k : HandlerKind} {dlc base len : Nat} {is : List Instr} {z : Instr}
    (h : HandlerChecks c k dlc base len is z) : wfHandler c k dlc base = true := by
  obtain ⟨_, _, hz⟩ := terminator_reads_nothing h.scan.ends
  obtain ⟨hkind, _⟩ := List.forall_mem_append.mp h.kind
  refine wfHandler_iff.mpr ⟨is, z, h.scan, ?_, ?_, wfInstr_rows.mpr ⟨hkind, h.wfField, ?_, ?_, ?_⟩⟩
  · by_cases hk : k = .decode
    · obtain ⟨n, rest, his, _, hrest⟩ := h.lenFirst hk
      rw [hk]
      exact (wfLenFirst_decode_iff hz).mpr ⟨n, rest, his, hrest⟩
    · exact (wfLenFirst_other_iff hk hz).mpr (h.lenNone hk)
  · exact (wfDefUse_iff is false false).mpr
      ⟨fun n i hi hr => .inr (h.useA n i hi hr), fun n i hi hr => .inr (h.useV n i hi hr)⟩
  · exact wfConst_rows.mpr ⟨h.const, h.divisor⟩
  · exact wfKey_rows.mpr ⟨h.keyReal, h.keyInt, h.keyAny⟩
  · exact wfTable_rows.mpr ⟨h.tableCat, h.tableUnit, h.tableRoll⟩

/-- Settles O13: the checks and the rows give one another, and `wfHandlers` makes them of every `DEC`, `TO` and `BASE`. -/
theorem handlerShape : Obligations.HandlerShape := by
  refine fun c => ⟨fun k dlc base => ⟨fun h => ?_, fun ⟨_, _, _, h⟩ => h.wfHandler⟩, ?_⟩
  · obtain ⟨is, z, hs, hlen, huse, heach⟩ := wfHandler_iff.mp h
    exact ⟨_, is, z, handlerChecks_of_scan hs hlen huse heach⟩
  · simp only [wfHandlers, Bool.and_eq_true, List.all_eq_true]

end Sys2Proof.Machine
end

section
/-! SUPPORT. A frame of wrong length (60_exceptions.md R282, 41_dispatcher.md R156): LENCHK ends the run it begins, so of DISPATCH
only the reload of REARM and the record of the mismatch are left. -/

namespace Sys2Proof.Machine

/-! ## A run whose first instruction ends it (42_codec_decode.md R170) -/

theorem runLoop_of_ended {n : Nat} {s t : State} (h : microStep s = .next t) (hu : t.upc = none) :
    runLoop (n + 1) s = .next t := by
  rw [runLoop, h, andThen_of_next, if_pos hu]

section
variable {c : Cfg} {s : State} {f : Frame} {w : Word} {n : BitVec 16}

/-- A handler whose first word is LENCHK of another length than the frame's: the run records the mismatch and ends (R154). -/
theorem runHandler_of_wrongLength {base : Nat} (k : HandlerKind) (hc : s.cfg = some c) (hf : s.frx = some f)
    (hw : c.uc[base]? = some w) (hd : decodeMicro w = .ok (.lenchk n)) (hne : f.len.val ≠ n.toNat) :
    runHandler k base s = .next (s.raise (.lenmis f.ident.id f.ident.ide f.len.val n.toNat)).endRun := by
  have hlenchk : execMicro (.lenchk n) (s.startRun k base) =
      .next (s.raise (.lenmis f.ident.id f.ident.ide f.len.val n.toNat)).endRun := by
    rw [execMicro, execLenchk_of (s := s.startRun k base) hf, if_neg hne]
    rfl
  have hstep : microStep (s.startRun k base) = _ :=
    fetchMicro_next.mpr ⟨base, c, w, .lenchk n, State.startRun_upc s k base, hc, hw, hd, hlenchk⟩
  exact runHandler_next.mpr ⟨c, hc, runLoop_of_ended hstep rfl⟩

/-! ## DECODE and DISPATCH (R151, R153) -/

theorem execDecode_of_wrongLength {i : Nat} {r : RegEntry} (hc : s.cfg = some c) (hf : s.frx = some f)
    (hhit : s.hit = some (.found i)) (hreg : c.reg[i]? = some r) (hw : c.uc[r.decAddr]? = some w)
    (hd : decodeMicro w = .ok (.lenchk n)) (hne : f.len.val ≠ n.toNat) :
    execDecode s = .next ((s.enter .decode).raise (.lenmis f.ident.id f.ident.ide f.len.val n.toNat)).endRun := by
  simp only [execDecode, needFound_of hhit, hc, need_of_some, index_of_some hreg]
  exact runHandler_of_wrongLength (s := s.enter .decode) .decode hc hf hw hd hne

/-- DISPATCH of a frame of wrong length: the counter of its entry is reloaded, and the handler's run leaves only its record. -/
theorem execDispatch_of_wrongLength {i : Nat} {r : RegEntry} {l : List Int} (hr : Ready c s) (hf : s.frx = some f)
    (hcnt : s.cnt = some l) (hreg : c.reg[i]? = some r) (hmatch : r.matches f = true) (hw : c.uc[r.decAddr]? = some w)
    (hd : decodeMicro w = .ok (.lenchk n)) (hne : f.len.val ≠ n.toNat) :
    execDispatch s =
      .next (State.raise { s with phase := .dispatch, hit := some (.found i), cnt := some (l.set i r.reload) }
        (.lenmis f.ident.id f.ident.ide f.len.val n.toNat)).endRun := by
  have hlookup : c.lookup f = .found i := (lookup_eq_found hr.checked).mpr ⟨r, hreg, hmatch⟩
  have hlt : i < l.length := by
    obtain ⟨l', hl', hlen⟩ := hr.arrays.cnt
    obtain rfl := Option.some.inj (hcnt.symm.trans hl')
    exact hlen ▸ (List.getElem?_eq_some_iff.mp hreg).1
  have hrearm : execRearm { s with phase := .dispatch, hit := some (.found i) } =
      .next { s with phase := .rearm, hit := some (.found i), cnt := some (l.set i r.reload) } :=
    rearmResult c _ i r l rfl hr.held hreg hcnt hlt
  have hdecode := execDecode_of_wrongLength
    (s := { s with phase := .dispatch, hit := some (.found i), cnt := some (l.set i r.reload) }) hr.held hf rfl hreg hw hd hne
  rw [execDispatch_of_found hr.held hf hlookup, hrearm, andThen_of_next]
  exact congrArg (andThen · fun t => .next (t.enter .dispatch)) hdecode

end

/-! ## DRAIN (R150) -/

/-- Settles O25: DISPATCH reloads the counter and records the mismatch; the registers of the run, which its end clears, were clear
before, and so were the frame and the hit, which DRAIN clears. -/
theorem wrongLengthOnlyRearms : Obligations.WrongLengthOnlyRearms := by
  intro c s f fs i r w n l hr hrun hrx hfrx hhit hcnt hreg hid hide hw hd hne
  obtain ⟨ha, hv, hupc, hhk⟩ := hrun
  have taken : Ready c ((s.enter .drain).receive f fs) := hr.of_eq rfl rfl rfl rfl
  have hdispatch := execDispatch_of_wrongLength taken rfl hcnt hreg (RegEntry.matches_iff.mpr ⟨hid, hide⟩) hw hd hne
  have hexec : exec .drain s = drainLoop (f :: fs) (s.enter .drain) := by rw [exec, execDrain, hrx]
  rw [hexec, drainLoop, hdispatch, andThen_of_next]
  show _ = drainLoop fs _
  congr 1
  simp only [State.dropFrame, State.endRun, State.raise, State.log, State.receive, State.enter, ha, hv, hupc, hhk, hfrx, hhit,
    List.append_assoc, List.cons_append, List.nil_append]

end Sys2Proof.Machine
end
